-- ==== Sys2Proof/Word.lean ====
section
/-! DEFINITION. The word types of the VX-4200 (R3, R49) and the plain list helpers the model stands on. -/

namespace Sys2Proof

/-- A byte of memory. -/
abbrev Byte := BitVec 8
/-- A 32-bit element (R28). -/
abbrev W32 := BitVec 32
/-- A 64-bit scalar, address or instruction word (R49, R55). -/
abbrev W64 := BitVec 64
/-- One bit per thread of a TG: the activity mask and its kin (R71, R72). -/
abbrev Mask := BitVec 96

/-- Threads of a thread group (R18). -/
abbrev numThreads : Nat := 96

/-- A row of one value for each of the 96 threads. -/
abbrev Row (α : Type) := List α

/-- The row whose entry for thread `t` is `f t`. -/
def Row.tab {α : Type} (f : Nat → α) : Row α := (List.range numThreads).map f

/-- The entry of thread `t`, or `d` where the row has none. -/
def Row.at {α : Type} (r : Row α) (d : α) (t : Nat) : α := r.getD t d

theorem Row.at_tab {α : Type} (f : Nat → α) (d : α) (t : Nat) (h : t < 96) :
    (Row.tab f).at d t = f t := by
  simp [Row.tab, Row.at, numThreads, h]

/-- The bit of thread `t` in a mask. -/
def Mask.has (m : Mask) (t : Nat) : Bool := m.getLsbD t

/-- The mask of the threads that satisfy `f`. -/
def Mask.of (f : Nat → Bool) : Mask :=
  (List.range numThreads).foldl (fun m t => if f t then m ||| BitVec.ofNat 96 (2 ^ t) else m) 0

/-- The threads of a mask in increasing order. -/
def Mask.threads (m : Mask) : List Nat := (List.range numThreads).filter m.has

/-- The lowest-numbered thread of a mask (R51, R85). -/
def Mask.lowest (m : Mask) : Option Nat := m.threads.head?

end Sys2Proof
end

