-- ==== Sys2Proof/Syntax.lean ====
section
/-! DEFINITION. The instruction set as data: operand specifiers (R55), types (R27), long words (R58), the prefix
word (R62), the named fields of a word (R49, R53), and `Instr`, one constructor per row of the opcode table: the
169 instructions and the 45 steps of other agents that the table lists. -/

namespace Sys2Proof

/-- Type codes 0x00 to 0x10 (R27). -/
inductive Ty where
  | n8 | n16 | n32 | n64 | i8 | i16 | i32 | i64
  | f32 | f16 | bf16 | e4m3 | e5m2 | e8m0 | cb4 | f16x2 | bf16x2
deriving DecidableEq, Repr

/-- Special sources 0xA0 to 0xA8 (R55). -/
inductive Special where
  | tid | lane | beat | tg | crew | core | die | clk | gtime
deriving DecidableEq, Repr

/-- An 8-bit operand specifier (R55). -/
inductive Spec where
  | v (n : BitVec 6)
  | s (n : BitVec 6)
  | m (n : BitVec 4)
  | p (n : BitVec 3)
  | f (n : BitVec 3)
  | special (n : Special)
  /-- 0xBF, the immediate of an IMM32 long word (R59). -/
  | limm
  /-- 0xC0 to 0xFF, a small immediate (R56). -/
  | imm (n : BitVec 6)
  /-- 0xA9 to 0xBE: reserved. -/
  | reserved (n : BitVec 8)
deriving DecidableEq, Repr

/-- The long word of an instruction, if any (R58). -/
inductive Long where
  | none
  | imm32 (v : BitVec 32)
  | callback (coff : BitVec 32)
  | sweep (cnt : BitVec 12) (std sta stb : BitVec 16)
deriving DecidableEq, Repr

/-- The four fields of a prefix word (R62); MEMDEF has the same layout (R64). -/
structure Pfx where
  ord : BitVec 3
  scp : BitVec 3
  spc : BitVec 2
  pol : BitVec 3
deriving DecidableEq, Repr

/-- The fields every first word has (R49): guard, its negation, uniform, safe point; and the long word. -/
structure Hdr where
  g : BitVec 3
  n : Bool
  u : Bool
  safe : Bool
  long : Long
deriving DecidableEq, Repr

/-- The fields of an R-form instruction (R49, R53), with the prefix that stands before it (R62). -/
structure RArgs where
  pfx : Option Pfx
  h : Hdr
  d : Spec
  a : Spec
  b : Spec
  cs : Spec
  x : BitVec 4
  rm : BitVec 3
  ty : Ty
deriving DecidableEq, Repr

/-- The fields of an I-form instruction (R53): the 20-bit immediate is `c`. -/
structure IArgs where
  h : Hdr
  d : Spec
  a : Spec
  b : BitVec 8
  c : BitVec 20
deriving DecidableEq, Repr

/-- A microcode macro (R66, R357): the image checks everything but slot, function and long kind. -/
structure McArgs where
  g : BitVec 3
  n : Bool
  u : Bool
  safe : Bool
  long : Option (BitVec 64)
  slot : BitVec 3
  fn : BitVec 6
  d : BitVec 8
  a : BitVec 8
  b : BitVec 8
  c : BitVec 20
deriving DecidableEq, Repr

/-- What a request from another module asks of a home slice (R407, R408); `ord` is the code of its order in R62, at sys scope. -/
inductive RemoteOp where
  | load (bytes ord : Nat)
  | store (data : List Byte) (ord : Nat)
  /-- Atomic, or red without `ret`: operation X of R182, type, operands b1 and b2. -/
  | rmw (x : BitVec 4) (ty : Ty) (b1 b2 : BitVec 64) (ord : Nat) (ret : Bool)
  | barInit (n : BitVec 16)
  | barArrive
  | barExpect (n : BitVec 32)
  | barWait (phase : BitVec 16)
  | barTest (phase : BitVec 16)
  | barInval
deriving DecidableEq, Repr

/-- The four alarms of R415. -/
inductive Alarm where
  | tamper | glitch | lid | linkTamper
deriving DecidableEq, Repr

/-- Power modes (R10, R412). -/
inductive PowerMode where
  | peak | balanced | cool
deriving DecidableEq, Repr

/-- The arrays whose soft errors the Ralfester counts (R410). -/
inductive ErrArray where
  | regStack | scratchL1 | staging | matrixFile | icache | l2 | futureCache | tlb | hbm
deriving DecidableEq, Repr

/-- What the host driver fixes when it creates a context (R402, R336, R338). -/
structure ContextSpec where
  id : Nat
  /-- The PCI Express function: 0 the PF, 1 + n VF n. -/
  function : Nat
  system : Bool
  seed : BitVec 64
  ftbase : BitVec 64
  ftsize : BitVec 64
  faultmode : Bool
  savebase : BitVec 64
  ptroot : BitVec 64
  tvec : BitVec 64
  /-- Addresses of the descriptors of the context's user queues (R286). -/
  queues : List (BitVec 64)
deriving DecidableEq, Repr

/-- A firmware image as the boot checks see it (R413): measured bytes, version, signature. -/
structure Firmware where
  body : List Byte
  version : Nat
  sig : List Byte
deriving DecidableEq, Repr

/-- One constructor per row of the opcode table. -/
inductive Instr where
  /-- R86. Does nothing; with S set it is a pure safe point. -/
  | nop (f : RArgs)
  /-- R87. Branches per thread to a relative target, diverging when the guard splits the active threads. -/
  | bra (f : IArgs)
  /-- R88. Branches to register targets, running one target group at a time with the rest parked at the brx. -/
  | brx (f : RArgs)
  /-- R89. Checks the window, writes lr with the window step, advances WBASE and jumps to a relative target. -/
  | call (f : IArgs)
  /-- R90. Does what call does, with the target read from a scalar register. -/
  | callx (f : RArgs)
  /-- R91. Returns through a link register, lowering WBASE by the window step encoded in the link. -/
  | ret (f : RArgs)
  /-- R92. Resumes the parked threads of the top reconvergence entry, or pops the entry and restores its mask. -/
  | join (f : RArgs)
  /-- R93. Decrements a scalar counter and branches while it is nonzero. -/
  | loop (f : IArgs)
  /-- R94. Moves the guarded threads into XMASK, drops their future references and retires the TG when no thread is left. -/
  | exit (f : RArgs)
  /-- R99. Integer add, wrapped or saturated to the type width. -/
  | add (f : RArgs)
  /-- R100. Unsigned add with carry in and carry out through predicates. -/
  | addc (f : RArgs)
  /-- R99. Integer subtract, wrapped or saturated. -/
  | sub (f : RArgs)
  /-- R100. Unsigned subtract with borrow in and borrow out through predicates. -/
  | subb (f : RArgs)
  /-- R99. Integer multiply, low w bits. -/
  | mul (f : RArgs)
  /-- R99. Upper w bits of the exact product. -/
  | mulhi (f : RArgs)
  /-- R99. Integer multiply-add, wrapped once. -/
  | mad (f : RArgs)
  /-- R101. Exact multiply-add written at twice the operand width. -/
  | madw (f : RArgs)
  /-- R99. Lesser of two integers, signed or unsigned by type. -/
  | min (f : RArgs)
  /-- R99. Greater of two integers, signed or unsigned by type. -/
  | max (f : RArgs)
  /-- R99. Absolute value of a signed integer, optionally saturated. -/
  | abs (f : RArgs)
  /-- R99. Negation of a signed integer, optionally saturated. -/
  | neg (f : RArgs)
  /-- R102. Bitwise AND. -/
  | and (f : RArgs)
  /-- R102. Bitwise OR. -/
  | or (f : RArgs)
  /-- R102. Bitwise exclusive OR. -/
  | xor (f : RArgs)
  /-- R102. Bitwise complement. -/
  | not (f : RArgs)
  /-- R102. Bitwise a AND NOT b. -/
  | andn (f : RArgs)
  /-- R103. Logical shift left. -/
  | shl (f : RArgs)
  /-- R103. Logical shift right. -/
  | shr (f : RArgs)
  /-- R103. Arithmetic shift right. -/
  | sar (f : RArgs)
  /-- R103. Rotate left by the amount modulo the width. -/
  | rot (f : RArgs)
  /-- R104. Extracts a bit field, sign-extending for signed types. -/
  | bfx (f : RArgs)
  /-- R104. Inserts a bit field into a base value. -/
  | bfi (f : RArgs)
  /-- R105. Counts the set bits. -/
  | popc (f : RArgs)
  /-- R105. Counts the leading zero bits. -/
  | clz (f : RArgs)
  /-- R105. Counts the trailing zero bits. -/
  | ctz (f : RArgs)
  /-- R105. Reverses the bit order. -/
  | brev (f : RArgs)
  /-- R106. Integer compare that writes the condition and its complement to two predicates. -/
  | cmp (f : RArgs)
  /-- R107. Selects between two operands by a predicate bit. -/
  | sel (f : RArgs)
  /-- R108. Copies bits, or transfers a future reference between f registers. -/
  | mov (f : RArgs)
  /-- R108. Sets the upper 32 bits of a 64-bit destination from the long immediate. -/
  | movHi (f : RArgs)
  /-- R109. Writes a 20-bit immediate, sign- or zero-extended. -/
  | movi (f : IArgs)
  /-- R109. Replaces bits [31:12] of the destination with a 20-bit immediate. -/
  | movhi (f : IArgs)
  /-- R110. Forms a 64-bit address from a base and a shifted index. -/
  | lea (f : RArgs)
  /-- R111. Reduces a predicate bit across the TG by the mode in X. -/
  | vote (f : RArgs)
  /-- R112. Gives each thread a value from another thread by idx, up, down or xor. -/
  | shf (f : RArgs)
  /-- R113. Combines predicate bits per byte with one of eight logic functions. -/
  | prd (f : RArgs)
  /-- R114. Moves predicate bits to or from data registers, or spreads one bit. -/
  | prmov (f : RArgs)
  /-- R115. Copies a scalar or immediate into a vector register. -/
  | s2v (f : RArgs)
  /-- R116. Reads one thread's value into a scalar register. -/
  | v2s (f : RArgs)
  /-- R122. Floating add rounded once in the encoded mode. -/
  | fadd (f : RArgs)
  /-- R122. Floating subtract rounded once. -/
  | fsub (f : RArgs)
  /-- R122. Floating multiply rounded once. -/
  | fmul (f : RArgs)
  /-- R122. Fused multiply-add rounded once. -/
  | fma (f : RArgs)
  /-- R123. Returns the lesser operand, with NaN handling set by X[0]. -/
  | fmin (f : RArgs)
  /-- R123. Returns the greater operand, with NaN handling set by X[0]. -/
  | fmax (f : RArgs)
  /-- R124. Floating compare to two predicates, with unordered handling. -/
  | fcmp (f : RArgs)
  /-- R125. Rounds to an integral value in the same format. -/
  | frnd (f : RArgs)
  /-- R126. Multiplies by 2^n and rounds once. -/
  | fscale (f : RArgs)
  /-- R127. Classifies a value into a class word or a masked predicate. -/
  | fclass (f : RArgs)
  /-- R130. Converts between integer and floating formats with rounding and saturation. -/
  | cvt (f : RArgs)
  /-- R131. Rounds FP32 to a narrower format's values and returns it in FP32. -/
  | srnd (f : RArgs)
  /-- R132. Correctly rounded reciprocal. -/
  | rcp (f : RArgs)
  /-- R132. Correctly rounded square root. -/
  | sqrt (f : RArgs)
  /-- R133. Approximate reciprocal square root within 1 ulp. -/
  | rsq (f : RArgs)
  /-- R133. Approximate base-2 exponential. -/
  | ex2 (f : RArgs)
  /-- R133. Approximate base-2 logarithm. -/
  | lg2 (f : RArgs)
  /-- R133. Approximate sine in radians. -/
  | sin (f : RArgs)
  /-- R133. Approximate cosine in radians. -/
  | cos (f : RArgs)
  /-- R135. Packed add on two half-width elements. -/
  | hadd2 (f : RArgs)
  /-- R135. Packed multiply on two elements. -/
  | hmul2 (f : RArgs)
  /-- R135. Packed fused multiply-add on two elements. -/
  | hfma2 (f : RArgs)
  /-- R135. Packed minimum. -/
  | hmin2 (f : RArgs)
  /-- R135. Packed maximum. -/
  | hmax2 (f : RArgs)
  /-- R136. Packed compare writing per-element predicate bits. -/
  | hcmp2 (f : RArgs)
  /-- R137. Two-element dot product plus an FP32 addend, rounded once. -/
  | dot2 (f : RArgs)
  /-- R157. Loads from global memory per thread. -/
  | ldGl (f : RArgs)
  /-- R157. Stores to global memory per thread. -/
  | stGl (f : RArgs)
  /-- R157. Loads from the crew scratchpad. -/
  | ldSp (f : RArgs)
  /-- R157. Stores to the crew scratchpad. -/
  | stSp (f : RArgs)
  /-- R157. Loads from a per-thread 64-bit global address. -/
  | ldg (f : RArgs)
  /-- R157. Stores to a per-thread 64-bit global address. -/
  | stg (f : RArgs)
  /-- R158. Uniform load into a scalar register. -/
  | ldU (f : RArgs)
  /-- R158. Uniform store from a scalar register. -/
  | stU (f : RArgs)
  /-- R160. Prefetches a byte range toward the caches. -/
  | prf (f : RArgs)
  /-- R160. Discards every byte of a range. -/
  | dsc (f : RArgs)
  /-- R160. Writes dirty cached bytes of a range back to memory. -/
  | wbk (f : RArgs)
  /-- R162. Pushes records into an L2 queue at its home slice. -/
  | qpush (f : RArgs)
  /-- R162. Pops records from an L2 queue at its home slice. -/
  | qpop (f : RArgs)
  /-- R184. Atomic read-modify-write returning the old value. -/
  | atom (f : RArgs)
  /-- R184. Atomic read-modify-write returning nothing. -/
  | red (f : RArgs)
  /-- R186. Buffers a deterministic add contribution in the TG's atomic-buffer share. -/
  | redDet (f : RArgs)
  /-- R190. Flushes the TG's red.det share to home slices as a dev-scope release. -/
  | aflush (f : RArgs)
  /-- R192. Zeroes a bred descriptor's accumulators and code word. -/
  | bredClr (f : RArgs)
  /-- R192. Merges block scale codes by atomic max and arrives at the round barrier. -/
  | bredCode (f : RArgs)
  /-- R192. Adds integer mantissas to the accumulators and arrives at the round barrier. -/
  | bredAdd (f : RArgs)
  /-- R192. Reads the reduced values back from the accumulators. -/
  | bredGet (f : RArgs)
  /-- R193. Orders the TG's accesses by acq, rel, ar or sc at a scope. -/
  | fence (f : RArgs)
  /-- R176. Sets a barrier object's expected arrivals and clears its counts, keeping PHASE. -/
  | barInit (f : RArgs)
  /-- R177. Flushes red.det, returns the phase and adds one arrival. -/
  | barArrive (f : RArgs)
  /-- R178. Adds a byte count to a barrier object's expected bytes. -/
  | barExpect (f : RArgs)
  /-- R179. Parks the TG until the object's phase differs from the operand. -/
  | barWait (f : RArgs)
  /-- R180. Reads phase and status and sets a predicate without parking. -/
  | barTest (f : RArgs)
  /-- R181. Marks the object reinitialised, advances the phase and wakes every waiter. -/
  | barInval (f : RArgs)
  /-- R222. Hands a one-dimensional copy to the copy engine and adds its bytes to the barrier. -/
  | cpy (f : RArgs)
  /-- R224. Hands a descriptor-driven tile copy with conversion, transpose and scales to the engine. -/
  | cpyDesc (f : RArgs)
  /-- R229. Fills a destination with copies of a value through the copy engine. -/
  | cpyFill (f : RArgs)
  /-- R231. Selects the top k values per block as pairs and adds the rest into the scree. -/
  | cpyTopk (f : RArgs)
  /-- R232. Expands index-value pairs back into a dense array. -/
  | cpyExpand (f : RArgs)
  /-- R233. Attaches a staging reservation to a tensor stream served by a base-die controller. -/
  | cpySub (f : RArgs)
  /-- R234. Ends a reservation's subscription, counting untransferred bytes as landed. -/
  | cpyUnsub (f : RArgs)
  /-- R235. Ends every outstanding copy and subscription of the context that names a barrier. -/
  | cpyCancel (f : RArgs)
  /-- R171. The copy engine lands bytes of an operation and counts them into its barrier object. -/
  | copyLanding (op step : Nat)
  /-- R233. A base-die controller writes the next tile into a free ring slot and advances the producer counter. -/
  | subscriptionPush (op : Nat)
  /-- R233. A base-die controller writes a finished slot to memory and advances the consumer counter. -/
  | subscriptionPull (op : Nat)
  /-- R250. Creates a staging ring reservation from a request. -/
  | stgRsv (f : RArgs)
  /-- R250. Ends a ring's subscription and frees it, or marks it freeing. -/
  | stgRel (f : RArgs)
  /-- R250. Loads 32 bytes into a codebook slot. -/
  | stgCb (f : RArgs)
  /-- R250. Advances a ring's producer counter and claims, republishing slot bytes. -/
  | rngAdvProd (f : RArgs)
  /-- R250. Advances a ring's consumer counter and claims, discarding slots. -/
  | rngAdvCons (f : RArgs)
  /-- R250. Reads a snapshot of a ring's four counters. -/
  | rngTake (f : RArgs)
  /-- R240. Forms a gang of listed crew TGs at the col, or acts as a rendezvous. -/
  | gang (f : RArgs)
  /-- R255. Issues a dense 64x64 multiply-accumulate on a stream, drawing a power token. -/
  | mma (f : RArgs)
  /-- R263. Issues an unscaled block partial product with its scale codes into an output ring. -/
  | mmaBlk (f : RArgs)
  /-- R266. Sets a matrix register to dense zero, or empty. -/
  | mzero (f : RArgs)
  /-- R266. Loads a dense matrix register from memory through the load path. -/
  | mld (f : RArgs)
  /-- R266. Stores a matrix register to memory with conversion. -/
  | mst (f : RArgs)
  /-- R266. Copies and converts one matrix register into another. -/
  | mmov (f : RArgs)
  /-- R260. Completes once all earlier gang transfers are performed, ordering them before later engine reads. -/
  | mfenceOp (f : RArgs)
  /-- R259. Waits for one or all matrix streams to complete. -/
  | mwait (f : RArgs)
  /-- R254. The Ralfester pool grants a power token in deadline order and completes the waiting col. -/
  | tokenGrant (crew : Nat) (gang : BitVec 16)
  /-- R252. The matrix engine starts the earliest-deadline operation whose inputs are full and output has room. -/
  | engineOpStart (core : Nat) (op : Nat)
  /-- R258. An engine operation completes, counting into its stream object and returning its token. -/
  | engineOpComplete (core : Nat) (op : Nat)
  /-- R260. The gang load path performs the next transfer in issue order. -/
  | transferPerform (crew : Nat) (gang : BitVec 16)
  /-- R276. Loads a factored register's U and V factors with a rank. -/
  | mlrSet (f : RArgs)
  /-- R276. Stores a factored register's factors to memory. -/
  | mlrGet (f : RArgs)
  /-- R277. Returns quota, occupancy, slabs, rank and form of a register. -/
  | mlrInfo (f : RArgs)
  /-- R278. Multiplies two factored registers into a factored result. -/
  | mlrMul (f : RArgs)
  /-- R279. Multiplies a dense register by a factored one, keeping the rank. -/
  | mlrMuld (f : RArgs)
  /-- R280. Concatenates two factored registers' factors. -/
  | mlrAdd (f : RArgs)
  /-- R281. Scales the U factor by an FP32 factor. -/
  | mlrScl (f : RArgs)
  /-- R283. Recompresses a factored register in interruptible stages. -/
  | mlrRcmp (f : RArgs)
  /-- R282. Keeps the first k factor columns. -/
  | mlrTrunc (f : RArgs)
  /-- R283. Factorises a dense register in interruptible stages. -/
  | mlrFact (f : RArgs)
  /-- R282. Expands a factored register into dense FP32. -/
  | mlrDense (f : RArgs)
  /-- R283. Completes one stage of mlr.rcmp or mlr.fact, stopping if a pre-emption or slice end is pending. -/
  | recompressStage (crew : Nat) (gang : BitVec 16)
  /-- R313. Spawns one thread per acting thread into a bin, each with a new future. -/
  | fspawn (f : RArgs)
  /-- R321. Hands a launch descriptor to the command processor, optionally with a future. -/
  | launch (f : RArgs)
  /-- R320. Sets the bin timer of a launch and entry key. -/
  | binSet (f : RArgs)
  /-- R314. Copies a counted future reference, adding one to its count. -/
  | fref (f : RArgs)
  /-- R314. Drops a counted future reference. -/
  | fdrop (f : RArgs)
  /-- R315. Exchanges a memory reference cell with a handle, adjusting counts. -/
  | fstm (f : RArgs)
  /-- R315. Loads a counted reference from a memory reference cell. -/
  | fldm (f : RArgs)
  /-- R314. Gives an uncounted handle to the thread's own entry. -/
  | fself (f : RArgs)
  /-- R316. Parks until every acting thread's entry is DONE or FAILED and returns the results. -/
  | fwait (f : RArgs)
  /-- R316. Reads a future's result if finished, without parking. -/
  | fpoll (f : RArgs)
  /-- R317. Completes the thread's own future with a result as a dev-scope release. -/
  | fput (f : RArgs)
  /-- R319. Ends the job slice, setting a new deadline and budget. -/
  | yield (f : RArgs)
  /-- R318. Marks acting threads as held against reclamation. -/
  | fhold (f : RArgs)
  /-- R318. Clears the hold mark; it is a reclamation point. -/
  | frel (f : RArgs)
  /-- R304. A filling bin's timer expires and the bin fires a partly filled TG. -/
  | binTimerExpiry (die bin : Nat)
  /-- R367. Runs BVH traversal steps per thread until every stepping thread stops. -/
  | trav (f : RArgs)
  /-- R370. Accepts the register candidate as the hit and discards farther candidates. -/
  | tacc (f : RArgs)
  /-- R370. Rejects the register candidate. -/
  | trej (f : RArgs)
  /-- R378. Rasterises queued triangles into linked fragment records in TG-wide steps. -/
  | rast (f : RArgs)
  /-- R383. Filters a texture footprint tap by tap. -/
  | filt (f : RArgs)
  /-- R386. Blends fragments into tile pixels in chain order, in passes. -/
  | blnd (f : RArgs)
  /-- R389. Computes a scrambled Sobol sample value. -/
  | sobol (f : RArgs)
  /-- R357. Issues a microcode-defined macro from a loaded slot. -/
  | mcx (f : McArgs)
  /-- R352. The macro sequencer performs one step of a thread's macro, checking all accesses first. -/
  | macroStep (tg thread : Nat)
  /-- R340. Enters trap entry with cause USER and a code. -/
  | trap (f : IArgs)
  /-- R327. Returns from a trap handler, restoring WBASE and the mask. -/
  | rett (f : RArgs)
  /-- R341. Reads a system register into a scalar. -/
  | sysr (f : RArgs)
  /-- R337. Writes a system register that has no row of its own, with checks. -/
  | sysw (f : RArgs)
  /-- R64. Writes MEMDEF in the writer's copy and the context value, after legality checks. -/
  | syswMemdef (f : RArgs)
  /-- R338. Writes TVEC and the launch's trap vector, and the context's in a system context. -/
  | syswTvec (f : RArgs)
  /-- R342. Invalidates translations of a range, context or all contexts and waits for completion. -/
  | tlbInv (f : RArgs)
  /-- R343. Verifies and installs a signed microcode image in a slot, or empties it. -/
  | mcload (f : RArgs)
  /-- R344. Stops and saves every TG of the context or module. -/
  | halt (f : RArgs)
  /-- R340. Enters trap entry with cause BRKPT. -/
  | brkpt (f : RArgs)
  /-- R152. A held fault is posted once a fault barrier or queue entry becomes free. -/
  | heldFaultPost (die : Nat)
  /-- R296. TGBUD reaches zero and a BUDGET trap becomes pending for the next safe point. -/
  | budgetExhausted (tg : Nat)
  /-- R333. SAFEMAX clk pass without a pre-emption point and the TG is stopped at an instruction boundary. -/
  | forcedStop (tg : Nat)
  /-- R297. A resident crew with a later deadline is pre-empted whole and saved. -/
  | crewPreempt (crew : Nat)
  /-- R292. The command processor places a crew, or a fired bin TG, on a core when room appears. -/
  | crewPlace (crew core : Nat)
  /-- R144. An empty core drains its engines, writes back L1 and applies a new carve. -/
  | carveChange (core carve : Nat)
  /-- R293. A launch held on handle dependences starts once the launches it waits for complete. -/
  | launchStart (launch : Nat)
  /-- R189. A home slice receives a red.det contribution and holds, spills or applies it. -/
  | redDetContribution (idx : Nat)
  /-- R188. After the last TG retires, home slices apply held contributions in fixed order. -/
  | reductionFlush (launch : Nat)
  /-- R290. The command processor writes the completion record once all operations have completed. -/
  | launchComplete (launch : Nat)
  /-- R289. The command processor accepts a LAUNCH command and reads its descriptor. -/
  | cmdLaunch (ctx queue : Nat)
  /-- R286. The command processor accepts a NOP command and advances HEAD. -/
  | cmdNop (ctx queue : Nat)
  /-- R287. A host write of a TAIL value to a queue's notify address. -/
  | notify (ctx queue : Nat) (value : BitVec 64)
  /-- R288. The queue scheduler maps a queue holding work into a hardware slot. -/
  | queueMap (ctx queue : Nat)
  /-- R288. The scheduler unmaps a queue at a command boundary, redirecting and folding its notify. -/
  | queueUnmap (ctx queue : Nat)
  /-- R404. Host management command that resumes a halted context. -/
  | resume (ctx : Nat)
  /-- R405. A function-level reset ends, drains and scrubs a PCI Express function's state. -/
  | flr (function : Nat)
  /-- R404. Host reset of the PF, which resumes a halted module. -/
  | hostReset
  /-- R413. At reset the boot ROM and Ralfester verify firmware images and raise floors. -/
  | secureBoot (ralf cp : Firmware)
  /-- R412. The host selects Peak, Balanced or Cool mode, resizing the token pool. -/
  | powerModeSelect (mode : PowerMode)
  /-- R412. A die above 105 degrees places the module in thermal step-down. -/
  | thermalStepDown (die : Nat)
  /-- R412. Every die below 95 degrees ends thermal step-down. -/
  | thermalRecovery
  /-- R414. Returns a signed attestation report for a host nonce. -/
  | attestationRequest (nonce : List Byte)
  /-- R410. Host mailbox read of the Ralfester lifetime counters. -/
  | lifetimeCounterRead (counter : Nat)
  /-- R410. Every 60 s the Ralfester writes the lifetime counters to non-volatile store. -/
  | counterWriteback
  /-- R415. Writes an alarm policy, refusing lowering or reserved values. -/
  | alarmPolicyWrite (alarm : Alarm) (policy : BitVec 2)
  /-- R415. A tamper, glitch, lid or link-tamper alarm is recorded and acted on by its policy. -/
  | securityAlarm (alarm : Alarm)
  /-- R411. An uncorrectable soft error halts the owning context or the module and posts an event. -/
  | uncorrectableSoftError (array : ErrArray) (ctx : Option Nat)
  /-- R407. A remote request undelivered after 1 ms of replay traps ADDR in the requester. -/
  | linkDeliveryTimeout (tg : Nat)
  /-- R153. The host driver, as fault server, makes a faulted page resident with the contents it holds (R395) and arrives at its fault
  barrier, or invalidates the barrier. -/
  | hostFaultService (die barrier : Nat) (contents : Option (List (BitVec 8)))
  /-- R338. The host driver creates a context, fixing its function, trap vector, MEMDEF and CTXPRIV. -/
  | contextCreate (c : ContextSpec)
  /-- R13. A home slice receives a store, atomic, red or load request and performs it in arrival order, returning any value to the requester's pending register. -/
  | homeSlicePerform (tg idx : Nat)
  /-- R407. A request from another module arrives over Aedun Link and is performed by this module's home slice. -/
  | aedunRemoteRequest (loc : Nat) (op : RemoteOp)
  /-- R410. At orderly shutdown the Ralfester writes the lifetime counters back to its non-volatile store. -/
  | orderlyShutdown
  /-- R410. A corrected soft error in an array increments its lifetime counter. -/
  | softErrorCorrected (array : ErrArray)
deriving DecidableEq, Repr

end Sys2Proof
end

