-- ==== Sys2Proof/Machine/Forms.lean ====
section
/-! DEFINITION. The encoding tables of R65, R98, R121, R154, R175, R182, R192, R193, R220, R268, R275, R312, R339, R372
and R392: for each row its OP and FN, and the types, operand kinds, modifiers and long words it accepts. The well-formedness check of an
instruction is the conjunction of these tables; what they do not allow traps ILLOP (R57, R67). -/

namespace Sys2Proof

/-- Width of a type in bits (R27). -/
def Ty.width : Ty → Nat
  | .n8 | .i8 | .e4m3 | .e5m2 | .e8m0 => 8
  | .n16 | .i16 | .f16 | .bf16 => 16
  | .n32 | .i32 | .f32 | .f16x2 | .bf16x2 => 32
  | .n64 | .i64 => 64
  | .cb4 => 4

/-- Width in bytes; a cb4 code has none of its own (R32). -/
def Ty.bytes (t : Ty) : Nat := t.width / 8

def Ty.isUInt : Ty → Bool
  | .n8 | .n16 | .n32 | .n64 => true
  | _ => false

/-- The two's-complement integer types (R27). -/
def Ty.isSInt : Ty → Bool
  | .i8 | .i16 | .i32 | .i64 => true
  | _ => false

def Ty.isInt (t : Ty) : Bool := t.isUInt || t.isSInt

def Ty.isFloat : Ty → Bool
  | .f32 | .f16 | .bf16 | .e4m3 | .e5m2 | .e8m0 => true
  | _ => false

def Ty.isPacked : Ty → Bool
  | .f16x2 | .bf16x2 => true
  | _ => false

/-- The 8-bit floating types, for which a small immediate traps ILLOP (R56). -/
def Ty.isFloat8 : Ty → Bool
  | .e4m3 | .e5m2 | .e8m0 => true
  | _ => false

/-- Type code of R27. -/
def Ty.code : Ty → BitVec 5
  | .n8 => 0x00 | .n16 => 0x01 | .n32 => 0x02 | .n64 => 0x03
  | .i8 => 0x04 | .i16 => 0x05 | .i32 => 0x06 | .i64 => 0x07
  | .f32 => 0x08 | .f16 => 0x09 | .bf16 => 0x0A | .e4m3 => 0x0B | .e5m2 => 0x0C
  | .e8m0 => 0x0D | .cb4 => 0x0E | .f16x2 => 0x0F | .bf16x2 => 0x10

/-- All types in code order. -/
def Ty.all : List Ty :=
  [.n8, .n16, .n32, .n64, .i8, .i16, .i32, .i64, .f32, .f16, .bf16, .e4m3, .e5m2, .e8m0, .cb4, .f16x2, .bf16x2]

/-- The type of a code; codes 0x11 to 0x1F are reserved (R27). -/
def Ty.ofCode (c : BitVec 5) : Option Ty := Ty.all[c.toNat]?

/-- The 8-bit encoding of a specifier (R55). -/
def Spec.toByte : Spec → BitVec 8
  | .v n => n.zeroExtend 8
  | .s n => 0x40#8 ||| n.zeroExtend 8
  | .m n => 0x80#8 ||| n.zeroExtend 8
  | .p n => 0x90#8 ||| n.zeroExtend 8
  | .f n => 0x98#8 ||| n.zeroExtend 8
  | .special .tid => 0xA0 | .special .lane => 0xA1 | .special .beat => 0xA2 | .special .tg => 0xA3
  | .special .crew => 0xA4 | .special .core => 0xA5 | .special .die => 0xA6 | .special .clk => 0xA7
  | .special .gtime => 0xA8
  | .limm => 0xBF
  | .imm n => 0xC0#8 ||| n.zeroExtend 8
  | .reserved n => n

/-- The specifier an 8-bit field names (R55). -/
def Spec.ofByte (b : BitVec 8) : Spec :=
  if b < 0x40 then .v (b.truncate 6)
  else if b < 0x80 then .s (b.truncate 6)
  else if b < 0x90 then .m (b.truncate 4)
  else if b < 0x98 then .p (b.truncate 3)
  else if b < 0xA0 then .f (b.truncate 3)
  else if b = 0xA0 then .special .tid
  else if b = 0xA1 then .special .lane
  else if b = 0xA2 then .special .beat
  else if b = 0xA3 then .special .tg
  else if b = 0xA4 then .special .crew
  else if b = 0xA5 then .special .core
  else if b = 0xA6 then .special .die
  else if b = 0xA7 then .special .clk
  else if b = 0xA8 then .special .gtime
  else if b < 0xBF then .reserved b
  else if b = 0xBF then .limm
  else .imm (b.truncate 6)

/-- The value 0 of an operand field: what a field an instruction does not use must hold (R49). -/
def Spec.zero : Spec := .v 0

/-- What an instruction's entry may allow in an operand position. -/
inductive Kind where
  /-- The field must be zero. -/
  | zero
  /-- A vector register whose number is a multiple of `align` (2 for a 64-bit pair, R57). -/
  | v (align : Nat)
  | s | m | p | f
  /-- A special source (R55). -/
  | special
  /-- Any small immediate. -/
  | imm
  /-- A small immediate from 0 to `n - 1`. -/
  | immBelow (n : Nat)
  | limm
  /-- A type code in the low five bits, the upper three zero (R53). -/
  | typeCode (ts : List Ty)
  /-- Bits that are no specifier, below `n`. -/
  | raw (n : Nat)
deriving DecidableEq, Repr

/-- Whether a kind is a true operand specifier, to which the rules of R51 and R59 apply. -/
def Kind.isSpec : Kind → Bool
  | .zero | .typeCode _ | .raw _ => false
  | _ => true

/-- Whether a specifier is of a kind. -/
def Kind.ok (k : Kind) (sp : Spec) : Bool :=
  match k, sp with
  | .zero, sp => sp == Spec.zero
  | .v al, .v n => n.toNat % al == 0
  | .s, .s _ => true
  | .m, .m _ => true
  | .p, .p _ => true
  | .f, .f _ => true
  | .special, .special _ => true
  | .imm, .imm _ => true
  | .immBelow n, .imm i => decide (i.toNat < n)
  | .limm, .limm => true
  | .typeCode ts, sp => Spec.ofByte sp.toByte == sp && ts.any fun t => sp.toByte == t.code.zeroExtend 8
  | .raw n, sp => Spec.ofByte sp.toByte == sp && decide (sp.toByte.toNat < n)
  | _, _ => false

/-- Whether the rounding field must be zero, may hold any mode of R35, or any but stochastic. -/
inductive RmRule where
  | none | any | noSr
deriving DecidableEq, Repr

/-- Whether U must be 0, must be 1 or may be either (R51). -/
inductive URule where
  | no | must | may
deriving DecidableEq, Repr

/-- Which orders, spaces and policies a prefix may name (R63). -/
inductive PfxRule where
  /-- The instruction takes no prefix. -/
  | none
  /-- A load: rlx, acq, sc; the space and whether any policy may stand. -/
  | load (spc : BitVec 2)
  /-- A store: rlx, rel, sc. -/
  | store (spc : BitVec 2)
  /-- Any order; global. -/
  | anyGl
  /-- atom: any order, either space. -/
  | atom
  /-- red: rlx, rel, sc, either space. -/
  | red
  /-- rlx only, global. -/
  | relaxed
deriving DecidableEq, Repr

/-- The encoding table of one R-form row. -/
structure Form where
  ty : List Ty
  d : List Kind
  a : List Kind
  b : List Kind
  cs : List Kind
  x : Bool
  rm : RmRule
  imm32 : Bool
  callback : Bool
  sweep : Bool
  u : URule
  pfx : PfxRule
deriving DecidableEq, Repr

def intTys : List Ty := [.n8, .n16, .n32, .n64, .i8, .i16, .i32, .i64]
def fpTys : List Ty := [.f32, .f16, .bf16]
def pxTys : List Ty := [.f16x2, .bf16x2]
def allButCb4 : List Ty :=
  [.n8, .n16, .n32, .n64, .i8, .i16, .i32, .i64, .f32, .f16, .bf16, .e4m3, .e5m2, .e8m0, .f16x2, .bf16x2]
def laneTys : List Ty := [.n32, .i32, .f32, .f16x2, .bf16x2, .n64, .i64]
def denseTys : List Ty := [.f32, .f16, .bf16, .e4m3, .e5m2]
def fmTys : List Ty := [.f32, .bf16]
/-- T must be zero in an instruction without a type (R53). -/
def noTy : List Ty := [.n8]

/-- Register alignment of an operand of `w` bits (R57). -/
def alignOf (w : Nat) : Nat := if w = 64 then 2 else 1

/-- "any" of R121 for an operand of type `t`; no small immediate for an 8-bit float (R56). -/
def anyFlt (t : Ty) : List Kind := [.v (alignOf t.width), .s, .limm] ++ (if t.isFloat8 then [] else [.imm])
/-- "any" of R98: also a special source. -/
def anyInt (t : Ty) : List Kind := .special :: anyFlt t
def zeroK : List Kind := [.zero]

/-- A row with every field zero and nothing accepted. -/
def plainForm : Form :=
  { ty := noTy, d := zeroK, a := zeroK, b := zeroK, cs := zeroK, x := true, rm := .none, imm32 := false,
    callback := false, sweep := false, u := .no, pfx := .none }

/-- D of a row whose result has `w` bits. -/
def regD (w : Nat) : List Kind := [.v (alignOf w), .s]

/-- An integer row of R98 with one source. -/
def intForm1 (f : RArgs) (tys : List Ty) (xOk sweep : Bool) : Form :=
  { plainForm with ty := tys, d := regD f.ty.width, a := anyInt f.ty, x := xOk, imm32 := true, sweep := sweep,
                   u := .may }

/-- An integer row of R98 with two sources. -/
def intForm (f : RArgs) (xOk sweep : Bool) : Form :=
  { intForm1 f intTys xOk sweep with b := anyInt f.ty }

/-- A floating row of R121 with one source. -/
def fltForm1 (f : RArgs) (tys : List Ty) (xOk : Bool) (rm : RmRule) : Form :=
  { plainForm with ty := tys, d := regD 32, a := anyFlt f.ty, x := xOk, rm := rm, imm32 := true, u := .may }

/-- A floating row of R121 with two sources. -/
def fltForm (f : RArgs) (tys : List Ty) (xOk : Bool) (rm : RmRule) (sweep : Bool) : Form :=
  { fltForm1 f tys xOk rm with b := anyFlt f.ty, sweep := sweep }

/-- A row of OP 0x25 (R121). -/
def fnForm (f : RArgs) (rm : RmRule) : Form :=
  { fltForm1 f fpTys (f.x == 0) rm with a := [.v 1, .s, .imm], imm32 := false }

/-- X[3:1] reserved, X[0] a flag. -/
def xFlag (f : RArgs) : Bool := decide (f.x.toNat < 2)
def xZero (f : RArgs) : Bool := f.x == 0

/-- Access size in bytes of a memory row (R154): the count of X[1:0] times the width of the type. -/
def accessSize (f : RArgs) : Nat := 2 ^ (f.x.toNat % 4) * f.ty.bytes

/-- Registers of the data set of an access of `z` bytes (R157). -/
def dataRegs (z : Nat) : Nat := max 1 (z / 4)

/-- The count field of R154: above one element only for 32-bit and 64-bit types, at most 16 bytes. -/
def countOk (f : RArgs) : Bool :=
  decide (f.x.toNat < 3) && (f.x == 0 || (decide (32 ≤ f.ty.width) && decide (accessSize f ≤ 16)))

/-- B of an address: no offset or a displacement (R154). -/
def dispK : List Kind := [.immBelow 1, .limm]

/-- A row of R154 with prefix rule `p`. -/
def memForm (f : RArgs) (p : PfxRule) : Form :=
  { plainForm with ty := allButCb4, x := countOk f, imm32 := true, pfx := p }

def memData (f : RArgs) : List Kind := [.v (dataRegs (accessSize f))]

/-- B of ld.sp and st.sp: a vector offset only beside a scalar base (R155). -/
def spB (f : RArgs) : List Kind :=
  match f.a with
  | .s _ => .v 1 :: dispK
  | _ => dispK

/-- Types of an atomic operation (R182). -/
def atomTys (f : RArgs) : List Ty :=
  let ints : List Ty := [.n32, .i32, .n64, .i64]
  let flts : List Ty := [.f32, .f16x2, .bf16x2]
  match f.x.toNat with
  | 0 | 1 | 2 | 6 => ints ++ flts
  | 3 | 4 | 5 | 7 => ints
  | 8 | 9 => [.n32, .n64]
  | _ => []

/-- A of an atomic: an odd vector register can name only a scratchpad offset (R183). -/
def atomA (f : RArgs) : List Kind :=
  match f.pfx with
  | some p => if p.spc = 1 then [.s, .v 2] else [.s, .v 1]
  | none => [.s, .v 1]

/-- Operand rows shared by atom, red and red.det (R183). -/
def atomForm (f : RArgs) (p : PfxRule) : Form :=
  let al := alignOf f.ty.width
  { plainForm with ty := atomTys f, a := atomA f, b := spB f, cs := [.v (if f.x == 7 then 2 * al else al)],
                   imm32 := true, pfx := p }

/-- A barrier operand: a scalar, or an arena index when X[0] = 0 (R175). -/
def barA (f : RArgs) : List Kind := if f.x.getLsbD 0 then [.s] else [.s, .immBelow 32]

/-- X of a barrier row: X[1] only for a global object, X[3:2] as given (R175). -/
def barX (f : RArgs) (hi : Nat) : Bool :=
  (f.x.getLsbD 0 || !f.x.getLsbD 1) && f.x.toNat / 4 == hi

def barForm (f : RArgs) : Form := { plainForm with a := barA f, x := barX f 0 }

/-- A copy address operand in a space (R221). -/
def copyAddr (space : Nat) : List Kind := if space = 1 then [.s] else [.s, .immBelow 32]
/-- The barrier of a copy (R221): an arena index or a global address. -/
def copyBar : List Kind := [.s, .immBelow 32]
/-- A ring operand (R249). -/
def ringK : List Kind := [.s, .immBelow 32]

/-- System registers by number (R336), and whether sysw may name them at all. -/
def sysReadable (n : Nat) : Bool :=
  decide (n ≤ 0x09) || (decide (0x10 ≤ n) && decide (n ≤ 0x2E)) || (decide (0x30 ≤ n) && decide (n ≤ 0x35)) ||
    (decide (0x40 ≤ n) && decide (n ≤ 0x46))

/-- The registers whose Access column lists W or PW (R336). -/
def sysWritable (n : Nat) : Bool :=
  [0x00, 0x04, 0x05, 0x06, 0x07, 0x08, 0x10, 0x11, 0x13, 0x15, 0x1A, 0x1B, 0x1C, 0x1E, 0x1F, 0x20, 0x21, 0x22, 0x30, 0x31,
   0x32, 0x33, 0x35, 0x40, 0x41, 0x42, 0x43, 0x45, 0x46].contains n

/-- The registers of Access PW (R336). -/
def sysPrivileged (n : Nat) : Bool :=
  [0x21, 0x22, 0x30, 0x31, 0x32, 0x33, 0x35, 0x40, 0x41, 0x42, 0x43, 0x45, 0x46].contains n

/-- The system register number in C[19:12] (R339). -/
def srn (f : RArgs) : Nat := f.cs.toByte.toNat

/-- The source type of cvt, mma and mma.blk in C[16:12] (R53). -/
def srcTy (f : RArgs) : Ty := (Ty.ofCode (f.cs.toByte.truncate 5)).getD .n8

/-- The element index k of cvt (R128). -/
def cvtK (f : RArgs) : Nat := f.x.toNat / 4
/-- The saturation field of cvt and srnd (R128). -/
def cvtSat (f : RArgs) : Nat := f.x.toNat % 4

/-- Whether k, saturation, rounding and the pair of types of a cvt are allowed (R128 to R130). -/
def cvtOk (f : RArgs) : Bool :=
  let src := srcTy f
  let dst := f.ty
  let k := cvtK f
  let sat := cvtSat f
  let kOk :=
    if src.width ≤ 16 then decide (k < 32 / src.width)
    else if dst.width ≤ 16 then decide (k < 32 / dst.width)
    else k == 0
  let packOk := !dst.isPacked || src == .f32
  let satOk :=
    if src.isInt && dst.isInt then decide (sat ≤ 1)
    else if dst.isInt then sat == 0
    else decide (sat ≤ 2)
  kOk && packOk && satOk

def cvtRm (f : RArgs) : RmRule := if (srcTy f).isInt && f.ty.isInt then .none else .any

/-- A row of OP 0x30 to 0x35 that loads (D) or stores (CS). -/
def loadForm (f : RArgs) (spc : BitVec 2) (a b : List Kind) : Form :=
  { memForm f (.load spc) with d := memData f, a := a, b := b }
def storeForm (f : RArgs) (spc : BitVec 2) (a b : List Kind) : Form :=
  { memForm f (.store spc) with cs := memData f, a := a, b := b }

def rangeForm (f : RArgs) : Form :=
  { plainForm with a := [.s], b := dispK, cs := [.s], x := xZero f, imm32 := true, pfx := .relaxed }

def queueTys : List Ty := [.n32, .i32, .f32, .n64, .i64]
def classTys : List Ty := [.f16, .bf16, .e4m3, .e5m2]
def mK : List Kind := [.m]
def sK : List Kind := [.s]
def fK : List Kind := [.f]
def pK : List Kind := [.p]
/-- A scalar, or 0xC0 for none. -/
def sOrNone : List Kind := [.s, .immBelow 1]
def countK : List Kind := [.s, .immBelow 32]
def sysForm (f : RArgs) : Form := { plainForm with x := xZero f }

/-- A copy form with its barrier in CS (R220). -/
def copyForm : Form := { plainForm with cs := copyBar }

/-- A low-rank form on a stream (R275). -/
def mlrForm (f : RArgs) (tys : List Ty) (xBits : Nat) : Form :=
  { plainForm with ty := tys, d := mK, a := mK, x := decide (f.x.toNat < xBits) }

/-- A row of R98 that acts per thread with no type. -/
def laneForm (xOk : Bool) : Form := { plainForm with x := xOk }

/-- A form of OP 0x60 to 0x64 (R372, R392). -/
def macForm (xOk : Bool) : Form := { plainForm with x := xOk, callback := true }

/-- The I-form rows: D, A and B as the entry allows, and A = 0xBF with C = 0 under IMM32 (R84). -/
def branchOk (f : IArgs) (dOk bOk : Bool) : Bool :=
  dOk && bOk && !f.h.u &&
  match f.h.long with
  | .none => f.a == Spec.zero
  | .imm32 v => f.a == .limm && f.c == 0 && v.extractLsb' 0 3 == 0
  | _ => false

/-- Type in B[4:0] of movi and movhi (R109). -/
def iTy (f : IArgs) : Ty := (Ty.ofCode (f.b.extractLsb' 0 5)).getD .cb4

/-- movi and movhi: U with a scalar D, an even pair for a 64-bit type (R109). -/
def moviOk (f : IArgs) (tys : List Ty) : Bool :=
  f.h.long == .none && f.a == Spec.zero && f.b.extractLsb' 5 3 == 0 && tys.contains (iTy f) &&
  (if f.h.u then Kind.s.ok f.d else (Kind.v (alignOf (iTy f).width)).ok f.d)

/-- Where an instruction stands in the opcode map, its fields and its encoding table. -/
inductive Enc where
  | r (op : BitVec 7) (fn : BitVec 6) (f : RArgs) (form : Form)
  | i (op : BitVec 7) (fn : BitVec 6) (f : IArgs) (ok : Bool)
  | mc (f : McArgs)
  /-- A step of another agent: it has no encoding. -/
  | event
deriving DecidableEq, Repr

/-- The opcode map (R65) joined with the encoding tables. B of shf is an index of 32 bits whatever the type: it may name an odd register
with a 64-bit type (R57, R112). DESIGN CHOICE, log 47. -/
def Instr.enc : Instr → Enc
  | .nop f => .r 0x00 0 f (sysForm f)
  | .bra f => .i 0x01 0 f (branchOk f (f.d == Spec.zero) (f.b == 0))
  | .brx f => .r 0x02 0 f { sysForm f with a := [.s, .v 2] }
  | .call f => .i 0x03 0 f (branchOk f (f.d == Spec.zero) (f.b.toNat < 8 && f.b != 0))
  | .callx f => .r 0x04 0 f { plainForm with a := sK, x := f.x.toNat < 8 && f.x != 0 }
  | .ret f => .r 0x05 0 f { sysForm f with a := sK }
  | .join f => .r 0x06 0 f { plainForm with x := xZero f && f.h.g == 7 && !f.h.n }
  | .loop f => .i 0x07 0 f (branchOk f (Kind.s.ok f.d) (f.b == 0))
  | .exit f => .r 0x08 0 f (sysForm f)
  | .add f => .r 0x10 0 f (intForm f (xFlag f) true)
  | .addc f => .r 0x10 1 f { intForm f true false with cs := pK }
  | .sub f => .r 0x10 2 f (intForm f (xFlag f) true)
  | .subb f => .r 0x10 3 f { intForm f true false with cs := pK }
  | .mul f => .r 0x11 0 f (intForm f (xZero f) true)
  | .mulhi f => .r 0x11 1 f (intForm f (xZero f) true)
  | .mad f => .r 0x11 2 f { intForm f (xZero f) true with cs := anyInt f.ty }
  | .madw f => .r 0x11 3 f { intForm f (xZero f) false with
      ty := [.n8, .n16, .n32, .i8, .i16, .i32], d := regD (2 * f.ty.width)
      cs := [.v (alignOf (2 * f.ty.width)), .s, .imm, .special, .limm] }
  | .min f => .r 0x12 0 f (intForm f (xZero f) true)
  | .max f => .r 0x12 1 f (intForm f (xZero f) true)
  | .abs f => .r 0x12 2 f (intForm1 f [.i8, .i16, .i32, .i64] (xFlag f) true)
  | .neg f => .r 0x12 3 f (intForm1 f [.i8, .i16, .i32, .i64] (xFlag f) true)
  | .and f => .r 0x13 0 f (intForm f (xZero f) true)
  | .or f => .r 0x13 1 f (intForm f (xZero f) true)
  | .xor f => .r 0x13 2 f (intForm f (xZero f) true)
  | .not f => .r 0x13 3 f (intForm1 f intTys (xZero f) true)
  | .andn f => .r 0x13 4 f (intForm f (xZero f) true)
  | .shl f => .r 0x14 0 f (intForm f (xZero f) true)
  | .shr f => .r 0x14 1 f (intForm f (xZero f) true)
  | .sar f => .r 0x14 2 f (intForm f (xZero f) true)
  | .rot f => .r 0x14 3 f (intForm f (xZero f) true)
  | .bfx f => .r 0x15 0 f (intForm f (xZero f) false)
  | .bfi f => .r 0x15 1 f { intForm f (xZero f) false with cs := anyInt f.ty }
  | .popc f => .r 0x16 0 f (intForm1 f intTys (xZero f) false)
  | .clz f => .r 0x16 1 f (intForm1 f intTys (xZero f) false)
  | .ctz f => .r 0x16 2 f (intForm1 f intTys (xZero f) false)
  | .brev f => .r 0x16 3 f (intForm1 f intTys (xZero f) false)
  | .cmp f => .r 0x17 0 f { intForm f (f.x.toNat < 6) false with d := pK, cs := pK }
  | .sel f => .r 0x18 0 f { intForm f (xZero f) false with ty := allButCb4, cs := pK }
  | .mov f => .r 0x19 0 f
      { intForm1 f allButCb4 (xZero f) false with
        ty := if Kind.f.ok f.a then [.n64] else allButCb4
        d := if Kind.f.ok f.a then [.v 2, .f] else regD f.ty.width
        a := .f :: anyInt f.ty }
  | .movHi f => .r 0x19 0 f
      { intForm1 f [.n64, .i64] (f.x == 1) false with a := [.limm] }
  | .movi f => .i 0x19 1 f (moviOk f intTys)
  | .movhi f => .i 0x19 2 f (moviOk f [.n32, .i32, .n64, .i64])
  | .lea f => .r 0x1A 0 f
      { intForm f (f.x.toNat < 8) false with ty := [.n32, .i32, .n64, .i64], d := regD 64, a := [.s, .v 2] }
  | .vote f => .r 0x1B 0 f
      { laneForm (f.x.toNat < 6) with d := if f.x.toNat < 3 then pK else [.v 1], a := pK }
  | .shf f => .r 0x1B 1 f
      { laneForm (f.x.toNat < 4) with
        ty := laneTys, d := [.v (alignOf f.ty.width)], a := [.v (alignOf f.ty.width)]
        b := [.v 1, .s, .imm, .special] }
  | .prd f => .r 0x1B 2 f { laneForm (f.x.toNat < 8) with d := pK, a := pK, b := pK }
  | .prmov f => .r 0x1B 3 f
      { laneForm (f.x.toNat < 3) with
        d := if f.x = 0 then [.v 1] else pK
        a := if f.x = 1 then [.v 1, .s, .imm] else pK
        b := if f.x = 2 then [.v 1, .s, .imm, .special] else zeroK }
  | .s2v f => .r 0x1C 0 f { sysForm f with ty := laneTys, d := [.v (alignOf f.ty.width)], a := [.s, .imm] }
  | .v2s f => .r 0x1C 1 f
      { sysForm f with ty := laneTys, d := sK, a := [.v (alignOf f.ty.width)], b := [.s, .imm] }
  | .fadd f => .r 0x20 0 f (fltForm f fpTys (xFlag f) .any true)
  | .fsub f => .r 0x20 1 f (fltForm f fpTys (xFlag f) .any true)
  | .fmul f => .r 0x20 2 f (fltForm f fpTys (xFlag f) .any true)
  | .fma f => .r 0x20 3 f { fltForm f fpTys (xFlag f) .any true with cs := anyFlt f.ty }
  | .fmin f => .r 0x21 0 f (fltForm f fpTys (xFlag f) .none true)
  | .fmax f => .r 0x21 1 f (fltForm f fpTys (xFlag f) .none true)
  | .fcmp f => .r 0x22 0 f { fltForm f fpTys (f.x.toNat < 8) .none false with d := pK, cs := pK }
  | .frnd f => .r 0x23 0 f (fltForm1 f fpTys (xZero f) .any)
  | .fscale f => .r 0x23 1 f { fltForm f fpTys (xFlag f) .any false with b := anyFlt .i32 }
  | .fclass f => .r 0x23 2 f
      { fltForm1 f [.f32, .f16, .bf16, .e4m3, .e5m2] (xZero f) .none with
        d := [.v 1, .s, .p]
        b := if Kind.p.ok f.d then anyFlt .n32 else zeroK
        cs := if Kind.p.ok f.d then pK else zeroK }
  | .cvt f => .r 0x24 0 f
      { fltForm1 f [.n8, .n16, .n32, .n64, .i8, .i16, .i32, .i64, .f32, .f16, .bf16, .e4m3, .e5m2, .f16x2, .bf16x2]
          (cvtOk f) (cvtRm f) with
        d := regD f.ty.width
        a := if (srcTy f).isInt then anyInt (srcTy f) else anyFlt (srcTy f)
        b := if f.ty.isPacked then anyFlt .f32 else zeroK
        cs := [.typeCode [.n8, .n16, .n32, .n64, .i8, .i16, .i32, .i64, .f32, .f16, .bf16, .e4m3, .e5m2, .e8m0]] }
  | .srnd f => .r 0x24 1 f
      { fltForm1 f [.f16, .bf16, .e4m3, .e5m2] (f.x.toNat < 3) .any with
        a := anyFlt .f32, cs := [.typeCode [.f32]] }
  | .rcp f => .r 0x25 0 f (fnForm f .any)
  | .rsq f => .r 0x25 1 f (fnForm f .none)
  | .sqrt f => .r 0x25 2 f (fnForm f .any)
  | .ex2 f => .r 0x25 3 f (fnForm f .none)
  | .lg2 f => .r 0x25 4 f (fnForm f .none)
  | .sin f => .r 0x25 5 f (fnForm f .none)
  | .cos f => .r 0x25 6 f (fnForm f .none)
  | .hadd2 f => .r 0x26 0 f (fltForm f pxTys (xFlag f) .any true)
  | .hmul2 f => .r 0x26 1 f (fltForm f pxTys (xFlag f) .any true)
  | .hfma2 f => .r 0x26 2 f { fltForm f pxTys (xFlag f) .any true with cs := anyFlt f.ty }
  | .hmin2 f => .r 0x26 3 f (fltForm f pxTys (xFlag f) .none true)
  | .hmax2 f => .r 0x26 4 f (fltForm f pxTys (xFlag f) .none true)
  | .hcmp2 f => .r 0x26 5 f { fltForm f pxTys (f.x.toNat < 8) .none false with d := pK, cs := pK }
  | .dot2 f => .r 0x26 6 f { fltForm f pxTys (xFlag f) .any true with cs := anyFlt .f32 }
  | .ldGl f => .r 0x30 0 f (loadForm f 1 sK (.v 1 :: dispK))
  | .stGl f => .r 0x31 0 f (storeForm f 1 sK (.v 1 :: dispK))
  | .ldSp f => .r 0x32 0 f (loadForm f 2 [.s, .v 1] (spB f))
  | .stSp f => .r 0x33 0 f (storeForm f 2 [.s, .v 1] (spB f))
  | .ldg f => .r 0x34 0 f (loadForm f 1 [.v 2] dispK)
  | .stg f => .r 0x35 0 f (storeForm f 1 [.v 2] dispK)
  | .ldU f => .r 0x36 0 f { loadForm f 1 sK dispK with d := sK, x := xZero f, u := .must }
  | .stU f => .r 0x37 0 f { storeForm f 1 sK dispK with cs := sK, x := xZero f, u := .must }
  | .prf f => .r 0x38 0 f (rangeForm f)
  | .dsc f => .r 0x38 1 f (rangeForm f)
  | .wbk f => .r 0x38 2 f (rangeForm f)
  | .qpush f => .r 0x39 0 f
      { memForm f (.store 1) with ty := queueTys, d := pK, a := sK, b := [.immBelow 1], cs := memData f, imm32 := false }
  | .qpop f => .r 0x39 1 f
      { memForm f .anyGl with ty := queueTys, d := memData f, a := sK, b := [.immBelow 1], cs := pK, imm32 := false }
  | .atom f => .r 0x40 0 f { atomForm f .atom with d := [.v (alignOf f.ty.width)] }
  | .red f => .r 0x41 0 f { atomForm f .red with x := f.x.toNat < 6 }
  | .redDet f => .r 0x41 1 f
      { atomForm f .relaxed with ty := [.n32, .i32, .n64, .i64, .f32], a := [.s, .v 2], x := xZero f }
  | .aflush f => .r 0x42 0 f (sysForm f)
  | .bredClr f => .r 0x43 0 f { plainForm with a := sK, x := f.x == 0 || f.x == 4 }
  | .bredCode f => .r 0x43 0 f
      { plainForm with ty := [.f32], d := sK, a := sK, b := [.v 1], x := f.x == 1 || f.x == 5 }
  | .bredAdd f => .r 0x43 0 f
      { plainForm with ty := [.f32], d := sK, a := sK, b := [.v 1], x := f.x == 2 || f.x == 6 }
  | .bredGet f => .r 0x43 0 f { plainForm with d := [.v 1], a := sK, x := f.x == 3 || f.x == 7 }
  | .fence f => .r 0x44 0 f
      { plainForm with cs := [.raw 6], x := decide (2 ≤ f.x.toNat) && f.x.toNat < 6 && f.cs.toByte != 0 }
  | .barInit f => .r 0x45 0 f { barForm f with b := countK }
  | .barArrive f => .r 0x45 1 f { barForm f with d := sK }
  | .barExpect f => .r 0x45 2 f { barForm f with b := countK }
  | .barWait f => .r 0x45 3 f
      { barForm f with d := if f.x.getLsbD 3 then sK else zeroK, b := [.s, .imm], x := barX f 0 || barX f 2 }
  | .barTest f => .r 0x45 4 f { barForm f with d := pK, b := [.s, .imm], cs := sK }
  | .barInval f => .r 0x45 5 f (barForm f)
  | .cpy f => .r 0x4C 0 f
      { copyForm with ty := allButCb4, d := copyAddr (f.x.toNat % 4), a := copyAddr (f.x.toNat / 4)
                      b := [.s, .imm, .limm], x := f.x.toNat % 4 < 3 && f.x.toNat / 4 < 3, imm32 := true }
  | .cpyDesc f => .r 0x4C 0 f { copyForm with a := sK, x := f.x == 12 }
  | .cpyFill f => .r 0x4C 1 f
      { copyForm with ty := allButCb4, d := copyAddr (f.x.toNat % 4), a := [.s, .imm, .limm]
                      b := [.s, .imm, .limm], x := f.x.toNat < 3, imm32 := true }
  | .cpyTopk f => .r 0x4D 0 f { copyForm with ty := fpTys, a := sK, x := xZero f }
  | .cpyExpand f => .r 0x4D 1 f { copyForm with ty := fpTys, a := sK, x := xZero f }
  | .cpySub f => .r 0x4E 0 f { copyForm with d := ringK, a := sK, x := xFlag f }
  | .cpyUnsub f => .r 0x4E 1 f { sysForm f with d := ringK }
  | .cpyCancel f => .r 0x4F 0 f { copyForm with x := xZero f }
  | .stgRsv f => .r 0x50 0 f { sysForm f with a := ringK, b := sK }
  | .stgRel f => .r 0x50 1 f { sysForm f with a := ringK }
  | .stgCb f => .r 0x50 2 f
      { plainForm with d := [.immBelow 8], a := sOrNone, b := dispK, x := xFlag f, imm32 := true }
  | .rngAdvProd f => .r 0x51 0 f { plainForm with a := ringK, b := countK, x := f.x == 0 }
  | .rngAdvCons f => .r 0x51 0 f { plainForm with a := ringK, b := countK, x := f.x == 1 }
  | .rngTake f => .r 0x51 1 f { sysForm f with d := sK, a := ringK }
  | .gang f => .r 0x52 0 f
      { plainForm with a := if f.x.getLsbD 0 then sK else [.raw 256]
                       b := if f.x.getLsbD 0 then zeroK else [.raw 256], x := xFlag f }
  | .mma f => .r 0x53 0 f
      { plainForm with ty := [.f32], d := mK, a := .m :: ringK
                       b := if f.x.getLsbD 2 then mK else .m :: ringK
                       cs := [.typeCode classTys], x := f.x.toNat < 8 }
  | .mmaBlk f => .r 0x53 1 f
      { plainForm with ty := [.f32], d := ringK, a := ringK, b := ringK, cs := [.typeCode classTys], x := f.x.toNat < 4 }
  | .mzero f => .r 0x54 0 f { plainForm with ty := if f.x = 1 then noTy else denseTys, d := mK, x := xFlag f }
  | .mld f => .r 0x54 1 f
      { plainForm with ty := denseTys, d := mK, a := sOrNone, b := dispK, cs := sOrNone, x := xFlag f, imm32 := true }
  | .mst f => .r 0x54 2 f
      { plainForm with ty := denseTys, d := mK, a := sOrNone, b := dispK, cs := sOrNone, x := xFlag f, rm := .noSr
                       imm32 := true }
  | .mmov f => .r 0x54 3 f { plainForm with ty := denseTys, d := mK, a := mK, x := xZero f, rm := .noSr }
  | .mfenceOp f => .r 0x55 0 f (sysForm f)
  | .mwait f => .r 0x55 1 f { plainForm with x := f.x.toNat < 8 }
  | .mlrSet f => .r 0x56 0 f { mlrForm f fmTys 2 with a := sK, b := sK, cs := countK }
  | .mlrGet f => .r 0x56 1 f { mlrForm f fmTys 2 with a := sK, b := sK }
  | .mlrInfo f => .r 0x56 2 f { mlrForm f noTy 1 with d := sK }
  | .mlrMul f => .r 0x57 0 f { mlrForm f fmTys 4 with b := mK }
  | .mlrMuld f => .r 0x57 1 f { mlrForm f fmTys 8 with b := mK }
  | .mlrAdd f => .r 0x58 0 f { mlrForm f fmTys 4 with b := mK }
  | .mlrScl f => .r 0x58 1 f { mlrForm f fmTys 4 with b := [.s, .imm] }
  | .mlrRcmp f => .r 0x59 0 f { mlrForm f fmTys 1 with b := sK }
  | .mlrTrunc f => .r 0x59 1 f { mlrForm f fmTys 4 with b := countK }
  | .mlrFact f => .r 0x59 2 f { mlrForm f fmTys 1 with b := sK }
  | .mlrDense f => .r 0x5A 0 f (mlrForm f [.f32] 4)
  | .fspawn f => .r 0x5C 0 f
      { sysForm f with d := fK, a := [.s, .limm], b := [.v 2, .s, .immBelow 1], imm32 := true }
  | .launch f => .r 0x5C 1 f
      { plainForm with d := if f.x.getLsbD 0 then fK else zeroK, a := sK, x := xFlag f }
  | .binSet f => .r 0x5C 2 f { sysForm f with a := [.s, .limm], b := sOrNone, imm32 := true }
  | .fref f => .r 0x5D 0 f { sysForm f with d := fK, a := fK }
  | .fdrop f => .r 0x5D 1 f { sysForm f with a := fK }
  | .fstm f => .r 0x5D 2 f { sysForm f with a := [.s, .v 2], b := dispK, cs := fK, imm32 := true }
  | .fldm f => .r 0x5D 3 f { sysForm f with d := fK, a := [.s, .v 2], b := dispK, imm32 := true }
  | .fself f => .r 0x5D 4 f { sysForm f with d := fK }
  | .fwait f => .r 0x5E 0 f
      { plainForm with d := [.v 2], a := fK, cs := if f.x.getLsbD 0 then pK else zeroK, x := xFlag f }
  | .fpoll f => .r 0x5E 1 f { sysForm f with d := [.v 2], a := fK, cs := pK }
  | .fput f => .r 0x5E 2 f { sysForm f with a := [.v 2, .s, .immBelow 1] }
  | .yield f => .r 0x5E 3 f { sysForm f with a := sOrNone, b := sOrNone }
  | .fhold f => .r 0x5F 0 f (sysForm f)
  | .frel f => .r 0x5F 1 f (sysForm f)
  | .trav f => .r 0x60 0 f (macForm (f.x.toNat < 4))
  | .tacc f => .r 0x61 0 f (sysForm f)
  | .trej f => .r 0x61 1 f (sysForm f)
  | .rast f => .r 0x62 0 f (macForm (xZero f))
  | .filt f => .r 0x63 0 f { macForm (f.x == 0 || f.x == 2) with a := sK }
  | .blnd f => .r 0x64 0 f { macForm (f.x.toNat < 3) with a := sK }
  | .sobol f => .r 0x65 0 f
      { sysForm f with ty := [.n32, .f32], d := [.v 1], a := [.v 1, .s, .imm], b := [.v 1, .s, .imm]
                       cs := [.v 1, .s, .imm] }
  | .mcx f => .mc f
  | .trap f => .i 0x70 0 f
      (f.h.long == .none && !f.h.u && f.d == Spec.zero && f.a == Spec.zero && f.b == 0 && f.c.toNat < 256)
  | .rett f => .r 0x71 0 f { plainForm with x := xZero f && f.h.g == 7 && !f.h.n }
  | .sysr f => .r 0x72 0 f { plainForm with d := sK, cs := [.raw 256], x := xZero f && sysReadable (srn f) }
  | .sysw f => .r 0x72 1 f
      { plainForm with a := sK, cs := [.raw 256]
                       x := xZero f && sysWritable (srn f) && srn f != 0x1A && srn f != 0x08 }
  | .syswMemdef f => .r 0x72 1 f { plainForm with a := sK, cs := [.raw 256], x := xZero f && srn f == 0x1A }
  | .syswTvec f => .r 0x72 1 f { plainForm with a := sK, cs := [.raw 256], x := xZero f && srn f == 0x08 }
  | .tlbInv f => .r 0x73 0 f { plainForm with a := sK, b := sOrNone, x := f.x.toNat < 4 }
  | .mcload f => .r 0x74 0 f
      { plainForm with d := sK, a := if f.x = 1 then zeroK else sK, b := [.s, .immBelow 8], x := xFlag f }
  | .halt f => .r 0x75 0 f { plainForm with x := xFlag f }
  | .brkpt f => .r 0x76 0 f (sysForm f)
  | .copyLanding .. => .event
  | .subscriptionPush .. => .event
  | .subscriptionPull .. => .event
  | .tokenGrant .. => .event
  | .engineOpStart .. => .event
  | .engineOpComplete .. => .event
  | .transferPerform .. => .event
  | .recompressStage .. => .event
  | .binTimerExpiry .. => .event
  | .macroStep .. => .event
  | .heldFaultPost .. => .event
  | .budgetExhausted .. => .event
  | .forcedStop .. => .event
  | .crewPreempt .. => .event
  | .crewPlace .. => .event
  | .carveChange .. => .event
  | .launchStart .. => .event
  | .redDetContribution .. => .event
  | .reductionFlush .. => .event
  | .launchComplete .. => .event
  | .cmdLaunch .. => .event
  | .cmdNop .. => .event
  | .notify .. => .event
  | .queueMap .. => .event
  | .queueUnmap .. => .event
  | .resume .. => .event
  | .flr .. => .event
  | .hostReset => .event
  | .secureBoot .. => .event
  | .powerModeSelect .. => .event
  | .thermalStepDown .. => .event
  | .thermalRecovery => .event
  | .attestationRequest .. => .event
  | .lifetimeCounterRead .. => .event
  | .counterWriteback => .event
  | .alarmPolicyWrite .. => .event
  | .securityAlarm .. => .event
  | .uncorrectableSoftError .. => .event
  | .linkDeliveryTimeout .. => .event
  | .hostFaultService .. => .event
  | .contextCreate .. => .event
  | .homeSlicePerform .. => .event
  | .aedunRemoteRequest .. => .event
  | .orderlyShutdown => .event
  | .softErrorCorrected .. => .event

/-- Whether a position of kinds `ks` holds a true operand specifier. -/
def specPos (ks : List Kind) : Bool := ks.all Kind.isSpec

def kindsOk (ks : List Kind) (sp : Spec) : Bool := ks.any (·.ok sp)

/-- How often a form names 0xBF (R59). -/
def limmCount (f : RArgs) (m : Form) : Nat :=
  [(m.d, f.d), (m.a, f.a), (m.b, f.b), (m.cs, f.cs)].countP fun p => specPos p.1 && p.2 == .limm

/-- What U = 1 forbids in a specifier (R51). -/
def uniformOk (ks : List Kind) (sp : Spec) : Bool :=
  !specPos ks ||
  match sp with
  | .v _ | .f _ | .m _ | .special .tid | .special .lane | .special .beat => false
  | _ => true

/-- R51 on the bit U: what it forbids when set, and a scalar D of a vector-class row when clear. -/
def uOk (f : RArgs) (m : Form) : Bool :=
  if f.h.u then m.u != .no && uniformOk m.d f.d && uniformOk m.a f.a && uniformOk m.b f.b && uniformOk m.cs f.cs
  else
    match m.u, f.h.long, f.d with
    | .must, _, _ => false
    | .no, _, _ => true
    | .may, .sweep .., _ => true
    | .may, _, .s _ => false
    | .may, _, _ => true

/-- A sweep's D, A or B: only a scratchpad operand has a step (R61); of a special source in A or B, which R61 does not name, it must be 0
as well (DESIGN CHOICE, log 50). -/
def stepOk (sp : Spec) (step : BitVec 16) : Bool :=
  match sp with
  | .s _ => true
  | .v _ | .imm _ | .special _ => step == 0
  | _ => false

/-- CS of a sweep: a vector register or an immediate, or unused (R61). -/
def sweepCs (sp : Spec) : Bool :=
  match sp with
  | .v _ | .imm _ => true
  | _ => false

/-- R58 to R61 on the long word. -/
def longOk (f : RArgs) (m : Form) : Bool :=
  match f.h.long with
  | .none => limmCount f m == 0
  | .imm32 _ => m.imm32 && limmCount f m == 1
  | .callback c => m.callback && c.extractLsb' 0 3 == 0 && limmCount f m == 0
  | .sweep cnt std sta stb =>
    m.sweep && !f.h.u && cnt != 0 && [Ty.n32, .i32, .f32, .f16x2, .bf16x2].contains f.ty && limmCount f m == 0 &&
      stepOk f.d std && stepOk f.a sta && stepOk f.b stb && sweepCs f.cs

def rmOk (rm : BitVec 3) : RmRule → Bool
  | .none => rm == 0
  | .any => decide (rm.toNat < 5)
  | .noSr => decide (rm.toNat < 4)

/-- The values a prefix field may hold (R62). -/
def Pfx.ok (p : Pfx) : Bool :=
  decide (p.ord.toNat < 6) && decide (p.scp.toNat < 6) && decide (p.spc.toNat < 3) && decide (p.pol.toNat < 5)

def loadOrd (o : BitVec 3) : Bool := [0, 1, 2, 5].contains o.toNat
def storeOrd (o : BitVec 3) : Bool := [0, 1, 3, 5].contains o.toNat
/-- A prefix naming space `s`, whose policy is free only in global memory. -/
def spaceOk (p : Pfx) (s : BitVec 2) : Bool := (p.spc == 0 || p.spc == s) && (s == 1 || decide (p.pol.toNat < 2))

/-- The combinations of R63 that a prefix may name; what a default leaves to MEMDEF is checked at issue. -/
def pfxOk (r : PfxRule) (p : Option Pfx) : Bool :=
  match p with
  | .none => true
  | .some p => p.ok &&
    match r with
    | .none => false
    | .load s => loadOrd p.ord && spaceOk p s
    | .store s => storeOrd p.ord && spaceOk p s
    | .anyGl => spaceOk p 1
    | .atom => p.spc != 2 || decide (p.pol.toNat < 2)
    | .red => storeOrd p.ord && (p.spc != 2 || decide (p.pol.toNat < 2))
    | .relaxed => decide (p.ord.toNat < 2) && spaceOk p 1

/-- Every static check of R67 step 4 on an R-form instruction. -/
def RArgs.ok (f : RArgs) (m : Form) : Bool :=
  m.ty.contains f.ty && kindsOk m.d f.d && kindsOk m.a f.a && kindsOk m.b f.b && kindsOk m.cs f.cs && m.x &&
    rmOk f.rm m.rm && uOk f m && longOk f m && pfxOk m.pfx f.pfx

/-- The static checks of an encoding; a step of another agent has none. -/
def Enc.ok : Enc → Bool
  | .r _ _ f m => f.ok m
  | .i _ _ _ b => b
  | .mc _ => true
  | .event => true

end Sys2Proof
end

