-- ==== Sys2Proof/WellFormed.lean ====
section
/-! DEFINITION. Well-formedness of an instruction: the conjunction of the decode checks of R67 that depend on the word
alone. The tables it consults stand in Machine/Forms.lean. -/

namespace Sys2Proof

/-- The instruction passes every decode check that its words decide (R49 to R67). -/
def Instr.wf (i : Instr) : Bool := i.enc.ok

end Sys2Proof
end

