-- ==== Sys2Proof/Decode.lean ====
section
/-! DEFINITION. From words to instructions and back: the field layout of R49, R53, R58 and R62, the opcode map of R65
and the decode order of R67. `decode` is total; a word that no row and no table admits is `illop`. -/

namespace Sys2Proof

/-- The fields of a first word (R49); C is split by the form. -/
structure RawWord where
  op : BitVec 7
  l : BitVec 1
  g : BitVec 3
  n : BitVec 1
  u : BitVec 1
  s : BitVec 1
  fn : BitVec 6
  d : BitVec 8
  a : BitVec 8
  b : BitVec 8
  c : BitVec 20
deriving DecidableEq, Repr

/-- The fields of a word (R49). -/
def RawWord.ofBits (w : W64) : RawWord :=
  { op := w.extractLsb' 57 7, l := w.extractLsb' 56 1, g := w.extractLsb' 53 3, n := w.extractLsb' 52 1
    u := w.extractLsb' 51 1, s := w.extractLsb' 50 1, fn := w.extractLsb' 44 6, d := w.extractLsb' 36 8
    a := w.extractLsb' 28 8, b := w.extractLsb' 20 8, c := w.extractLsb' 0 20 }

/-- The word with the given fields (R49). -/
def RawWord.toBits (r : RawWord) : W64 :=
  r.op ++ (r.l ++ (r.g ++ (r.n ++ (r.u ++ (r.s ++ (r.fn ++ (r.d ++ (r.a ++ (r.b ++ r.c)))))))))

/-- The R-form reading of C (R53). -/
structure RawC where
  cs : BitVec 8
  x : BitVec 4
  rm : BitVec 3
  t : BitVec 5
deriving DecidableEq, Repr

def RawC.ofBits (c : BitVec 20) : RawC :=
  { cs := c.extractLsb' 12 8, x := c.extractLsb' 8 4, rm := c.extractLsb' 5 3, t := c.extractLsb' 0 5 }

def RawC.toBits (r : RawC) : BitVec 20 := r.cs ++ (r.x ++ (r.rm ++ r.t))

/-- A long word with its kind (R58); none for kind 0b11 and for a nonzero reserved field. -/
def Long.ofBits (w : W64) : Option Long :=
  match (w.extractLsb' 62 2).toNat with
  | 0 => if w.extractLsb' 32 30 = 0 then some (.imm32 (w.extractLsb' 0 32)) else .none
  | 1 => if w.extractLsb' 32 30 = 0 then some (.callback (w.extractLsb' 0 32)) else .none
  | 2 =>
    if w.extractLsb' 60 2 = 0 then
      some (.sweep (w.extractLsb' 48 12) (w.extractLsb' 32 16) (w.extractLsb' 16 16) (w.extractLsb' 0 16))
    else .none
  | _ => .none

def Long.toBits : Long → Option W64
  | .none => .none
  | .imm32 v => some (0#2 ++ (0#30 ++ v))
  | .callback c => some (1#2 ++ (0#30 ++ c))
  | .sweep cnt std sta stb => some (2#2 ++ (0#2 ++ (cnt ++ (std ++ (sta ++ stb)))))

/-- A prefix word (R62); none where OP is not 0x7F or a reserved bit is set. -/
def Pfx.ofBits (w : W64) : Option Pfx :=
  if w.extractLsb' 57 7 = 0x7F ∧ w.extractLsb' 11 46 = 0 then
    some { ord := w.extractLsb' 8 3, scp := w.extractLsb' 5 3, spc := w.extractLsb' 3 2, pol := w.extractLsb' 0 3 }
  else none

def Pfx.toBits (p : Pfx) : W64 := 0x7F#7 ++ (0#46 ++ (p.ord ++ (p.scp ++ (p.spc ++ p.pol))))

/-- The R-form rows of a major opcode in the order of FN (R65), where X and SRN split a row of the table. -/
def rRows (op : Nat) (x : BitVec 4) (srn : BitVec 8) : List (RArgs → Instr) :=
  match op with
  | 0x00 => [.nop]
  | 0x02 => [.brx]
  | 0x04 => [.callx]
  | 0x05 => [.ret]
  | 0x06 => [.join]
  | 0x08 => [.exit]
  | 0x10 => [.add, .addc, .sub, .subb]
  | 0x11 => [.mul, .mulhi, .mad, .madw]
  | 0x12 => [.min, .max, .abs, .neg]
  | 0x13 => [.and, .or, .xor, .not, .andn]
  | 0x14 => [.shl, .shr, .sar, .rot]
  | 0x15 => [.bfx, .bfi]
  | 0x16 => [.popc, .clz, .ctz, .brev]
  | 0x17 => [.cmp]
  | 0x18 => [.sel]
  | 0x19 => [if x.getLsbD 0 then .movHi else .mov]
  | 0x1A => [.lea]
  | 0x1B => [.vote, .shf, .prd, .prmov]
  | 0x1C => [.s2v, .v2s]
  | 0x20 => [.fadd, .fsub, .fmul, .fma]
  | 0x21 => [.fmin, .fmax]
  | 0x22 => [.fcmp]
  | 0x23 => [.frnd, .fscale, .fclass]
  | 0x24 => [.cvt, .srnd]
  | 0x25 => [.rcp, .rsq, .sqrt, .ex2, .lg2, .sin, .cos]
  | 0x26 => [.hadd2, .hmul2, .hfma2, .hmin2, .hmax2, .hcmp2, .dot2]
  | 0x30 => [.ldGl]
  | 0x31 => [.stGl]
  | 0x32 => [.ldSp]
  | 0x33 => [.stSp]
  | 0x34 => [.ldg]
  | 0x35 => [.stg]
  | 0x36 => [.ldU]
  | 0x37 => [.stU]
  | 0x38 => [.prf, .dsc, .wbk]
  | 0x39 => [.qpush, .qpop]
  | 0x40 => [.atom]
  | 0x41 => [.red, .redDet]
  | 0x42 => [.aflush]
  | 0x43 =>
    match x.toNat % 4 with
    | 0 => [.bredClr]
    | 1 => [.bredCode]
    | 2 => [.bredAdd]
    | _ => [.bredGet]
  | 0x44 => [.fence]
  | 0x45 => [.barInit, .barArrive, .barExpect, .barWait, .barTest, .barInval]
  | 0x4C => [if x.toNat / 4 = 3 then .cpyDesc else .cpy, .cpyFill]
  | 0x4D => [.cpyTopk, .cpyExpand]
  | 0x4E => [.cpySub, .cpyUnsub]
  | 0x4F => [.cpyCancel]
  | 0x50 => [.stgRsv, .stgRel, .stgCb]
  | 0x51 => [if x.getLsbD 0 then .rngAdvCons else .rngAdvProd, .rngTake]
  | 0x52 => [.gang]
  | 0x53 => [.mma, .mmaBlk]
  | 0x54 => [.mzero, .mld, .mst, .mmov]
  | 0x55 => [.mfenceOp, .mwait]
  | 0x56 => [.mlrSet, .mlrGet, .mlrInfo]
  | 0x57 => [.mlrMul, .mlrMuld]
  | 0x58 => [.mlrAdd, .mlrScl]
  | 0x59 => [.mlrRcmp, .mlrTrunc, .mlrFact]
  | 0x5A => [.mlrDense]
  | 0x5C => [.fspawn, .launch, .binSet]
  | 0x5D => [.fref, .fdrop, .fstm, .fldm, .fself]
  | 0x5E => [.fwait, .fpoll, .fput, .yield]
  | 0x5F => [.fhold, .frel]
  | 0x60 => [.trav]
  | 0x61 => [.tacc, .trej]
  | 0x62 => [.rast]
  | 0x63 => [.filt]
  | 0x64 => [.blnd]
  | 0x65 => [.sobol]
  | 0x71 => [.rett]
  | 0x72 => [.sysr, if srn = 0x1A then .syswMemdef else if srn = 0x08 then .syswTvec else .sysw]
  | 0x73 => [.tlbInv]
  | 0x74 => [.mcload]
  | 0x75 => [.halt]
  | 0x76 => [.brkpt]
  | _ => []

/-- The I-form rows (R65). -/
def iRow (op fn : Nat) : Option (IArgs → Instr) :=
  match op, fn with
  | 0x01, 0 => some .bra
  | 0x03, 0 => some .call
  | 0x07, 0 => some .loop
  | 0x19, 1 => some .movi
  | 0x19, 2 => some .movhi
  | 0x70, 0 => some .trap
  | _, _ => none

/-- What a list of words at the program counter is. -/
inductive Decoded where
  /-- An instruction, and the number of words it takes with its prefix and its long word. -/
  | ok (i : Instr) (words : Nat)
  /-- The encoding is no instruction: ILLOP (R67). -/
  | illop
  /-- The instruction has one more word than are given. -/
  | more
deriving DecidableEq, Repr

def bit1 (b : Bool) : BitVec 1 := BitVec.ofBool b

/-- The fields of an R-form word. -/
def RArgs.ofRaw (p : Option Pfx) (r : RawWord) (c : RawC) (ty : Ty) (long : Long) : RArgs :=
  { pfx := p
    h := { g := r.g, n := r.n == 1, u := r.u == 1, safe := r.s == 1, long := long }
    d := .ofByte r.d, a := .ofByte r.a, b := .ofByte r.b, cs := .ofByte c.cs, x := c.x, rm := c.rm, ty := ty }

def IArgs.ofRaw (r : RawWord) (long : Long) : IArgs :=
  { h := { g := r.g, n := r.n == 1, u := r.u == 1, safe := r.s == 1, long := long }
    d := .ofByte r.d, a := .ofByte r.a, b := r.b, c := r.c }

def McArgs.ofRaw (r : RawWord) (long : Option W64) : McArgs :=
  { g := r.g, n := r.n == 1, u := r.u == 1, safe := r.s == 1, long := long, slot := r.op.extractLsb' 0 3, fn := r.fn
    d := r.d, a := r.a, b := r.b, c := r.c }

/-- OP 0x68 to 0x6F: the microcode slots (R66). -/
def isMcOp (op : BitVec 7) : Bool := op.extractLsb' 3 4 == 0b1101

/-- Whether R65 assigns OP and FN (R67 steps 1 and 3). -/
def assigned (r : RawWord) : Bool :=
  isMcOp r.op || (iRow r.op.toNat r.fn.toNat).isSome ||
    decide (r.fn.toNat < (rRows r.op.toNat 0 0).length)

/-- The instruction of a prefix, a first word and its long word, when every static check of R67 passes. -/
def decodeFields (p : Option Pfx) (r : RawWord) (lw : Option W64) : Option Instr :=
  if isMcOp r.op then
    if p.isNone then some (.mcx (.ofRaw r lw)) else none
  else
    let long : Option Long := match lw with
      | none => some .none
      | some w => Long.ofBits w
    match long with
    | none => none
    | some long =>
      let i : Option Instr :=
        match iRow r.op.toNat r.fn.toNat with
        | some k => if p.isNone then some (k (.ofRaw r long)) else none
        | none =>
          let c := RawC.ofBits r.c
          match Ty.ofCode c.t, (rRows r.op.toNat c.x c.cs)[r.fn.toNat]? with
          | some ty, some k => some (k (.ofRaw p r c ty long))
          | _, _ => none
      match i with
      | some i => if i.wf then some i else none
      | none => none

/-- The instruction at a first word, given the words from it on; `n` words of prefix precede it. -/
def decodeAt (p : Option Pfx) (n : Nat) (w : W64) (rest : List W64) : Decoded :=
  let r := RawWord.ofBits w
  let fin (lw : Option W64) (len : Nat) : Decoded :=
    match decodeFields p r lw with
    | some i => .ok i len
    | none => .illop
  if !assigned r then .illop
  else if r.l = 1 then
    match rest with
    | [] => .more
    | lw :: _ => fin (some lw) (n + 2)
  else fin none (n + 1)

/-- The instruction that the words at the program counter are (R49 to R68). -/
def decode (ws : List W64) : Decoded :=
  match ws with
  | [] => .more
  | w :: rest =>
    if w.extractLsb' 57 7 = 0x7F then
      match rest with
      | [] => .more
      | w1 :: rest1 =>
        match Pfx.ofBits w with
        | none => .illop
        | some p => decodeAt (some p) 1 w1 rest1
    else decodeAt none 0 w rest

/-- The long word of an instruction as words. -/
def longWords (l : Long) : List W64 := l.toBits.toList

def lBit (l : Long) : BitVec 1 := bit1 l.toBits.isSome

/-- The words of an R-form instruction. -/
def encodeR (op : BitVec 7) (fn : BitVec 6) (f : RArgs) : List W64 :=
  (f.pfx.map Pfx.toBits).toList ++
    RawWord.toBits { op := op, l := lBit f.h.long, g := f.h.g, n := bit1 f.h.n, u := bit1 f.h.u, s := bit1 f.h.safe
                     fn := fn, d := f.d.toByte, a := f.a.toByte, b := f.b.toByte
                     c := RawC.toBits { cs := f.cs.toByte, x := f.x, rm := f.rm, t := f.ty.code } } ::
    longWords f.h.long

/-- The words of an I-form instruction. -/
def encodeI (op : BitVec 7) (fn : BitVec 6) (f : IArgs) : List W64 :=
  RawWord.toBits { op := op, l := lBit f.h.long, g := f.h.g, n := bit1 f.h.n, u := bit1 f.h.u, s := bit1 f.h.safe
                   fn := fn, d := f.d.toByte, a := f.a.toByte, b := f.b, c := f.c } ::
    longWords f.h.long

/-- The words of a microcode macro. -/
def encodeMc (f : McArgs) : List W64 :=
  RawWord.toBits { op := 0b1101#4 ++ f.slot, l := bit1 f.long.isSome, g := f.g, n := bit1 f.n, u := bit1 f.u
                   s := bit1 f.safe, fn := f.fn, d := f.d, a := f.a, b := f.b, c := f.c } ::
    f.long.toList

/-- The words of an instruction, in address order; a step of another agent has none. -/
def encode (i : Instr) : Option (List W64) :=
  match i.enc with
  | .r op fn f _ => some (encodeR op fn f)
  | .i op fn f _ => some (encodeI op fn f)
  | .mc f => some (encodeMc f)
  | .event => none

/-- The eight bytes of a word, lowest address first (R49). -/
def wordBytes (w : W64) : List Byte := (List.range 8).map fun i => w.extractLsb' (8 * i) 8

/-- The word of up to eight bytes, the first at the lowest address. -/
def bytesWord (bs : List Byte) : W64 :=
  bs.foldr (fun b acc => (acc <<< 8) ||| b.zeroExtend 64) 0

/-- The three words from bit 0 of a table word on: the longest instruction has a prefix and a long word. -/
def tableWords (w : Nat) : List W64 :=
  [BitVec.ofNat 64 w, BitVec.ofNat 64 (w / 2 ^ 64), BitVec.ofNat 64 (w / 2 ^ 128)]

/-- The instruction of `nbits` table bits `w`, every bit above them 0. -/
def decodeTableWord (nbits w : Nat) : Option Instr :=
  match decode (tableWords (w % 2 ^ nbits)) with
  | .ok i _ => some i
  | _ => none

end Sys2Proof
end

