-- ==== Sys2Proof/Config.lean ====
section
/-! DEFINITION. What an implementation fixes, and the free values the spec leaves open. An `opaque` constant
has no body: nothing can be proved about its value, so a claim holds for every value it may take (DESIGN CHOICE, log 3). -/

namespace Sys2Proof.Config

/-- The `i`-th free value drawn at `tick` (DESIGN CHOICE, log 3): every undefined value (R6) and every choice the spec leaves
open (the next agent, a latency, V_last or V_mem) is taken from it. -/
opaque free : Nat → Nat → Nat

/-- The device's function tables for rsq, ex2, lg2, sin and cos (R133): fixed functions of the FP32 input
whose bits the spec does not give (DESIGN CHOICE, log 8). -/
opaque specialFn : Nat → BitVec 32 → BitVec 32

/-- Whether `sig` is a valid ECDSA signature of the bytes under the key numbered `key` (R343, R413; DESIGN CHOICE, log 9). -/
opaque signatureOk : Nat → List (BitVec 8) → List (BitVec 8) → Bool

/-- The signature of the bytes under the module's identity key (R414; DESIGN CHOICE, log 9). -/
opaque sign : List (BitVec 8) → List (BitVec 8)

/-- SHA-384 of the bytes (R414): the standard's function, not restated by the spec (DESIGN CHOICE, log 9). -/
opaque sha384 : List (BitVec 8) → List (BitVec 8)

/-- The boot ROM's bytes, and the module's 128-bit serial number (R413, R414), fixed for the module. -/
opaque bootRom : List (BitVec 8)
opaque serial : Nat

/-- What the body of a microcode image does (R357; DESIGN CHOICE, log 17): functions of the image's bytes, the instruction's words and the
registers that a thread of the macro reads. Whether it is TG-wide, whether it accepts the fields D, A, B and C, whether a
reason code steps, and whether it calls back. -/
opaque mcWide : List (BitVec 8) → List (BitVec 64) → Bool
opaque mcLegal : List (BitVec 8) → List (BitVec 64) → Bool
opaque mcSteps : List (BitVec 8) → List (BitVec 64) → Nat → Bool
opaque mcCallsBack : List (BitVec 8) → List (BitVec 64) → Nat → Bool
/-- Whether a fault calls back instead of parking the TG (R354). -/
opaque mcFaultCallback : List (BitVec 8) → List (BitVec 64) → Bool
/-- The accesses of a step: address, log 2 of the size, whether it is a store, and the access kind that FAULTCB reports. -/
opaque mcAccesses : List (BitVec 8) → List (BitVec 64) → List (BitVec 64) → List (BitVec 64 × BitVec 2 × Bool × BitVec 2)
/-- A step, given the bytes its loads return: the state block after it, the last register of which holds the reason, and the
bytes of its stores. -/
opaque mcStep : List (BitVec 8) → List (BitVec 64) → List (BitVec 64) → List (List (BitVec 8)) →
  List (BitVec 64) × List (List (BitVec 8))

/-- Whether a module of that number answers over Aedun Link (R407). -/
opaque modulePresent : Nat → Bool

/-- How many free choices of a move may stand between two turns (R311; DESIGN CHOICE, log 2). -/
opaque patience : Nat

/-- Cores per die (R14) and in the module (R1). -/
def coresPerDie : Nat := 48
def numCores : Nat := 192
def numDies : Nat := 4
/-- Capacity of one HBM4 stack in bytes: 64 GB, decimal by R4 (R1, R140). -/
def stackCapacity : Nat := 64 * 10 ^ 9
def numStacks : Nat := 12
/-- Entries of the per-core and the per-die TLB (R14, R16). -/
def coreTlbSize : Nat := 128
def dieTlbSize : Nat := 16384
/-- Matrix slabs of a core (R16, R237). -/
def slabsPerCore : Nat := 1024
/-- Register stack of one sub-scheduler in bytes (R17). -/
def subStackBytes : Nat := 384 * 1024
/-- Resident TGs of one sub-scheduler (R17). -/
def tgsPerSub : Nat := 16
/-- Staging bytes and reservation numbers of a core (R16, R244). -/
def stagingBytes : Nat := 1048576
def stagingRsv : Nat := 32
/-- Entries of one TG's red.det share (R186). -/
def shareSize : Nat := 256
/-- Held contributions of one home slice (R189). -/
def sliceEntries : Nat := 8192
/-- Spawn records and bins of a die, spawn slots of a die (R301, R302). -/
def unreservedRecords : Nat := 65521
def binsPerDie : Nat := 512
def slotsPerDie : Nat := 3072
/-- Fault barriers of a die (R152). -/
def faultBarriers : Nat := 1024
/-- Engine queue entries of a core (R253). -/
def engineQueue : Nat := 16
/-- Hardware queue slots (R288). -/
def queueSlots : Nat := 128
/-- Deepest reconvergence stack and the entries the core holds (R74). -/
def maxRdepth : Nat := 65536
def coreEntries : Nat := 32

end Sys2Proof.Config
end

