-- ==== Sys2Proof/Machine/State.lean ====
section
/-! DEFINITION. The state of the VX-4200 as plain data, and the state right after reset. A keyed collection is a list of
(key, entry) pairs in rising key order; the operations over it stand in Machine/Maps.lean. A register the spec states no
value for is 0 at reset or creation (DESIGN CHOICE, log 6). Objects that exist only while something runs (contexts, launches, crews,
TGs, gangs) are absent at reset. -/

namespace Sys2Proof.Machine

/-- A list of (key, entry) pairs, keys strictly rising; `SMap` reads a default where no pair stands (Machine/Maps.lean). -/
abbrev SMap (α : Type) := List (Nat × α)

/-- A barrier object (R167): 16 bytes. Arena and global objects lie in memory in this layout; the pool barrier of a die
(R302), the col (R241) and the stream objects of a gang (R258) lie in their units. -/
structure Obj where
  expa : BitVec 16
  arrived : BitVec 16
  expb : BitVec 32
  landed : BitVec 32
  phase : BitVec 16
  status : BitVec 16
deriving DecidableEq, Repr

/-- The object with `EXPA = n` and every other field 0. -/
def Obj.fresh (n : BitVec 16) : Obj := { expa := n, arrived := 0, expb := 0, landed := 0, phase := 0, status := 0 }

/-- Where a barrier object or phase word lies (R21, R168). `arena`: crew and scratchpad offset; `glob`: memory location;
`fut`: context and entry index. -/
inductive ObjRef where
  | arena (crew off : Nat)
  | glob (loc : Nat)
  | pool (die : Nat)
  | stream (crew : Nat) (mask : BitVec 16) (n : Nat)
  | fut (ctx index : Nat)
deriving DecidableEq, Repr

/-- What a TG is parked on (R21, R298); a parked TG keeps its pc and reissues. -/
inductive Wait where
  | ready
  /-- A phase word and the phase it is parked at. -/
  | obj (o : ObjRef) (phase : BitVec 16)
  /-- fwait: entry indexes and the phases seen; it waits for all of them (R316). -/
  | futs (es : List (Nat × BitVec 16))
  /-- A fault barrier of a die (R152), the phase seen, the faulting address and thread; `fill`: a fill of R78 is redone (R75). -/
  | fault (die bar : Nat) (phase : BitVec 16) (va : W64) (tid : Nat) (fill : Bool)
  /-- A fault held in the die, waiting as memory latency does (R152). -/
  | heldFault (die : Nat) (va : W64) (tid : Nat) (fill : Bool)
  /-- The col of a gang instruction (R241). -/
  | col (mask : BitVec 16)
  /-- Parked when it was saved: it stands at its wait until it issues the waiting instruction again (R331, R334). -/
  | reissue
  /-- A macro in progress: neither ready nor parked (R353). -/
  | mac
deriving DecidableEq, Repr

/-- Trap registers (R325, R336). -/
structure TrapRegs where
  tpc : W64
  tcause : BitVec 9
  taddr : W64
  ttid : BitVec 7
  tam : Mask
  twbase : W32
  tvec : W64
  tstat : Bool
deriving DecidableEq, Repr

/-- Register-window registers (R79 to R81). -/
structure WinRegs where
  /-- k: vector registers per thread, 64 to 256 (R79). -/
  k : Nat
  wbase : W32
  wlo : W32
  wneed : W32
  wspill : W64
  wtlim : W32
deriving DecidableEq, Repr

/-- An entry of the reconvergence stack (R74). -/
structure ReconvEntry where
  m : Mask
  p : Mask
  pc : W64
deriving DecidableEq, Repr

/-- The reconvergence stack: the entries in the core, newest first, and its depth; older entries lie at RSPILL (R74). -/
structure Reconv where
  core : List ReconvEntry
  depth : Nat
  rspill : W64
deriving DecidableEq, Repr

/-- Registers of the numeric and memory modes (R39, R64, R240, R271). -/
structure ModeRegs where
  memdef : W64
  srseq : W32
  gmask : BitVec 16
  rankcap : BitVec 6
  mtol : W32
  rmode : Bool
deriving DecidableEq, Repr

/-- An f register of one thread: handle and counted bit (R305). -/
structure FReg where
  h : W64
  counted : Bool
deriving DecidableEq, Repr

/-- The spawn record a thread holds (R302). -/
inductive SpawnRec where
  | none
  | unreserved
  | reserved (depth : Nat)
deriving DecidableEq, Repr

/-- What a thread is to the task system (R291, R301). -/
structure ThreadTask where
  own : W64
  depth : Nat
  srec : SpawnRec
  /-- fhold (R318). -/
  hold : Bool
deriving DecidableEq, Repr

/-- A frame of an inline call (R303), held until the frame is popped; `q` are the threads it runs, `d` the f register of
the fspawn. Only its 12,288 bytes at INLBASE are architectural, and their layout is not visible (DESIGN CHOICE, log 6). -/
structure InlineFrame where
  mask : Mask
  q : Mask
  ret : W64
  wbase : W32
  rdepth : Nat
  spdone : Mask
  d : Nat
  fregs : SMap (Row FReg)
  vtop : SMap (Row W32)
  tasks : Row ThreadTask
  children : SMap W64
deriving DecidableEq, Repr

/-- Slice and task registers (R294, R303, R313, R315, R318). -/
structure TaskRegs where
  tgdl : W64
  tgbud : W32
  spdone : Mask
  inlbase : W64
  inldepth : BitVec 4
  ffail : Mask
deriving DecidableEq, Repr

/-- An entry of a TG's red.det share (R186); `loc` is the location of the access. -/
structure ShareEntry where
  loc : Nat
  /-- The address, for the trap of a contribution that is not delivered (R407). -/
  va : W64 := 0
  thread : Nat
  ty : Ty
  val : W64
deriving DecidableEq, Repr

/-- A write of a TG that has been performed while a store that happens before it has not (R196, R198, R199): the places it wrote with
their lengths, its scope as a release by the code of R62 (1 tg to 5 sys), and, of an arrival at a barrier object, the phase it counted
into (R174). The stores carry its `id`; an acquire that reads a place, or observes that the phase has completed, has them performed
first. Of scope 0 it is no release, and synchronises with no acquire: a reader hands on what precedes it (R199). -/
structure Release where
  id : Nat
  tg : Nat
  places : List (ObjRef × Nat)
  scope : Nat
  phase : Option (BitVec 16)
deriving DecidableEq, Repr

/-- A global store of a TG that its home slice has not performed yet (R13, R196). Scopes are codes of R62, 0 for none. -/
structure PStore where
  loc : Nat
  data : List Byte
  /-- The address and the thread that a trap for it reports (R407). -/
  va : W64 := 0
  tid : Nat := 0
  /-- Its own scope, where its order is a release. -/
  rel : Nat := 0
  /-- The widest scope of an sc operation that is this store or follows it (R201). -/
  sc : Nat := 0
  /-- Its place in its TG's program order, among the TG's fences and noted reads: the stamp when it was issued. -/
  pos : Nat := 0
  /-- The releases that it precedes. -/
  marks : List Nat := []
deriving DecidableEq, Repr

/-- What a 16-byte access leaves for after its first half, with the order and scope of the access (R157): a store to scratchpad, a load
into the two registers of a thread from `reg` on, or, once a load of policy last has read all, the discard of its bytes (R146). -/
inductive Half where
  | put (off : Nat) (data : List Byte) (ord scope : Nat)
  | take (place : ObjRef) (reg tid ord scope : Nat)
  | drop (loc n : Nat)
deriving DecidableEq, Repr

/-- A recoverable fault an engine or a macro thread holds (R152, R227): the die, the fault barrier (none while the fault is
held), the faulting address, and, once the barrier has ended, whether it was invalidated (R153). -/
structure EngineFault where
  die : Nat
  bar : Option Nat
  va : W64
  result : Option Bool := none
deriving DecidableEq, Repr

/-- A microcode slot (R66, R343). -/
structure Microcode where
  ver : W64
  fndef : W64
  fnpriv : W64
  longi : W64
  longk : W64
  /-- The image with its header and signature (R343, R414). -/
  image : List Byte
deriving DecidableEq, Repr

/-- A macro in progress (R353): the instruction and its length in words, the image of a microcode macro (R357), the threads
still stepping (bit 0 alone for a TG-wide macro), whether one wrote SLICE, and the threads that faulted in park mode. In blnd
(R386), the threads that the current pass has still to look at, and whether the pass has blended one. -/
structure MacRun where
  instr : Instr
  words : Nat
  mc : Option Microcode
  running : Mask
  slice : Bool
  faults : List (Nat × EngineFault)
  pass : Mask
  progress : Bool
deriving DecidableEq, Repr

/-- How far a pending end of the TG has come (R266, R328). -/
inductive Ending where
  | none
  /-- The launch failed: end_tg at the next instruction boundary, without raising TRAPN. -/
  | launchFailed
  /-- An invalidated transfer fault: end_tg(ADDR) for this address. -/
  | addr (va : W64)
deriving DecidableEq, Repr

/-- A thread group (R18). -/
structure Tg where
  ctx : Nat
  launch : Nat
  crew : Nat
  /-- Number within the launch (%tg), and index within the crew. -/
  num : BitVec 64
  idx : Nat
  crewNum : BitVec 64
  core : Nat
  sub : Nat
  /-- Resident on its core, or saved (R298). -/
  resident : Bool
  /-- Order of becoming resident (R295). -/
  order : Nat
  pc : W64
  mask : Mask
  xmask : Mask
  /-- Vector registers by physical slot (R79); a row not listed is 0. -/
  v : SMap (Row W32)
  /-- s0 to s60; one not listed is 0. -/
  s : SMap W64
  /-- p0 to p6; a row not listed is 0. -/
  p : SMap (Row (BitVec 4))
  /-- f0 to f7; a row not listed is null. -/
  f : SMap (Row FReg)
  reconv : Reconv
  win : WinRegs
  trap : TrapRegs
  mode : ModeRegs
  task : TaskRegs
  threads : Row ThreadTask
  frames : List InlineFrame
  share : List ShareEntry
  flushSeq : Nat
  stores : List PStore
  /-- Releases of other TGs that its loads have read, for its next acquire fence (R198). -/
  seen : List Nat
  /-- Writes of other agents that it has read while what precedes them was unperformed, by mark and place in program order: its later
  releases hand on what precedes them (R199). -/
  reads : List (Nat × Nat)
  /-- Its release fences that an earlier store or noted read can still meet: place in program order and scope (R193, R198). -/
  fences : List (Nat × Nat)
  /-- Second halves of its last access (R157). -/
  late : List Half
  wait : Wait
  /-- The clk at which its next instruction can issue (R157, R295). -/
  readyAt : Nat
  mac : Option MacRun
  /-- Microcode macros of the TG between issues: the address and the image they began under (R66, R343). -/
  mcOld : List (W64 × Microcode)
  /-- A BUDGET trap is pending; it has been taken in this slice; it caused a forced stop (R296, R333). -/
  budget : Bool
  budgetTaken : Bool
  budgetForced : Bool
  /-- Stopped by a forced stop, so all register slots are saved (R333). -/
  forced : Bool
  /-- The TG must be pre-empted at its next pre-emption point (R297); it stands at one and waits for its crew's save. -/
  preempt : Bool
  held : Bool
  /-- Its slice has ended in this step, at the end of which pre-emption is decided with its new deadline (R319). -/
  sliceEnd : Bool
  /-- clk issued since the last pre-emption point (R333). -/
  sinceSafe : Nat
  /-- Spawn slot of a fired TG (R301). -/
  slot : Option Nat
  ending : Ending
  /-- A gang instruction of another TG differed: GANG at the next gang instruction (R241). -/
  gangBad : Bool
  /-- Invalidated by the fault server: ADDR at the faulted instruction, with the address and the thread that faulted (R153). -/
  faultInval : Option (W64 × Nat)
  /-- Its requests to other modules go undelivered: ADDR at the requesting instruction (R407). -/
  linkLost : Bool
deriving DecidableEq, Repr

/-- The form of a matrix register in issue order (R237, R270). -/
inductive MForm where
  | empty
  | dense (t : Ty)
  | fact (bf : Bool) (rank : Nat)
  /-- FORM 8: the kind (fact or rcmp), the rank of its source, the last completed stage. -/
  | work (isFact : Bool) (rank : Nat) (stage : Nat)
deriving DecidableEq, Repr

/-- The state of recompress or factorise after a stage (R46, R283): FP32 columns, 64 or r long. `su` and `sv` keep the
source, which a non-finite value found at stage 10 gives back (R46). -/
structure Work where
  su : List (List W32)
  sv : List (List W32)
  qu : List (List W32)
  tu : List (List W32)
  qv : List (List W32)
  tv : List (List W32)
  c : List (List W32)
  w : List (List W32)
deriving DecidableEq, Repr

/-- The contents of a matrix register. Dense elements are bits in row-major order; factor columns are bits. -/
inductive MVal where
  | empty
  | dense (t : Ty) (e : List W32)
  | fact (bf : Bool) (u v : List (List W32))
  | work (w : Work)
deriving DecidableEq, Repr

/-- An operand of an engine operation (R255): a matrix register, or a ring with the slot claimed. -/
inductive MOperand where
  | reg (n : Nat)
  | ring (n : Nat) (claim : Nat)
deriving DecidableEq, Repr

/-- What an engine operation computes (R255, R263, R278 to R282). The scalars it needs were read at the col. -/
inductive EngineWork where
  | mma (d : Nat) (a b : MOperand) (src : Ty) (tb : Bool)
  | mmaBlk (out a b : MOperand) (src : Ty)
  | mul (ty : Ty) (d a b : Nat)
  | muld (ty : Ty) (d a b : Nat) (factFirst : Bool)
  | add (ty : Ty) (d a b : Nat)
  | scl (ty : Ty) (d a : Nat) (f : W32)
  | trunc (ty : Ty) (d a : Nat) (k : Nat)
  | dense (d a : Nat)
deriving DecidableEq, Repr

/-- An issued, uncompleted engine operation (R251 to R254). -/
structure EngineOp where
  id : Nat
  stream : Nat
  work : EngineWork
  /-- The form its result takes in issue order, and those of the registers it reads (R274). -/
  form : MForm
  forms : List (Nat × MForm)
  /-- The rank-overflow mode makes the result dense (R272). -/
  overDense : Bool
  started : Bool
  /-- The operands as read at start; codebook entries are read then too (R248). -/
  result : Option MVal
  /-- Its result is undefined (R261, R273, R274). -/
  poison : Bool
deriving DecidableEq, Repr

/-- What a transfer does (R266, R276). Addresses and strides were read at the col. -/
inductive XferWork where
  | mzero (d : Nat) (ty : Ty) (empty : Bool)
  | mld (d : Nat) (ty : Ty) (base pitch : W64) (gl : Bool)
  | mst (d : Nat) (ty : Ty) (base pitch : W64) (gl : Bool) (rm : BitVec 3)
  | mmov (d a : Nat) (ty : Ty) (rm : BitVec 3)
  | set (d : Nat) (ty : Ty) (u v : W64) (rank : Nat) (gl : Bool)
  | get (d : Nat) (ty : Ty) (u v : W64) (rank : Nat) (gl : Bool)
deriving DecidableEq, Repr

/-- A transfer in the gang's load path (R260); `form` is the form its target takes in issue order, and `src` the one that the register
it reads has there. -/
structure Transfer where
  work : XferWork
  form : MForm
  src : MForm
  /-- The values it stores, once it has read its register, and the bytes moved so far by their number: those that it read, or 0 for
  those that it wrote (R194, R204). -/
  vals : Option (List Nat)
  moved : SMap Byte
  ctx : Nat
  /-- The deadline that its issuer last held (R152); the listed TGs that have not retired give the deadline of a fault. -/
  dl : W64
  /-- Bytes it wrote or read stand undefined (R261). -/
  poison : Bool
  fault : Option EngineFault
  /-- Its fault was invalidated at this address; it ends at the load path's next step (R266). -/
  dead : Option W64
deriving DecidableEq, Repr

/-- A register used by an operation whose stream no mwait has covered yet (R261). -/
structure Hazard where
  op : Nat
  stream : Nat
  reads : List Nat
  write : Option Nat
  dense : Bool
deriving DecidableEq, Repr

/-- The instruction a gang collects at its col (R241): its pc, the instruction, the guard result of the first arrival, and
the TGs that have arrived with their guard results. -/
structure Col where
  pc : W64
  words : Nat
  instr : Instr
  guard : Bool
  arrived : List Nat
  /-- Requested a token at this stamp and clk; the checks have passed (R254). -/
  request : Option (Nat × Nat)
  /-- A token has been granted to it (R254). -/
  token : Bool
  /-- Stage of mlr.rcmp or mlr.fact that is running (R283). -/
  stage : Option Nat
  /-- clk that it has waited for tokens, counted when it completes (R410). -/
  denied : Option Nat
  /-- After a mismatch, the indexes of the listed TGs that have not taken their GANG trap yet (R241). -/
  trapping : Option (List Nat)
deriving DecidableEq, Repr

/-- A gang (R240 to R243). -/
structure Gang where
  mask : BitVec 16
  formed : Bool
  dissolved : Bool
  /-- The col object's phase and counts (R241). -/
  colObj : Obj
  col : Option Col
  streams : List Obj
  /-- Forms in issue order, and contents as performed. -/
  form : SMap MForm
  val : SMap MVal
  ops : List EngineOp
  xfers : List Transfer
  hazards : List Hazard
  /-- Registers written by transfers since the last mfence.op. -/
  unfenced : List Nat
deriving DecidableEq, Repr

/-- A staging reservation (R245, R246): the request, the four counters, whether it is being freed, and the operation of its
subscription. The counters are counted without end; the record's 16-bit fields are their low 16 bits. -/
structure Ring where
  req : W64
  pc : Nat
  cc : Nat
  pcl : Nat
  ccl : Nat
  freeing : Bool
  sub : Option Nat
  /-- Claims whose slot is filled but not yet passed by PC; likewise slots read and CC. -/
  pdone : List Nat
  cdone : List Nat
  /-- Producer and consumer claims ended without a transfer, as intervals [lo, hi) (R247). -/
  pend : List (Nat × Nat)
  cend : List (Nat × Nat)
deriving DecidableEq, Repr

/-- A crew (R18): launched, or fired from a bin. -/
structure Crew where
  ctx : Nat
  launch : Nat
  num : Nat
  spawned : Bool
  core : Option Nat
  /-- Saved and waiting to be restored (R298). -/
  saved : Bool
  tgs : List Nat
  /-- TGs that have not retired. -/
  live : Nat
  scratchSize : Nat
  nbar : Nat
  scratch : SMap Byte
  stageSize : Nat
  nrsv : Nat
  staging : SMap Byte
  rings : SMap Ring
  gangs : SMap Gang
  slabs : Nat
  gmax : Nat
  /-- Vector registers per thread of its TGs. -/
  k : Nat
  /-- Acceptance order of its launch, or order of firing. -/
  order : Nat
  /-- The die of a fired TG (R301). -/
  die : Option Nat
  preempt : Bool
deriving DecidableEq, Repr

/-- A launch descriptor as read at acceptance (R289). -/
structure Desc where
  entry : W64
  args : W64
  stat : W64
  hlist : W64
  dlrel : W64
  budget : W32
  ncrew : Nat
  crewtg : Nat
  regs : Nat
  carve : Nat
  modes : BitVec 8
  nhandle : Nat
  scratch : Nat
  nbar : Nat
  rankcap : Nat
  stage : Nat
  nrsv : Nat
  gangs : Nat
  slabs : Nat
  talus : W64
  tstride : Nat
  mtol : W32
  rspb : W64
  rsstride : Nat
  inldepth : Nat
  inlb : W64
  redsp : W64
  redsz : Nat
  sparea : W64
  expa : List (BitVec 16)
deriving DecidableEq, Repr

/-- A launch (R289 to R293). -/
structure Launch where
  ctx : Nat
  desc : Desc
  /-- Status-record fields (R290). -/
  seq : W64
  state : BitVec 8
  cause : BitVec 8
  trapn : W32
  flags : BitVec 8
  tstart : W64
  tvec : W64
  failed : Bool
  waits : List Nat
  /-- Crews placed so far, as numbers of the launch. -/
  placed : List Nat
  /-- Future entry of a launch instruction (R321). -/
  fut : Option W64
  /-- Timers set by bin.set, by entry address (R320). -/
  timers : SMap Nat
  /-- Entries of the reduction spill area in use (R189). -/
  spilled : Nat
  order : Nat
deriving DecidableEq, Repr

/-- The writer of a buffer handle and the readers accepted since (R293). -/
structure HandleUse where
  writer : Option Nat
  readers : List Nat
deriving DecidableEq, Repr

/-- A user queue (R286 to R288): its descriptor, its slot, and the notify register of the slot. -/
structure Queue where
  desc : W64
  slot : Option Nat
  notify : W64
deriving DecidableEq, Repr

/-- A context (R336, R402). -/
structure Context where
  function : Nat
  system : Bool
  memdef : W64
  seed : W64
  ftbase : W64
  ftsize : W64
  safemax : W64
  faultmode : Bool
  savebase : W64
  ptroot : W64
  tvec : W64
  halted : Bool
  accepted : Nat
  handles : SMap HandleUse
  queues : SMap Queue
deriving DecidableEq, Repr

/-- A translation held by a TLB (R150): context, first virtual address, size, location, and the leaf's bits. -/
structure TlbEntry where
  ctx : Nat
  base : Nat
  size : Nat
  loc : Nat
  w : Bool
  x : Bool
  b : Bool
  /-- Location of the leaf, and whether its DIRTY bit is known set (R149). -/
  leaf : Nat
  dirty : Bool
deriving DecidableEq, Repr

/-- A codebook slot (R248): its sixteen BF16 entries and the crew that last loaded it. -/
structure Codebook where
  entries : List (BitVec 16)
  crew : Option Nat
deriving DecidableEq, Repr

/-- A core (R16). -/
structure CoreState where
  /-- KiB of scratchpad (R143); none while no launch has been placed. -/
  carve : Option Nat
  codebooks : SMap Codebook
  tlb : List TlbEntry
  /-- Per sub-scheduler, the clk until which its last instruction occupies it (R117, R138, R159, R426). -/
  busy : SMap Nat
deriving DecidableEq, Repr

/-- A thread waiting in a bin (R301). -/
structure BinThread where
  handle : W64
  payload : W64
  depth : Nat
  srec : SpawnRec
  dl : W64
deriving DecidableEq, Repr

/-- A filling bin (R301, R304): its key, its threads in order of arrival, its REGS and the clk its timer expires. -/
structure Bin where
  launch : Nat
  entry : W64
  regs : Nat
  due : Nat
  threads : List BinThread
deriving DecidableEq, Repr

/-- The agent of a fault (R152, SRC). -/
inductive FaultSrc where
  | instr | copy | matrix | mac | base | spill
deriving DecidableEq, Repr

/-- A recoverable fault (R152): the page, and what the record reports. -/
structure FaultInfo where
  ctx : Nat
  page : Nat
  va : W64
  src : FaultSrc
  kind : BitVec 8
  core : Nat
  dl : W64
  /-- Global time of the fault (R2). -/
  time : W64
deriving DecidableEq, Repr

/-- Registers and tables of a die. -/
structure Die where
  fqbase : W64
  fqsize : W64
  fqhead : W64
  fqtail : W64
  fqbar : W64
  fbbase : W64
  /-- Fault barriers assigned: index, context, page and time of the record (R152, R410). -/
  faults : SMap (Nat × Nat × Nat)
  heldFaults : List FaultInfo
  tlb : List TlbEntry
  pool : Obj
  unreserved : Nat
  /-- Bit d: the record reserved for depth d is taken. -/
  reserved : BitVec 16
  bins : SMap Bin
  /-- Spawn slots in use. -/
  slots : List Nat
  /-- The launch that serves the fault queue: a TG of it last waited at FQBAR or wrote FQHEAD (R299). DEDUCED, log 34. -/
  server : Option Nat
deriving DecidableEq, Repr

/-- A copy descriptor after its checks (R219, R223); also a 1-D copy and a fill. -/
structure CopyTile where
  src : W64
  dst : W64
  srcSp : Nat
  dstSp : Nat
  t0 : Nat
  t1 : Nat
  t2 : Nat
  ss1 : Int
  ss2 : Int
  ds1 : Int
  ds2 : Int
  e0 : Nat
  e1 : Nat
  e2 : Nat
  srct : Ty
  dstt : Ty
  rm : BitVec 3
  sat : Nat
  smode : Nat
  blen : Nat
  trans : Bool
  scl : W64
  /-- SRSEQ and SEED at issue (R39). -/
  seq : W32
  seed : W64
  /-- The first staging claim at each end, and the slots claimed. -/
  srcClaim : Nat
  dstClaim : Nat
  srcSlots : Nat
  dstSlots : Nat
deriving DecidableEq, Repr

/-- What a copy operation does. -/
inductive CopyWork where
  | tile (t : CopyTile)
  | fill (dst : W64) (sp : Nat) (count size : Nat) (value : W64) (claim : Nat) (slots : Nat)
  | topk (ty : Ty) (src dst scree : W64) (srcSp dstSp screeSp : Nat) (k blk n : Nat)
  | expand (ty : Ty) (src dst : W64) (srcSp dstSp : Nat) (k blk n pcnt : Nat)
  | sub (ring : Nat) (pull : Bool) (base : W64) (step : W64) (nt next : Nat) (slotSize claim : Nat)
deriving DecidableEq, Repr

/-- A byte that an operation has read and converted and not written yet (R204): its space (0 scratchpad, 1 global,
2 staging) and address, and the claim of its staging slot. -/
structure CByte where
  sp : Nat
  addr : Nat
  claim : Nat
  val : Byte
deriving DecidableEq, Repr

/-- A copy or subscription with bytes outstanding (R218, R233). -/
structure CopyOp where
  /-- The TG that issued it, whose agent it is (R194, R218), and the deadline that TG last held (R152). -/
  tg : Nat
  dl : W64
  /-- The base of the releases that its issue made of its issuer's earlier stores (R198, R236). -/
  rel : Nat
  ctx : Nat
  crew : Nat
  launch : Nat
  core : Nat
  /-- Its object, and the address that names one in global memory. -/
  obj : ObjRef
  objVa : Option W64
  work : CopyWork
  /-- Units that have been read and converted, as disjoint rising intervals [lo, hi), and of the others the bytes read so far by
  their number within the unit. -/
  got : List (Nat × Nat)
  parts : SMap (SMap Byte)
  /-- Bytes on their way, and declared bytes that have landed. -/
  pend : List CByte
  done : Nat
  /-- The fault it holds (R227). -/
  fault : Option EngineFault
  /-- Its fault was invalidated; the rest of it ends at the engine's next step (R227). -/
  dead : Bool
deriving DecidableEq, Repr

/-- A red.det contribution on its way to or held at a home slice (R188, R189). -/
structure Contrib where
  launch : Nat
  loc : Nat
  ty : Ty
  val : W64
  core : Nat
  tg : Nat
  seq : Nat
  /-- The base of the releases that its flush made of the TG's earlier stores, where it made some (R190, R198). -/
  rel : Option Nat
  spilled : Bool
  /-- The TG that sent it, and the address and thread that a trap for it reports (R407). -/
  owner : Nat := 0
  va : W64 := 0
  tid : Nat := 0
deriving DecidableEq, Repr

/-- A discarded byte (R147): the value its backing memory held when the discard took place. A byte not listed reads its
last write. -/
abbrev Discards := SMap Byte

/-- What a record of the module says: an event of the Ralfester (R411, R415), a report to the host (R410, R414), the end of a
function-level reset and what a read of a notify address returns (R405), a reply over a link and the wake of a remote waiter (R408), what the host
reads of memory (R194), a policy write refused (R415), or a command that a disabled module
turns away (R413). -/
inductive HostEvent where
  | alarm (a : Alarm) (policy : BitVec 2)
  | softError (array : ErrArray) (ctx : Option Nat)
  | counter (index : Nat) (value : Nat)
  | report (body sig : List Byte)
  | flrDone (function : Nat)
  | linkReply (data : List Byte)
  | linkWake (loc : Nat)
  | memRead (loc : Nat) (data : List Byte)
  | regRead (ctx queue : Nat) (value : W64)
  | refusedPolicy
  | turnedAway
deriving DecidableEq, Repr

/-- A record: its time stamp and 16-bit source number, which order it with the module's number (R2, R409). -/
structure HostRecord where
  time : W64
  source : BitVec 16
  event : HostEvent
deriving DecidableEq, Repr

/-- The Ralfester controller and the package (R410 to R415). -/
structure Ralfester where
  mode : PowerMode
  stepDown : Bool
  /-- Power tokens held (R254). -/
  tokens : Nat
  /-- Lifetime counters by index (R410; the indexes are the model's, Machine/Mem.lean). -/
  counters : SMap Nat
  savedCounters : SMap Nat
  policies : SMap (BitVec 2)
  ralfFloor : Nat
  cpFloor : Nat
  microFloor : W64
  measurements : List (List Byte)
  reports : Nat
  booted : Bool
  /-- Boot refused an image, or an alarm disabled the module (R413, R415). -/
  disabled : Bool
  /-- Key store erased by an alarm (R415). -/
  keysErased : Bool
deriving DecidableEq, Repr

/-- A write of the host (R194, R205): bytes at a physical location. -/
structure HostWrite where
  loc : Nat
  data : List Byte
deriving DecidableEq, Repr

/-- A move: a TG issues, another agent makes a step of the table, or the host writes or reads memory or reads a queue's notify address
(DESIGN CHOICE, log 2, log 10). -/
inductive Move where
  | issue (tg : Nat)
  | agent (i : Instr)
  | host (w : HostWrite)
  | hostLoad (loc n : Nat) (acq : Bool)
  | hostRead (ctx queue : Nat)
deriving DecidableEq, Repr

/-- The machine. -/
structure State where
  /-- Model fields, not the spec's (DESIGN CHOICE, log 2, log 3): the moves decided, the TG that issues, the count of free draws, a
  counter that orders arrivals, and the count of moves chosen freely. -/
  agenda : List Move
  cur : Nat
  tick : Nat
  stamp : Nat
  waited : Nat
  /-- Global memory by location (R139, R140, R403). A byte not listed reads 0 (DESIGN CHOICE, log 4). -/
  mem : SMap Byte
  /-- Values the backing memory of a dirty byte may still hold (R147, R160). -/
  older : SMap (List Byte)
  disc : Discards
  /-- Releases that order stores which are not performed yet (R199). -/
  releases : List Release
  /-- The future-table entries in use, by location: the bytes that the future cache last wrote, or none once a program store has
  been found in them (R15, R306). -/
  entries : SMap (Option (List Byte))
  /-- 64-bit count of clk since device reset (R55), and the global time at reset (R2). -/
  clk : Nat
  gbase : W64
  contexts : SMap Context
  launches : SMap Launch
  crews : SMap Crew
  tgs : SMap Tg
  cores : SMap CoreState
  dies : SMap Die
  copies : SMap CopyOp
  contribs : List Contrib
  held : List Contrib
  /-- The locations of the objects that TGs of other modules are parked on (R179, R408). -/
  remoteWaits : List Nat
  microcode : SMap Microcode
  /-- Module halted by halt.module or the Ralfester (R344, R411); accepts no command. -/
  halted : Bool
  /-- Functions whose reset has not completed (R405). -/
  resetting : List Nat
  ralf : Ralfester
  /-- Records in the order of R409. -/
  events : List HostRecord
deriving DecidableEq, Repr

/-- Why the machine stops with a fault. -/
inductive Fault where
  /-- A step of a memory agent (a page walk, a queue read) reached a physical location that no HBM stack, host memory or
  module holds (R140). Raised by the untranslated accesses of Machine/Ops.lean. Safe: the machine stops. -/
  | noMemory (loc : Nat)
deriving DecidableEq, Repr

/-- Why the model gives no next state. -/
inductive Refusal where
  /-- An arm of exec without a meaning. Raised only in Machine/Dispatch.lean. Safe: the run stops. -/
  | notModelled (mnemonic : String)
  /-- An instruction was given to exec while no thread group issues. Raised by every instruction's meaning. Safe. -/
  | noThreadGroup
  /-- A step of another agent was given to exec in a state where the spec does not let that agent make it. Raised by the
  meanings of Machine/Agents*.lean. Safe: nothing happens that the spec does not allow. -/
  | eventNotEnabled
deriving DecidableEq, Repr

def CoreState.reset : CoreState := { carve := none, codebooks := [], tlb := [], busy := [] }

/-- A die after reset: nothing assigned, every record, bin and slot free, the pool barrier 0 (R302). -/
def Die.reset : Die :=
  { fqbase := 0, fqsize := 0, fqhead := 0, fqtail := 0, fqbar := 0, fbbase := 0, faults := [], heldFaults := [], tlb := []
    pool := .fresh 0, unreserved := 0, reserved := 0, bins := [], slots := [], server := none }

/-- The Ralfester after reset; mode, floors, policies and counters are the model's choice (DESIGN CHOICE, log 6). -/
def Ralfester.reset : Ralfester :=
  { mode := .peak, stepDown := false, tokens := 0, counters := [], savedCounters := [], policies := [], ralfFloor := 0
    cpFloor := 0, microFloor := 0, measurements := [], reports := 0, booted := false, disabled := false, keysErased := false }

/-- The machine right after device reset: no context, launch, crew or TG; every unit empty; clk 0 (R55). -/
def State.reset : State :=
  { agenda := [], cur := 0, tick := 0, stamp := 0, waited := 0, mem := [], older := [], disc := [], releases := [], entries := [], clk := 0, gbase := 0
    contexts := [], launches := [], crews := [], tgs := [], cores := [], dies := [], copies := [], contribs := []
    held := [], remoteWaits := [], microcode := [], halted := false, resetting := [], ralf := .reset, events := [] }

end Sys2Proof.Machine
end

