-- ==== Sys2Proof/Machine/Maps.lean ====
section
/-! DEFINITION. The operations on keyed collections. `SMap.get`/`SMap.set` read a default where nothing is listed and list
nothing that equals it, so equal contents are equal data; `SMap.find`/`SMap.put`/`SMap.del` have no default. -/

namespace Sys2Proof.Machine

/-- The entry at a key. -/
def SMap.find {α : Type} (m : SMap α) (k : Nat) : Option α :=
  match m with
  | [] => none
  | (k', a) :: r => if k' = k then some a else SMap.find r k

/-- The entry at a key, or the default. -/
def SMap.get {α : Type} (d : α) (m : SMap α) (k : Nat) : α := (SMap.find m k).getD d

/-- Insertion before the first greater key. -/
def SMap.ins {α : Type} (k : Nat) (a : α) (m : SMap α) : SMap α :=
  match m with
  | [] => [(k, a)]
  | (k', a') :: r => if k < k' then (k, a) :: (k', a') :: r else (k', a') :: SMap.ins k a r

/-- The map without a key. -/
def SMap.del {α : Type} (m : SMap α) (k : Nat) : SMap α := m.filter fun p => p.1 != k

/-- The map with an entry at a key. -/
def SMap.put {α : Type} (m : SMap α) (k : Nat) (a : α) : SMap α := SMap.ins k a (SMap.del m k)

/-- The map with an entry at a key, not listed where it is the default. -/
def SMap.set {α : Type} [DecidableEq α] (d : α) (m : SMap α) (k : Nat) (a : α) : SMap α :=
  if a = d then SMap.del m k else SMap.put m k a

/-- The map with the entry at a key changed. -/
def SMap.adjust {α : Type} (m : SMap α) (k : Nat) (f : α → α) : SMap α := m.map fun p => if p.1 = k then (p.1, f p.2) else p

def SMap.has {α : Type} (m : SMap α) (k : Nat) : Bool := (SMap.find m k).isSome

/-- A key above every key listed. -/
def SMap.fresh {α : Type} (m : SMap α) : Nat := (m.map (·.1)).foldl Nat.max 0 + 1

/-- The lowest key not listed. -/
def SMap.lowFree {α : Type} (m : SMap α) : Nat :=
  ((List.range (m.length + 1)).find? fun k => !SMap.has m k).getD m.length

/-- Keys strictly rising. -/
def SMap.sorted {α : Type} (m : SMap α) : Bool :=
  match m with
  | [] => true
  | [_] => true
  | p :: q :: r => decide (p.1 < q.1) && SMap.sorted (q :: r)

/-- The canonical form of a map with a default. -/
def SMap.wf {α : Type} [DecidableEq α] (d : α) (m : SMap α) : Bool := SMap.sorted m && m.all fun p => decide (p.2 ≠ d)

/-- Disjoint rising intervals `[lo, hi)`: the intervals with `i` added. -/
def Ivs.add (l : List (Nat × Nat)) (i : Nat) : List (Nat × Nat) :=
  match l with
  | [] => [(i, i + 1)]
  | (lo, hi) :: r =>
    if i + 1 < lo then (i, i + 1) :: (lo, hi) :: r
    else if i + 1 = lo then (i, hi) :: r
    else if i < hi then (lo, hi) :: r
    else if i = hi then
      match r with
      | (lo', hi') :: r' => if hi + 1 = lo' then (lo, hi') :: r' else (lo, hi + 1) :: r
      | [] => [(lo, hi + 1)]
    else (lo, hi) :: Ivs.add r i

def Ivs.has (l : List (Nat × Nat)) (i : Nat) : Bool := l.any fun p => decide (p.1 ≤ i) && decide (i < p.2)

def Ivs.size (l : List (Nat × Nat)) : Nat := (l.map fun p => p.2 - p.1).sum

/-- The `n`-th number not in the intervals. -/
def Ivs.nthFree (l : List (Nat × Nat)) (n : Nat) : Nat :=
  match l with
  | [] => n
  | (lo, hi) :: r => if n < lo then n else Ivs.nthFree r (n + (hi - lo))

end Sys2Proof.Machine
end

