-- ==== Sys2Proof/Machine/Num.lean ====
section
/-! DEFINITION. Number formats and exact arithmetic (03_numbers.md, R27 to R43, R47): each helper once. An exact value is
a sign and a positive fraction of naturals, so every result is rounded once from its exact value. -/

namespace Sys2Proof.Machine

/-- wrap(x, w) of an integer (R3). -/
def wrapInt (x : Int) (w : Nat) : Nat := (x % (2 ^ w : Nat)).toNat

/-- sext of R29. -/
def sextInt (x : Int) (w : Nat) : Int :=
  let u := wrapInt x w
  if 2 ^ (w - 1) ≤ u then (u : Int) - (2 ^ w : Nat) else u

/-- sat_s of R29. -/
def satS (x : Int) (w : Nat) : Int := min (max x (-(2 ^ (w - 1) : Nat))) ((2 ^ (w - 1) : Nat) - 1)

/-- sat_u of R29. -/
def satU (x : Int) (w : Nat) : Int := min (max x 0) ((2 ^ w : Nat) - 1)

/-- An exact value (R36): a number, ±inf, NaN, or a zero with its sign. `fin neg n d` is ±n/d with n, d > 0. -/
inductive Exact where
  | nan
  | inf (neg : Bool)
  | zero (neg : Bool)
  | fin (neg : Bool) (num den : Nat)
deriving DecidableEq, Repr

/-- A floating format (R30): mantissa bits, bias, sign position, the largest finite encoding, infinity, canonical NaN (R33). -/
structure Fmt where
  m : Nat
  bias : Nat
  sign : Nat
  maxEnc : Nat
  inf : Option Nat
  nan : Nat
deriving DecidableEq, Repr

def fmtF32 : Fmt := { m := 23, bias := 127, sign := 31, maxEnc := 0x7F7FFFFF, inf := some 0x7F800000, nan := 0x7FC00000 }
def fmtF16 : Fmt := { m := 10, bias := 15, sign := 15, maxEnc := 0x7BFF, inf := some 0x7C00, nan := 0x7E00 }
def fmtBf16 : Fmt := { m := 7, bias := 127, sign := 15, maxEnc := 0x7F7F, inf := some 0x7F80, nan := 0x7FC0 }
def fmtE4m3 : Fmt := { m := 3, bias := 7, sign := 7, maxEnc := 0x7E, inf := none, nan := 0x7F }
def fmtE5m2 : Fmt := { m := 2, bias := 15, sign := 7, maxEnc := 0x7B, inf := some 0x7C, nan := 0x7E }

/-- The format of a floating type, of the element for a packed type. -/
def Ty.fmt : Ty → Fmt
  | .f16 | .f16x2 => fmtF16
  | .bf16 | .bf16x2 => fmtBf16
  | .e4m3 => fmtE4m3
  | .e5m2 => fmtE5m2
  | _ => fmtF32

/-- ±n·2^e as an exact value. -/
def Exact.ofDyadic (neg : Bool) (n : Nat) (e : Int) : Exact :=
  if n = 0 then .zero neg else .fin neg (n * 2 ^ e.toNat) (2 ^ (-e).toNat)

/-- The exact value of an integer. -/
def Exact.ofInt (x : Int) : Exact := Exact.ofDyadic (decide (x < 0)) x.natAbs 0

/-- decode of R31 for a format with a sign. -/
def Fmt.decode (f : Fmt) (bits : Nat) : Exact :=
  let neg := bits.testBit f.sign
  let mag := bits % 2 ^ f.sign
  if f.inf = some mag then .inf neg
  else if f.maxEnc < mag then .nan
  else
    let e := mag / 2 ^ f.m
    let fr := mag % 2 ^ f.m
    if e = 0 then Exact.ofDyadic neg fr (1 - (f.bias : Int) - f.m)
    else Exact.ofDyadic neg (2 ^ f.m + fr) ((e : Int) - f.bias - f.m)

/-- decode of R31 for every type; an e8m0 code 0xFF is NaN. -/
def decodeTy (t : Ty) (bits : Nat) : Exact :=
  match t with
  | .e8m0 => if bits % 256 = 255 then .nan else Exact.ofDyadic false 1 ((bits % 256 : Nat) - 127)
  | t => (Ty.fmt t).decode bits

/-- floor_log2 of n/d (R31). -/
def floorLog2 (n d : Nat) : Int :=
  let l : Int := (n.log2 : Int) - d.log2
  if d * 2 ^ l.toNat ≤ n * 2 ^ (-l).toNat then l else l - 1

/-- How a magnitude is rounded: R35, with the random bits of sr. -/
inductive Rnd where
  | rne | rtz | rup | rdn
  | sr (bits : Nat)
deriving DecidableEq, Repr

def Rnd.ofCode (c : BitVec 3) (bits : Nat) : Rnd :=
  match c.toNat with
  | 0 => .rne
  | 1 => .rtz
  | 2 => .rup
  | 3 => .rdn
  | _ => .sr bits

/-- Whether q + r/d, with 0 ≤ r < d, rounds up in magnitude (R36). -/
def Rnd.up (mode : Rnd) (neg : Bool) (q r d : Nat) : Bool :=
  match mode with
  | .rne => decide (d < 2 * r) || (decide (2 * r = d) && decide (q % 2 = 1))
  | .rtz => false
  | .rup => decide (0 < r) && !neg
  | .rdn => decide (0 < r) && neg
  | .sr bits => decide (2 ^ 32 ≤ r * 2 ^ 32 / d + bits)

/-- n/d on the grid 2^sh, rounded to an integer number of grid steps. -/
def gridRound (mode : Rnd) (neg : Bool) (n d : Nat) (sh : Int) : Nat :=
  let n' := n * 2 ^ (-sh).toNat
  let d' := d * 2 ^ sh.toNat
  let q := n' / d'
  if mode.up neg q (n' % d') d' then q + 1 else q

def Fmt.withSign (f : Fmt) (neg : Bool) (mag : Nat) : Nat := if neg then 2 ^ f.sign + mag else mag

/-- NaN(F), ±inf or what stands for it in a format without infinity (R36). -/
def Fmt.infinity (f : Fmt) (neg sat : Bool) : Nat :=
  if sat then f.withSign neg f.maxEnc
  else match f.inf with
    | some i => f.withSign neg i
    | none => f.nan

/-- Whether an overflow stays at ±MAXF in this mode (R36). -/
def Rnd.stays (mode : Rnd) (neg : Bool) : Bool :=
  match mode with
  | .rtz => true
  | .rup => neg
  | .rdn => !neg
  | _ => false

/-- round of R36: the encoding of the rounded value. -/
def Fmt.round (f : Fmt) (x : Exact) (mode : Rnd) (sat : Bool) : Nat :=
  match x with
  | .nan => f.nan
  | .inf neg => f.infinity neg sat
  | .zero neg => f.withSign neg 0
  | .fin neg n d =>
    let emin : Int := 1 - (f.bias : Int)
    let e := max (floorLog2 n d) emin
    let q := gridRound mode neg n d (e - f.m)
    -- The encoding above the sign is linear in q: a subnormal when e = emin and q < 2^m, and q = 2^(m+1) carries over.
    let mag := (e - emin).toNat * 2 ^ f.m + q
    if f.maxEnc < mag then
      if sat || mode.stays neg then f.withSign neg f.maxEnc else f.infinity neg false
    else f.withSign neg mag

/-- The default or explicit saturation of a conversion to `t` (R40): 0 default, 1 .sat, 2 .nosat. -/
def effSat (t : Ty) (code : Nat) : Bool :=
  match code with
  | 0 => t == .e4m3
  | 1 => true
  | _ => false

/-! ### Exact arithmetic with the special cases of R37 -/

def Exact.isNan : Exact → Bool
  | .nan => true
  | _ => false

def Exact.isInf : Exact → Bool
  | .inf _ => true
  | _ => false

def Exact.isZero : Exact → Bool
  | .zero _ => true
  | _ => false

/-- A finite nonzero value or a zero. -/
def Exact.isFinite : Exact → Bool
  | .zero _ | .fin .. => true
  | _ => false

def Exact.sign : Exact → Bool
  | .nan => false
  | .inf n | .zero n | .fin n _ _ => n

def Exact.neg : Exact → Exact
  | .nan => .nan
  | .inf n => .inf !n
  | .zero n => .zero !n
  | .fin n a b => .fin (!n) a b

def Exact.abs : Exact → Exact
  | .nan => .nan
  | .inf _ => .inf false
  | .zero _ => .zero false
  | .fin _ a b => .fin false a b

/-- Signed numerator over a common reading: numerator and denominator of a finite value. -/
def Exact.frac : Exact → Int × Nat
  | .fin n a b => (if n then -(a : Int) else a, b)
  | _ => (0, 1)

/-- ±n/d from a signed numerator; a zero has the sign `z`. -/
def Exact.ofFrac (n : Int) (d : Nat) (z : Bool) : Exact :=
  if n = 0 then .zero z else .fin (decide (n < 0)) n.natAbs d

/-- A sum of addends: NaN, infinities, and an exact zero by R37, which is −0 under rdn unless all addends are zeros of
one sign. -/
def Exact.sum (mode : Rnd) (xs : List Exact) : Exact :=
  let rdn := mode == .rdn
  if xs.any Exact.isNan then .nan
  else if xs.any (· == .inf false) then (if xs.any (· == .inf true) then .nan else .inf false)
  else if xs.any (· == .inf true) then .inf true
  else if xs.all (· == .zero false) then .zero false
  else if xs.all (· == .zero true) then .zero true
  else
    let s := xs.foldl (fun (acc : Int × Nat) x =>
      let (n, d) := x.frac
      if acc.2 = d then (acc.1 + n, d) else (acc.1 * d + n * acc.2, acc.2 * d)) (0, 1)
    Exact.ofFrac s.1 s.2 rdn

def Exact.mul (a b : Exact) : Exact :=
  let s := a.sign != b.sign
  match a, b with
  | .nan, _ | _, .nan => .nan
  | .inf _, .zero _ | .zero _, .inf _ => .nan
  | .inf _, _ | _, .inf _ => .inf s
  | .zero _, _ | _, .zero _ => .zero s
  | .fin _ n d, .fin _ n' d' => .fin s (n * n') (d * d')

def Exact.div (a b : Exact) : Exact :=
  let s := a.sign != b.sign
  match a, b with
  | .nan, _ | _, .nan => .nan
  | .inf _, .inf _ => .nan
  | .zero _, .zero _ => .nan
  | .inf _, _ => .inf s
  | .zero _, _ => .zero s
  | .fin .., .zero _ => .inf s
  | .fin .., .inf _ => .zero s
  | .fin _ n d, .fin _ n' d' => .fin s (n * d') (d * n')

/-- floor of the square root of `n`, bit by bit from bit `k`. -/
def isqrtFrom (n : Nat) : Nat → Nat → Nat
  | 0, r => if (r + 1) * (r + 1) ≤ n then r + 1 else r
  | k + 1, r =>
    let r' := r + 2 ^ (k + 1)
    isqrtFrom n k (if r' * r' ≤ n then r' else r)

def isqrt (n : Nat) : Nat := isqrtFrom n (n.log2 / 2 + 1) 0

/-- √(n/d) as a fraction that rounds as the exact root does in every mode and format: the floor on a grid of at least 100
significant bits, with a sticky quarter step when the root is not on it. -/
def sqrtFrac (n d : Nat) : Nat × Nat :=
  let k := 100 + d.log2
  -- √(n/d) = √(n·d)/d
  let t := n * d * 4 ^ k
  let r := isqrt t
  if r * r = t then (r, d * 2 ^ k) else (4 * r + 1, 4 * d * 2 ^ k)

/-- √a with the special cases of R37. -/
def Exact.sqrt : Exact → Exact
  | .nan => .nan
  | .inf n => if n then .nan else .inf false
  | .zero n => .zero n
  | .fin n a b => if n then .nan else let (p, q) := sqrtFrac a b; .fin false p q

/-- a · 2^n; |n| is cut at 1,200, where every format has overflowed or vanished (R126). -/
def Exact.scale (a : Exact) (n : Int) : Exact :=
  let n := max (min n 1200) (-1200)
  match a with
  | .fin s p q => .fin s (p * 2 ^ n.toNat) (q * 2 ^ (-n).toNat)
  | x => x

/-- a < b on values other than NaN; both zeros are equal. -/
def Exact.lt (a b : Exact) : Bool :=
  match a, b with
  | .nan, _ | _, .nan => false
  | .inf s, .inf t => s && !t
  | .inf s, _ => s
  | _, .inf t => !t
  | x, y =>
    let (n, d) := x.frac
    let (n', d') := y.frac
    decide (n * d' < n' * d)

/-- Equal values, with −0 equal to +0. -/
def Exact.eqv (a b : Exact) : Bool := !a.isNan && !b.isNan && !a.lt b && !b.lt a

/-! ### The FP32 helpers of R37 on encodings -/

def f32 (b : W32) : Exact := fmtF32.decode b.toNat
def toF32 (x : Exact) : W32 := BitVec.ofNat 32 (fmtF32.round x .rne false)

def fadd (a b : W32) : W32 := toF32 (Exact.sum .rne [f32 a, f32 b])
def fsub (a b : W32) : W32 := toF32 (Exact.sum .rne [f32 a, (f32 b).neg])
def fmul (a b : W32) : W32 := toF32 ((f32 a).mul (f32 b))
def ffma (a b c : W32) : W32 := toF32 (Exact.sum .rne [(f32 a).mul (f32 b), f32 c])
def fdiv (a b : W32) : W32 := toF32 ((f32 a).div (f32 b))
def fsqrt (a : W32) : W32 := toF32 (f32 a).sqrt
def fneg (a : W32) : W32 := a ^^^ 0x80000000#32
def fabs (a : W32) : W32 := a &&& 0x7FFFFFFF#32
/-- 1.0 in FP32. -/
def fone : W32 := 0x3F800000

/-! ### Stochastic rounding (R38) -/

/-- H of R38. -/
def hash32 (x : W32) : W32 :=
  let x := x ^^^ (x >>> 16)
  let x := x * 0x2F693B5D#32
  let x := x ^^^ (x >>> 15)
  let x := x * 0x9C1A7E93#32
  x ^^^ (x >>> 16)

/-- LKS of R38. -/
def lks (v s : W32) : W32 :=
  let v := v + s
  let v := v ^^^ (v * 0x2C4E9A18#32)
  let v := v ^^^ (v * 0x7B31D6E0#32)
  let v := v ^^^ (v * 0x96A24C3C#32)
  v ^^^ (v * 0xE1F05B28#32)

/-- brev32 of R38, and brev of R105 for any width. -/
def brevNat (x w : Nat) : Nat := (List.range w).foldl (fun acc i => 2 * acc + (if x.testBit i then 1 else 0)) 0

def brev32 (x : W32) : W32 := BitVec.ofNat 32 (brevNat x.toNat 32)

/-- srbits(e) of R38. -/
def srbits (seed : W64) (seq : W32) (e : Nat) : Nat :=
  (hash32 (hash32 (hash32 (seed.extractLsb' 0 32 ^^^ BitVec.ofNat 32 e) ^^^ seq) ^^^ seed.extractLsb' 32 32)).toNat

/-! ### Conversion (R40, R41) -/

/-- A finite value rounded to an integer in a mode; infinities and NaN are taken apart first. -/
def roundInt (x : Exact) (mode : Rnd) : Int :=
  match x with
  | .fin neg n d =>
    let q := gridRound mode neg n d 0
    if neg then -(q : Int) else q
  | _ => 0

/-- cvt_int of R41, as an unsigned bit pattern of `w` bits. -/
def cvtInt (x : Exact) (w : Nat) (signed : Bool) (mode : Rnd) : Int :=
  match x with
  | .nan => 0
  | .inf neg =>
    if signed then (if neg then -(2 ^ (w - 1) : Nat) else (2 ^ (w - 1) : Nat) - 1)
    else (if neg then 0 else (2 ^ w : Nat) - 1)
  | x => if signed then satS (roundInt x mode) w else satU (roundInt x mode) w

/-! ### Block scales (R42, R43) and bred (R47) -/

/-- The largest magnitude of finite values. -/
def maxAbs (xs : List Exact) : Exact := xs.foldl (fun acc x => if acc.lt x.abs then x.abs else acc) (.zero false)

/-- mx_scale of R42. -/
def mxScale (xs : List Exact) (t : Ty) : Nat :=
  if xs.any (fun x => !x.isFinite) then 0xFF
  else match maxAbs xs with
    | .fin _ n d => (min (max (floorLog2 n d - (if t == .e4m3 then 8 else 15) + 127) 0) 254).toNat
    | _ => 0

/-- mx_elem of R42. -/
def mxElem (x : Exact) (c : Nat) (t : Ty) (mode : Rnd) (sat : Bool) : Nat :=
  if c = 0xFF then (Ty.fmt t).nan else (Ty.fmt t).round (x.scale (127 - (c : Int))) mode sat

/-- blk_apply of R43. -/
def blkApply (acc part : W32) (ca cb : Nat) : W32 :=
  if ca = 0xFF || cb = 0xFF then 0x7FC00000
  else fadd acc (toF32 ((f32 part).scale ((ca : Int) + cb - 254)))

/-- bred_code of R47. -/
def bredCodeOf (xs : List Exact) : Nat :=
  if xs.any (fun x => !x.isFinite) then 0xFF
  else match maxAbs xs with
    | .fin _ n d => (max (floorLog2 n d + 127) 0).toNat
    | _ => 0

/-- bred_int of R47. -/
def bredInt (x : Exact) (c : Nat) : Int := roundInt (x.scale (149 - (c : Int))) .rne

/-- bred_result of R47. -/
def bredResult (s : Int) (c : Nat) : W32 :=
  if c = 0xFF then 0x7FC00000 else toF32 ((Exact.ofInt s).scale ((c : Int) - 149))

/-! ### The special functions (R132 to R134) -/

/-- A rational between 0 and its neighbours: numerator and denominator, as used by the enclosures below. -/
abbrev Rat2 := Int × Nat

/-- 2^-k fixed point: floor of n/d. -/
def fixFloor (n : Int) (d k : Nat) : Int := n * (2 ^ k : Nat) / d

/-- Fixed-point bits of the enclosures. -/
def fxBits : Nat := 400

/-- The product of two fixed-point numbers. -/
def fxMul (a b : Int) : Int := a * b / (2 ^ fxBits : Nat)

/-- Σ x^i/i! from term `i`, by Horner over a falling list of `i` (fixed point). -/
def fxExp (x : Int) : Int :=
  ((List.range 80).reverse).foldl (fun acc i => (2 ^ fxBits : Nat) + fxMul x acc / (i + 1 : Nat)) (2 ^ fxBits : Nat)

/-- arctan(1/q)·2^fxBits by its series. -/
def fxAtanInv (q : Nat) : Int :=
  (List.range 180).foldl (fun acc i =>
    let term : Int := (2 ^ fxBits : Nat) / (q ^ (2 * i + 1) * (2 * i + 1) : Nat)
    if i % 2 = 0 then acc + term else acc - term) 0

/-- π·2^fxBits (Machin). -/
def fxPi : Int := 4 * (4 * fxAtanInv 5 - fxAtanInv 239)

/-- ln 2 · 2^fxBits = 2·artanh(1/3). -/
def fxLn2 : Int :=
  2 * (List.range 140).foldl (fun acc i => acc + (2 ^ fxBits : Nat) / (3 ^ (2 * i + 1) * (2 * i + 1) : Nat)) 0

/-- sin of a fixed-point argument in [-π, π]. -/
def fxSin (x : Int) : Int :=
  let x2 := fxMul x x
  fxMul x (((List.range 60).reverse).foldl
    (fun acc i => (2 ^ fxBits : Nat) - fxMul x2 acc / ((2 * i + 2) * (2 * i + 3) : Nat)) (2 ^ fxBits : Nat))

/-- ln of m in [1, 2), fixed point: 2·artanh((m-1)/(m+1)). -/
def fxLn (m : Int) : Int :=
  let one : Int := (2 ^ fxBits : Nat)
  let z := (m - one) * one / (m + one)
  let z2 := fxMul z z
  2 * fxMul z (((List.range 140).reverse).foldl (fun acc i => one / (2 * i + 1 : Nat) + fxMul z2 acc) 0)

/-- A high-precision value of ex2, lg2, sin or cos at a finite nonzero FP32 input, in fixed point with `fxBits` bits after
the point and an absolute error far below 2^-300, ex2 never 0; numbered 1 ex2, 2 lg2, 3 sin, 4 cos as in `specialFn`. -/
def fxSpecial (fn : Nat) (neg : Bool) (n d : Nat) : Int :=
  let one : Int := (2 ^ fxBits : Nat)
  let x : Int := (if neg then -(n : Int) else n)
  match fn with
  | 1 =>
    let i := x / (d : Int)
    let fr := fixFloor (x - i * d) d fxBits
    let y := fxExp (fxMul fr fxLn2)
    if 0 ≤ i then y * (2 ^ (min i 200).toNat : Nat) else max 1 (y / (2 ^ (min (-i) 405).toNat : Nat))
  | 2 =>
    let e := floorLog2 n d
    let m := fixFloor (n * 2 ^ (-e).toNat) (d * 2 ^ e.toNat) fxBits
    e * one + fxLn m * one / fxLn2
  | k =>
    -- The reduction is exact to the precision of fxPi: |x| < 2^128, and fxPi has 400 bits.
    let x := fixFloor x d fxBits
    let x := if k = 4 then x + fxPi / 2 else x
    let r := (x + fxPi) % (2 * fxPi) - fxPi
    fxSin r

/-- |r − y| ≤ bound, where y is the high-precision value and the bound is `u` ulp of y or the absolute bound 2^-a. -/
def withinBound (r : Exact) (y : Int) (ulps : Nat) (abs : Option Nat) : Bool :=
  let one : Nat := 2 ^ fxBits
  match r with
  | .nan | .inf _ => false
  | r =>
    let (n, d) := r.frac
    let e := if y = 0 then -126 else max (floorLog2 y.natAbs one) (-126)
    -- ulp(y) = 2^(e-23) in units of 2^-fxBits
    let ulp : Nat := 2 ^ ((fxBits : Int) + e - 23).toNat
    let b := max (ulps * ulp) (match abs with | some a => 2 ^ (fxBits - a) | none => 0)
    decide ((n * one - y * d).natAbs ≤ b * d)

/-- rsq within 1 ulp, exactly: |r − 1/√a| ≤ ulp(1/√a), decided on squares at the high-precision root. -/
def fxRsq (n d : Nat) : Int :=
  -- √(d/n) in fixed point
  (isqrt (d * 2 ^ (2 * fxBits) / n) : Nat)

/-- The value of a special function at an FP32 input that no special case covers: the device's table where it meets the
bound of R133, else the rounded exact value (DESIGN CHOICE, log 8). -/
def specialApprox (fn : Nat) (a : W32) (neg : Bool) (n d : Nat) : W32 :=
  let y := if fn = 0 then fxRsq n d else fxSpecial fn neg n d
  let c := Config.specialFn fn a
  let half : Bool := decide (d ≤ 2 * n) && decide (n < 2 * d)
  let ok := match fn with
    | 0 => withinBound (f32 c) y 1 none
    | 1 => withinBound (f32 c) y 2 none
    | 2 => withinBound (f32 c) y 2 (if half then some 22 else none)
    | _ => withinBound (f32 c) y 2 (some 24) && !(Exact.fin false 1 1).lt (f32 c).abs
  if ok then c else toF32 (Exact.ofFrac y (2 ^ fxBits) false)

/-- rsq (0), ex2 (1), lg2 (2), sin (3) and cos (4) on FP32 (R133, R134). lg2 of 1 is +0: the rule calls it exact and gives the zero no sign
(DESIGN CHOICE, log 57). -/
def special32 (fn : Nat) (a : W32) : W32 :=
  let nan : W32 := 0x7FC00000
  let pinf : W32 := 0x7F800000
  let ninf : W32 := 0xFF800000
  match f32 a, fn with
  | .nan, _ => nan
  | .zero s, 0 => if s then ninf else pinf
  | .zero _, 1 => fone
  | .zero _, 2 => ninf
  | .zero s, 3 => if s then 0x80000000 else 0
  | .zero _, _ => fone
  | .inf s, 0 => if s then nan else 0
  | .inf s, 1 => if s then 0 else pinf
  | .inf s, 2 => if s then nan else pinf
  | .inf _, _ => nan
  | .fin neg n d, 0 => if neg then nan else specialApprox 0 a neg n d
  | .fin neg n d, 1 =>
    -- exact at the integers whose power is representable, subnormals included
    if n % d = 0 && (if neg then decide (n / d ≤ 149) else decide (n / d ≤ 127)) then
      toF32 ((Exact.fin false 1 1).scale (if neg then -((n / d : Nat) : Int) else (n / d : Nat)))
    -- 2^128 has FP32 values within its bound; beyond it none meets the bound, and the device's table alone gives the value
    else if !neg && decide (n = 128 * d) then
      let c := Config.specialFn 1 a
      if withinBound (f32 c) (2 ^ (128 + fxBits) : Nat) 2 none then c else 0x7F7FFFFF
    else if !neg && decide (128 * d < n) then toF32 (f32 (Config.specialFn 1 a))
    else specialApprox 1 a neg n d
  | .fin neg n d, 2 =>
    if neg then nan
    else
      let e := floorLog2 n d
      if n * 2 ^ (-e).toNat = d * 2 ^ e.toNat then toF32 (Exact.ofInt e) else specialApprox 2 a neg n d
  | .fin neg n d, fn => specialApprox fn a neg n d

/-- A special function at a format (R133): through the FP32 value for FP16 and BF16. -/
def specialAt (fn : Nat) (t : Ty) (bits : Nat) : Nat :=
  let a : W32 := toF32 (decodeTy t bits)
  let r := special32 fn a
  match t with
  | .f32 => r.toNat
  | t => (Ty.fmt t).round (f32 r) .rne false

/-- The value of `w` bits read by a type: signed for an i type (R95). -/
def intVal (ty : Ty) (x : Nat) : Int := if ty.isSInt then sextInt x ty.width else x

end Sys2Proof.Machine
end

