-- ==== Sys2Proof/Machine/Mem.lean ====
section
/-! DEFINITION. Memory: bytes by location, discards, page walks and TLBs, the checks of R151, objects in memory and
fault records (R152). A location is a physical address for HBM, 2^52 plus one for host memory
and 2^53 plus one for another module's (R140, R149). -/

namespace Sys2Proof.Machine

/-! ### Free values (DESIGN CHOICE, log 3) -/

/-- The `i`-th free value of the current step. Sites use `site + 64·n` so that two sites never share a draw. -/
def State.free (s : State) (i : Nat) : Nat := Config.free s.tick i

/-- A free word for an undefined value. -/
def State.freeW32 (s : State) (i : Nat) : W32 := BitVec.ofNat 32 (s.free i)

/-- The next step draws afresh. -/
def State.next (s : State) : State := { s with tick := s.tick + 1 }

/-! ### Bytes -/

/-- Little-endian value of bytes. -/
def leNat (bs : List Byte) : Nat := bs.foldr (fun b acc => b.toNat + 256 * acc) 0

/-- The `n` low bytes of a value. -/
def leBytes (x : Nat) (n : Nat) : List Byte := (List.range n).map fun i => BitVec.ofNat 8 (x / 2 ^ (8 * i))

/-- What an unlisted byte of memory reads as (DESIGN CHOICE, log 4). -/
def memDefault : Byte := 0

/-- The canonical form of memory: locations strictly rising, no entry equal to what an unlisted location reads as. -/
def Memory.wf (m : SMap Byte) : Bool := SMap.wf memDefault m

/-- The last write to a byte (R195). -/
def State.last (s : State) (loc : Nat) : Byte := SMap.get memDefault s.mem loc

/-- A read of one byte: V_last, or V_mem for a discarded byte, chosen per read and per byte (R147). DEDUCED, log 33. -/
def State.byte (s : State) (loc salt : Nat) : Byte :=
  match SMap.find s.disc loc with
  | none => s.last loc
  | some v => if s.free (1 + 64 * (salt + 4096 * loc)) % 2 = 1 then v else s.last loc

def State.bytes (s : State) (loc n salt : Nat) : List Byte := (List.range n).map fun i => s.byte (loc + i) (salt + i)

/-- An 8-byte read by a walker or another agent. -/
def State.read (s : State) (loc n : Nat) : Nat := leNat (s.bytes loc n 0)

/-- A write of one byte at its home slice: the old value may still be what backing memory holds (R147), and a discard
ends. -/
def State.setByte (s : State) (loc : Nat) (v : Byte) : State :=
  let old := (SMap.find s.older loc).getD []
  let add := s.last loc :: (SMap.find s.disc loc).toList
  { s with
    mem := SMap.set memDefault s.mem loc v
    older := SMap.put s.older loc (add.foldl (fun l b => if l.contains b then l else b :: l) old)
    disc := SMap.del s.disc loc }

def State.setBytes (s : State) (loc : Nat) (bs : List Byte) : State :=
  bs.zipIdx.foldl (fun s p => s.setByte (loc + p.2) p.1) s

def State.write (s : State) (loc n : Nat) (x : Nat) : State := s.setBytes loc (leBytes x n)

/-- A discard of a byte (R147): V_mem is the last write or a value it replaced since the last write-back. -/
def State.discard (s : State) (loc : Nat) : State :=
  let cands := s.last loc :: (SMap.find s.older loc).getD []
  let v := cands.getD (s.free (2 + 64 * loc) % cands.length) (s.last loc)
  if v = s.last loc then s
  else { s with disc := SMap.put s.disc loc v }

/-- A write-back of a byte: V_mem equals V_last (R160). DEDUCED, log 33. -/
def State.writeBack (s : State) (loc : Nat) : State := { s with older := SMap.del s.older loc }

/-! ### TG records -/

def State.tg (s : State) (id : Nat) : Option Tg := SMap.find s.tgs id

/-- The state with a TG replaced; the key is not added where the TG is gone. -/
def State.setTg (s : State) (id : Nat) (g : Tg) : State := { s with tgs := SMap.put s.tgs id g }

def State.modTg (s : State) (id : Nat) (f : Tg → Tg) : State := { s with tgs := SMap.adjust s.tgs id f }

def State.core (s : State) (c : Nat) : CoreState := SMap.get CoreState.reset s.cores c
def State.modCore (s : State) (c : Nat) (f : CoreState → CoreState) : State :=
  { s with cores := SMap.set CoreState.reset s.cores c (f (s.core c)) }

def State.die (s : State) (d : Nat) : Die := SMap.get Die.reset s.dies d
def State.modDie (s : State) (d : Nat) (f : Die → Die) : State :=
  { s with dies := SMap.set Die.reset s.dies d (f (s.die d)) }

/-- A sub-scheduler is occupied for `n` clk from now on, and no less than it was. -/
def State.occupy (s : State) (core sub n : Nat) : State :=
  s.modCore core fun c => { c with busy := SMap.set 0 c.busy sub (max (SMap.get 0 c.busy sub) s.clk + n) }

/-- The die of a core (R16). -/
def dieOf (core : Nat) : Nat := core / Config.coresPerDie

def State.ctx (s : State) (c : Nat) : Option Context := SMap.find s.contexts c
/-- Whether a context's function is being reset (R405). -/
def State.inReset (s : State) (ctx : Nat) : Bool := (s.ctx ctx).any fun c => s.resetting.contains c.function

def State.modCtx (s : State) (c : Nat) (f : Context → Context) : State :=
  { s with contexts := SMap.adjust s.contexts c f }

def State.crew (s : State) (c : Nat) : Option Crew := SMap.find s.crews c
def State.modCrew (s : State) (c : Nat) (f : Crew → Crew) : State := { s with crews := SMap.adjust s.crews c f }

def State.launch (s : State) (l : Nat) : Option Launch := SMap.find s.launches l
def State.modLaunch (s : State) (l : Nat) (f : Launch → Launch) : State :=
  { s with launches := SMap.adjust s.launches l f }

/-- Global time (R2): the stamp at reset plus the clk so far at 2.1 per ns, 10/21 ns each (DESIGN CHOICE, log 5). -/
def State.gtime (s : State) : W64 := s.gbase + BitVec.ofNat 64 (s.clk * 10 / 21)

/-! ### Records (R2, R409) -/

/-- Whether record `a` stands before `b`: by time stamp, then by source number. -/
def HostRecord.before (a b : HostRecord) : Bool := decide (a.time < b.time) || (a.time == b.time && decide (a.source ≤ b.source))

def insRecord (r : HostRecord) : List HostRecord → List HostRecord
  | [] => [r]
  | x :: l => if x.before r then x :: insRecord r l else r :: x :: l

/-- A record of a source, with the time stamp of now. -/
def State.record (s : State) (source : BitVec 16) (e : HostEvent) : State :=
  { s with events := insRecord { time := s.gtime, source := source, event := e } s.events }

/-- A PCI Express link and an Aedun port; which one carries a message is a free choice (DESIGN CHOICE, log 23). -/
def State.srcLink (s : State) : BitVec 16 := 0x0300 + BitVec.ofNat 16 (s.free 17 % 2)
def State.srcPort (s : State) : BitVec 16 := 0x0400 + BitVec.ofNat 16 (s.free (17 + 64) % 16)

/-! ### Lifetime counters (R410) -/

/-- The indexes of the lifetime counters: soft errors corrected and uncorrectable by array, thermal excursions and
recoverable faults by die, terminal traps by cause code, alarms, and the bins of the two histograms. DESIGN CHOICE, log 23. -/
def arrayIndex : ErrArray → Nat
  | .regStack => 0 | .scratchL1 => 1 | .staging => 2 | .matrixFile => 3 | .icache => 4 | .l2 => 5 | .futureCache => 6
  | .tlb => 7 | .hbm => 8

def alarmIndex : Alarm → Nat
  | .tamper => 0 | .glitch => 1 | .lid => 2 | .linkTamper => 3

def ctrCorrected (a : ErrArray) : Nat := arrayIndex a
def ctrUncorrectable (a : ErrArray) : Nat := 9 + arrayIndex a
def ctrThermal (die : Nat) : Nat := 18 + die
def ctrFault (die : Nat) : Nat := 22 + die
def ctrTrap (code : Nat) : Nat := 26 + code
def ctrAlarm (a : Alarm) : Nat := 58 + alarmIndex a

/-- The bin of a histogram that counts a value. -/
def histBin (x : Nat) : Nat := min x.log2 15
def ctrDenial (x : Nat) : Nat := 62 + histBin x
def ctrService (x : Nat) : Nat := 78 + histBin x

/-- One more in a lifetime counter, which saturates at 64 bits. -/
def State.count (s : State) (i : Nat) : State :=
  { s with ralf := { s.ralf with counters := SMap.set 0 s.ralf.counters i (min (SMap.get 0 s.ralf.counters i + 1) (2 ^ 64 - 1)) } }

/-! ### Translation (R148 to R150) -/

/-- A physical HBM address that a stack holds (R140). -/
def hbmOk (pa : Nat) : Bool := decide (pa / 2 ^ 36 < Config.numStacks) && decide (pa % 2 ^ 36 < Config.stackCapacity)

/-- The result of a translation: illegal (R151 step 3), or a leaf, resident or not. -/
inductive Trans where
  | bad
  | leaf (e : TlbEntry) (res : Bool)
deriving DecidableEq, Repr

/-- The fields of a page-table entry at a level, of which R149 asks well-formedness. Bit 51 of a host address names the link,
and bits 50 to 0 the PCI Express address (R403). -/
def leafOf (ctx va shift pte leaf : Nat) : Trans :=
  let size := 2 ^ shift
  let mt := pte / 2 ^ 52 % 4
  let pa := pte / 256 % 2 ^ 44 * 256
  if pte / 2 ^ 54 % 4 ≠ 0 || mt = 3 || pa % size ≠ 0 then .bad
  else if mt = 0 && !(hbmOk pa && hbmOk (pa + size - 1)) then .bad
  else
    .leaf { ctx := ctx, base := va / size * size, size := size
            loc := if mt = 0 then pa else if mt = 1 then 2 ^ 52 + pa % 2 ^ 51 else 2 ^ 53 + pa
            w := pte.testBit 2, x := pte.testBit 3, b := pte.testBit 4, leaf := leaf, dirty := pte.testBit 7 }
      (pte.testBit 5)

/-- A walk from a table whose entries map `2^shift` bytes, `lvl` levels left below it (R148, R149). -/
def State.walkFrom (s : State) (ctx va : Nat) : Nat → Nat → Nat → Nat → Trans
  | 0, _, _, _ => .bad
  | lvl + 1, table, shift, idxBits =>
    let loc := table + 8 * (va / 2 ^ shift % 2 ^ idxBits)
    if !hbmOk loc then .bad
    else
      let pte := s.read loc 8
      if !pte.testBit 0 then .bad
      else if pte.testBit 1 then (if shift = 39 then .bad else leafOf ctx va shift pte loc)
      else if lvl = 0 then .bad
      else
        let next := pte / 256 % 2 ^ 44 * 256
        let size := if shift = 30 || shift = 39 then 4096 else 256
        if pte / 2 ^ 54 % 4 ≠ 0 || pte / 2 ^ 52 % 4 ≠ 0 || next % size ≠ 0 then .bad
        else
          State.walkFrom s ctx va lvl next (if shift = 39 then 30 else if shift = 30 then 21 else 16)
            (if shift = 21 then 5 else 9)

/-- The walk of a context's tables for a 57-bit address. -/
def State.walk (s : State) (ctx va : Nat) : Trans :=
  match s.ctx ctx with
  | none => .bad
  | some c => s.walkFrom ctx va 4 c.ptroot.toNat 39 18

def TlbEntry.covers (e : TlbEntry) (ctx va : Nat) : Bool :=
  e.ctx == ctx && decide (e.base ≤ va) && decide (va < e.base + e.size)

/-- The entries a core may use for an address: its own TLB's, then its die's. -/
def State.cached (s : State) (core ctx va : Nat) : List TlbEntry :=
  ((s.core core).tlb ++ (s.die (dieOf core)).tlb).filter (·.covers ctx va)

/-- A translation: a cached entry or a walk, as the TLBs hold and evict; a free choice where they differ (R150). -/
def State.translate (s : State) (core ctx va : Nat) : Trans :=
  let fresh := s.walk ctx va
  match (s.cached core ctx va).filter (fun e => fresh != .leaf e true) with
  | [] => fresh
  | e :: es =>
    let opts := fresh :: (e :: es).map fun e => Trans.leaf e true
    opts.getD (s.free (3 + 64 * (va / 65536)) % opts.length) fresh

/-- ACC, and DIRTY for a write, set in the leaf at a location (R149, R150). -/
def State.markLeaf (s : State) (leaf : Nat) (write : Bool) : State :=
  let b := s.last leaf
  let b' := b ||| 0x40#8 ||| (if write then 0x80#8 else 0#8)
  if b' = b then s else s.setByte leaf b'

/-- A use of a page that no TLB serves: its leaf is marked. -/
def State.walked (s : State) (ctx va : Nat) (write : Bool) : State :=
  match s.walk ctx va with
  | .leaf e true => s.markLeaf e.leaf write
  | _ => s

/-- A use of a translation: ACC, and DIRTY for a write, set in the leaf (R149), and the entry cached (R150). A full TLB drops the entry that
it took up first: the spec gives no order of replacement (DESIGN CHOICE, log 58). -/
def State.touch (s : State) (core ctx va : Nat) (write : Bool) : State :=
  match s.translate core ctx va with
  | .leaf e true =>
    let hit := (s.cached core ctx va).contains e
    let e' := { e with dirty := e.dirty || write }
    let s1 := if hit && (!write || e.dirty) then s else s.markLeaf e.leaf write
    if hit && e' == e then s1
    else
      let add (n : Nat) (l : List TlbEntry) : List TlbEntry := (e' :: l.filter fun x => !(x.ctx == e.ctx && x.base == e.base)).take n
      (s1.modCore core fun c => { c with tlb := add Config.coreTlbSize c.tlb }).modDie (dieOf core)
        fun d => { d with tlb := add Config.dieTlbSize d.tlb }
  | _ => s

/-- The first address of a range in each 64 KiB block it touches. -/
def rangeBlocks (a n : Nat) : List Nat :=
  if n = 0 then []
  else (List.range ((a + n - 1) / 65536 - a / 65536 + 1)).map fun i => if i = 0 then a else (a / 65536 + i) * 65536

/-- The part of a range in the block of its address `v`: its length. -/
def blockLen (a n v : Nat) : Nat := min (a + n) ((v / 65536 + 1) * 65536) - v

/-- The distinct 64 KiB blocks of addresses, each by its first address. -/
def pageFirsts (vas : List Nat) : List Nat :=
  vas.foldl (fun acc va => if acc.any (fun v => v / 65536 == va / 65536) then acc else acc ++ [va]) []

def State.touchAll (s : State) (core ctx : Nat) (vas : List Nat) (write : Bool) : State :=
  (pageFirsts vas).foldl (fun s va => s.touch core ctx va write) s

/-- The location of an address whose checks have passed. -/
def State.locOf (s : State) (core ctx va : Nat) : Nat :=
  match s.translate core ctx va with
  | .leaf e _ => e.loc + (va - e.base)
  | .bad => va

/-! ### Trap causes and stops -/

/-- The trap causes of R323. -/
inductive Cause where
  | illop | nomacro | wovf | wunf | align | addr | pfault | prot | rankovf | slabq | budget | fcount | spawnfull
  | barbusy | arena | stg | gang | priv | user | brkpt
deriving DecidableEq, Repr

def Cause.code : Cause → Nat
  | .illop => 0x01 | .nomacro => 0x02 | .wovf => 0x03 | .wunf => 0x04 | .align => 0x06 | .addr => 0x07 | .pfault => 0x08
  | .prot => 0x09 | .rankovf => 0x0A | .slabq => 0x0B | .budget => 0x0C | .fcount => 0x0D | .spawnfull => 0x0E
  | .barbusy => 0x0F | .arena => 0x10 | .stg => 0x11 | .gang => 0x12 | .priv => 0x13 | .user => 0x14 | .brkpt => 0x15

/-- The terminal causes (R323). -/
def Cause.terminal : Cause → Bool
  | .illop | .align | .addr | .prot | .arena | .priv => true
  | _ => false

/-- What stops an access: a trap with its value and thread, or a recoverable fault of a page (R151). -/
inductive Stop where
  | trap (c : Cause) (info : W64) (tid : Nat)
  | fault (write fetch : Bool) (va : W64) (tid : Nat)
deriving DecidableEq, Repr

/-- How an access uses its page (R151 step 4, R175 step 5, R183). -/
inductive AccKind where
  | load | store | rmw | fetch | barrier
deriving DecidableEq, Repr

/-- Whether KIND of the fault record calls the access a write (R152). The spec gives no KIND for a barrier instruction: every one counts
as a write, also bar.wait and bar.test, which use their page as a read (DESIGN CHOICE, log 53). -/
def AccKind.writes : AccKind → Bool
  | .store | .rmw | .barrier => true
  | _ => false

/-- Whether the attributes of a page forbid the access. -/
def AccKind.prot (k : AccKind) (e : TlbEntry) : Bool :=
  match k with
  | .load => false
  | .store => !e.w || e.b
  | .rmw => !e.w
  | .fetch => !e.x
  | .barrier => !e.b

/-- Whether the requests of a TG to other modules go undelivered (R407). DESIGN CHOICE, log 25. -/
def State.lostBy (s : State) (tg : Nat) : Bool := (s.tg tg).any (·.linkLost)

/-- Whether those of the issuing TG do. -/
def State.linkLost (s : State) (core ctx : Nat) : Bool :=
  (s.tg s.cur).any fun g => g.linkLost && g.core == core && g.ctx == ctx

/-- Whether a location lies in a module that does not answer: an absent one, or any where requests go undelivered (R407). -/
def unanswered (lost : Bool) (loc : Nat) : Bool :=
  decide (2 ^ 53 ≤ loc) && (lost || !Config.modulePresent ((loc - 2 ^ 53) / 2 ^ 40))

/-- Whether a translation names no location that answers (R151 step 3, R407). -/
def Trans.gone (lost : Bool) : Trans → Bool
  | .bad => true
  | .leaf e _ => unanswered lost e.loc

/-- Steps 3 to 5 of R151 for accesses of threads (thread, address), thread order. -/
def State.checkPages (s : State) (core ctx : Nat) (accs : List (Nat × W64)) (k : AccKind) : Option Stop :=
  let ts := accs.map fun p => (p.1, p.2, s.translate core ctx p.2.toNat)
  match ts.find? (fun p => p.2.2.gone (s.linkLost core ctx)) with
  | some p => some (.trap .addr p.2.1 p.1)
  | none =>
    match ts.find? (fun p => match p.2.2 with | .leaf e _ => k.prot e | .bad => false) with
    | some p => some (.trap .prot p.2.1 p.1)
    | none =>
      match ts.find? (fun p => match p.2.2 with | .leaf _ r => !r | .bad => false) with
      | some p => some (.fault k.writes (k == .fetch) p.2.1 p.1)
      | none => none

/-- R151 on global accesses of `z` bytes. -/
def State.checkGl (s : State) (core ctx : Nat) (accs : List (Nat × W64)) (z : Nat) (k : AccKind) : Option Stop :=
  match accs.find? (fun p => decide (p.2.toNat % z ≠ 0)) with
  | some p => some (.trap .align p.2 p.1)
  | none =>
    match accs.find? (fun p => decide (2 ^ 57 ≤ p.2.toNat)) with
    | some p => some (.trap .addr p.2 p.1)
    | none => s.checkPages core ctx accs k

/-- R151 on scratchpad accesses (thread, offset, and whether it is a store, sweep destination or atomic) of `z` bytes, in a
crew with allocation `n` and an arena of `nbar` objects. -/
def checkSpAccs (n nbar : Nat) (accs : List (Nat × Nat × Bool)) (z : Nat) : Option Stop :=
  match accs.find? (fun p => decide (p.2.1 % z ≠ 0)) with
  | some p => some (.trap .align (BitVec.ofNat 64 p.2.1) p.1)
  | none => accs.findSome? fun p =>
      if n < p.2.1 + z then some (.trap .addr (BitVec.ofNat 64 p.2.1) p.1)
      else if p.2.2 && decide (n - 16 * nbar < p.2.1 + z) then some (.trap .arena (BitVec.ofNat 64 p.2.1) p.1)
      else none

/-- R151 on scratchpad accesses of one kind. -/
def checkSp (n nbar : Nat) (accs : List (Nat × Nat)) (z : Nat) (wr : Bool) : Option Stop :=
  checkSpAccs n nbar (accs.map fun p => (p.1, p.2, wr)) z

/-! ### A TG's own stores (R196) -/

/-- The byte a TG reads: its own latest unperformed store, else memory (R196). -/
def tgByte (g : Tg) (s : State) (loc salt : Nat) : Byte :=
  match g.stores.reverse.find? (fun p => decide (p.loc ≤ loc) && decide (loc < p.loc + p.data.length)) with
  | some p => p.data.getD (loc - p.loc) 0
  | none => s.byte loc salt

def tgBytes (g : Tg) (s : State) (loc n salt : Nat) : List Byte :=
  (List.range n).map fun i => tgByte g s (loc + i) (salt + i)

/-! ### Barrier objects (R167 to R170) -/

def Obj.toBytes (o : Obj) : List Byte :=
  leBytes o.expa.toNat 2 ++ leBytes o.arrived.toNat 2 ++ leBytes o.expb.toNat 4 ++ leBytes o.landed.toNat 4 ++
    leBytes o.phase.toNat 2 ++ leBytes (o.status.toNat % 8) 2

def Obj.ofBytes (bs : List Byte) : Obj :=
  let f (i n : Nat) : Nat := leNat ((bs.drop i).take n)
  { expa := BitVec.ofNat 16 (f 0 2), arrived := BitVec.ofNat 16 (f 2 2), expb := BitVec.ofNat 32 (f 4 4)
    landed := BitVec.ofNat 32 (f 8 4), phase := BitVec.ofNat 16 (f 12 2), status := BitVec.ofNat 16 (f 14 2 % 8) }

/-- Whether the phase completes (R170). -/
def Obj.complete (o : Obj) : Bool :=
  decide (o.expa ≤ o.arrived) && decide (o.expb ≤ o.landed) && !(o.expa == 0 && o.expb == 0)

/-- R170, evaluated as part of every update. -/
def Obj.settle (o : Obj) : Obj :=
  if o.complete then
    { o with
      status := if o.expa < o.arrived || o.expb < o.landed then o.status ||| 2 else o.status
      arrived := 0, landed := 0, expb := 0, phase := o.phase + 1 }
  else o

/-- A saturating addition, and whether it saturated (R170). -/
def satAdd (w : Nat) (a : BitVec w) (n : Nat) : BitVec w × Bool :=
  if 2 ^ w ≤ a.toNat + n then (BitVec.ofNat w (2 ^ w - 1), true) else (BitVec.ofNat w (a.toNat + n), false)

def Obj.mark (o : Obj) (ovf : Bool) : Obj := if ovf then { o with status := o.status ||| 2 } else o

/-- +1 on ARRIVED (R177). -/
def Obj.arrive (o : Obj) : Obj :=
  let (a, v) := satAdd 16 o.arrived 1
  ({ o with arrived := a }.mark v).settle

/-- + n on EXPB (R178). -/
def Obj.expect (o : Obj) (n : Nat) : Obj :=
  let (a, v) := satAdd 32 o.expb n
  ({ o with expb := a }.mark v).settle

/-- + n on LANDED (R171). -/
def Obj.land (o : Obj) (n : Nat) : Obj :=
  let (a, v) := satAdd 32 o.landed n
  ({ o with landed := a }.mark v).settle

/-- bar.init (R176). -/
def Obj.init (o : Obj) (n : BitVec 16) : Obj :=
  { expa := n, arrived := 0, expb := 0, landed := 0, phase := o.phase
    status := if o.arrived ≠ 0 || o.expb ≠ 0 || o.landed ≠ 0 then 4 else 0 }

/-- bar.inval (R181). -/
def Obj.inval (o : Obj) : Obj :=
  { o with status := o.status ||| 4, arrived := 0, expb := 0, landed := 0, phase := o.phase + 1 }

/-- Bytes of a crew's scratchpad. -/
def Crew.spBytes (c : Crew) (off n : Nat) : List Byte := (List.range n).map fun i => SMap.get memDefault c.scratch (off + i)

def Crew.setSp (c : Crew) (off : Nat) (bs : List Byte) : Crew :=
  { c with scratch := bs.zipIdx.foldl (fun m p => SMap.set memDefault m (off + p.2) p.1) c.scratch }

def Crew.stBytes (c : Crew) (off n : Nat) : List Byte := (List.range n).map fun i => SMap.get memDefault c.staging (off + i)

def Crew.setSt (c : Crew) (off : Nat) (bs : List Byte) : Crew :=
  { c with staging := bs.zipIdx.foldl (fun m p => SMap.set memDefault m (off + p.2) p.1) c.staging }

/-- The entry of a future table (R306) lies at FTBASE + 32·index. -/
def Context.entryVa (c : Context) (index : Nat) : W64 := c.ftbase + BitVec.ofNat 64 (32 * index)

/-- The location of a future-table entry, read at its home die's cache through the context's tables: the table lies on resident,
writable HBM pages (R306). -/
def State.entryLoc (s : State) (ctx index : Nat) : Option Nat :=
  match s.ctx ctx with
  | none => none
  | some c =>
    let va := c.entryVa index
    if 2 ^ 57 ≤ va.toNat then none
    else match s.walk ctx va.toNat with
      | .leaf e true => if e.w && decide (e.loc < 2 ^ 52) then some (e.loc + (va.toNat - e.base)) else none
      | _ => none

/-- The object at a reference. A future's phase word is the PHASE of its entry (R306). -/
def State.obj (s : State) (o : ObjRef) : Obj :=
  match o with
  | .arena c off => match s.crew c with
    | some k => Obj.ofBytes (k.spBytes off 16)
    | none => .fresh 0
  | .glob loc => Obj.ofBytes (s.bytes loc 16 0)
  | .pool d => (s.die d).pool
  | .stream c m n => match s.crew c with
    | some k => match SMap.find k.gangs m.toNat with
      | some g => g.streams.getD n (.fresh 0)
      | none => .fresh 0
    | none => .fresh 0
  | .fut c i => match s.entryLoc c i with
    | some loc => { Obj.fresh 0 with phase := BitVec.ofNat 16 (s.read (loc + 16) 2) }
    | none => .fresh 0

/-- An update of an object in one step (R169). -/
def State.setObj (s : State) (o : ObjRef) (x : Obj) : State :=
  match o with
  | .arena c off => s.modCrew c fun k => k.setSp off x.toBytes
  | .glob loc => s.setBytes loc x.toBytes
  | .pool d => s.modDie d fun die => { die with pool := x }
  | .stream c m n => s.modCrew c fun k =>
      { k with gangs := SMap.adjust k.gangs m.toNat fun g => { g with streams := g.streams.set n x } }
  | .fut .. => s

/-- A TG when an object it is parked on completes a phase or is invalidated: it issues its waiting instruction again. A saved TG
is not registered (R170, R179). -/
def Tg.wokenBy (g : Tg) (o : ObjRef) : Tg :=
  match g.wait with
  | .obj o' _ => if o' = o ∧ g.resident = true then { g with wait := .ready } else g
  | _ => g

def State.wake (s : State) (o : ObjRef) : State := { s with tgs := s.tgs.map fun p => (p.1, p.2.wokenBy o) }

/-- The TGs of other modules that are parked on an object are told over their links (R179, R408; DESIGN CHOICE, log 37). -/
def State.wakeRemote (s : State) (o : ObjRef) : State :=
  match o with
  | .glob loc =>
    { s with
      remoteWaits := s.remoteWaits.filter (· != loc)
      events := (s.remoteWaits.filter (· == loc)).foldl (fun l _ =>
        insRecord { time := s.gtime, source := s.srcPort, event := .linkWake loc } l) s.events }
  | _ => s

/-- An update of an object; one that ends a phase wakes the TGs parked on it (R170, R181). -/
def State.updObj (s : State) (o : ObjRef) (f : Obj → Obj) : State :=
  let x := s.obj o
  let s1 := s.setObj o (f x)
  if (f x).phase = x.phase then s1 else (s1.wake o).wakeRemote o

/-- Whether a wait on an object of a unit or on a future's phase word has ended: the phase has moved. A wait on an object in memory
ends by its wake alone, and a fault wait by the end of its barrier. -/
def State.woken (s : State) (ctx : Nat) (w : Wait) : Bool :=
  match w with
  | .ready | .reissue => true
  | .obj (.pool d) ph => (s.obj (.pool d)).phase != ph
  | .obj (.stream c m n) ph => (s.obj (.stream c m n)).phase != ph
  | .futs es => es.all fun p => (s.obj (.fut ctx p.1)).phase != p.2
  | _ => false

/-! ### Fault records (R152) -/

def FaultSrc.code : FaultSrc → Nat
  | .instr => 0 | .copy => 1 | .matrix => 2 | .mac => 3 | .base => 4 | .spill => 5

/-- The page of a faulting address: its leaf's first address. -/
def State.pageOf (s : State) (ctx va : Nat) : Nat :=
  match s.walk ctx va with
  | .leaf e _ => e.base
  | .bad => va / 65536 * 65536

/-- The fault barrier a page of a context holds on a die. -/
def Die.faultOn (d : Die) (ctx page : Nat) : Option Nat :=
  (d.faults.find? fun p => p.2.1 == ctx && p.2.2.1 == page).map (·.1)

/-- Location of fault barrier `i` of a die. -/
def Die.barLoc (d : Die) (i : Nat) : Nat := d.fbbase.toNat + 16 * i

/-- The 32 bytes of a fault record (R152). -/
def faultRecord (f : FaultInfo) (bar : Nat) (time : W64) : List Byte :=
  leBytes f.va.toNat 8 ++ leBytes f.ctx 2 ++ leBytes f.core 2 ++ leBytes f.kind.toNat 1 ++ leBytes f.src.code 1 ++
    leBytes bar 2 ++ leBytes time.toNat 8 ++ leBytes f.dl.toNat 8

/-- Whether a new record can be posted: a barrier is free and the queue is not full. -/
def Die.canPost (d : Die) : Bool :=
  decide (d.faults.length < Config.faultBarriers) && decide ((d.fqtail - d.fqhead).toNat < d.fqsize.toNat)

/-- A new fault is posted: a free barrier with EXPA 1 is assigned, the record is appended and counts 32 bytes at FQBAR
(R152, R171). DEDUCED, log 14. -/
def State.post (s : State) (die : Nat) (f : FaultInfo) : State :=
  let d := s.die die
  let i := SMap.lowFree d.faults
  let s1 := s.updObj (.glob (d.barLoc i)) fun o => { Obj.fresh 1 with phase := o.phase }
  let slot := d.fqbase.toNat + 32 * (d.fqtail.toNat % d.fqsize.toNat)
  let s2 := s1.setBytes slot (faultRecord f i f.time)
  let s3 := s2.updObj (.glob d.fqbar.toNat) fun o => o.land 32
  (s3.count (ctrFault die)).modDie die fun d =>
    { d with faults := SMap.put d.faults i (f.ctx, f.page, f.time.toNat), fqtail := d.fqtail + 1 }

/-- A recoverable fault on a die: merged with the page's barrier, posted, or held (R152). The barrier and the phase to
park at; none while the fault is held. -/
def State.raise (s : State) (die : Nat) (f : FaultInfo) : State × Option (Nat × BitVec 16) :=
  let at' (s : State) (i : Nat) : State × Option (Nat × BitVec 16) := (s, some (i, (s.obj (.glob ((s.die die).barLoc i))).phase))
  match (s.die die).faultOn f.ctx f.page with
  | some i => at' s i
  | none =>
    if (s.die die).canPost then
      let i := SMap.lowFree (s.die die).faults
      at' (s.post die f) i
    else
      (s.modDie die fun d => { d with heldFaults := d.heldFaults ++ [f] }, none)

end Sys2Proof.Machine
end

