-- ==== Sys2Proof/Machine/Order.lean ====
section
/-! DEFINITION. Ordering between agents (R194 to R201): scopes, stores reaching their home slices, releases, acquires and the single
order of sc operations. Memory holds what the home slices have performed, which every agent reads; a TG's unperformed stores are its
own. A release marks the stores that precede it, and an acquire that synchronises with it has them performed (DEDUCED, log 7). -/

namespace Sys2Proof.Machine

/-! ### Scopes (R197) -/

/-- An agent of R194: a TG with its operations, the command processor, the host, or another module's agent. -/
inductive Agent where
  | tg (id : Nat)
  | commandProcessor
  | host
  | other (module : Nat)
deriving DecidableEq, Repr

/-- Whether agent `b` lies within a scope of agent `a` (R197). Scopes are the codes of R62: 1 tg, 2 crew, 3 die, 4 dev, 5 sys. -/
def State.within (s : State) (scope : Nat) (a b : Agent) : Bool :=
  match scope, a, b with
  | 5, _, _ => true
  | 4, .other m, .other m' => m == m'
  | 4, .tg _, .tg _ | 4, .tg _, .commandProcessor | 4, .commandProcessor, .tg _ | 4, .commandProcessor, .commandProcessor => true
  | 3, .tg i, .tg j => match s.tg i, s.tg j with
    | some x, some y => dieOf x.core == dieOf y.core
    | _, _ => false
  | 3, .commandProcessor, .tg j => (s.tg j).any fun y => dieOf y.core == 0
  | 3, .tg i, .commandProcessor => (s.tg i).any fun x => dieOf x.core == 0
  | 2, .tg i, .tg j => match s.tg i, s.tg j with
    | some x, some y => x.crew == y.crew
    | _, _ => false
  | _, a, b => a == b

/-- The inclusive-scope rule for a release of TG `a` and an acquire of an agent (R199). -/
def State.inclusive (s : State) (a ra : Nat) (b : Agent) (rb : Nat) : Bool := s.within ra (.tg a) b && s.within rb b (.tg a)

/-- Whether an order is a release: rel, ar or sc; an acquire: acq, ar or sc (R198). -/
def isRelease (ord : Nat) : Bool := ord == 3 || ord == 4 || ord == 5
def isAcquire (ord : Nat) : Bool := ord == 2 || ord == 4 || ord == 5

/-! ### Places -/

/-- Whether a place lies in host memory or in another module, where every access is at sys scope (R403, R407). -/
def farPlace (p : ObjRef × Nat) : Bool :=
  match p.1 with
  | .glob loc => decide (2 ^ 52 ≤ loc)
  | _ => false

/-- The scope of an access at a place. -/
def accScope (scope : Nat) (p : ObjRef × Nat) : Nat := if farPlace p then 5 else scope

/-- The PHASE of the object at a place (R167). -/
def phasePlace (o : ObjRef) : ObjRef × Nat :=
  match o with
  | .glob loc => (.glob (loc + 12), 2)
  | .arena c off => (.arena c (off + 12), 2)
  | o => (o, 2)

/-- Whether bytes at a place touch bytes at another. -/
def placeMeets (p q : ObjRef × Nat) : Bool :=
  match p.1, q.1 with
  | .glob a, .glob b => decide (a < b + q.2) && decide (b < a + p.2)
  | .arena c a, .arena c' b => c == c' && decide (a < b + q.2) && decide (b < a + p.2)
  | a, b => a == b

/-- What is left of a place where a write to another takes the bytes that they share. -/
def placeLess (p q : ObjRef × Nat) : List (ObjRef × Nat) :=
  let rest (at' : Nat → ObjRef) (a b : Nat) : List (ObjRef × Nat) :=
    let r := max a (b + q.2)
    (if a < b then [(at' a, min p.2 (b - a))] else []) ++ (if r < a + p.2 then [(at' r, a + p.2 - r)] else [])
  match p.1, q.1 with
  | .glob a, .glob b => rest .glob a b
  | .arena c a, .arena c' b => if c = c' then rest (.arena c) a b else [p]
  | _, _ => [p]

/-- A plain write to a place replaces the values that earlier writes left there: a later reader reads another write. A read that has
met a release keeps it for its fence (R198, R199). -/
def State.overwrite (s : State) (p : ObjRef × Nat) : State :=
  { s with releases := s.releases.map fun r => { r with places := r.places.flatMap fun q => placeLess q p } }

/-- A read-modify-write of a place: a later reader of its value reads no plain write before it, and follows each release (R199). -/
def State.overwritePlain (s : State) (p : ObjRef × Nat) : State :=
  { s with releases := s.releases.map fun r => if r.scope = 0 then { r with places := r.places.flatMap fun q => placeLess q p } else r }

/-- An entry of a future table is allocated anew: what releases wrote there is gone. -/
def State.forgetPlace (s : State) (o : ObjRef) : State :=
  { s with releases := s.releases.map fun r => { r with places := r.places.filter fun q => q.1 != o } }

/-- A plain store performed at its home slice. -/
def State.store (s : State) (loc : Nat) (bs : List Byte) : State := (s.setBytes loc bs).overwrite (.glob loc, bs.length)

/-! ### What a write has before it (R193, R196, R198, R199) -/

/-- Whether an unperformed store bears a mark. -/
def State.bears (s : State) (m : Nat) : Bool := s.tgs.any fun x => x.2.stores.any fun p => p.marks.contains m

/-- Records of writes that no unperformed store precedes any more are forgotten. -/
def State.prune (s : State) : State := { s with releases := s.releases.filter fun r => s.bears r.id }

/-- The scope of the release that a write at place `pos` of its TG's program order makes of what stands at place `x`: its own, or that
of a release fence between them (R193, R198); 0 for none. -/
def Tg.relScope (g : Tg) (x pos rel : Nat) : Nat :=
  ((g.fences.filter fun f => decide (x < f.1) && decide (f.1 ≤ pos)).map (·.2)).foldl max rel

/-- The stores of every TG, changed at once. -/
def State.mapStores (s : State) (f : Nat → List PStore → List PStore) : State :=
  { s with tgs := s.tgs.map fun x => (x.1, { x.2 with stores := f x.1 x.2.stores }) }

/-- The stores of TG `k` with the marks that a write of TG `id`, whose state is `g`, gives them; a mark is `base` plus its scope. -/
def Tg.marked (g : Tg) (id n pos rel base k : Nat) (l : List PStore) : List PStore :=
  let passed := g.reads.filter fun r => decide (r.2 ≤ pos)
  let own (c : Nat) (p : PStore) : Bool := c == 0 || g.relScope p.pos pos rel == c
  let handed (c : Nat) (p : PStore) : Bool := c != 0 && passed.any fun r => p.marks.contains r.1 && g.relScope r.2 pos rel == c
  l.zipIdx.map fun q =>
    let new := [0, 1, 2, 3, 4, 5].filter fun c => (k == id && decide (q.2 < n) && own c q.1) || handed c q.1
    { q.1 with marks := new.map (base + ·) ++ q.1.marks }

/-- A write of TG `id` at place `pos` of its program order has been performed; its first `n` unperformed stores precede it, and `rel`
is its own scope as a release, 0 where only a fence before it makes it one. For each scope the stores that it releases take a mark: its
TG's earlier ones, and those that happen before a write that its TG has read before (R199). Mark 0 is taken by all of its TG's earlier
stores, which happen before it whatever its order (R196). `places` is what it wrote, `phase` the phase that an arrival counted into. -/
def State.markRelease (s : State) (id n pos rel : Nat) (places : List (ObjRef × Nat)) (phase : Option (BitVec 16)) : State :=
  match s.tg id with
  | none => s
  | some g =>
    if (g.stores.take n).isEmpty && !g.reads.any fun r => decide (r.2 ≤ pos) then s
    else
      let s1 := s.mapStores (g.marked id n pos rel s.stamp)
      let scopes := [0, 1, 2, 3, 4, 5].filter fun c => s1.bears (s.stamp + c)
      { s1 with
        releases := s.releases ++ scopes.map fun c =>
          { id := s.stamp + c, tg := id, places := places, scope := c, phase := if c = 0 then none else phase }
        stamp := s.stamp + 6 }

/-- A write of the issuing TG that everything before it in program order precedes. -/
def State.releaseAll (s : State) (rel : Nat) (places : List (ObjRef × Nat)) : State :=
  match s.tg s.cur with
  | none => s
  | some g =>
    if places.isEmpty then s else (places.foldl State.overwritePlain s).markRelease s.cur g.stores.length s.stamp rel places none

/-- A store-like access of the issuing TG that has been performed: a release of everything before it where its order, or a fence
before it, says so, at its scope in each place. -/
def State.released (s : State) (ord scope : Nat) (places : List (ObjRef × Nat)) : State :=
  let rel (sc : Nat) : Nat := if isRelease ord then sc else 0
  (s.releaseAll (rel scope) (places.filter fun p => !farPlace p)).releaseAll (rel 5) (places.filter farPlace)

/-- A performed access of the issuing TG that writes and is no release, not even after a fence. -/
def State.wrotePlain (s : State) (places : List (ObjRef × Nat)) : State :=
  match s.tg s.cur with
  | none => s
  | some g => (places.foldl State.overwritePlain s).markRelease s.cur g.stores.length 0 0 places none

/-! ### Stores reaching their home slices (R13, R196) -/

/-- Store `k` of a TG reaches its home slice; the stores before it that have not take its marks. -/
def State.performAt (s : State) (id k : Nat) (p : PStore) : State :=
  let s1 := ((s.store p.loc p.data).modTg id fun g => { g with stores := g.stores.eraseIdx k }).prune
  s1.markRelease id k p.pos p.rel [(.glob p.loc, p.data.length)] none

/-- Store `k` of a TG, where it has one, reaches its home slice. -/
def State.performNth (s : State) (id k : Nat) : State :=
  match (s.tg id).bind fun g => g.stores[k]? with
  | none => s
  | some p => s.performAt id k p

/-- The first `n` unperformed stores of a TG reach their home slices, in program order. -/
def State.performN (s : State) (id n : Nat) : State := (List.range n).foldl (fun s _ => s.performNth id 0) s

/-- Every unperformed store of a TG reaches its home slice. -/
def State.drain (s : State) (id : Nat) : State :=
  match s.tg id with
  | none => s
  | some g => s.performN id g.stores.length

/-- How many stores of a list stand up to the last that satisfies a test. -/
def upToLast (l : List PStore) (hit : PStore → Bool) : Nat :=
  ((l.zipIdx.filter fun p => hit p.1).getLast?.map fun p => p.2 + 1).getD 0

/-- Whether a store touches one of some ranges (location, length). -/
def PStore.touches (p : PStore) (rs : List (Nat × Nat)) : Bool :=
  rs.any fun r => decide (p.loc < r.1 + r.2) && decide (r.1 < p.loc + p.data.length)

/-- The numbers, rising, of the stores of a list that satisfy a test, and of the earlier ones that touch such a store, which the home
slice performs before it (R196). -/
def needed (l : List PStore) (hit : PStore → Bool) : List Nat :=
  (l.zipIdx.foldr (fun p acc => if hit p.1 || p.1.touches acc.1 then ((p.1.loc, p.1.data.length) :: acc.1, p.2 :: acc.2) else acc)
    (([], []) : List (Nat × Nat) × List Nat)).2

/-- The unperformed stores of a TG that satisfy a test are performed, with the earlier ones that they touch. -/
def State.performThose (s : State) (id : Nat) (hit : PStore → Bool) : State :=
  match s.tg id with
  | none => s
  | some g => (needed g.stores hit).zipIdx.foldl (fun s p => s.performNth id (p.1 - p.2)) s

/-- The TG's unperformed stores that touch one of the ranges are performed (R196). -/
def State.performTo (s : State) (id : Nat) (rs : List (Nat × Nat)) : State := s.performThose id fun p => p.touches rs

/-! ### Operations that a TG leaves to others (R190, R203, R236) -/

/-- Whether a store bears a mark of the releases numbered from a base on. -/
def markedBy (base : Nat) (q : PStore) : Bool := q.marks.any fun m => decide (base < m) && decide (m < base + 6)

/-- A release without a place of its own by a TG: the stamp before it is its base. -/
def State.releaseAs (s : State) (id rel : Nat) : State :=
  match s.tg id with
  | none => s
  | some g => { s.markRelease id g.stores.length s.stamp rel [] none with stamp := s.stamp + 6 }

/-- Before an operation reads or writes `n` bytes at a location, the stores there that precede its issue are performed (R195, R199,
R236). -/
def State.issuedBefore (s : State) (base loc n : Nat) : State :=
  s.tgs.foldl (fun s x => s.performThose x.1 fun p => markedBy base p && p.touches [(loc, n)]) s

/-- The scope of an object's completion where no instruction gives it another (R174, R403). -/
def ObjRef.scope (o : ObjRef) : Nat :=
  match o with
  | .arena .. => 2
  | o => accScope 4 (o, 16)

/-- Bytes of an operation are counted into an object: the completion of the phase releases what precedes the operation's issue
(R174, R199, R236). -/
def State.countedIn (s : State) (id base : Nat) (o : ObjRef) : State :=
  let phase := (s.obj o).phase
  let new := ([1, 2, 3, 4, 5].map (base + ·)).filter fun m =>
    s.bears m && !s.releases.any fun r => r.id == m && r.phase == some phase && r.places == [(o, 16)]
  { s with releases := s.releases ++ new.map fun m => { id := m, tg := id, places := [(o, 16)], scope := o.scope, phase := some phase } }

/-- An operation of a TG writes a place: a reader hands on what precedes the operation's issue (R199, R203). -/
def State.wroteFor (s : State) (id base : Nat) (p : ObjRef × Nat) : State :=
  let new := ([0, 1, 2, 3, 4, 5].map (base + ·)).filter s.bears
  { s with releases := s.releases ++ new.map fun m => { id := m, tg := id, places := [p], scope := 0, phase := none } }

/-- A write that the releases numbered from a base on have made (R190). -/
def State.releasedAt (s : State) (base : Nat) (p : ObjRef × Nat) : State :=
  { s with releases := s.releases.map fun r =>
      if decide (base ≤ r.id) && decide (r.id < base + 6) then { r with places := p :: r.places } else r }

/-! ### Acquires (R198, R199) -/

/-- Every store that precedes one of the releases is performed, with those before it in its TG's program order. -/
def State.obey (s : State) (ids : List Nat) : State :=
  if ids.isEmpty then s
  else s.tgs.foldl (fun s p => s.performN p.1 (upToLast p.2.stores fun q => q.marks.any ids.contains)) s

/-- The releases by other agents that satisfy a test. -/
def State.releasesOf (s : State) (a : Agent) (hit : Release → Bool) : List Release :=
  s.releases.filter fun r => a != .tg r.tg && hit r

/-- An acquire of an agent at a scope, of the releases that it reads (R199). -/
def State.acquireBy (s : State) (a : Agent) (scope : Nat) (hit : Release → Bool) : State :=
  s.obey (((s.releasesOf a hit).filter fun r => s.inclusive r.tg r.scope a scope).map (·.id))

/-- An acquire of the issuing TG. -/
def State.acquire (s : State) (scope : Nat) (hit : Release → Bool) : State := s.acquireBy (.tg s.cur) scope hit

/-- Whether a read of some places meets what a release wrote: its value, or the PHASE that the completion of its phase set (R199). -/
def State.meets (s : State) (places : List (ObjRef × Nat)) (r : Release) : Bool :=
  match r.phase with
  | none => r.places.any fun p => places.any fun q => placeMeets p q
  | some ph => r.places.any fun p => (s.obj p.1).phase != ph && places.any fun q => placeMeets (phasePlace p.1) q

/-- An acquire by an agent at sys scope of what it reads at some places (R205, R408). -/
def State.acquireAt (s : State) (a : Agent) (places : List (ObjRef × Nat)) : State := s.acquireBy a 5 (s.meets places)

/-- A read of the issuing TG: the releases it reads are kept for its next acquire fence, and what it must hand on for its later
releases (R198, R199). -/
def State.noteSeen (s : State) (hit : Release → Bool) : State :=
  let rs := s.releasesOf (.tg s.cur) hit
  if rs.isEmpty then s
  else
    let pos := s.stamp + 1
    { s.modTg s.cur (fun g => { g with
        seen := (rs.filter fun r => r.scope != 0).map (·.id) ++ g.seen
        reads := (rs.filter fun r => r.scope == 0).map (fun r => (r.id, pos)) ++ g.reads.filter fun r => s.bears r.1 }) with
      stamp := pos }

/-- A read of the issuing TG that no later fence makes an acquire. -/
def State.notePlain (s : State) (hit : Release → Bool) : State := s.noteSeen fun r => r.scope == 0 && hit r

/-! ### The single order of sc operations (R201) -/

/-- An sc operation of an agent: the sc operations of other TGs that its scope and theirs include come before it, and what precedes
them is performed. -/
def State.scAfter (s : State) (a : Agent) (scope : Nat) : State :=
  s.tgs.foldl (fun s p =>
    if a = .tg p.1 then s
    else s.performN p.1 (upToLast p.2.stores fun q => q.sc != 0 && s.inclusive p.1 q.sc a scope)) s

/-- An sc operation of the issuing TG; its own unperformed stores precede it. -/
def State.scOrder (s : State) (scope : Nat) : State :=
  let s1 := s.scAfter (.tg s.cur) scope
  s1.modTg s1.cur fun g => { g with stores := g.stores.map fun q => { q with sc := max q.sc scope } }

/-- What the order of a store to some places does before it: an sc store takes its place in the single order. -/
def State.writeOrder (s : State) (ord scope : Nat) (places : List (ObjRef × Nat)) : State :=
  if ord = 5 then s.scOrder (if places.any farPlace then 5 else scope) else s

/-- What the order of a load-like access of the issuing TG to some places does before it reads, at its scope in each place (R198,
R199, R201). -/
def State.readOrder (s : State) (ord scope : Nat) (places : List (ObjRef × Nat)) : State :=
  let s1 := s.writeOrder ord scope places
  let s2 := s1.noteSeen (s1.meets places)
  if isAcquire ord then
    (s2.acquire scope (s1.meets (places.filter fun p => !farPlace p))).acquire 5 (s1.meets (places.filter farPlace))
  else s2

/-- What the order of red does before it: it reads its places, and is no load (R198). -/
def State.redOrder (s : State) (ord scope : Nat) (places : List (ObjRef × Nat)) : State :=
  let s1 := s.writeOrder ord scope places
  s1.notePlain (s1.meets places)

/-! ### Barriers and fences (R174, R193) -/

/-- An arrival of the issuing TG at an object, of the phase given: its completion releases what precedes the arrival (R174). -/
def State.arrived (s : State) (o : ObjRef) (scope : Nat) (phase : BitVec 16) : State :=
  let s1 := (s.notePlain fun r => r.places.any fun p => p.1 == o).overwritePlain (o, 16)
  match s1.tg s1.cur with
  | none => s1
  | some g => s1.markRelease s1.cur g.stores.length s1.stamp scope [(o, 16)] (some phase)

/-- The issuing TG observes that phases of an object before `phase` have completed (R174). -/
def State.observed (s : State) (o : ObjRef) (scope : Nat) (phase : BitVec 16) : State :=
  let done (r : Release) : Bool := r.phase.any (· != phase) && r.places.any fun p => p.1 == o
  (s.noteSeen fun r => done r || (r.scope == 0 && r.places.any fun p => p.1 == o)).acquire scope done

/-- The arrivals of a phase that is thrown away release nothing (R176, R181). -/
def State.forgetPhase (s : State) (o : ObjRef) (phase : BitVec 16) : State :=
  { s with releases := s.releases.filter fun r => !(r.phase == some phase && r.places.any fun p => p.1 == o) }

/-- A fence of the issuing TG (R193): an acquire of every release its loads have read, and a release of every earlier store
together with each later store-like access. -/
def State.fence (s : State) (ord scope : Nat) : State :=
  let s1 := if ord = 5 then s.scOrder scope else s
  let s2 := if isAcquire ord then s1.acquire scope fun r => ((s1.tg s1.cur).any fun g => g.seen.contains r.id) else s1
  if isRelease ord && (s2.tg s2.cur).any fun g => !g.stores.isEmpty || !g.reads.isEmpty then
    { s2.modTg s2.cur (fun g => { g with fences := (s2.stamp + 1, scope) :: g.fences }) with stamp := s2.stamp + 1 }
  else s2

end Sys2Proof.Machine
end

