-- ==== Sys2Proof/Machine/Futures.lean ====
section
/-! DEFINITION. Handles, future-table entries and their counts (R305 to R308), spawn records (R302), and the reservations a
thread gives back when it goes. -/

namespace Sys2Proof.Machine

/-- INDEX and ID of a handle (R305). -/
def hIndex (h : W64) : Nat := (h.extractLsb' 0 20).toNat
def hId (h : W64) : Nat := (h.extractLsb' 20 32).toNat
def mkHandle (index id : Nat) : W64 := BitVec.ofNat 64 (index % 2 ^ 20 + 2 ^ 20 * (id % 2 ^ 32))

/-- A future-table entry (R306). -/
structure Entry where
  result : W64
  count : Nat
  state : Nat
  depth : Nat
  doom : Bool
  inl : Bool
  lch : Bool
  parent : Nat
  phase : BitVec 16
  dl : W64
  id : Nat
deriving DecidableEq, Repr

/-- The states of an entry (R306). -/
def stFree : Nat := 0
def stPending : Nat := 1
def stRunning : Nat := 2
def stDone : Nat := 3
def stReclaimed : Nat := 4
def stFailed : Nat := 5

/-- The fields of an entry's 32 bytes. -/
def Entry.ofBytes (bs : List Byte) : Entry :=
  let f (i n : Nat) : Nat := leNat ((bs.drop i).take n)
  let flags := f 11 1
  { result := BitVec.ofNat 64 (f 0 8), count := f 8 2, state := f 10 1, depth := flags % 16, doom := flags.testBit 4
    inl := flags.testBit 5, lch := flags.testBit 6, parent := f 12 4 % 2 ^ 20, phase := BitVec.ofNat 16 (f 16 2)
    dl := BitVec.ofNat 64 (f 20 8), id := f 28 4 }

def Entry.toBytes (e : Entry) : List Byte :=
  let flags := e.depth % 16 + (if e.doom then 16 else 0) + (if e.inl then 32 else 0) + (if e.lch then 64 else 0)
  leBytes e.result.toNat 8 ++ leBytes e.count 2 ++ leBytes e.state 1 ++ leBytes flags 1 ++ leBytes e.parent 4 ++
    leBytes e.phase.toNat 2 ++ [0, 0] ++ leBytes e.dl.toNat 8 ++ leBytes e.id 4

/-- The entry at a location, read as one operation of the future cache (R15). The fields of an entry in use that a program store
has changed are indeterminate from then on, so they are free values (R306; DESIGN CHOICE, log 3, log 40). -/
def State.readEntry (s : State) (loc : Nat) : Entry :=
  let bs := s.bytes loc 32 0
  let wild : List Byte := (List.range 32).map fun i => BitVec.ofNat 8 (s.free (16 + 64 * (loc + i)))
  match SMap.find s.entries loc with
  | none => Entry.ofBytes bs
  | some none => Entry.ofBytes wild
  | some (some w) => Entry.ofBytes (if bs = w then bs else wild)

/-- An entry written by the future cache; an entry that is not FREE is in use from then on. -/
def State.writeEntry (s : State) (loc : Nat) (e : Entry) : State :=
  let wild := match SMap.find s.entries loc with
    | none => false
    | some none => true
    | some (some w) => s.bytes loc 32 0 != w
  let s1 := s.setBytes loc e.toBytes
  { s1 with entries :=
      if wild then SMap.put s.entries loc none
      else if e.state = stFree then SMap.del s.entries loc
      else SMap.put s.entries loc (some e.toBytes) }

/-- The page of an entry of a context's table is used (R149, R306). -/
def State.usedEntry (s : State) (ctx index : Nat) (write : Bool) : State :=
  match s.ctx ctx with
  | none => s
  | some c => s.walked ctx (c.entryVa index).toNat write

/-- Entry `index` of a context's table, at its location, written by the future cache. -/
def State.setEntry (s : State) (ctx index loc : Nat) (e : Entry) : State := (s.usedEntry ctx index true).writeEntry loc e

/-- What a handle names: nothing usable, a table that cannot be reached (R306), or an entry at a location. -/
inductive HandleAt where
  | stale
  | noTable
  | entry (loc : Nat) (e : Entry)
deriving DecidableEq, Repr

/-- A handle looked up (R305). DESIGN CHOICE, log 15. -/
def State.lookup (s : State) (ctx : Nat) (h : W64) : HandleAt :=
  match s.ctx ctx with
  | none => .noTable
  | some c =>
    if h.extractLsb' 52 12 ≠ 0 || decide (c.ftsize.toNat ≤ hIndex h) then .stale
    else match s.entryLoc ctx (hIndex h) with
      | none => .noTable
      | some loc =>
        let e := s.readEntry loc
        if e.id ≠ hId h || e.state = stFree then .stale else .entry loc e

/-- One more phase of an object, as a completion does, with nothing else changed (R302). -/
def Obj.bump (o : Obj) : Obj := { o with phase := o.phase + 1 }

/-- A free of a record or bin of a die (R302). -/
def State.bumpPool (s : State) (die : Nat) : State := s.modDie die fun d => { d with pool := d.pool.bump }

/-- A free of a future-table entry: every die's pool barrier advances (R302). -/
def State.bumpPools (s : State) : State := (List.range Config.numDies).foldl State.bumpPool s

/-- A spawn record returns to the reserve it came from (R302). -/
def State.freeRecord (s : State) (die : Nat) (r : SpawnRec) : State :=
  match r with
  | .none => s
  | .unreserved => (s.modDie die fun d => { d with unreserved := d.unreserved - 1 }).bumpPool die
  | .reserved k =>
    (s.modDie die fun d => { d with reserved := d.reserved &&& ~~~(BitVec.ofNat 16 (2 ^ k)) }).bumpPool die

/-- A record for a child of depth `d` (R302). -/
def State.takeRecord (s : State) (die d : Nat) : Option (State × SpawnRec) :=
  let x := s.die die
  if x.unreserved < Config.unreservedRecords then
    some (s.modDie die fun y => { y with unreserved := y.unreserved + 1 }, .unreserved)
  else if x.reserved.getLsbD d then none
  else some (s.modDie die fun y => { y with reserved := y.reserved ||| BitVec.ofNat 16 (2 ^ d) }, .reserved d)

/-- An entry freed: FREE, or RECLAIMED in the deferred mode on the rows marked † (R307). -/
def State.freeEntry (s : State) (ctx index loc : Nat) (e : Entry) (deferred phase : Bool) : State :=
  let e := if phase then { e with phase := e.phase + 1 } else e
  if deferred then s.setEntry ctx index loc { e with state := stReclaimed }
  else (s.setEntry ctx index loc { e with state := stFree }).bumpPools

/-- Whether a launch reclaims in the deferred mode (R10, R289). -/
def State.deferred (s : State) (l : Nat) : Bool :=
  match s.launch l with
  | some x => x.desc.modes.getLsbD 2
  | none => false

/-- The bin that holds a context's pending thread: its die and its number. -/
def State.binOf (s : State) (ctx : Nat) (h : W64) : Option (Nat × Nat × Bin) :=
  (List.range Config.numDies).findSome? fun d =>
    ((s.die d).bins.find? fun p => (s.launch p.2.launch).any (·.ctx == ctx) && p.2.threads.any fun t => t.handle == h).map
      fun p => (d, p.1, p.2)

/-- A pending thread leaves its bin; an empty bin is freed with its timer (R304), and the record is freed (R302). -/
def State.leaveBin (s : State) (ctx : Nat) (h : W64) : State :=
  match s.binOf ctx h with
  | none => s
  | some (d, b, bin) =>
    let rest := bin.threads.filter fun t => t.handle != h
    let recs := bin.threads.filter fun t => t.handle == h
    let s1 := s.modDie d fun x =>
      { x with bins := if rest.isEmpty then SMap.del x.bins b else SMap.put x.bins b { bin with threads := rest } }
    let s2 := recs.foldl (fun s t => s.freeRecord d t.srec) s1
    if rest.isEmpty then s2.bumpPool d else s2

/-- The launch of a context's pending thread, for its reclamation mode. -/
def State.binLaunch (s : State) (ctx : Nat) (h : W64) : Nat := ((s.binOf ctx h).map fun p => p.2.2.launch).getD 0

/-- A counted handle is dropped (R307, R308). A stale handle names nothing to drop; nor does one whose table cannot be reached
(DESIGN CHOICE, log 15). -/
def State.dropRef (s : State) (ctx : Nat) (h : W64) : State :=
  match s.lookup ctx h with
  | .entry loc e =>
    if e.count = 0 then s
    else
      let e' := { e with count := e.count - 1 }
      let put : Entry → State := s.setEntry ctx (hIndex h) loc
      if e'.count ≠ 0 then put e'
      else if e.state = stPending then (s.freeEntry ctx (hIndex h) loc e' (s.deferred (s.binLaunch ctx h)) false).leaveBin ctx h
      else if e.state = stRunning then put { e' with doom := true }
      else if e.state = stDone || e.state = stFailed then s.freeEntry ctx (hIndex h) loc e' false false
      else put e'
  | _ => s

/-- One is added to a handle's count; none where it would pass 65,535 (R308). -/
def State.addRef (s : State) (ctx : Nat) (h : W64) : Option State :=
  match s.lookup ctx h with
  | .entry loc e => if 65535 ≤ e.count then none else some (s.setEntry ctx (hIndex h) loc { e with count := e.count + 1 })
  | _ => some s

/-- A thread with this own entry retires or is reclaimed (R307). -/
def State.endEntry (s : State) (ctx launch : Nat) (h : W64) : State :=
  if h = 0 then s
  else match s.lookup ctx h with
    | .entry loc e =>
      if e.state ≠ stRunning then s
      else if e.doom then s.freeEntry ctx (hIndex h) loc e (s.deferred launch) true
      else s.setEntry ctx (hIndex h) loc { e with state := stFailed, result := 0, phase := e.phase + 1 }
    | _ => s

/-- What the search for a free entry finds: an entry, an address of the table that cannot be reached, or none. -/
inductive FreeEntry where
  | found (index loc : Nat) (e : Entry)
  | noTable (va : W64)
  | full
deriving DecidableEq, Repr

/-- A FREE entry of the context's table other than entry 0: the spec does not say which, so a free value picks where the
search begins (R305, R313; DESIGN CHOICE, log 38). An entry that it meets and cannot reach stops it (R306). -/
def State.findFree (s : State) (ctx : Nat) : FreeEntry :=
  match s.ctx ctx with
  | none => .full
  | some c =>
    let n := c.ftsize.toNat
    let i0 := s.free 4
    ((List.range n).findSome? fun k =>
      let i := (i0 + k) % n
      if i = 0 then none
      else match s.entryLoc ctx i with
      | none => some (.noTable (c.entryVa i))
      | some loc =>
        let e := s.readEntry loc
        if e.state = stFree then some (.found i loc e) else none).getD .full

/-- The next ID of an entry (R305). -/
def nextId (id : Nat) : Nat := if (id + 1) % 2 ^ 32 = 0 then 1 else (id + 1) % 2 ^ 32

/-- Why no entry is allocated: none is free, or the table cannot be reached at an address (R306). -/
inductive NoEntry where
  | full
  | noTable (va : W64)
deriving DecidableEq, Repr

/-- An entry allocated (R307, R313): the state and the new handle. DESIGN CHOICE, log 38. -/
def State.allocEntry (s : State) (ctx : Nat) (state depth parent : Nat) (dl : W64) (inl lch : Bool) : Except NoEntry (State × W64) :=
  match s.findFree ctx with
  | .full => .error .full
  | .noTable va => .error (.noTable va)
  | .found i loc e =>
    let id := nextId e.id
    .ok (((s.forgetPlace (.fut ctx i)).overwrite (.glob loc, 32)).setEntry ctx i loc
      { result := 0, count := 1, state := state, depth := depth, doom := false, inl := inl, lch := lch, parent := parent
        phase := e.phase, dl := dl, id := id }, mkHandle i id)

/-- The null f register. -/
def fNull : FReg := { h := 0, counted := false }

/-- The task state of a thread of a launched TG (R291). -/
def taskNone : ThreadTask := { own := 0, depth := 0, srec := .none, hold := false }

def Tg.fAt (g : Tg) (r t : Nat) : FReg := Row.at (SMap.get [] g.f r) fNull t

/-- f register `r` of thread `t` set. -/
def Tg.setF (g : Tg) (r t : Nat) (x : FReg) : Tg :=
  { g with f := SMap.put g.f r (Row.tab fun u => if u = t then x else g.fAt r u) }

def Tg.taskAt (g : Tg) (t : Nat) : ThreadTask := Row.at g.threads taskNone t

def Tg.setTask (g : Tg) (t : Nat) (x : ThreadTask) : Tg :=
  { g with threads := Row.tab fun u => if u = t then x else g.taskAt u }

/-- Every counted handle in f0 to f7 of a thread is dropped, and the registers become null (R308). -/
def State.dropFregs (s : State) (id t : Nat) : State :=
  (List.range 8).foldl (fun s r =>
    match s.tg id with
    | none => s
    | some g =>
      let x := g.fAt r t
      let s1 := if x.counted then s.dropRef g.ctx x.h else s
      if x = fNull then s1 else s1.modTg id fun g => g.setF r t fNull) s

/-- An f register of a thread takes a new handle: the new reference stands, then the old counted one is dropped (R312). -/
def State.putF (s : State) (id r t : Nat) (x : FReg) : State :=
  match s.tg id with
  | none => s
  | some g =>
    let old := g.fAt r t
    let s1 := s.modTg id fun g => g.setF r t x
    if old.counted then s1.dropRef g.ctx old.h else s1

/-- A thread goes: its references are dropped, its record is freed, its entry follows R307. -/
def State.endThread (s : State) (id t : Nat) : State :=
  match s.tg id with
  | none => s
  | some g =>
    let k := g.taskAt t
    let s1 := s.dropFregs id t
    let s2 := s1.endEntry g.ctx g.launch k.own
    let s3 := s2.freeRecord (dieOf g.core) k.srec
    s3.modTg id fun g => g.setTask t { taskNone with depth := k.depth }

/-! ### Checks of handles (R306, R312) -/

/-- The check of R312 on handles of threads: a stale one has no address; a table that cannot be used gives the entry's (R306). DESIGN CHOICE, log 15. -/
def handleStop (s : State) (g : Tg) (hs : List (Nat × W64)) : Option Stop :=
  hs.findSome? fun p =>
    if p.2 == (0 : W64) then none
    else match s.lookup g.ctx p.2 with
      | .stale => some (.trap .addr 0 p.1)
      | .noTable => some (.trap .addr (((s.ctx g.ctx).map fun c => c.entryVa (hIndex p.2)).getD 0) p.1)
      | .entry .. => none

/-- The ADDR trap of the counted handles that an f register would drop, where their table cannot be reached (R306). -/
def dropStop (s : State) (g : Tg) (ts : List Nat) (d : Nat) : Option Stop :=
  handleStop s g ((ts.filter fun t => (g.fAt d t).counted && s.lookup g.ctx (g.fAt d t).h == .noTable).map fun t =>
    (t, (g.fAt d t).h))

/-- The ADDR trap of threads that are to go, where the table of an own entry or of a counted handle cannot be reached (R306). -/
def goStop (s : State) (g : Tg) (ts : List Nat) : Option Stop :=
  handleStop s g ((ts.flatMap fun t => (t, (g.taskAt t).own) ::
    ((List.range 8).filter fun r => (g.fAt r t).counted).map fun r => (t, (g.fAt r t).h)).filter fun p =>
      s.lookup g.ctx p.2 == .noTable)

/-- The counted handles that f[D] holds again in an inline frame's threads as it is popped, and drops (R303). -/
def InlineFrame.drops (fr : InlineFrame) : List (Nat × W64) :=
  (fr.children.map fun p => (p.1, Row.at (SMap.get [] fr.fregs fr.d) fNull p.1)).filterMap fun p =>
    if p.2.counted then some (p.1, p.2.h) else none

/-- The ADDR trap of the handles dropped by the inline frames that a TG pops, of which `left` stay (R303, R306). -/
def popStop (s : State) (g : Tg) (left : Nat) : Option Stop :=
  handleStop s g (((g.frames.take (g.frames.length - left)).flatMap InlineFrame.drops).filter fun p => s.lookup g.ctx p.2 == .noTable)

end Sys2Proof.Machine
end

