-- ==== Sys2Proof/Machine/Deadline.lean ====
section
/-! DEFINITION. Effective deadlines (R294) under the inheritance table (R299). A lent deadline is taken at once here; the
spec lets a change take up to 256 clk (DESIGN CHOICE, log 2). A node is a TG (key 3·id), a launch (3·id + 1, which stands for
its unplaced crews) or a copy operation (3·id + 2). -/

namespace Sys2Proof.Machine

/-- The first of a list in an order of (deadline, stamp). -/
def earliest {α : Type} (l : List (Nat × Nat × α)) : Option α :=
  (l.foldl (fun (b : Option (Nat × Nat × α)) x =>
    match b with
    | none => some x
    | some y => if x.1 < y.1 || (x.1 = y.1 && x.2.1 < y.2.1) then some x else some y) none).map (·.2.2)

def tgNode (id : Nat) : Nat := 3 * id
def launchNode (id : Nat) : Nat := 3 * id + 1
def copyNode (id : Nat) : Nat := 3 * id + 2

/-- The TGs of the machine that satisfy a test, as nodes. -/
def State.tgNodes (s : State) (f : Nat → Tg → Bool) : List Nat :=
  s.tgs.filterMap fun p => if f p.1 p.2 then some (tgNode p.1) else none

/-- Whether a TG has a thread, in an inline frame or outside, whose own entry is the one given (R291, R303). -/
def Tg.runs (g : Tg) (ctx index : Nat) : Bool :=
  g.ctx == ctx && (g.threads :: g.frames.map (·.tasks)).any fun ts => (List.range numThreads).any fun t =>
    let k := Row.at ts taskNone t
    k.own != 0 && hIndex k.own == index

/-- A launch and its unretired TGs (R293, R299). -/
def State.launchNodes (s : State) (l : Nat) : List Nat := launchNode l :: s.tgNodes fun _ g => g.launch == l

/-- What runs an entry that is RUNNING: a TG, or a launch made by an instruction (R299, R321). -/
def State.runners (s : State) (ctx index : Nat) : List Nat :=
  (s.tgNodes fun _ g => g.runs ctx index) ++
    (s.launches.filter fun p => p.2.ctx == ctx && p.2.fut.any fun h => hIndex h == index).flatMap fun p => s.launchNodes p.1

/-- Whether an entry that a TG awaits is still PENDING or RUNNING; lending ends as it becomes DONE or FAILED (R299). -/
def State.unfinished (s : State) (ctx index : Nat) : Bool :=
  match s.entryLoc ctx index with
  | some loc => let e := s.readEntry loc
                e.state == stPending || e.state == stRunning
  | none => false

/-- The copies that count into an object (R171, R299). -/
def State.copyNodes (s : State) (o : ObjRef) : List Nat :=
  s.copies.filterMap fun p => if p.2.obj = o then some (copyNode p.1) else none

/-- The nodes a parked TG lends to (R299). DEDUCED, log 34. -/
def State.lendsTo (s : State) (id : Nat) (g : Tg) : List Nat :=
  match g.wait with
  | .obj (.arena c off) _ => (s.tgNodes fun _ x => x.crew == c) ++ s.copyNodes (.arena c off)
  | .obj (.glob loc) _ => s.launchNodes g.launch ++ s.copyNodes (.glob loc)
  | .obj (.pool d) _ => s.tgNodes fun _ x => x.slot.isSome && x.resident && dieOf x.core == d
  | .col m => s.tgNodes fun i x => x.crew == g.crew && m.getLsbD x.idx && i != id
  | .futs es => es.flatMap fun p => if s.unfinished g.ctx p.1 then s.runners g.ctx p.1 else []
  | .fault d .. => match (s.die d).server with
    | some l => s.tgNodes fun _ x => x.launch == l
    | none => []
  | _ => []

/-- The edges of lending: lender and borrower. An operation has the deadline of the TG that issued it (R299). -/
def State.lendEdges (s : State) : List (Nat × Nat) :=
  (s.tgs.flatMap fun p => (s.lendsTo p.1 p.2).map fun n => (tgNode p.1, n)) ++
    (s.launches.flatMap fun p => p.2.waits.flatMap fun w => (s.launchNodes w).map fun n => (launchNode p.1, n)) ++
    s.copies.map fun p => (tgNode p.2.tg, copyNode p.1)

/-- Each node's own deadline: TGDL, TSTART + DLREL, or of a copy the one that its issuer last held (R152, R290, R294). -/
def State.ownDeadlines (s : State) : SMap Nat :=
  (s.tgs.map fun p => (tgNode p.1, p.2.task.tgdl.toNat)) ++
    (s.launches.map fun p => (launchNode p.1, (p.2.tstart + p.2.desc.dlrel).toNat)) ++
    s.copies.map fun p => (copyNode p.1, if SMap.has s.tgs p.2.tg then 2 ^ 64 else p.2.dl.toNat)

/-- One round of lending. -/
def lendRound (edges : List (Nat × Nat)) (d : SMap Nat) : SMap Nat :=
  edges.foldl (fun d e =>
    match SMap.find d e.1 with
    | some a => SMap.adjust d e.2 fun b => min a b
    | none => d) d

/-- Effective deadlines of every TG and launch: lending passes on transitively (R299). -/
def State.deadlines (s : State) : SMap Nat :=
  let edges := s.lendEdges
  (List.range (s.tgs.length + s.launches.length + s.copies.length)).foldl (fun d _ => lendRound edges d) s.ownDeadlines

/-- The effective deadline of a TG (R294). -/
def State.effDeadline (s : State) (id : Nat) : Nat := (SMap.find s.deadlines (tgNode id)).getD (2 ^ 64)

/-- The effective deadline of a gang: the earliest of its listed TGs (R252). -/
def State.gangDeadline (s : State) (crew : Nat) (mask : BitVec 16) : Nat :=
  let d := s.deadlines
  (s.tgs.filterMap fun p =>
    if p.2.crew = crew && mask.getLsbD p.2.idx then SMap.find d (tgNode p.1) else none).foldl min (2 ^ 64)

/-- The effective deadline of a crew: the earliest of its TGs (R297). -/
def State.crewDeadline (s : State) (crew : Nat) : Nat :=
  let d := s.deadlines
  (s.tgs.filterMap fun p => if p.2.crew = crew then SMap.find d (tgNode p.1) else none).foldl min (2 ^ 64)

/-- The effective deadline of the TG that issued an operation, or the one it last held (R152). -/
def State.issuerDeadline (s : State) (tg : Nat) (last : W64) : W64 :=
  if SMap.has s.tgs tg then BitVec.ofNat 64 (s.effDeadline tg) else last

/-- The effective deadline of a copy operation (R299). -/
def State.copyDeadline (s : State) (id : Nat) : Nat := (SMap.find s.deadlines (copyNode id)).getD (2 ^ 64)

end Sys2Proof.Machine
end

