-- ==== Sys2Proof/Machine/Ops.lean ====
section
/-! DEFINITION. The operations a TG's life is made of: status records, red.det flushes, gang dissolution, retirement,
end_tg, trap entry and return, the reconvergence stack and the procedure of R78. -/

namespace Sys2Proof.Machine

/-- The outcome of a step of this machine. -/
abbrev Out := Host.Outcome State Fault Refusal

/-! ### Accesses of the command processor through a context's tables -/

/-- The location of a byte range the command processor reaches: resident, and writable for a write. -/
def State.cpLoc (s : State) (ctx : Nat) (va : W64) (write : Bool) : Option Nat :=
  if 2 ^ 57 ≤ va.toNat then none
  else match s.walk ctx va.toNat with
    | .leaf e true => if write && !e.w then none else some (e.loc + (va.toNat - e.base))
    | _ => none

/-- A command-processor write, which uses the page (R149); nothing where the address cannot be written (DESIGN CHOICE, log 11). -/
def State.cpWrite (s : State) (ctx : Nat) (va : W64) (bs : List Byte) : State :=
  match s.cpLoc ctx va true with
  | some loc => (s.walked ctx va.toNat true).setBytes loc bs
  | none => s

/-- The locations of a range that the command processor reads, block by block with their lengths; none where a block cannot be
reached. -/
def State.cpRange (s : State) (ctx : Nat) (va : W64) (n : Nat) : Option (List (Nat × Nat)) :=
  (rangeBlocks va.toNat n).mapM fun v => (s.cpLoc ctx (BitVec.ofNat 64 v) false).map fun loc => (loc, blockLen va.toNat n v)

/-- A command-processor read of `n` bytes. -/
def State.cpBytes (s : State) (ctx : Nat) (va : W64) (n : Nat) : Option (List Byte) :=
  (s.cpRange ctx va n).map fun l => l.flatMap fun p => s.bytes p.1 p.2 0

def State.cpRead (s : State) (ctx : Nat) (va : W64) (n : Nat) : Option Nat := (s.cpBytes ctx va n).map leNat

/-- What the command processor's reads of a range do before they read: a sys-scope acquire, and the use of its pages (R149, R205,
R289). -/
def State.cpAcquire (s : State) (ctx : Nat) (va : W64) (n : Nat) : State :=
  match s.cpRange ctx va n with
  | none => s
  | some l =>
    let s1 := s.acquireAt .commandProcessor (l.map fun p => (.glob p.1, p.2))
    (rangeBlocks va.toNat n).foldl (fun s v => s.walked ctx v false) s1

/-- The 32 bytes of a status record (R290). -/
def Launch.status (l : Launch) (tend : W64) : List Byte :=
  leBytes l.seq.toNat 8 ++ leBytes l.state.toNat 1 ++ leBytes l.flags.toNat 1 ++ leBytes l.cause.toNat 1 ++ [0] ++
    leBytes l.trapn.toNat 4 ++ leBytes l.tstart.toNat 8 ++ leBytes tend.toNat 8

/-- The command processor writes a launch's status record as it stands (R290). -/
def State.writeStatus (s : State) (l : Nat) (tend : W64) : State :=
  match s.launch l with
  | some x => s.cpWrite x.ctx x.desc.stat (x.status tend)
  | none => s

/-- A launch changed, and its status record with it. -/
def State.updLaunch (s : State) (l : Nat) (f : Launch → Launch) : State := (s.modLaunch l f).writeStatus l 0

/-! ### red.det flush (R188) -/

/-- red.det's addition: fadd for f32, wrapped addition at the width for integers (R186). -/
def detAdd (t : Ty) (a b : W64) : W64 :=
  match t with
  | .f32 => (fadd (a.setWidth 32) (b.setWidth 32)).setWidth 64
  | t => if t.width = 64 then a + b else ((a + b).setWidth 32).setWidth 64

/-- The entries of one location combined in increasing thread index, from the first value (R188). -/
def combine (es : List ShareEntry) : Option (Ty × W64) :=
  match ((List.range numThreads).flatMap fun t => es.filter fun e => e.thread == t) with
  | [] => none
  | e :: r => some (e.ty, r.foldl (fun acc x => detAdd e.ty acc x.val) e.val)

/-- A contribution to another module, which a TG whose requests go undelivered cannot send (R407). -/
def Contrib.lost (s : State) (c : Contrib) : Bool := s.lostBy c.owner && decide (2 ^ 53 ≤ c.loc)

/-- A flush of a TG's share: one contribution per location goes to its home slice (R188); `rel` is the base of the releases that send
them (R190). For the first that is not delivered the TG takes ADDR before its next instruction (R407; DESIGN CHOICE, log 25). -/
def State.flushShareAs (s : State) (id : Nat) (rel : Option Nat) : State :=
  match s.tg id with
  | none => s
  | some g =>
    let locs := g.share.foldl (fun l e => if l.contains e.loc then l else l ++ [e.loc]) []
    let cs := locs.filterMap fun loc =>
      (combine (g.share.filter fun e => e.loc == loc)).map fun p =>
        { launch := g.launch, loc := loc, ty := p.1, val := p.2, core := g.core, tg := g.num.toNat, seq := g.flushSeq
          rel := rel, spilled := false, owner := id
          va := ((g.share.find? fun e => e.loc == loc).map (·.va)).getD 0
          tid := ((g.share.find? fun e => e.loc == loc).map (·.thread)).getD 0 : Contrib }
    ({ s with contribs := s.contribs ++ cs.filter fun (c : Contrib) => !c.lost s }).modTg id fun g =>
      { g with share := [], flushSeq := g.flushSeq + 1
               faultInval := ((cs.find? fun (c : Contrib) => c.lost s).map fun (c : Contrib) => (c.va, c.tid)).or g.faultInval }

/-- A flush that releases nothing (R186, R187). -/
def State.flushShare (s : State) (id : Nat) : State := s.flushShareAs id none

/-! ### Gangs and crews at retirement -/

/-- One gang of a crew dissolved (R242): forms empty at once; contents stay for what was issued before. -/
def Gang.dissolve (g : Gang) : Gang := { g with dissolved := true, form := [], col := none, hazards := [], unfenced := [] }

/-- Whether an instruction at the col draws a power token (R254). -/
def Gang.holdsToken (g : Gang) : Bool := (g.col.any (·.token))

def State.gang (s : State) (crew : Nat) (mask : BitVec 16) : Option Gang :=
  (s.crew crew).bind fun c => SMap.find c.gangs mask.toNat

def State.modGang (s : State) (crew : Nat) (mask : BitVec 16) (f : Gang → Gang) : State :=
  s.modCrew crew fun c => { c with gangs := SMap.adjust c.gangs mask.toNat f }

/-- A token that the col holds returns to the pool (R254). -/
def State.returnToken (s : State) (held : Bool) : State :=
  { s with ralf := { s.ralf with tokens := s.ralf.tokens - (if held then 1 else 0) } }

/-- The col resets: its token returns, TGs parked there issue again, and a gang that was forming is no more (R240, R241). -/
def State.resetCol (s : State) (crew : Nat) (mask : BitVec 16) : State :=
  match s.gang crew mask with
  | none => s
  | some gg =>
    let s1 := s.returnToken gg.holdsToken
    let s2 := if gg.formed then s1.modGang crew mask fun g => { g with col := none }
      else s1.modCrew crew fun c => { c with gangs := SMap.del c.gangs mask.toNat }
    { s2 with tgs := s2.tgs.map fun p =>
        if p.2.crew = crew ∧ p.2.wait = .col mask then (p.1, { p.2 with wait := .ready }) else p }

/-- A TG leaves a col: its arrival is withdrawn, and it is among the TGs that must still trap there no more. The last such TG, and
the last arrival, reset the col (R241, R309). -/
def State.leaveCol (s : State) (crew : Nat) (mask : BitVec 16) (idx : Nat) : State :=
  match (s.gang crew mask).bind (·.col) with
  | none => s
  | some c =>
    let c' : Col :=
      { c with arrived := c.arrived.filter (· != idx), request := none, token := false, stage := none
               trapping := c.trapping.map fun l => l.filter (· != idx) }
    if c'.trapping.any (·.isEmpty) || (c'.trapping.isNone && c'.arrived.isEmpty) then s.resetCol crew mask
    else (s.returnToken c.token).modGang crew mask fun g => { g with col := some c' }

/-- A TG takes the GANG trap that a mismatch left for it: each col that waits for it counts it (R241). -/
def State.tookGang (s : State) (crew idx : Nat) : State :=
  match s.crew crew with
  | none => s
  | some c =>
    (c.gangs.filter fun p => p.2.col.any fun k => k.trapping.any (·.contains idx)).foldl
      (fun s p => s.leaveCol crew p.2.mask idx) s

/-- The gangs that list a TG's index dissolve; TGs parked at their cols reissue and take GANG there (R242). A forming gang
loses the TG's arrival. -/
def State.dissolveGangs (s : State) (crew idx : Nat) : State :=
  match s.crew crew with
  | none => s
  | some c =>
    let hit := c.gangs.filter fun p => p.2.mask.getLsbD idx && p.2.formed && !p.2.dissolved
    let freed := (hit.filter fun p => p.2.holdsToken).length
    let s1 := s.modCrew crew fun c =>
      { c with gangs := c.gangs.map fun p =>
          if p.2.mask.getLsbD idx && !p.2.dissolved && p.2.formed then (p.1, p.2.dissolve) else p }
    let s2 := { s1 with ralf := { s1.ralf with tokens := s1.ralf.tokens - freed } }
    let s3 := { s2 with tgs := s2.tgs.map fun p =>
        match p.2.wait with
        | .col m => if p.2.crew == crew && hit.any (fun q => q.2.mask == m) then (p.1, { p.2 with wait := .ready }) else p
        | _ => p }
    (c.gangs.filter fun p => p.2.mask.getLsbD idx && !p.2.formed).foldl (fun s p => s.leaveCol crew p.2.mask idx) s3

/-- Whether a copy reads or writes scratchpad or staging (R228). -/
def CopyWork.isLocal : CopyWork → Bool
  | .tile t => t.srcSp != 1 || t.dstSp != 1
  | .fill _ sp .. => sp != 1
  | .topk _ _ _ _ a b c .. => a != 1 || b != 1 || c != 1
  | .expand _ _ _ a b .. => a != 1 || b != 1
  | .sub .. => true

/-- Whether an operation counts into an object of a crew's arena. -/
def CopyOp.countsInto (o : CopyOp) (crew : Nat) : Bool :=
  match o.obj with
  | .arena c _ => c == crew
  | _ => false

/-- Whether an operation still reads or writes a crew's scratchpad or staging, or its gangs have work (R228, R242). -/
def State.crewBusy (s : State) (crew : Nat) : Bool :=
  (s.copies.any fun p => p.2.crew == crew && (p.2.work.isLocal || p.2.countsInto crew)) ||
    match s.crew crew with
    | some c => c.gangs.any fun p => !p.2.ops.isEmpty || !p.2.xfers.isEmpty
    | none => false

/-- Gangs that are dissolved and have finished go; a crew with no TG and no outstanding work goes with its scratchpad,
staging and slabs (R142, R228). -/
def State.reapCrew (s : State) (crew : Nat) : State :=
  let s1 := s.modCrew crew fun c =>
    { c with gangs := c.gangs.filter fun p => !(p.2.dissolved && p.2.ops.isEmpty && p.2.xfers.isEmpty) }
  match s1.crew crew with
  | none => s1
  | some c => if c.live = 0 && !s1.crewBusy crew then { s1 with crews := SMap.del s1.crews crew } else s1

/-- A codebook slot whose loading crew has no TG left is reset to +0, on every core that the crew has been on (R248). -/
def State.resetCodebooks (s : State) (crew : Nat) : State :=
  s.cores.foldl (fun s p =>
    s.modCore p.1 fun c => { c with codebooks := c.codebooks.filter fun q => q.2.crew != some crew }) s

/-- The deadline that a TG holds as it retires stays with the operations it leaves behind (R152). -/
def State.keepDeadline (s : State) (id : Nat) (g : Tg) : State :=
  let dl : W64 := BitVec.ofNat 64 (s.effDeadline id)
  let s1 := { s with copies := s.copies.map fun (p : Nat × CopyOp) => if p.2.tg = id then (p.1, { p.2 with dl := dl }) else p }
  s1.modCrew g.crew fun c =>
    { c with gangs := c.gangs.map fun (p : Nat × Gang) =>
        if p.2.mask.getLsbD g.idx then
          (p.1, { p.2 with xfers := p.2.xfers.map fun x => { x with dl := BitVec.ofNat 64 (s.gangDeadline g.crew p.2.mask) } })
        else p }

/-- A freed spawn slot goes to the fired TG of the die that waits for one with the earliest effective deadline, ties to the one
that fired first; else it is free (R301). -/
def State.giveSlot (s : State) (die m : Nat) : State :=
  let waiting := s.tgs.filterMap fun p =>
    match s.crew p.2.crew with
    | some c => if c.spawned && c.die == some die && p.2.slot.isNone then some (s.effDeadline p.1, p.2.order, p.1) else none
    | none => none
  match earliest waiting with
  | some id => s.modTg id fun g => { g with slot := some m }
  | none => s.modDie die fun d => { d with slots := d.slots.filter (· != m) }

/-- A TG retires (R78, R187, R242): its stores reach memory, its share is flushed, its gangs dissolve, its slot is free. -/
def State.retire (s : State) (id : Nat) : State :=
  match s.tg id with
  | none => s
  | some g =>
    let s1 := ((((s.keepDeadline id g).drain id).flushShare id).tookGang g.crew g.idx).dissolveGangs g.crew g.idx
    let s2 := { s1 with tgs := SMap.del s1.tgs id }
    let s3 := match g.slot with
      | some m => s2.giveSlot (dieOf g.core) m
      | none => s2
    let s4 := s3.modCrew g.crew fun c => { c with live := c.live - 1 }
    let last := (s4.crew g.crew).any fun c => c.live == 0
    (if last then s4.resetCodebooks g.crew else s4).reapCrew g.crew

/-! ### Threads leaving -/

/-- Threads exit or are reclaimed (R94, R309): references dropped, records and entries ended; they join XMASK outside
inline frames (R303) and leave the mask. -/
def State.removeThreads (s : State) (id : Nat) (ts : Mask) : State :=
  let s1 := ts.threads.foldl (fun s t => s.endThread id t) s
  s1.modTg id fun g => { g with mask := g.mask &&& ~~~ts, xmask := if g.frames.isEmpty then g.xmask ||| ts else g.xmask }

/-- The f registers of every thread, and the tasks of an inline frame's threads, as they were (R303). -/
def Tg.unframe (g : Tg) (fr : InlineFrame) : Tg :=
  { g with
    f := (List.range 8).foldl (fun m r => SMap.put m r (Row.tab fun t => Row.at (SMap.get [] fr.fregs r) fNull t)) g.f
    threads := Row.tab fun t => if fr.q.has t then Row.at fr.tasks taskNone t else g.taskAt t }

/-- Every inline frame unwound at the end of a TG, innermost first. -/
def State.unwind (s : State) (id : Nat) : State :=
  match s.tg id with
  | none => s
  | some g => g.frames.foldl (fun s fr =>
      let s1 := fr.q.threads.foldl (fun s t => s.endThread id t) s
      let s2 := s1.modTg id fun g => { g.unframe fr with frames := g.frames.drop 1 }
      fr.children.foldl (fun s p => s.dropRef g.ctx p.2) s2) s

/-- The end of a TG without the launch's bookkeeping: every thread exits and the TG retires (R328). -/
def State.endQuiet (s : State) (id : Nat) : State :=
  let s1 := s.unwind id
  match s1.tg id with
  | none => s1
  | some g => (s1.removeThreads id (~~~g.xmask)).retire id

/-- A launch fails (R328): its held contributions are discarded, its other TGs end at their next boundary, unless a
transfer fault has ended them already (R266). -/
def State.failLaunch (s : State) (l : Nat) : State :=
  let s1 := { s with held := s.held.filter fun c => c.launch != l, contribs := s.contribs.filter fun c => c.launch != l }
  let s2 := s1.updLaunch l fun x => { x with failed := true, spilled := 0 }
  { s2 with tgs := s2.tgs.map fun p => if p.2.launch = l then (p.1, { p.2 with ending := if p.2.ending = .none then .launchFailed else p.2.ending }) else p }

/-- end_tg with a trap code (R328). -/
def State.endTgCode (s : State) (id code : Nat) : State :=
  match s.tg id with
  | none => s
  | some g =>
    let s1 := s.endQuiet id
    let s2 := s1.modLaunch g.launch fun x =>
      { x with trapn := x.trapn + 1, cause := if x.cause = 0 then BitVec.ofNat 8 code else x.cause }
    s2.failLaunch g.launch

/-- end_tg (R328). -/
def State.endTg (s : State) (id : Nat) (c : Cause) : State := s.endTgCode id c.code

/-- end_tg with the address of an invalidated fault in TADDR (R153, R266). -/
def State.endAt (s : State) (id : Nat) (c : Cause) (va : W64) : State :=
  (s.modTg id fun g => { g with trap := { g.trap with taddr := va } }).endTg id c

/-! ### Trap entry and return (R325 to R327) -/

/-- A new slice begins as yield with both operands 0xC0 leaves it (R319, R323). -/
def State.newSlice (s : State) (id : Nat) : State :=
  match s.tg id with
  | none => s
  | some g =>
    let b : W32 := match s.launch g.launch with
      | some l => l.desc.budget
      | none => 0
    s.modTg id fun g => { g with
      task := { g.task with tgbud := b }, budget := false, budgetTaken := false, budgetForced := false, sliceEnd := true }

/-- Whether the threads the window handler needs are all made active (R82). -/
def Cause.window (c : Cause) : Bool := c == .wovf || c == .wunf

/-- The registers a trap entry writes (R82, R325). -/
def Tg.entered (g : Tg) (c : Cause) (ret info : W64) (tid : Nat) : Tg :=
  { g with
    trap := { g.trap with
      tpc := ret, tcause := BitVec.ofNat 9 (c.code + if c.terminal then 256 else 0), taddr := info
      ttid := BitVec.ofNat 7 tid, tam := g.mask, twbase := g.win.wbase, tstat := true }
    mask := if c.window then BitVec.allOnes 96 else g.mask
    pc := g.trap.tvec + BitVec.ofNat 64 (64 * c.code)
    wait := .ready }

/-- Taking a trap: ONE operation for every cause (R325). DEDUCED, log 36. -/
def State.enter (s0 : State) (id : Nat) (c : Cause) (ret info : W64) (tid : Nat) : State :=
  let s := if c.terminal then s0.count (ctrTrap c.code) else s0
  match s.tg id with
  | none => s
  | some g =>
    if g.trap.tstat then s.endTg id c
    else if g.trap.tvec = 0 then (if c = .budget then s.newSlice id else s.endTg id c)
    else s.setTg id (g.entered c ret info tid)

/-- The trap of a TG at its current instruction. -/
def State.trapHere (s : State) (id : Nat) (c : Cause) (info : W64) (tid : Nat) : State :=
  match s.tg id with
  | none => s
  | some g => s.enter id c g.pc info tid

/-- The return from a trap handler (R82, R327): WBASE and the mask as saved, pc := TPC; the end of the TG after a terminal cause or
with an illegal TPC; none outside a handler. -/
def State.leave (s : State) (id : Nat) : Option State :=
  match s.tg id with
  | none => none
  | some g =>
    if !g.trap.tstat then none
    else if g.trap.tcause.getLsbD 8 then some (s.endTgCode id (g.trap.tcause.toNat % 256))
    else if g.trap.tpc.extractLsb' 0 3 ≠ 0 then some (s.endTg id .align)
    else if g.trap.tpc.extractLsb' 57 7 ≠ 0 then some (s.endTg id .addr)
    else some (s.setTg id
      { g with win := { g.win with wbase := g.trap.twbase }, mask := g.trap.tam &&& ~~~g.xmask
               trap := { g.trap with tstat := false }, pc := g.trap.tpc })

/-- A recoverable fault of an instruction, a spill or a fill: the TG parks, or takes PFAULT under FAULTMODE (R152, R330). The wait on a
posted fault is a pre-emption point (R331). -/
def State.parkFault (s : State) (id : Nat) (src : FaultSrc) (write fetch : Bool) (va : W64) (tid : Nat) (fill : Bool) :
    State :=
  match s.tg id with
  | none => s
  | some g =>
    if (s.ctx g.ctx).any (·.faultmode) then
      (if fill then s.endTg id .pfault else s.trapHere id .pfault va tid)
    else
      let kind : BitVec 8 := if fetch then 4 else if write then 2 else 1
      let info : FaultInfo :=
        { ctx := g.ctx, page := s.pageOf g.ctx va.toNat, va := va, src := src, kind := kind, core := g.core
          dl := BitVec.ofNat 64 (s.effDeadline id), time := s.gtime }
      let (s1, at') := s.raise (dieOf g.core) info
      s1.modTg id fun g =>
        match at' with
        | some (i, ph) => { g with wait := .fault (dieOf g.core) i ph va tid fill, sinceSafe := 0 }
        | none => { g with wait := .heldFault (dieOf g.core) va tid fill }

/-- A stop of the current instruction takes effect: the trap is entered, or the TG parks on the fault. -/
def State.stop (s : State) (id : Nat) (st : Stop) : State :=
  match st with
  | .trap c info tid => s.trapHere id c info tid
  | .fault w f va tid => s.parkFault id .instr w f va tid false

/-! ### The reconvergence stack (R74, R75) -/

/-- An entry in memory: 32 bytes (R74). -/
def ReconvEntry.toBytes (e : ReconvEntry) : List Byte :=
  leBytes e.m.toNat 12 ++ leBytes e.p.toNat 12 ++ leBytes e.pc.toNat 8

def ReconvEntry.ofBytes (bs : List Byte) : ReconvEntry :=
  { m := BitVec.ofNat 96 (leNat (bs.take 12)), p := BitVec.ofNat 96 (leNat ((bs.drop 12).take 12))
    pc := BitVec.ofNat 64 (leNat (bs.drop 24) / 8 * 8) }

/-- The address of entry `i` in memory (R74). -/
def Reconv.slotVa (r : Reconv) (i : Nat) : W64 := r.rspill + BitVec.ofNat 64 (32 * i)

/-- What a stack operation needs: the TG's new stack, and the stores it makes. -/
structure StackMove where
  reconv : Reconv
  stores : List PStore
  /-- Addresses touched, and whether by a write. -/
  va : Option W64
  write : Bool
deriving DecidableEq, Repr

/-- A push; the oldest core entry of a full core moves to memory (R74, R75). At the greatest depth it traps ADDR, with TADDR 0: R323 gives
an address or 0 and no rule says which (DESIGN CHOICE, log 51). -/
def State.push (s : State) (g : Tg) (e : ReconvEntry) (tid : Nat) : Except Stop StackMove :=
  if Config.maxRdepth ≤ g.reconv.depth then .error (.trap .addr 0 tid)
  else if g.reconv.core.length < Config.coreEntries then
    .ok { reconv := { g.reconv with core := e :: g.reconv.core, depth := g.reconv.depth + 1 }, stores := [], va := none
          write := false }
  else
    let va := g.reconv.slotVa (g.reconv.depth - Config.coreEntries)
    match s.checkGl g.core g.ctx [(tid, va)] 32 .store with
    | some st => .error st
    | none =>
      let old := g.reconv.core.getLast?.getD e
      .ok { reconv := { g.reconv with core := e :: g.reconv.core.dropLast, depth := g.reconv.depth + 1 }
            stores := [{ loc := s.locOf g.core g.ctx va.toNat, data := old.toBytes, va := va, tid := tid, pos := s.stamp }], va := some va
            write := true }

/-- A pop; the newest entry in memory, if any, comes back to the core (R74, R75). -/
def State.pop (s : State) (g : Tg) (tid : Nat) : Except Stop StackMove :=
  let d := g.reconv.depth - 1
  let core := g.reconv.core.drop 1
  if d < Config.coreEntries then
    .ok { reconv := { g.reconv with core := core, depth := d }, stores := [], va := none, write := false }
  else
    let va := g.reconv.slotVa (d - Config.coreEntries)
    match s.checkGl g.core g.ctx [(tid, va)] 32 .load with
    | some st => .error st
    | none =>
      let e := ReconvEntry.ofBytes (tgBytes g s (s.locOf g.core g.ctx va.toNat) 32 0)
      .ok { reconv := { g.reconv with core := core ++ [e], depth := d }, stores := [], va := some va, write := false }

/-- A stack operation performed on a TG. -/
def State.moveStack (s : State) (id : Nat) (g : Tg) (m : StackMove) : State :=
  let s1 := match m.va with
    | some va => s.touch g.core g.ctx va.toNat m.write
    | none => s
  s1.setTg id { g with reconv := m.reconv, stores := g.stores ++ m.stores }

/-- The top entry changed in place. -/
def Reconv.setTop (r : Reconv) (e : ReconvEntry) : Reconv := { r with core := e :: r.core.drop 1 }

/-! ### The procedure of R78, with inline frames (R303) -/

/-- The address of inline frame `n` (R303). -/
def Tg.frameVa (g : Tg) (n : Nat) : W64 := g.task.inlbase + BitVec.ofNat 64 (12288 * n)

/-- The innermost inline frame is read and popped (R303). -/
def State.popFrame (s : State) (id : Nat) (fr : InlineFrame) : State :=
  let s0 := match s.tg id with
    | some g => let va := (g.frameVa (g.frames.length - 1)).toNat
                s.touchAll g.core g.ctx [va, va + 12287] false
    | none => s
  let s1 := s0.modTg id fun g =>
    { g.unframe fr with
      frames := g.frames.drop 1
      mask := fr.mask &&& ~~~g.xmask
      win := { g.win with wbase := fr.wbase }
      v := fr.vtop.foldl (fun m p => SMap.put m p.1 (Row.tab fun t => Row.at p.2 0 t)) g.v
      task := { g.task with spdone := 0 }
      pc := fr.ret }
  fr.children.foldl (fun s p => s.putF id fr.d p.1 { h := p.2, counted := true }) s1

/-- What stops the reads of the innermost inline frame of 12,288 bytes at its pop (R75, R303). DEDUCED, log 35. -/
def State.frameStop (s : State) (g : Tg) : Option Stop :=
  let va := g.frameVa (g.frames.length - 1)
  s.checkGl g.core g.ctx [(0, va), (0, va + 12287)] 1 .load

/-- One turn of the loop of R78 on the top entry: the final state, or the state to go on with. -/
def State.settleEntry (s s0 : State) (id : Nat) (g : Tg) : State × Bool :=
  match g.reconv.core with
  | [] => (s.retire id, true)
  | e :: _ =>
    let w := e.p &&& ~~~g.xmask
    let w' := e.m &&& ~~~g.xmask
    if w ≠ 0 then (s.setTg id { g with mask := w, pc := e.pc, reconv := g.reconv.setTop { e with p := 0 } }, true)
    else if w' ≠ 0 then (s.setTg id { g with mask := w', pc := e.pc }, true)
    else
      match s.pop g 0 with
      | .ok m => (s.moveStack id g m, false)
      | .error (.fault w f va tid) => (s0.parkFault id .spill w f va tid true, true)
      | .error (.trap c _ _) => (s0.endTg id c, true)

/-- R78 from a zero mask: the TG ends with its mask nonzero again, or retired, ended or parked on a fill. A fault of a fill, and of the read
of an inline frame at its pop, for which R152 names no source, has SRC 5 (DESIGN CHOICE, log 35). -/
def State.settleN : Nat → State → State → Nat → State
  | 0, s, _, _ => s
  | n + 1, s, s0, id =>
    match s.tg id with
    | none => s
    | some g =>
      if g.mask ≠ 0 then s
      else
        let r : State × Bool := match g.frames with
          | fr :: _ =>
            if g.reconv.depth ≠ fr.rdepth then s.settleEntry s0 id g
            else match s.frameStop g with
              | none => (s.popFrame id fr, false)
              | some (.fault w f va tid) => (s0.parkFault id .spill w f va tid true, true)
              | some (.trap c _ _) => (s0.endTg id c, true)
          | [] => s.settleEntry s0 id g
        if r.2 then r.1 else State.settleN n r.1 s0 id

/-- R78, run before a TG whose mask is zero issues again. -/
def State.settle (s : State) (id : Nat) : State :=
  match s.tg id with
  | none => s
  | some g => if g.mask ≠ 0 then s else State.settleN (g.reconv.depth + g.frames.length + 1) s s id

/-! ### Reclamation (R309, R310, R326) -/

/-- Whether a thread's own entry carries DOOM while it runs. -/
def State.doomed (s : State) (g : Tg) (t : Nat) : Bool :=
  let h := (g.taskAt t).own
  h != 0 && match s.lookup g.ctx h with
    | .entry _ e => e.state == stRunning && e.doom
    | _ => false

/-- The threads that a reclamation point takes: active, doomed, not held, outside a handler. -/
def State.reclaimable (s : State) (g : Tg) : Mask :=
  if g.trap.tstat then 0 else Mask.of fun t => g.mask.has t && !(g.taskAt t).hold && s.doomed g t

/-- A reclamation point of a TG: its accesses are performed, the doomed threads go, and R78 follows where none is left. -/
def State.reclaim (s : State) (id : Nat) : State :=
  match s.tg id with
  | none => s
  | some g =>
    let ts := s.reclaimable g
    if ts = 0 then s else ((s.drain id).removeThreads id ts).settle id

/-! ### BUDGET (R296, R323) -/

/-- Whether a TG has a BUDGET to take: TGBUD has reached 0 in a slice that has not taken it (R296). -/
def Tg.budgetDue (g : Tg) : Bool := g.budget || (g.task.tgbud == 0 && !g.budgetTaken)

/-- A BUDGET with TVEC = 0 acts as yield: beside the new slice that State.enter begins, a reclamation point and a pre-emption point
(R309, R319, R323, R331). -/
def State.budgetYield (s : State) (id : Nat) : State :=
  (s.modTg id fun g => { g with sinceSafe := 0 }).reclaim id

/-- A BUDGET that is taken: the trap with the address to return to, once per slice, reported for the lowest-numbered active thread
(R296, R323, R324). -/
def State.takeBudget (s : State) (id : Nat) (ret info : W64) : State :=
  let s1 := (s.modTg id fun g => { g with budget := false, budgetTaken := true, budgetForced := false }).enter id .budget ret info
    (((s.tg id).bind fun g => g.mask.lowest).getD 0)
  if (s.tg id).any fun g => !g.trap.tstat && g.trap.tvec == 0 then s1.budgetYield id else s1

end Sys2Proof.Machine
end

