-- ==== Sys2Proof/Machine/Operands.lean ====
section
/-! DEFINITION. Registers and operands (R28, R50, R55 to R61, R70 to R73, R79, R95, R96, R118, R119): one accessor per
register file, one reading per operand form. -/

namespace Sys2Proof.Machine

/-! ### Instructions as words -/

/-- Words an R-form instruction takes with its prefix and long word. -/
def RArgs.words (f : RArgs) : Nat := (if f.pfx.isSome then 1 else 0) + 1 + (if f.h.long = .none then 0 else 1)
def IArgs.words (f : IArgs) : Nat := 1 + (if f.h.long = .none then 0 else 1)

/-- The header of an instruction. -/
def hdrOf (i : Instr) : Option Hdr :=
  match i.enc with
  | .r _ _ f _ => some f.h
  | .i _ _ f _ => some f.h
  | .mc f => some { g := f.g, n := f.n, u := f.u, safe := f.safe, long := .none }
  | .event => none

/-- S = 1: a safe point. -/
def isSafe (i : Instr) : Bool := (hdrOf i).any (·.safe)

/-- The first word of an instruction (TADDR of ILLOP and PRIV, R323). -/
def firstWord (i : Instr) : W64 := ((encode i).getD []).headD 0

/-- The value of the long word's IMM, 0 without one (R58). -/
def Hdr.imm (h : Hdr) : W32 :=
  match h.long with
  | .imm32 v => v
  | _ => 0

/-! ### Vector registers (R79) -/

/-- The physical slot of vN: logical register WBASE + N, modulo k (R79). -/
def Tg.slotOf (g : Tg) (n : Nat) : Nat := (g.win.wbase.toNat + n) % g.win.k

/-- vN of thread `t`. -/
def Tg.vAt (g : Tg) (n t : Nat) : W32 := Row.at (SMap.get [] g.v (g.slotOf n)) 0 t

/-- vN written in the threads where `x` gives a value. -/
def Tg.setV (g : Tg) (n : Nat) (x : Nat → Option W32) : Tg :=
  { g with v := SMap.put g.v (g.slotOf n) (Row.tab fun t => (x t).getD (g.vAt n t)) }

/-- A 64-bit element in the pair vN:vN+1 (R28). -/
def Tg.v64 (g : Tg) (n t : Nat) : W64 := g.vAt (n + 1) t ++ g.vAt n t

/-- The pair vN:vN+1 written in the threads where `x` gives a value. -/
def Tg.setV64 (g : Tg) (n : Nat) (x : Nat → Option W64) : Tg :=
  (g.setV n fun t => (x t).map fun w => w.extractLsb' 0 32).setV (n + 1) fun t => (x t).map fun w => w.extractLsb' 32 32

/-! ### Scalar registers (R55, R71) -/

/-- The mask word am(b): threads 32b to 32b + 31 (R71). -/
def maskWord (m : Mask) (b : Nat) : W32 := m.extractLsb' (32 * b) 32

/-- A mask with one of its words replaced (R71). -/
def setMaskWord (m : Mask) (b : Nat) (w : W32) : Mask :=
  (if b = 2 then w else maskWord m 2) ++ (if b = 1 then w else maskWord m 1) ++ (if b = 0 then w else maskWord m 0)

/-- sN; s61 to s63 read the activity mask (R71). -/
def Tg.sAt (g : Tg) (n : Nat) : W64 :=
  if n < 61 then SMap.get 0 g.s n else (maskWord g.mask (n - 61)).setWidth 64

/-- sN written; a write of s61 to s63 sets the mask to the written bits AND NOT XMASK: all 96 bits, those of the two words not written
too, which differs only in a window handler (R71, R82). DESIGN CHOICE, log 45. -/
def Tg.setS (g : Tg) (n : Nat) (x : W64) : Tg :=
  if n < 61 then { g with s := SMap.set 0 g.s n x }
  else { g with mask := setMaskWord g.mask (n - 61) (x.setWidth 32) &&& ~~~g.xmask }

/-- rc, sp and lr (R7). -/
def regRc : Nat := 58
def regSp : Nat := 59
def regLr : Nat := 60

/-! ### Predicates (R55, R73) and guards (R50) -/

/-- The four bits of pN in thread `t`; p7 reads as all ones (R7). -/
def Tg.pAt (g : Tg) (n t : Nat) : BitVec 4 := if n = 7 then 15 else Row.at (SMap.get [] g.p n) 0 t

/-- pN written in the threads where `x` gives bits and a mask of the bits that change; a write to p7 is discarded (R55). -/
def Tg.setP (g : Tg) (n : Nat) (x : Nat → Option (BitVec 4 × BitVec 4)) : Tg :=
  if n = 7 then g
  else
    { g with p := SMap.put g.p n (Row.tab fun t =>
        match x t with
        | some (v, m) => (g.pAt n t &&& ~~~m) ||| (v &&& m)
        | none => g.pAt n t) }

/-- The guard bits of thread `t` (R50). -/
def Tg.guardBits (g : Tg) (gp : BitVec 3) (neg : Bool) (t : Nat) : BitVec 4 :=
  if neg then ~~~(g.pAt gp.toNat t) else g.pAt gp.toNat t

/-- Guard bit 0 of thread `t`: what a 32-bit or 64-bit operation tests (R50). -/
def Tg.guard0 (g : Tg) (h : Hdr) (t : Nat) : Bool := (g.guardBits h.g h.n t).getLsbD 0

/-- The threads that act: active, guard true (R50). -/
def Tg.acting (g : Tg) (h : Hdr) : Mask := Mask.of fun t => g.mask.has t && g.guard0 h t

/-- The threads that act in a packed operation: guard bit 0 or 2 true (R28, R183). -/
def Tg.actingPacked (g : Tg) (h : Hdr) : Mask :=
  Mask.of fun t => g.mask.has t && ((g.guardBits h.g h.n t).getLsbD 0 || (g.guardBits h.g h.n t).getLsbD 2)

/-- The guard of an instruction that acts once for the TG: evaluated on the lowest-numbered active thread, which is
returned; none where it has no effect (R51, R85). Guard bit 0 decides, in a uniform form of a packed type too, for which R51 and R135 name
no bit (DESIGN CHOICE, log 57). -/
def Tg.once (g : Tg) (h : Hdr) : Option Nat :=
  match g.mask.lowest with
  | none => none
  | some t => if g.guard0 h t then some t else none

/-! ### Operands -/

/-- The exact value of a small immediate, -32 to 31 (R55, R56). -/
def smallInt (n : BitVec 6) : Int := n.toInt

/-- A small immediate as bits of a type (R56). -/
def smallImm (ty : Ty) (w : Nat) (n : BitVec 6) : Nat :=
  let x := smallInt n
  let fl := (Ty.fmt ty).round (Exact.ofInt x) .rne false
  match ty with
  | .f32 | .f16 | .bf16 => fl
  | .f16x2 | .bf16x2 => fl + 2 ^ 16 * fl
  | _ => wrapInt x w

/-- The long immediate as bits of a type (R59). -/
def longImm (ty : Ty) (w : Nat) (v : W32) : Nat :=
  if w = 64 then (if ty.isSInt then wrapInt v.toInt 64 else v.toNat) else v.toNat % 2 ^ w

/-- A special source (R55). -/
def special (s : State) (g : Tg) (x : Special) (t : Nat) : W64 :=
  match x with
  | .tid => BitVec.ofNat 64 t
  | .lane => BitVec.ofNat 64 (t % 32)
  | .beat => BitVec.ofNat 64 (t / 32)
  | .tg => g.num
  | .crew => g.crewNum
  | .core => BitVec.ofNat 64 g.core
  | .die => BitVec.ofNat 64 (dieOf g.core)
  | .clk => BitVec.ofNat 64 s.clk
  | .gtime => s.gtime

/-- The bits [w−1:0] of an operand of type `ty` for thread `t` (R95, R118). A predicate gives its four bits. -/
def opnd (s : State) (g : Tg) (h : Hdr) (ty : Ty) (w : Nat) (sp : Spec) (t : Nat) : Nat :=
  match sp with
  | .v n => if w = 64 then (g.v64 n.toNat t).toNat else (g.vAt n.toNat t).toNat % 2 ^ w
  | .s n => (g.sAt n.toNat).toNat % 2 ^ w
  | .p n => (g.pAt n.toNat t).toNat
  | .special x => (special s g x t).toNat % 2 ^ w
  | .imm n => smallImm ty w n
  | .limm => longImm ty w (Hdr.imm h)
  | _ => 0

/-- The number of the register a specifier names, or a small immediate's six bits. -/
def Spec.num : Spec → Nat
  | .v n => n.toNat
  | .s n => n.toNat
  | .m n => n.toNat
  | .p n => n.toNat
  | .f n => n.toNat
  | .imm n => n.toNat
  | _ => 0

/-- A 64-bit scalar operand, or its small or long immediate (n64). -/
def opnd64 (s : State) (g : Tg) (h : Hdr) (sp : Spec) : W64 := BitVec.ofNat 64 (opnd s g h .n64 64 sp 0)

/-- A count or length operand read as n32: bits [31:0] of a scalar, a small immediate sign-extended (R221). -/
def opnd32 (s : State) (g : Tg) (h : Hdr) (sp : Spec) : Nat := opnd s g h .n32 32 sp 0

/-- A result of `w` bits as the register holds it: sign-extended for an i type, else zero-extended, to `r` bits
(R28, R96, R119). -/
def extend (signed : Bool) (w r : Nat) (x : Nat) : Nat := if signed then wrapInt (sextInt x w) r else x % 2 ^ w

/-- Whether a TG takes a pending BUDGET after an instruction that it issued as `g`: a safe point that completed, outside a handler
(R296, R324). -/
def takesBudget (i : Instr) (g g' : Tg) : Bool :=
  isSafe i && g'.budgetDue && decide (g'.wait = .ready) && !g.trap.tstat && !g'.trap.tstat

/-- An instruction of a TG that issued it as `g` has completed: the BUDGET of a safe point. -/
def State.passSafe (s : State) (id : Nat) (g : Tg) (i : Instr) : State :=
  match s.tg id with
  | some g' => if takesBudget i g g' then s.takeBudget id g'.pc 0 else s
  | none => s

/-! ### The current TG -/

/-- The meaning of an instruction acts on the TG that issues; without one there is nothing to act on. -/
def onTg (s : State) (k : Tg → Out) : Out :=
  match s.tg s.cur with
  | some g => k g
  | none => .refused .noThreadGroup

/-- The TG at its next instruction. -/
def Tg.advance (g : Tg) (words : Nat) : Tg := { g with pc := g.pc + BitVec.ofNat 64 (8 * words) }

/-- The instruction completes with the TG as given, and R78 follows where the mask is zero. -/
def done (s : State) (g : Tg) : Out := .next ((s.setTg s.cur g).settle s.cur)

/-- The instruction has no effect beyond the pc. -/
def skip (s : State) (g : Tg) (words : Nat) : Out := .next (s.setTg s.cur (g.advance words))

/-- The instruction stops on a trap or a fault at its own address. -/
def halted (s : State) (st : Stop) : Out := .next (s.stop s.cur st)

/-- ILLOP raised by a value check of an instruction (R323). -/
def illop (s : State) (g : Tg) (i : Instr) : Out := halted s (.trap .illop (firstWord i) (g.mask.lowest.getD 0))

/-- A trap at this instruction, reported for the lowest-numbered active thread (R324). DEDUCED, log 29. -/
def trapOnce (s : State) (g : Tg) (c : Cause) (info : W64) : Out := halted s (.trap c info (g.mask.lowest.getD 0))

/-- The crew of a TG; an empty one where it is gone. -/
def noCrew : Crew :=
  { ctx := 0, launch := 0, num := 0, spawned := false, core := none, saved := false, tgs := [], live := 0, scratchSize := 0
    nbar := 0, scratch := [], stageSize := 0, nrsv := 0, staging := [], rings := [], gangs := [], slabs := 0, gmax := 0
    k := 64, order := 0, die := none, preempt := false }

def State.crewOf (s : State) (g : Tg) : Crew := (s.crew g.crew).getD noCrew

/-- Whether the TG's context is a system context (R336). -/
def State.privileged (s : State) (g : Tg) : Bool := (s.ctx g.ctx).any (·.system)

end Sys2Proof.Machine
end

