-- ==== Sys2Proof/Machine/Flags.lean ====
section
/-! DEFINITION. Predicate results: the conditions of R54, carries of R100, and how the four predicate bits of a thread are
written by 32-bit, packed and byte operations (R73). -/

namespace Sys2Proof.Machine

/-- Four copies of one result: a 32-bit or 64-bit operation (R73). -/
def allBits (b : Bool) : BitVec 4 := if b then 15 else 0

/-- Element h of a packed operation writes bits 2h and 2h + 1 (R73). -/
def packedBits (b0 b1 : Bool) : BitVec 4 := (if b0 then 3#4 else 0#4) ||| (if b1 then 12#4 else 0#4)

/-- The conditions eq, ne, lt, le, gt and ge of R54 from an order. -/
def condOf (x : Nat) (lt eq : Bool) : Bool :=
  match x with
  | 0 => eq
  | 1 => !eq
  | 2 => lt
  | 3 => lt || eq
  | 4 => !lt && !eq
  | _ => !lt

/-- The condition of cmp on integers (R54, R106). -/
def cmpInt (x : Nat) (a b : Int) : Bool := condOf x (decide (a < b)) (decide (a = b))

/-- The condition of fcmp and hcmp2 (R54, R124): with a NaN the pair is unordered. -/
def cmpFlt (x : Nat) (a b : Exact) : Bool :=
  let un := a.isNan || b.isNan
  match x with
  | 6 => un
  | 7 => !un
  | 1 => un || !a.eqv b
  | x => !un && condOf x (a.lt b) (a.eqv b)

/-- Carry out of addc and borrow out of subb with the carry in `ci` (R100). -/
def carryAdd (a b ci w : Nat) : Nat × Bool := ((a + b + ci) % 2 ^ w, decide (2 ^ w ≤ a + b + ci))
def carrySub (a b ci w : Nat) : Nat × Bool := (wrapInt ((a : Int) - b - ci) w, decide (a < b + ci))

/-- The carry-in of addc and subb: bit 0 of the predicate X[2:0], complemented by X[3] (R100). -/
def carryIn (g : Tg) (x : BitVec 4) (t : Nat) : Nat :=
  let b := (g.pAt (x.toNat % 8) t).getLsbD 0
  if b != x.getLsbD 3 then 1 else 0

/-- The logic functions of prd (R113). -/
def prdOp (op : Nat) (x y : BitVec 4) : BitVec 4 :=
  match op with
  | 0 => x &&& y
  | 1 => x ||| y
  | 2 => x ^^^ y
  | 3 => x &&& ~~~y
  | 4 => x ||| ~~~y
  | 5 => ~~~(x &&& y)
  | 6 => ~~~(x ||| y)
  | _ => ~~~(x ^^^ y)

end Sys2Proof.Machine
end

