-- ==== Sys2Proof/Machine/Control.lean ====
section
/-! DEFINITION. Control instructions (R84 to R94): branches, the reconvergence stack, the register window. -/

namespace Sys2Proof.Machine

/-- The target of an I-form branch at `pc` (R84). -/
def branchTarget (f : IArgs) (pc : W64) : W64 :=
  match f.h.long with
  | .imm32 v => pc + v.signExtend 64
  | _ => pc + BitVec.ofInt 64 (8 * f.c.toInt)

/-- The check of R84 on register targets of threads. -/
def checkTargets (ts : List (Nat × W64)) : Option Stop :=
  match ts.find? (fun p => p.2.extractLsb' 0 3 != 0) with
  | some p => some (.trap .align p.2 p.1)
  | none =>
    match ts.find? (fun p => p.2.extractLsb' 57 7 != 0) with
    | some p => some (.trap .addr p.2 p.1)
    | none => none

/-- A stack operation that stops: the fault of a spill or fill has SRC 5 (R152). -/
def stackStop (s : State) (st : Stop) : Out :=
  match st with
  | .fault w f va tid => .next (s.parkFault s.cur .spill w f va tid false)
  | st => halted s st

/-- diverge of R76: `x` is where the threads outside `q` go on, `y` where those of `q` wait. -/
def diverge (s : State) (g : Tg) (x : W64) (q : Mask) (y : W64) : Out :=
  let g' := { g with mask := g.mask &&& ~~~q, pc := x }
  let fresh : Out :=
    match s.push g { m := g.mask, p := q, pc := y } (g.mask.lowest.getD 0) with
    | .ok m => .next (s.moveStack s.cur g' m)
    | .error st => stackStop s st
  match g.reconv.core with
  | e :: _ =>
    if e.pc = y then
      .next (s.setTg s.cur { g' with reconv := g.reconv.setTop { e with p := e.p ||| q, m := e.m ||| g.mask } })
    else fresh
  | [] => fresh

/-- R81 for a call with window step `n`: the trap, and the WNEED it sets. -/
def checkCall (w : WinRegs) (n : Nat) : Option (Cause × W32) :=
  let top := w.wbase.toNat + n + 64
  if min 65536 (w.wtlim.toNat + w.k) < top then some (.addr, w.wneed)
  else if w.wlo.toNat + w.k < top then some (.wovf, BitVec.ofNat 32 (top - w.wlo.toNat - w.k))
  else none

/-- R81 for a ret with window step `n`; a difference of 2^32 or more is kept modulo 2^32, the width of WNEED (DESIGN CHOICE, log 46). -/
def checkRet (w : WinRegs) (n : Nat) : Option (Cause × W32) :=
  if n ≠ 0 && decide (w.wbase.toNat < w.wlo.toNat + n) then
    some (.wunf, BitVec.ofNat 32 (w.wlo.toNat + n - w.wbase.toNat))
  else none

/-- A window check that failed: WNEED is set and is the trap's value (R81). ADDR has TADDR 0: R323 gives an address or 0, and no rule says
which (DESIGN CHOICE, log 51). -/
def windowTrap (s : State) (g : Tg) (p : Cause × W32) : Out :=
  .next ((s.setTg s.cur { g with win := { g.win with wneed := p.2 } }).trapHere s.cur p.1
    (if p.1 = .addr then 0 else p.2.setWidth 64) (g.mask.lowest.getD 0))

/-- The window moved by a call, lr holding the link (R89). -/
def Tg.called (g : Tg) (wn : Nat) (next target : W64) : Tg :=
  let g1 := g.setS regLr (next ||| BitVec.ofNat 64 wn)
  { g1 with win := { g1.win with wbase := g.win.wbase + BitVec.ofNat 32 (8 * wn) }, pc := target }

/-- call and callx after their target checks (R89, R90). -/
def callTo (s : State) (g : Tg) (wn : Nat) (next target : W64) : Out :=
  match checkCall g.win (8 * wn) with
  | some p => windowTrap s g p
  | none => done s (g.called wn next target)

/-- R86. -/
def execNop (f : RArgs) (s : State) : Out := onTg s fun g => skip s g (RArgs.words f)

/-- R87. -/
def execBra (f : IArgs) (s : State) : Out :=
  onTg s fun g =>
    let t := g.acting f.h
    let target := branchTarget f g.pc
    if t = 0 then skip s g (IArgs.words f)
    else if t = g.mask then done s { g with pc := target }
    else diverge s g (g.advance (IArgs.words f)).pc t target

/-- The target of thread `t` in brx (R88). -/
def brxTarget (g : Tg) (f : RArgs) (t : Nat) : W64 :=
  if g.guard0 f.h t then
    match f.a with
    | .v n => g.v64 n.toNat t
    | a => g.sAt (Spec.num a)
  else (g.advance (RArgs.words f)).pc

/-- R88. -/
def execBrx (f : RArgs) (s : State) : Out :=
  onTg s fun g =>
    match checkTargets ((g.acting f.h).threads.map fun t => (t, brxTarget g f t)) with
    | some st => halted s st
    | none =>
      match g.mask.lowest with
      | none => skip s g (RArgs.words f)
      | some t0 =>
        let x := brxTarget g f t0
        let grp := Mask.of fun t => g.mask.has t && brxTarget g f t == x
        if grp = g.mask then done s { g with pc := x } else diverge s g x (g.mask &&& ~~~grp) g.pc

/-- R89. -/
def execCall (f : IArgs) (s : State) : Out :=
  onTg s fun g =>
    match g.once f.h with
    | none => skip s g (IArgs.words f)
    | some _ => callTo s g f.b.toNat (g.advance (IArgs.words f)).pc (branchTarget f g.pc)

/-- R90. -/
def execCallx (f : RArgs) (s : State) : Out :=
  onTg s fun g =>
    match g.once f.h with
    | none => skip s g (RArgs.words f)
    | some t =>
      let target := g.sAt (Spec.num f.a)
      match checkTargets [(t, target)] with
      | some st => halted s st
      | none => callTo s g f.x.toNat (g.advance (RArgs.words f)).pc target

/-- R91. -/
def execRet (f : RArgs) (s : State) : Out :=
  onTg s fun g =>
    match g.once f.h with
    | none => skip s g (RArgs.words f)
    | some t =>
      let link := g.sAt (Spec.num f.a)
      let n := 8 * (link.toNat % 8)
      let target := link &&& ~~~7#64
      match checkTargets [(t, target)] with
      | some st => halted s st
      | none =>
        match checkRet g.win n with
        | some p => windowTrap s g p
        | none =>
          done s { g with win := { g.win with wbase := g.win.wbase - BitVec.ofNat 32 n }, pc := target }

/-- R92, R77. -/
def execJoin (f : RArgs) (s : State) : Out :=
  onTg s fun g =>
    let next := g.advance (RArgs.words f)
    match g.reconv.core with
    | [] => done s next
    | e :: _ =>
      let w := e.p &&& ~~~g.xmask
      if w ≠ 0 && e.pc != g.pc then
        done s { g with reconv := g.reconv.setTop { e with p := 0, pc := g.pc }, mask := w, pc := e.pc }
      else
        match s.pop g (g.mask.lowest.getD 0) with
        | .ok m => .next ((s.moveStack s.cur { next with mask := (e.m &&& ~~~g.xmask) ||| g.mask } m).settle s.cur)
        | .error st => stackStop s st

/-- R93. -/
def execLoop (f : IArgs) (s : State) : Out :=
  onTg s fun g =>
    match g.once f.h with
    | none => skip s g (IArgs.words f)
    | some _ =>
      let n := Spec.num f.d
      let g' := g.setS n (g.sAt n - 1)
      done s { g' with pc := if g'.sAt n ≠ 0 then branchTarget f g.pc else (g.advance (IArgs.words f)).pc }

/-- R94. A future table that cannot be reached traps ADDR, also where only a handle that an inline frame drops as it is popped lies in it
(R303, R306; DESIGN CHOICE, log 15). -/
def execExit (f : RArgs) (s : State) : Out :=
  onTg s fun g =>
    let s1 := ((s.setTg s.cur (g.advance (RArgs.words f))).removeThreads s.cur (g.acting f.h)).settle s.cur
    match (goStop s g (g.acting f.h).threads).or (popStop s g (((s1.tg s.cur).map (·.frames.length)).getD 0)) with
    | some st => halted s st
    | none => .next s1

end Sys2Proof.Machine
end

