-- ==== Sys2Proof/Machine/Lanes.lean ====
section
/-! DEFINITION. How an instruction of classes 0x10 to 0x2F acts on its threads (R51, R61, R69, R97, R120): per thread, once for
the TG under U = 1, or as a sweep over scratchpad operands. The instruction is a `LaneOp`: operand types and a function of
one thread. -/

namespace Sys2Proof.Machine

/-- What one thread reads: operands, the register D before, the element index e of R39, its guard bits, and the width of the
register D. -/
structure LaneIn where
  g : Tg
  t : Nat
  a : Nat
  b : Nat
  c : Nat
  old : Nat
  e : Nat
  gb : BitVec 4
  r : Nat

/-- What one thread writes: the contents of D, or predicate bits and which of them change in D and in CS. -/
structure LaneOut where
  data : Option Nat
  pd : Option (BitVec 4 × BitVec 4)
  pc : Option (BitVec 4 × BitVec 4)

/-- A new value for the data register D. -/
def LaneOut.reg (x : Nat) : LaneOut := { data := some x, pd := none, pc := none }

/-- A condition in D and its complement in CS, on the bits of `m` (R106, R124, R136). -/
def LaneOut.cond (bits m : BitVec 4) : LaneOut := { data := none, pd := some (bits, m), pc := some (~~~bits, m) }

/-- An operation: the types at which A, B and CS are read, the width of the destination element, whether it is packed, whether
its uniform form too tests guard bit 2h for element h (R107, R136), and its function; the first argument gives the rounding of the
element with index e. -/
structure LaneOp where
  tyA : Ty
  tyB : Ty
  tyC : Ty
  dw : Nat
  packed : Bool
  each : Bool := false
  run : (Nat → Rnd) → LaneIn → LaneOut

/-- The rounding of element `e` (R35, R39). -/
def rndAt (s : State) (g : Tg) (rm : BitVec 3) (e : Nat) : Rnd :=
  let seed : W64 := match s.ctx g.ctx with
    | some c => c.seed
    | none => 0
  Rnd.ofCode rm (if rm = 4 then srbits seed g.mode.srseq e else 0)

/-- SRSEQ after an instruction with this RM completes: it advances where RM is sr, also where nothing is rounded, as in a cvt that
widens (R39, R130). DESIGN CHOICE, log 41. -/
def Tg.bumpSr (g : Tg) (rm : BitVec 3) : Tg :=
  if rm = 4 then { g with mode := { g.mode with srseq := g.mode.srseq + 1 } } else g

/-- The iteration and the steps of D, A and B of a sweep; none outside a sweep. -/
abbrev SweepAt := Option (Nat × BitVec 16 × BitVec 16 × BitVec 16)

/-- Scratchpad offset of thread `t` in iteration `i` (R61). -/
def spOff (g : Tg) (n : BitVec 6) (i : Nat) (step : BitVec 16) (t : Nat) : Nat :=
  wrapInt ((g.sAt n.toNat).toNat % 2 ^ 32 + i * step.toInt + 4 * t) 32

/-- The scratchpad offsets that an operand of a sweep names in thread `t`. -/
def sweepOff (g : Tg) (sp : Spec) (i : Nat) (step : BitVec 16) (t : Nat) : List Nat :=
  match sp with
  | .s n => [spOff g n i step t]
  | _ => []

/-- An operand of thread `t`: the word of the scratchpad in a sweep, else by R95 and R118. -/
def laneSrc (s : State) (g : Tg) (h : Hdr) (ty : Ty) (sp : Spec) (sw : Option (Nat × BitVec 16)) (t : Nat) : Nat :=
  match sw, sp with
  | some (i, step), .s n => leNat ((s.crewOf g).spBytes (spOff g n i step t) 4)
  | _, sp => opnd s g h ty ty.width sp t

/-- The contents of D in thread `t`. -/
def laneOld (s : State) (g : Tg) (dw : Nat) (sp : Spec) (sw : Option (Nat × BitVec 16)) (t : Nat) : Nat :=
  match sw, sp with
  | some (i, step), .s n => leNat ((s.crewOf g).spBytes (spOff g n i step t) 4)
  | _, .s n => (g.sAt n.toNat).toNat
  | _, .v n => if dw = 64 then (g.v64 n.toNat t).toNat else (g.vAt n.toNat t).toNat
  | _, _ => 0

/-- What thread `t` reads; a uniform form has e = 0, and it acts on every element where the operation does not test each. -/
def laneIn (s : State) (g : Tg) (f : RArgs) (op : LaneOp) (sw : SweepAt) (t : Nat) : LaneIn :=
  let i := match sw with
    | some p => p.1
    | none => 0
  { g := g, t := t
    a := laneSrc s g f.h op.tyA f.a (sw.map fun p => (p.1, p.2.2.1)) t
    b := laneSrc s g f.h op.tyB f.b (sw.map fun p => (p.1, p.2.2.2)) t
    c := laneSrc s g f.h op.tyC f.cs none t
    old := laneOld s g op.dw f.d (sw.map fun p => (p.1, p.2.1)) t
    e := if f.h.u then 0 else i * 96 + t
    gb := if f.h.u && !op.each then 15 else g.guardBits f.h.g f.h.n t
    r := if f.h.u || op.dw = 64 then 64 else 32 }

/-- The threads that act in a per-thread form. -/
def laneActing (g : Tg) (f : RArgs) (op : LaneOp) : Mask := if op.packed then g.actingPacked f.h else g.acting f.h

/-- The results of the acting threads, all computed before any is written (R69). -/
def laneOuts (s : State) (g : Tg) (f : RArgs) (op : LaneOp) (act : Mask) (sw : SweepAt) : Row (Option LaneOut) :=
  Row.tab fun t => if act.has t then some (op.run (rndAt s g f.rm) (laneIn s g f op sw t)) else none

/-- Predicates CS and D written, D last (R53). -/
def lanePreds (g : Tg) (f : RArgs) (outs : Row (Option LaneOut)) : Tg :=
  let put (g : Tg) (sp : Spec) (sel : LaneOut → Option (BitVec 4 × BitVec 4)) : Tg :=
    match sp with
    | .p n => if outs.any (fun o => o.any fun x => (sel x).isSome) then
        g.setP n.toNat fun t => (Row.at outs none t).bind sel else g
    | _ => g
  put (put g f.cs LaneOut.pc) f.d LaneOut.pd

/-- Vector and predicate destinations written. -/
def laneRegs (g : Tg) (f : RArgs) (dw : Nat) (outs : Row (Option LaneOut)) : Tg :=
  let val (t : Nat) : Option Nat := (Row.at outs none t).bind LaneOut.data
  let g1 := match f.d with
    | .v n =>
      if dw = 64 then g.setV64 n.toNat fun t => (val t).map (BitVec.ofNat 64)
      else g.setV n.toNat fun t => (val t).map (BitVec.ofNat 32)
    | _ => g
  lanePreds g1 f outs

/-- A per-thread form: every acting thread reads, then every destination is written. -/
def laneVector (s : State) (g : Tg) (f : RArgs) (op : LaneOp) : Tg :=
  laneRegs g f op.dw (laneOuts s g f op (laneActing g f op) none)

/-- The thread on which a uniform form acts, if it does (R51); a form with a guard bit per element acts where one of them holds
(DEDUCED, log 48). -/
def uniformOn (g : Tg) (f : RArgs) (op : LaneOp) : Option Nat :=
  if op.each then g.mask.lowest.filter fun t => (g.guardBits f.h.g f.h.n t).getLsbD 0 || (g.guardBits f.h.g f.h.n t).getLsbD 2
  else g.once f.h

/-- A uniform form: once, on the lowest-numbered active thread's guard and predicates (R51, R98); a predicate result goes to
every active thread. -/
def laneUniform (s : State) (g : Tg) (f : RArgs) (op : LaneOp) : Tg :=
  match uniformOn g f op with
  | none => g
  | some t =>
    let o := op.run (rndAt s g f.rm) (laneIn s g f op none t)
    let g1 := match f.d, o.data with
      | .s n, some x => g.setS n.toNat (BitVec.ofNat 64 x)
      | _, _ => g
    lanePreds g1 f (Row.tab fun u => if g.mask.has u then some o else none)

/-- The scratchpad checks of one iteration, thread by thread (R61, R151); within a thread D is looked at, then A, then B (DESIGN CHOICE,
log 50). -/
def sweepCheck (s : State) (g : Tg) (f : RArgs) (act : Mask) (i : Nat) (std sta stb : BitVec 16) : Option Stop :=
  let c := s.crewOf g
  let all := act.threads.flatMap fun t =>
    ((sweepOff g f.d i std t).map fun o => (t, o, true)) ++
      (sweepOff g f.a i sta t ++ sweepOff g f.b i stb t).map fun o => (t, o, false)
  checkSpAccs c.scratchSize c.nbar all 4

/-- The destinations of one iteration written. -/
def sweepWrite (s : State) (g : Tg) (f : RArgs) (i : Nat) (std : BitVec 16) (outs : Row (Option LaneOut)) : State × Tg :=
  match f.d with
  | .s n =>
    (s.modCrew g.crew fun c => (List.range numThreads).foldl (fun c t =>
      match (Row.at outs none t).bind LaneOut.data with
      | some x => c.setSp (spOff g n i std t) (leBytes x 4)
      | none => c) c, g)
  | _ => (s, laneRegs g f 32 outs)

/-- The iterations of a sweep from `i` on: what is left when one of them traps, or the state after the last. -/
def sweepFrom (f : RArgs) (op : LaneOp) (act : Mask) (std sta stb : BitVec 16) :
    Nat → Nat → State → Tg → State × Tg × Option Stop
  | 0, _, s, g => (s, g, none)
  | n + 1, i, s, g =>
    match sweepCheck s g f act i std sta stb with
    | some st => (s, g, some st)
    | none =>
      let outs := laneOuts s g f op act (some (i, std, sta, stb))
      let (s1, g1) := sweepWrite s g f i std outs
      sweepFrom f op act std sta stb n (i + 1) s1 g1

/-- An instruction of classes 0x10 to 0x2F. -/
def lanes (f : RArgs) (s : State) (op : LaneOp) : Out :=
  onTg s fun g =>
    match f.h.long with
    | .sweep cnt std sta stb =>
      let (s1, g1, st) := sweepFrom f op (laneActing g f op) std sta stb cnt.toNat 0 s g
      match st with
      | some st => halted (s1.setTg s1.cur g1) st
      | none => done s1 ((g1.bumpSr f.rm).advance (RArgs.words f))
    | _ =>
      let g1 := if f.h.u then laneUniform s g f op else laneVector s g f op
      done s ((g1.bumpSr f.rm).advance (RArgs.words f))

end Sys2Proof.Machine
end

