-- ==== Sys2Proof/Machine/Integer.lean ====
section
/-! DEFINITION. Integer and address instructions (R95 to R110). -/

namespace Sys2Proof.Machine

/-- Saturation of an exact value, asked for by X[0] (R99). -/
def satVal (ty : Ty) (sat : Bool) (x : Int) : Int :=
  if sat then (if ty.isSInt then satS x ty.width else satU x ty.width) else x

/-- An integer operation at the width of T on operands as bits; the result is extended by R28 and R96. -/
def bitsOp (f : RArgs) (fn : Nat → Nat → Nat → Nat) : LaneOp :=
  { tyA := f.ty, tyB := f.ty, tyC := f.ty, dw := f.ty.width, packed := false
    run := fun _ i => .reg (extend f.ty.isSInt f.ty.width i.r (fn i.a i.b i.c)) }

/-- An integer operation on operands as values (R99). -/
def valOp (f : RArgs) (fn : Int → Int → Int → Int) : LaneOp :=
  bitsOp f fun a b c => wrapInt (fn (intVal f.ty a) (intVal f.ty b) (intVal f.ty c)) f.ty.width

/-- R99. -/
def execAdd (f : RArgs) (s : State) : Out := lanes f s (valOp f fun a b _ => satVal f.ty (f.x.getLsbD 0) (a + b))

/-- R99. -/
def execSub (f : RArgs) (s : State) : Out := lanes f s (valOp f fun a b _ => satVal f.ty (f.x.getLsbD 0) (a - b))

/-- addc and subb: a result and a carry from unsigned operands (R100). -/
def carryOp (f : RArgs) (fn : Nat → Nat → Nat → Nat → Nat × Bool) : LaneOp :=
  { tyA := f.ty, tyB := f.ty, tyC := f.ty, dw := f.ty.width, packed := false
    run := fun _ i =>
      let (x, co) := fn i.a i.b (carryIn i.g f.x i.t) f.ty.width
      { data := some (extend f.ty.isSInt f.ty.width i.r x), pd := none, pc := some (allBits co, 15) } }

/-- R100. -/
def execAddc (f : RArgs) (s : State) : Out := lanes f s (carryOp f carryAdd)

/-- R100. -/
def execSubb (f : RArgs) (s : State) : Out := lanes f s (carryOp f carrySub)

/-- R99. -/
def execMul (f : RArgs) (s : State) : Out := lanes f s (valOp f fun a b _ => a * b)

/-- R99. -/
def execMulhi (f : RArgs) (s : State) : Out := lanes f s (valOp f fun a b _ => a * b / (2 ^ f.ty.width : Nat))

/-- R99. -/
def execMad (f : RArgs) (s : State) : Out := lanes f s (valOp f fun a b c => a * b + c)

/-- The integer type of twice the width (R101). -/
def Ty.double : Ty → Ty
  | .n8 => .n16 | .n16 => .n32 | .n32 => .n64
  | .i8 => .i16 | .i16 => .i32 | .i32 => .i64
  | t => t

/-- R101. -/
def execMadw (f : RArgs) (s : State) : Out :=
  let w2 := 2 * f.ty.width
  lanes f s
    { tyA := f.ty, tyB := f.ty, tyC := Ty.double f.ty, dw := w2, packed := false
      run := fun _ i => .reg (extend f.ty.isSInt w2 i.r
        (wrapInt (intVal f.ty i.a * intVal f.ty i.b + intVal (Ty.double f.ty) i.c) w2)) }

/-- R99. -/
def execMin (f : RArgs) (s : State) : Out := lanes f s (valOp f fun a b _ => min a b)

/-- R99. -/
def execMax (f : RArgs) (s : State) : Out := lanes f s (valOp f fun a b _ => max a b)

/-- R99. -/
def execAbs (f : RArgs) (s : State) : Out := lanes f s (valOp f fun a _ _ => satVal f.ty (f.x.getLsbD 0) a.natAbs)

/-- R99. -/
def execNeg (f : RArgs) (s : State) : Out := lanes f s (valOp f fun a _ _ => satVal f.ty (f.x.getLsbD 0) (-a))

/-- R102. -/
def execAnd (f : RArgs) (s : State) : Out := lanes f s (bitsOp f fun a b _ => a &&& b)

/-- R102. -/
def execOr (f : RArgs) (s : State) : Out := lanes f s (bitsOp f fun a b _ => a ||| b)

/-- R102. -/
def execXor (f : RArgs) (s : State) : Out := lanes f s (bitsOp f fun a b _ => a ^^^ b)

/-- The complement of `w` bits. -/
def notBits (w x : Nat) : Nat := 2 ^ w - 1 - x

/-- R102. -/
def execNot (f : RArgs) (s : State) : Out := lanes f s (bitsOp f fun a _ _ => notBits f.ty.width a)

/-- R102. -/
def execAndn (f : RArgs) (s : State) : Out := lanes f s (bitsOp f fun a b _ => a &&& notBits f.ty.width b)

/-- shl of R103. -/
def shlBits (w a n : Nat) : Nat := if n < w then a * 2 ^ n % 2 ^ w else 0
/-- shr of R103. -/
def shrBits (w a n : Nat) : Nat := if n < w then a / 2 ^ n else 0
/-- sar of R103. -/
def sarBits (w a n : Nat) : Nat := wrapInt (sextInt a w / (2 ^ min n w : Nat)) w
/-- rot of R103. -/
def rotBits (w a n : Nat) : Nat := (a * 2 ^ (n % w) % 2 ^ w) ||| a / 2 ^ (w - n % w)

/-- R103. -/
def execShl (f : RArgs) (s : State) : Out := lanes f s (bitsOp f fun a b _ => shlBits f.ty.width a b)

/-- R103. -/
def execShr (f : RArgs) (s : State) : Out := lanes f s (bitsOp f fun a b _ => shrBits f.ty.width a b)

/-- R103. -/
def execSar (f : RArgs) (s : State) : Out := lanes f s (bitsOp f fun a b _ => sarBits f.ty.width a b)

/-- R103. -/
def execRot (f : RArgs) (s : State) : Out := lanes f s (bitsOp f fun a b _ => rotBits f.ty.width a b)

/-- Position and length of a bit field (R104). -/
def fieldPos (b : Nat) : Nat := b % 256
def fieldLen (b : Nat) : Nat := b / 256 % 256

/-- bfx of R104. -/
def bfxBits (ty : Ty) (a b : Nat) : Nat :=
  let w := ty.width
  if fieldLen b = 0 || decide (w ≤ fieldPos b) then 0
  else
    let l := min (fieldLen b) (w - fieldPos b)
    let x := a / 2 ^ fieldPos b % 2 ^ l
    if ty.isSInt then wrapInt (sextInt x l) w else x

/-- bfi of R104. -/
def bfiBits (w a b c : Nat) : Nat :=
  if fieldLen b = 0 || decide (w ≤ fieldPos b) then c
  else
    let p := fieldPos b
    let l := min (fieldLen b) (w - p)
    c / 2 ^ (p + l) * 2 ^ (p + l) + a % 2 ^ l * 2 ^ p + c % 2 ^ p

/-- R104. -/
def execBfx (f : RArgs) (s : State) : Out := lanes f s (bitsOp f fun a b _ => bfxBits f.ty a b)

/-- R104. -/
def execBfi (f : RArgs) (s : State) : Out := lanes f s (bitsOp f fun a b c => bfiBits f.ty.width a b c)

/-- A bit count, written zero-extended whatever the type (R105). -/
def countOp (f : RArgs) (fn : Nat → Nat) : LaneOp :=
  { tyA := f.ty, tyB := f.ty, tyC := f.ty, dw := f.ty.width, packed := false, run := fun _ i => .reg (fn i.a) }

/-- The number of set bits among the `w` low bits. -/
def popcount (w x : Nat) : Nat := (List.range w).countP x.testBit

/-- The number of zero bits below the lowest set bit, `w` for 0. -/
def trailingZeros (w x : Nat) : Nat := (List.range w).find? x.testBit |>.getD w

/-- R105. -/
def execPopc (f : RArgs) (s : State) : Out := lanes f s (countOp f (popcount f.ty.width))

/-- R105. -/
def execClz (f : RArgs) (s : State) : Out :=
  lanes f s (countOp f fun a => if a = 0 then f.ty.width else f.ty.width - 1 - a.log2)

/-- R105. -/
def execCtz (f : RArgs) (s : State) : Out := lanes f s (countOp f (trailingZeros f.ty.width))

/-- R105. -/
def execBrev (f : RArgs) (s : State) : Out := lanes f s (countOp f fun a => brevNat a f.ty.width)

/-- R106. -/
def execCmp (f : RArgs) (s : State) : Out :=
  lanes f s
    { tyA := f.ty, tyB := f.ty, tyC := f.ty, dw := 32, packed := false
      run := fun _ i => .cond (allBits (cmpInt f.x.toNat (intVal f.ty i.a) (intVal f.ty i.b))) 15 }

/-- A packed result from its two elements: element h replaces the old one where guard bit 2h is true (R28). -/
def packGuarded (gb : BitVec 4) (old lo hi : Nat) : Nat :=
  (if gb.getLsbD 0 then lo else old) % 2 ^ 16 + 2 ^ 16 * ((if gb.getLsbD 2 then hi else old / 2 ^ 16) % 2 ^ 16)

/-- R107. -/
def execSel (f : RArgs) (s : State) : Out :=
  lanes f s
    { tyA := f.ty, tyB := f.ty, tyC := .n8, dw := f.ty.width, packed := f.ty.isPacked, each := f.ty.isPacked
      run := fun _ i =>
        if f.ty.isPacked then
          let pick (h : Nat) : Nat := (if i.c.testBit (2 * h) then i.a else i.b) / 2 ^ (16 * h) % 2 ^ 16
          .reg (packGuarded i.gb i.old (pick 0) (pick 1))
        else .reg (extend f.ty.isSInt f.ty.width i.r (if i.c.testBit 0 then i.a else i.b)) }

/-- A reference moves between f registers of one thread: the old one of D is dropped, A becomes null (R108). -/
def moveRef (s : State) (d a t : Nat) : State :=
  match s.tg s.cur with
  | none => s
  | some g => (s.putF s.cur d t (g.fAt a t)).modTg s.cur fun g => g.setF a t fNull

/-- R108. -/
def execMov (f : RArgs) (s : State) : Out :=
  match f.a, f.d with
  | .f a, .f d =>
    onTg s fun g =>
      let s1 := if a = d then s else (g.acting f.h).threads.foldl (fun s t => moveRef s d.toNat a.toNat t) s
      .next (s1.modTg s.cur fun g => g.advance (RArgs.words f))
  | .f a, .v d =>
    onTg s fun g =>
      let act := g.acting f.h
      done s ((g.setV64 d.toNat fun t => if act.has t then some (g.fAt a.toNat t).h else none).advance (RArgs.words f))
  | _, _ =>
    lanes f s
      { tyA := f.ty, tyB := f.ty, tyC := f.ty, dw := f.ty.width, packed := false
        run := fun _ i => .reg (extend f.ty.isSInt f.ty.width i.r i.a) }

/-- R108: bits [63:32] of D take the immediate. -/
def execMovHi (f : RArgs) (s : State) : Out :=
  lanes f s
    { tyA := .n32, tyB := .n32, tyC := .n32, dw := 64, packed := false
      run := fun _ i => .reg (2 ^ 32 * i.a + i.old % 2 ^ 32) }

/-- The fields of an I-form lane instruction in the R-form reading (R109). -/
def iLane (f : IArgs) : RArgs :=
  { pfx := none, h := f.h, d := f.d, a := .zero, b := .zero, cs := .zero, x := 0, rm := 0, ty := iTy f }

/-- R109. -/
def execMovi (f : IArgs) (s : State) : Out :=
  let ty := iTy f
  lanes (iLane f) s
    { tyA := ty, tyB := ty, tyC := ty, dw := ty.width, packed := false
      run := fun _ i => .reg (extend ty.isSInt ty.width i.r
        (wrapInt (if ty.isSInt then f.c.toInt else f.c.toNat) ty.width)) }

/-- R109. -/
def execMovhi (f : IArgs) (s : State) : Out :=
  let ty := iTy f
  lanes (iLane f) s
    { tyA := ty, tyB := ty, tyC := ty, dw := ty.width, packed := false
      run := fun _ i => .reg (extend ty.isSInt ty.width i.r
        (i.old / 2 ^ 32 * 2 ^ 32 % 2 ^ ty.width + f.c.toNat * 2 ^ 12 + i.old % 2 ^ 12)) }

/-- R110. -/
def execLea (f : RArgs) (s : State) : Out :=
  lanes f s
    { tyA := .n64, tyB := f.ty, tyC := .n8, dw := 64, packed := false
      run := fun _ i => .reg (wrapInt (i.a + intVal f.ty i.b * (2 ^ f.x.toNat : Nat)) 64) }

end Sys2Proof.Machine
end

