-- ==== Sys2Proof/Machine/Float.lean ====
section
/-! DEFINITION. Floating and packed instructions (R118 to R137). -/

namespace Sys2Proof.Machine

/-- The exact value of an operand (R118, R31). -/
def fltVal (ty : Ty) (x : Nat) : Exact := decodeTy ty x

/-- An operation that rounds an exact value once to T; .sat is X[0] (R122). -/
def roundOp (f : RArgs) (fn : Rnd → Exact → Exact → Exact → Exact) : LaneOp :=
  { tyA := f.ty, tyB := f.ty, tyC := f.ty, dw := f.ty.width, packed := false
    run := fun rnd i =>
      let m := rnd i.e
      .reg ((Ty.fmt f.ty).round (fn m (fltVal f.ty i.a) (fltVal f.ty i.b) (fltVal f.ty i.c)) m (f.x.getLsbD 0)) }

/-- The exact sum of a and b (R122). -/
def addExact (m : Rnd) (a b : Exact) : Exact := Exact.sum m [a, b]

/-- The exact a · b + c (R122). -/
def fmaExact (m : Rnd) (a b c : Exact) : Exact := Exact.sum m [a.mul b, c]

/-- R122. -/
def execFadd (f : RArgs) (s : State) : Out := lanes f s (roundOp f fun m a b _ => addExact m a b)

/-- R122. -/
def execFsub (f : RArgs) (s : State) : Out := lanes f s (roundOp f fun m a b _ => addExact m a b.neg)

/-- R122. -/
def execFmul (f : RArgs) (s : State) : Out := lanes f s (roundOp f fun _ a b _ => a.mul b)

/-- R122. -/
def execFma (f : RArgs) (s : State) : Out := lanes f s (roundOp f fmaExact)

/-- Whether a is below b, with −0 below +0 (R123). -/
def ltSigned (a b : Exact) : Bool := a.lt b || (a == .zero true && b == .zero false)

/-- fmin (or fmax) of two encodings of a format (R123). -/
def minMaxBits (ty : Ty) (isMax nanMode : Bool) (a b : Nat) : Nat :=
  let x := fltVal ty a
  let y := fltVal ty b
  let nan := (Ty.fmt ty).nan
  if x.isNan && y.isNan then nan
  else if x.isNan then (if nanMode then nan else b)
  else if y.isNan then (if nanMode then nan else a)
  else if (if isMax then ltSigned x y else ltSigned y x) then b
  else a

/-- fmin and fmax (R123). -/
def minMaxOp (f : RArgs) (isMax : Bool) : LaneOp :=
  { tyA := f.ty, tyB := f.ty, tyC := f.ty, dw := f.ty.width, packed := false
    run := fun _ i => .reg (minMaxBits f.ty isMax (f.x.getLsbD 0) i.a i.b) }

/-- R123. -/
def execFmin (f : RArgs) (s : State) : Out := lanes f s (minMaxOp f false)

/-- R123. -/
def execFmax (f : RArgs) (s : State) : Out := lanes f s (minMaxOp f true)

/-- R124. -/
def execFcmp (f : RArgs) (s : State) : Out :=
  lanes f s
    { tyA := f.ty, tyB := f.ty, tyC := f.ty, dw := 32, packed := false
      run := fun _ i => .cond (allBits (cmpFlt f.x.toNat (fltVal f.ty i.a) (fltVal f.ty i.b))) 15 }

/-- The integral value of frnd: a zero takes the sign of a (R125). -/
def frndExact (m : Rnd) (a : Exact) : Exact :=
  match a with
  | .fin neg .. => Exact.ofFrac (roundInt a m) 1 neg
  | x => x

/-- R125. -/
def execFrnd (f : RArgs) (s : State) : Out :=
  lanes f s
    { tyA := f.ty, tyB := f.ty, tyC := f.ty, dw := f.ty.width, packed := false
      run := fun rnd i => .reg ((Ty.fmt f.ty).round (frndExact (rnd i.e) (fltVal f.ty i.a)) .rne false) }

/-- R126. -/
def execFscale (f : RArgs) (s : State) : Out :=
  lanes f s
    { tyA := f.ty, tyB := .i32, tyC := f.ty, dw := f.ty.width, packed := false
      run := fun rnd i =>
        .reg ((Ty.fmt f.ty).round ((fltVal f.ty i.a).scale (sextInt i.b 32)) (rnd i.e) (f.x.getLsbD 0)) }

/-- The class bit of an encoding (R127). -/
def classBit (ty : Ty) (x : Nat) : Nat :=
  let fm := Ty.fmt ty
  let sub := decide (x % 2 ^ fm.sign < 2 ^ fm.m)
  match fltVal ty x with
  | .nan => 8
  | .inf neg => if neg then 0 else 7
  | .zero neg => if neg then 3 else 4
  | .fin neg .. => if neg then (if sub then 2 else 1) else (if sub then 5 else 6)

/-- R127. -/
def execFclass (f : RArgs) (s : State) : Out :=
  lanes f s
    { tyA := f.ty, tyB := .n32, tyC := .n32, dw := 32, packed := false
      run := fun _ i =>
        let x := 2 ^ classBit f.ty i.a
        match f.d with
        | .p _ => .cond (allBits (x &&& i.b != 0)) 15
        | _ => .reg x }

/-- The exact value of the source of a cvt: an integer or a floating encoding (R130). -/
def cvtSrcVal (src : Ty) (x : Nat) : Exact := if src.isInt then Exact.ofInt (intVal src x) else fltVal src x

/-- One converted element, `ty.width` bits (R130). -/
def cvtElem (src dst : Ty) (sat : Nat) (m : Rnd) (x : Nat) : Nat :=
  let w := dst.width
  if dst.isInt then
    if src.isInt then wrapInt (satVal dst (sat == 1) (intVal src x)) w
    else wrapInt (cvtInt (fltVal src x) w dst.isSInt m) w
  else (Ty.fmt dst).round (cvtSrcVal src x) m (effSat dst sat)

/-- The element of `w` bits inserted as element `k` of a register (R129). -/
def insertElem (old w k x : Nat) : Nat :=
  old / 2 ^ (w * (k + 1)) * 2 ^ (w * (k + 1)) + x % 2 ^ w * 2 ^ (w * k) + old % 2 ^ (w * k)

/-- cvt of one thread (R129, R130). -/
def cvtRun (f : RArgs) (rnd : Nat → Rnd) (i : LaneIn) : LaneOut :=
  let src := srcTy f
  let dst := f.ty
  let w := src.width
  let k := cvtK f
  let sat := cvtSat f
  if dst.isPacked then
    .reg (cvtElem src dst sat (rnd (2 * i.e)) i.a % 2 ^ 16 + 2 ^ 16 * (cvtElem src dst sat (rnd (2 * i.e + 1)) i.b % 2 ^ 16))
  else if w ≤ 16 then
    .reg (extend dst.isSInt dst.width i.r (cvtElem src dst sat (rnd i.e) (i.a / 2 ^ (w * k) % 2 ^ w)))
  else if dst.width ≤ 16 then .reg (insertElem (i.old % 2 ^ i.r) dst.width k (cvtElem src dst sat (rnd i.e) i.a))
  else .reg (extend dst.isSInt dst.width i.r (cvtElem src dst sat (rnd i.e) i.a))

/-- How A of a cvt is read: an element k of a 32-bit register needs the whole register, an immediate its type. -/
def cvtReadTy (f : RArgs) : Ty :=
  if (srcTy f).width ≤ 16 then
    match f.a with
    | .v _ | .s _ => .n32
    | _ => srcTy f
  else srcTy f

/-- An immediate or special source of a narrow cvt has element 0 only; its other elements are 0 (DESIGN CHOICE, log 12). -/
def execCvt (f : RArgs) (s : State) : Out :=
  lanes f s
    { tyA := cvtReadTy f, tyB := .f32, tyC := .n8, dw := f.ty.width, packed := false, run := cvtRun f }

/-- R131. -/
def execSrnd (f : RArgs) (s : State) : Out :=
  lanes f s
    { tyA := .f32, tyB := .f32, tyC := .n8, dw := 32, packed := false
      run := fun rnd i =>
        let x := (Ty.fmt f.ty).round (fltVal .f32 i.a) (rnd i.e) (effSat f.ty (cvtSat f))
        .reg (toF32 (fltVal f.ty x)).toNat }

/-- R132. -/
def execRcp (f : RArgs) (s : State) : Out := lanes f s (roundOp f fun _ a _ _ => (Exact.ofInt 1).div a)

/-- R132. -/
def execSqrt (f : RArgs) (s : State) : Out := lanes f s (roundOp f fun _ a _ _ => a.sqrt)

/-- A special function of R133. -/
def specialOp (f : RArgs) (fn : Nat) : LaneOp :=
  { tyA := f.ty, tyB := f.ty, tyC := f.ty, dw := f.ty.width, packed := false
    run := fun _ i => .reg (specialAt fn f.ty i.a) }

/-- R133. -/
def execRsq (f : RArgs) (s : State) : Out := lanes f s (specialOp f 0)
/-- R133. -/
def execEx2 (f : RArgs) (s : State) : Out := lanes f s (specialOp f 1)
/-- R133. -/
def execLg2 (f : RArgs) (s : State) : Out := lanes f s (specialOp f 2)
/-- R133. -/
def execSin (f : RArgs) (s : State) : Out := lanes f s (specialOp f 3)
/-- R133. -/
def execCos (f : RArgs) (s : State) : Out := lanes f s (specialOp f 4)

/-- Element `h` of a packed register. -/
def half (x h : Nat) : Nat := x / 2 ^ (16 * h) % 2 ^ 16

/-- A packed operation on elements 0 and 1, element h written where guard bit 2h is true (R135). -/
def packedOp (f : RArgs) (fn : Rnd → Nat → Nat → Nat → Nat) : LaneOp :=
  { tyA := f.ty, tyB := f.ty, tyC := f.ty, dw := 32, packed := true
    run := fun rnd i =>
      let el (h : Nat) : Nat := fn (rnd (2 * i.e + h)) (half i.a h) (half i.b h) (half i.c h)
      .reg (packGuarded i.gb i.old (el 0) (el 1)) }

/-- A packed operation that rounds an exact value (R135). -/
def packedRound (f : RArgs) (fn : Rnd → Exact → Exact → Exact → Exact) : LaneOp :=
  packedOp f fun m a b c =>
    (Ty.fmt f.ty).round (fn m (fltVal f.ty a) (fltVal f.ty b) (fltVal f.ty c)) m (f.x.getLsbD 0)

/-- R135. -/
def execHadd2 (f : RArgs) (s : State) : Out := lanes f s (packedRound f fun m a b _ => addExact m a b)
/-- R135. -/
def execHmul2 (f : RArgs) (s : State) : Out := lanes f s (packedRound f fun _ a b _ => a.mul b)
/-- R135. -/
def execHfma2 (f : RArgs) (s : State) : Out := lanes f s (packedRound f fmaExact)
/-- R135. -/
def execHmin2 (f : RArgs) (s : State) : Out :=
  lanes f s (packedOp f fun _ a b _ => minMaxBits f.ty false (f.x.getLsbD 0) a b)
/-- R135. -/
def execHmax2 (f : RArgs) (s : State) : Out :=
  lanes f s (packedOp f fun _ a b _ => minMaxBits f.ty true (f.x.getLsbD 0) a b)

/-- R136: the bits of an element whose guard bit is false are kept, also in a uniform form (DEDUCED, log 48). -/
def execHcmp2 (f : RArgs) (s : State) : Out :=
  lanes f s
    { tyA := f.ty, tyB := f.ty, tyC := f.ty, dw := 32, packed := true, each := true
      run := fun _ i =>
        let c (h : Nat) : Bool := cmpFlt f.x.toNat (fltVal f.ty (half i.a h)) (fltVal f.ty (half i.b h))
        .cond (packedBits (c 0) (c 1)) (packedBits (i.gb.getLsbD 0) (i.gb.getLsbD 2)) }

/-- R137. -/
def execDot2 (f : RArgs) (s : State) : Out :=
  lanes f s
    { tyA := f.ty, tyB := f.ty, tyC := .f32, dw := 32, packed := false
      run := fun rnd i =>
        let m := rnd i.e
        let p (h : Nat) : Exact := (fltVal f.ty (half i.a h)).mul (fltVal f.ty (half i.b h))
        .reg (fmtF32.round (Exact.sum m [p 0, p 1, fltVal .f32 i.c]) m (f.x.getLsbD 0)) }

end Sys2Proof.Machine
end

