-- ==== Sys2Proof/Machine/Memory.lean ====
section
/-! DEFINITION. Loads, stores, prf, dsc, wbk and the L2 queues (R154 to R163). -/

namespace Sys2Proof.Machine

/-! ### Order and policy (R62 to R64) -/

/-- The effective order of an access: the prefix's, or the TG's MEMDEF (R63). -/
def effOrd (g : Tg) (p : Option Pfx) : Nat :=
  let m := (g.mode.memdef.extractLsb' 8 3).toNat
  match p with
  | some p => if p.ord = 0 then m else p.ord.toNat
  | none => m

/-- The effective policy of a global access (R63). -/
def effPol (g : Tg) (p : Option Pfx) : Nat :=
  let m := (g.mode.memdef.extractLsb' 0 3).toNat
  match p with
  | some p => if p.pol = 0 then m else p.pol.toNat
  | none => m

/-- The effective scope of an access: the prefix's, or the TG's MEMDEF; a scratchpad access has at most crew scope (R63, R197). -/
def effScp (g : Tg) (p : Option Pfx) (sp : Bool) : Nat :=
  let m := (g.mode.memdef.extractLsb' 5 3).toNat
  let c := match p with
    | some p => if p.scp = 0 then m else p.scp.toNat
    | none => m
  if sp then min c 2 else c

/-- The current TG as a state holds it. -/
def State.curTg (s : State) (g : Tg) : Tg := (s.tg s.cur).getD g

/-! ### Addresses (R155) -/

/-- The displacement of B (R154). -/
def disp (f : RArgs) : Int :=
  match f.b with
  | .limm => (Hdr.imm f.h).toInt
  | _ => 0

/-- The global address of thread `t` (R155, R183). -/
def glAddr (g : Tg) (f : RArgs) (z t : Nat) : W64 :=
  match f.a, f.b with
  | .v n, _ => g.v64 n.toNat t + BitVec.ofInt 64 (disp f)
  | a, .v m => g.sAt (Spec.num a) + (g.vAt m.toNat t).setWidth 64
  | a, _ => g.sAt (Spec.num a) + BitVec.ofInt 64 (disp f + (z * t : Nat))

/-- The one global address of an instruction that acts for the TG (R155). -/
def uAddr (g : Tg) (f : RArgs) : W64 := g.sAt (Spec.num f.a) + BitVec.ofInt 64 (disp f)

/-- The scratchpad offset of thread `t` (R155). -/
def spAddr (g : Tg) (f : RArgs) (z t : Nat) : Nat :=
  match f.a, f.b with
  | .v n, _ => wrapInt ((g.vAt n.toNat t).toNat + disp f) 32
  | a, .v m => ((g.sAt (Spec.num a)).toNat + (g.vAt m.toNat t).toNat) % 2 ^ 32
  | a, _ => wrapInt ((g.sAt (Spec.num a)).toNat + disp f + (z * t : Nat)) 32

/-! ### Data registers (R157) -/

/-- The register words of a loaded value of `z` bytes. -/
def loadWords (ty : Ty) (z x : Nat) : List W32 :=
  if ty.width < 32 then [BitVec.ofNat 32 (extend ty.isSInt ty.width 32 x)]
  else (List.range (z / 4)).map fun j => BitVec.ofNat 32 (x / 2 ^ (32 * j))

/-- A value of `z` bytes for each listed thread written to D, D + 1, … -/
def putWords (g : Tg) (n : Nat) (ty : Ty) (z : Nat) (vals : List (Nat × Nat)) : Tg :=
  (List.range (dataRegs z)).foldl (fun g j =>
    g.setV (n + j) fun t => (SMap.find vals t).map fun x => (loadWords ty z x).getD j 0) g

/-- The `z` bytes that a store of thread `t` takes from register `n` on. -/
def dataBytes (g : Tg) (n z t : Nat) : List Byte :=
  ((List.range (dataRegs z)).flatMap fun j => leBytes (g.vAt (n + j) t).toNat 4).take z

/-! ### Global loads and stores -/

/-- The part of an access of `z` bytes that is performed when it issues, as offset and length: of 16 bytes one half, freely chosen
(R157; DEDUCED, log 7). -/
def State.firstPart (s : State) (z : Nat) : Nat × Nat :=
  if z = 16 then (if s.free 19 % 2 = 1 then 8 else 0, 8) else (0, z)

/-- The halves that a load to register `n` leaves, of the places of its threads. -/
def lateTakes (part : Nat × Nat) (z n ord scope : Nat) (places : List (Nat × ObjRef)) : List Half :=
  if part.2 = z then [] else places.map fun p => .take p.2 (n + (8 - part.1) / 4) p.1 ord scope

/-- The discard of `n` bytes (R147). -/
def State.discardAll (s : State) (loc n : Nat) : State := (List.range n).foldl (fun s i => s.discard (loc + i)) s

/-- A late half performed for a TG (R157). -/
def State.performHalf (s : State) (id : Nat) (h : Half) : State :=
  match s.tg id with
  | none => s
  | some g =>
    match h with
    | .put off data ord scope =>
      let p : ObjRef × Nat := (.arena g.crew off, data.length)
      ((s.modCrew g.crew fun c => c.setSp off data).overwrite p).released ord scope [p]
    | .take place reg tid ord scope =>
      let s1 := s.readOrder ord scope [(place, 8)]
      let bs := match place with
        | .glob loc => tgBytes (s1.curTg g) s1 loc 8 (16 * tid)
        | .arena _ off => (s1.crewOf g).spBytes off 8
        | _ => []
      s1.modTg id fun g => putWords g reg .n64 8 [(tid, leNat bs)]
    | .drop loc n => (s.performTo id [(loc, n)]).discardAll loc n

/-- The late halves of a TG's last access are performed, before its next instruction (R157, R196). -/
def State.finishLate (s : State) (id : Nat) : State :=
  let late := ((s.tg id).map (·.late)).getD []
  if late.isEmpty then s
  else
    let s1 := late.foldl (fun s h => s.performHalf id h) ({ s with cur := id }.modTg id fun g => { g with late := [] })
    { s1 with cur := s.cur }

/-- A global load of `z` bytes to register `n` at each address; `put` writes what it read from an offset on (R151, R157, R198). Under
policy last it discards its bytes once it has read them all (R146, R147). -/
def loadGl (s : State) (g : Tg) (f : RArgs) (z n : Nat) (accs : List (Nat × W64)) (put : Tg → Nat × Nat → List (Nat × Nat) → Tg) :
    Out :=
  match s.checkGl g.core g.ctx accs z .load with
  | some st => halted s st
  | none =>
    let locs := accs.map fun p => (p.1, s.locOf g.core g.ctx p.2.toNat)
    let last := effPol g f.pfx == 3
    let part := s.firstPart z
    let takes := lateTakes part z n (effOrd g f.pfx) (effScp g f.pfx false) (locs.map fun p => (p.1, .glob (p.2 + (8 - part.1))))
    let late := takes ++ if last && part.2 != z then locs.map fun p => Half.drop p.2 z else []
    let s0 := s.readOrder (effOrd g f.pfx) (effScp g f.pfx false) (locs.map fun p => (.glob (p.2 + part.1), part.2))
    let s1 := if last then s0.performTo s.cur (locs.map fun p => (p.2, z)) else s0
    let g1 := s1.curTg g
    let vals := locs.map fun p => (p.1, leNat (tgBytes g1 s1 (p.2 + part.1) part.2 (16 * p.1)))
    let s2 := if last && part.2 == z then locs.foldl (fun s p => s.discardAll p.2 z) s1 else s1
    let s3 := s2.touchAll g.core g.ctx (accs.map fun p => p.2.toNat) false
    done s3 ({ put g1 part vals with late := late }.advance (RArgs.words f))

/-- The stores of one access of thread `tid` to an address: a 16-byte access is two halves that are not ordered with each other
(R157). `rel` is the scope of a release, `sc` that of an sc store, 0 for another; `pos` is its place in program order. -/
def newStores (pos loc rel sc tid : Nat) (va : W64) (data : List Byte) : List PStore :=
  if data.length = 16 then
    [{ loc := loc, data := data.take 8, va := va, tid := tid, rel := rel, sc := sc, pos := pos },
     { loc := loc + 8, data := data.drop 8, va := va + 8, tid := tid, rel := rel, sc := sc, pos := pos }]
  else [{ loc := loc, data := data, va := va, tid := tid, rel := rel, sc := sc, pos := pos }]

/-- A global store of `z` bytes at each address in increasing thread order, on its way to its home slice (R13, R157, R198). -/
def storeGl (s : State) (g : Tg) (f : RArgs) (z : Nat) (accs : List (Nat × W64)) (data : Nat → List Byte) : Out :=
  match s.checkGl g.core g.ctx accs z .store with
  | some st => halted s st
  | none =>
    let ord := effOrd g f.pfx
    let scp := effScp g f.pfx false
    let locs := accs.map fun p => (p.1, p.2, s.locOf g.core g.ctx p.2.toNat)
    let s1 := s.writeOrder ord scp (locs.map fun p => (.glob p.2.2, z))
    let g1 := s1.curTg g
    let new := locs.flatMap fun p =>
      let sc := accScope scp (.glob p.2.2, z)
      newStores s1.stamp p.2.2 (if isRelease ord then sc else 0) (if ord = 5 then sc else 0) p.1 p.2.1 (data p.1)
    let s2 := s1.touchAll g.core g.ctx (accs.map fun p => p.2.toNat) true
    done s2 ({ g1 with stores := g1.stores ++ new }.advance (RArgs.words f))

/-- The accesses of the acting threads. -/
def glAccs (g : Tg) (f : RArgs) (z : Nat) : List (Nat × W64) := (g.acting f.h).threads.map fun t => (t, glAddr g f z t)

/-- A per-thread global load (R157). -/
def loadVec (f : RArgs) (s : State) : Out :=
  onTg s fun g =>
    let z := accessSize f
    if g.acting f.h = 0 then skip s g (RArgs.words f)
    else loadGl s g f z (Spec.num f.d) (glAccs g f z) fun g part vals => putWords g (Spec.num f.d + part.1 / 4) f.ty part.2 vals

/-- A per-thread global store (R157). -/
def storeVec (f : RArgs) (s : State) : Out :=
  onTg s fun g =>
    let z := accessSize f
    if g.acting f.h = 0 then skip s g (RArgs.words f)
    else storeGl s g f z (glAccs g f z) (dataBytes g (Spec.num f.cs) z)

/-- R157. -/
def execLdGl (f : RArgs) (s : State) : Out := loadVec f s
/-- R157. -/
def execStGl (f : RArgs) (s : State) : Out := storeVec f s
/-- R157. -/
def execLdg (f : RArgs) (s : State) : Out := loadVec f s
/-- R157. -/
def execStg (f : RArgs) (s : State) : Out := storeVec f s

/-- R157: a scratchpad access is performed when it issues, but for the second half of 16 bytes (DEDUCED, log 7). -/
def execLdSp (f : RArgs) (s : State) : Out :=
  onTg s fun g =>
    let z := accessSize f
    let c := s.crewOf g
    let accs := (g.acting f.h).threads.map fun t => (t, spAddr g f z t)
    if accs.isEmpty then skip s g (RArgs.words f)
    else
      match checkSp c.scratchSize c.nbar accs z false with
      | some st => halted s st
      | none =>
        let n := Spec.num f.d
        let ord := effOrd g f.pfx
        let scp := effScp g f.pfx true
        let part := s.firstPart z
        let late := lateTakes part z n ord scp (accs.map fun p => (p.1, .arena g.crew (p.2 + (8 - part.1))))
        let s1 := s.readOrder ord scp (accs.map fun p => (.arena g.crew (p.2 + part.1), part.2))
        let vals := accs.map fun p => (p.1, leNat (c.spBytes (p.2 + part.1) part.2))
        done s1 ({ putWords (s1.curTg g) (n + part.1 / 4) f.ty part.2 vals with late := late }.advance (RArgs.words f))

/-- R157. -/
def execStSp (f : RArgs) (s : State) : Out :=
  onTg s fun g =>
    let z := accessSize f
    let c := s.crewOf g
    let accs := (g.acting f.h).threads.map fun t => (t, spAddr g f z t)
    if accs.isEmpty then skip s g (RArgs.words f)
    else
      match checkSp c.scratchSize c.nbar accs z true with
      | some st => halted s st
      | none =>
        let ord := effOrd g f.pfx
        let scp := effScp g f.pfx true
        let data (t : Nat) : List Byte := dataBytes g (Spec.num f.cs) z t
        let part := s.firstPart z
        let places := accs.map fun p => (ObjRef.arena g.crew (p.2 + part.1), part.2)
        let late : List Half := if part.2 = z then [] else accs.map fun p =>
          .put (p.2 + (8 - part.1)) (((data p.1).drop (8 - part.1)).take 8) ord scp
        let s1 := (s.writeOrder ord scp places).modCrew g.crew fun c =>
          accs.foldl (fun c p => c.setSp (p.2 + part.1) (((data p.1).drop part.1).take part.2)) c
        let s2 := (places.foldl State.overwrite s1).released ord scp places
        done s2 ({ s2.curTg g with late := late }.advance (RArgs.words f))

/-- R158. -/
def execLdU (f : RArgs) (s : State) : Out :=
  onTg s fun g =>
    match g.once f.h with
    | none => skip s g (RArgs.words f)
    | some t =>
      let z := accessSize f
      loadGl s g f z 0 [(t, uAddr g f)] fun g _ vals =>
        g.setS (Spec.num f.d) (BitVec.ofNat 64 (extend f.ty.isSInt f.ty.width 64 ((SMap.find vals t).getD 0)))

/-- R158. -/
def execStU (f : RArgs) (s : State) : Out :=
  onTg s fun g =>
    match g.once f.h with
    | none => skip s g (RArgs.words f)
    | some t =>
      let z := accessSize f
      storeGl s g f z [(t, uAddr g f)] fun _ => leBytes (g.sAt (Spec.num f.cs)).toNat z

/-! ### Ranges (R160) -/

/-- The checks of dsc and wbk on a range; `dsc` also asks W = 1 and B = 0 (R160), of a page that is not resident too (DESIGN CHOICE,
log 52: the spec says that such a page is skipped, and not whether its PROT check is). -/
def checkRange (s : State) (g : Tg) (a : W64) (n : Nat) (dsc : Bool) (t : Nat) : Option Stop :=
  let a' := a.toNat
  if 2 ^ 57 < a' + n then some (.trap .addr (if 2 ^ 57 ≤ a' then a else BitVec.ofNat 64 (2 ^ 57)) t)
  else
    let ts := (rangeBlocks a' n).map fun v => (v, s.translate g.core g.ctx v)
    match ts.find? (fun p => p.2.gone (s.linkLost g.core g.ctx)) with
    | some p => some (.trap .addr (BitVec.ofNat 64 p.1) t)
    | none =>
      match ts.find? (fun p => match p.2 with | .leaf e _ => dsc && AccKind.store.prot e | .bad => false) with
      | some p => some (.trap .prot (BitVec.ofNat 64 p.1) t)
      | none => none

/-- The resident parts of a range as (location, length). -/
def residentParts (s : State) (g : Tg) (a n : Nat) : List (Nat × Nat) :=
  (rangeBlocks a n).filterMap fun v =>
    match s.translate g.core g.ctx v with
    | .leaf e true => some (e.loc + (v - e.base), blockLen a n v)
    | _ => none

/-- The locations of some ranges whose bytes have an older value in backing memory; only these can change. -/
def State.olderIn (s : State) (rs : List (Nat × Nat)) : List Nat :=
  (s.older.map (·.1)).filter fun l => rs.any fun r => decide (r.1 ≤ l) && decide (l < r.1 + r.2)

/-- The first addresses of the blocks of a range whose pages are resident. -/
def residentBlocks (s : State) (g : Tg) (a n : Nat) : List Nat :=
  (rangeBlocks a n).filter fun v =>
    match s.translate g.core g.ctx v with
    | .leaf _ r => r
    | .bad => false

/-- dsc and wbk: the range is checked, the TG's own stores to it are performed, then `act` meets every byte that can change. They are
ordered as a store to each byte of their resident pages, so one after a release fence is a release (R160, R198). They are performed when
they issue and use those pages, dsc as a write and wbk as a read (R149; DESIGN CHOICE, log 52). -/
def rangeOp (f : RArgs) (s : State) (dsc : Bool) (act : State → Nat → State) : Out :=
  onTg s fun g =>
    match g.once f.h with
    | none => skip s g (RArgs.words f)
    | some t =>
      let n := (g.sAt (Spec.num f.cs)).toNat % 2 ^ 32
      if n = 0 then skip s g (RArgs.words f)
      else
        match checkRange s g (uAddr g f) n dsc t with
        | some st => halted s st
        | none =>
          let rs := residentParts s g (uAddr g f).toNat n
          let s1 := (s.performTo s.cur rs).touchAll g.core g.ctx (residentBlocks s g (uAddr g f).toNat n) dsc
          let places : List (ObjRef × Nat) := rs.map fun r => (.glob r.1, r.2)
          let s2 := ((s1.olderIn rs).foldl act (if dsc then places.foldl State.overwrite s1 else s1)).released 1 1 places
          done s2 ((s2.curTg g).advance (RArgs.words f))

/-- R160: no value changes; its caching is not visible (DEDUCED, log 7). -/
def execPrf (f : RArgs) (s : State) : Out := onTg s fun g => skip s g (RArgs.words f)
/-- R160. -/
def execDsc (f : RArgs) (s : State) : Out := rangeOp f s true State.discard
/-- R160. -/
def execWbk (f : RArgs) (s : State) : Out := rangeOp f s false State.writeBack

/-! ### L2 queues (R161, R162) -/

/-- A queue descriptor (R161). -/
structure QDesc where
  base : W64
  cap : Nat
  size : Nat
  reserved : Nat
  head : W64
  tail : W64
deriving DecidableEq, Repr

def QDesc.ofBytes (bs : List Byte) : QDesc :=
  let f (i n : Nat) : Nat := leNat ((bs.drop i).take n)
  { base := BitVec.ofNat 64 (f 0 8), cap := f 8 4, size := f 12 2, reserved := f 14 2, head := BitVec.ofNat 64 (f 16 8)
    tail := BitVec.ofNat 64 (f 24 8) }

/-- Records held. -/
def QDesc.held (q : QDesc) : Nat := (q.tail - q.head).toNat

/-- The address of record `i`. -/
def QDesc.slot (q : QDesc) (i : W64) : Nat := q.base.toNat + i.toNat % q.cap * q.size

/-- Whether a queue is valid for records of `z` bytes (R162). -/
def QDesc.valid (s : State) (g : Tg) (q : QDesc) (z : Nat) : Bool :=
  q.reserved == 0 && decide (1 ≤ q.cap) && decide (q.cap ≤ 2 ^ 24) && 2 ^ q.cap.log2 == q.cap &&
    (q.size == 4 || q.size == 8 || q.size == 16) && q.base.toNat % 256 == 0 && q.size == z &&
    decide (q.held ≤ q.cap) && decide (q.base.toNat + q.cap * q.size ≤ 2 ^ 57) &&
    (rangeBlocks q.base.toNat (q.cap * q.size)).all fun v =>
      match s.translate g.core g.ctx v with
      | .leaf e true => e.w
      | _ => false

/-- The ring as (location, length) parts. -/
def QDesc.parts (s : State) (g : Tg) (q : QDesc) : List (Nat × Nat) := residentParts s g q.base.toNat (q.cap * q.size)

/-- The queue as the threads served so far leave it, each thread's success, and the data it popped. -/
structure QRun where
  s : State
  q : QDesc
  ok : List (Nat × Nat)
  fail : List Nat

/-- One thread served (R162). -/
def qServe (g : Tg) (push : Bool) (z : Nat) (data : Nat → List Byte) (r : QRun) (t : Nat) : QRun :=
  let loc (i : W64) : Nat := r.s.locOf g.core g.ctx (r.q.slot i)
  if push then
    if r.q.held < r.q.cap then
      { r with s := r.s.store (loc r.q.tail) (data t), q := { r.q with tail := r.q.tail + 1 }, ok := r.ok ++ [(t, 0)] }
    else { r with fail := r.fail ++ [t] }
  else if 0 < r.q.held then
    { r with q := { r.q with head := r.q.head + 1 }
             ok := r.ok ++ [(t, leNat (r.s.bytes (loc r.q.head) z (16 * t)))] }
  else { r with fail := r.fail ++ [t] }

/-- The addresses of the ring that a run of pushes or pops used (R149, R150). -/
def ringPages (q q' : QDesc) (push : Bool) : List Nat :=
  if push then (List.range (q'.tail - q.tail).toNat).map fun k => q.slot (q.tail + BitVec.ofNat 64 k)
  else (List.range (q'.head - q.head).toNat).map fun k => q.slot (q.head + BitVec.ofNat 64 k)

/-- The places of the records that the served threads pushed or popped, from slot `i` on (R163). -/
def recordPlaces (s : State) (g : Tg) (q : QDesc) (i : W64) (z n : Nat) : List (ObjRef × Nat) :=
  (List.range n).map fun k => (.glob (s.locOf g.core g.ctx (q.slot (i + BitVec.ofNat 64 k))), z)

/-- qpush and qpop: one indivisible step at the home slice, when the instruction issues (R162; DEDUCED, log 7). A push releases
with the records it fills and with TAIL, and a pop acquires with those it takes; a pop is no release (R163, R198). -/
def queueOp (f : RArgs) (s : State) (push : Bool) : Out :=
  onTg s fun g =>
    let z := accessSize f
    let a := uAddr g f
    let act := (g.acting f.h).threads
    match act.head? with
    | none => skip s g (RArgs.words f)
    | some t0 =>
      match s.checkGl g.core g.ctx [(t0, a)] 32 .rmw with
      | some st => halted s st
      | none =>
        let loc := s.locOf g.core g.ctx a.toNat
        let q := QDesc.ofBytes (tgBytes g s loc 32 0)
        if !QDesc.valid s g q z then halted s (.trap .addr a t0)
        else
          let ord := effOrd g f.pfx
          let scp := effScp g f.pfx false
          let s1 := (if push then s.redOrder ord scp [(.glob loc, 32)]
            else s.readOrder ord scp (recordPlaces s g q q.head z (min act.length q.held))).performTo s.cur ((loc, 32) :: q.parts s g)
          let r := act.foldl (qServe g push z (dataBytes g (Spec.num f.cs) z)) { s := s1, q := q, ok := [], fail := [] }
          let s2 := r.s.setBytes (loc + 16) (leBytes r.q.head.toNat 8 ++ leBytes r.q.tail.toNat 8)
          let s3 := s2.touchAll g.core g.ctx [a.toNat] true
          let s4 := s3.touchAll g.core g.ctx (ringPages q r.q push) push
          let s5 := if push then s4.released ord scp ((.glob (loc + 24), 8) :: recordPlaces s g q q.tail z r.ok.length)
            else s4.wrotePlain [(.glob (loc + 16), 8)]
          let g1 := s5.curTg g
          let g2 := if push then g1 else putWords g1 (Spec.num f.d) f.ty z r.ok
          let g3 := g2.setP (Spec.num (if push then f.d else f.cs)) fun t =>
            if SMap.has r.ok t then some (15, 15) else if r.fail.contains t then some (0, 15) else none
          done s5 (g3.advance (RArgs.words f))

/-- R162. -/
def execQpush (f : RArgs) (s : State) : Out := queueOp f s true
/-- R162. -/
def execQpop (f : RArgs) (s : State) : Out := queueOp f s false

end Sys2Proof.Machine
end

