-- ==== Sys2Proof/Machine/Rings.lean ====
section
/-! DEFINITION. Staging rings (R244 to R247), and updates of barrier objects with what a fault barrier's end does (R152,
R153, R169). -/

namespace Sys2Proof.Machine

/-! ### Fields of a reservation request (R245) -/

def Ring.base (r : Ring) : Nat := 256 * (r.req.extractLsb' 40 12).toNat
def Ring.nslot (r : Ring) : Nat := (r.req.extractLsb' 32 8).toNat
def Ring.slotSize (r : Ring) : Nat := 256 * (r.req.extractLsb' 20 12).toNat
def Ring.cbs (r : Ring) : Nat := (r.req.extractLsb' 17 3).toNat
def Ring.cbe (r : Ring) : Bool := r.req.getLsbD 16
def Ring.sc (r : Ring) : Bool := r.req.getLsbD 15
def Ring.ks (r : Ring) : Nat := (r.req.extractLsb' 12 3).toNat
def Ring.fmt (r : Ring) : Option Ty := Ty.ofCode (r.req.extractLsb' 0 5)
/-- k-steps per slot of an operand ring, 0 without. -/
def Ring.k (r : Ring) : Nat := if r.ks = 0 then 0 else 64 * 2 ^ (r.ks - 1)
/-- Operand bytes of a slot, 64·K·z, where a cb4 code takes half a byte. -/
def Ring.opBytes (r : Ring) : Nat := match r.fmt with
  | some t => 64 * r.k * t.width / 8
  | none => 0
/-- The scale offset in a slot (R245). -/
def Ring.scaleOff (r : Ring) : Nat := r.slotSize - 256
/-- DB of R226: the data bytes of a slot. -/
def Ring.dataBytes (r : Ring) : Nat :=
  if r.ks = 0 then r.slotSize - (if r.sc then 256 else 0) else r.opBytes

/-- Whether a request is legal in itself (R245). -/
def Ring.legal (r : Ring) : Bool :=
  r.req.extractLsb' 52 12 == 0 && r.nslot != 0 && r.slotSize != 0 && decide (r.ks ≤ 4) && r.req.extractLsb' 5 7 == 0 &&
    match r.fmt with
    | none => false
    | some t =>
      (t == .n8 || [Ty.f32, .f16, .bf16, .e4m3, .e5m2, .e8m0, .cb4].contains t) && (r.cbe == (t == .cb4)) &&
        (r.ks == 0 ||
          (t != .n8 && t != .e8m0 && decide (r.opBytes + (if r.sc then 256 else 0) ≤ r.slotSize)))

/-- The staging offset of the slot of counter value `c`, which wraps at 16 bits first (R246). -/
def Ring.slotOff (r : Ring) (c : Nat) : Nat := r.base + c % 65536 % r.nslot * r.slotSize

/-- Filled slots (R246). -/
def Ring.full (r : Ring) : Nat := r.pc - r.cc

/-- Whether claimed slot `c` may be written, or read (R247). -/
def Ring.canFill (r : Ring) (c : Nat) : Bool := decide (c - r.cc < r.nslot)
def Ring.canRead (r : Ring) (c : Nat) : Bool := decide (c < r.pc) && decide (r.pc - c ≤ r.nslot)

/-- Claim `c` out of a set of intervals [lo, hi). -/
def Ivs.drop (l : List (Nat × Nat)) (c : Nat) : List (Nat × Nat) :=
  (l.flatMap fun p => if p.1 ≤ c ∧ c < p.2 then [(p.1, c), (c + 1, p.2)] else [p]).filter fun p => decide (p.1 < p.2)

/-- PC advances over its next slot when that is filled or ended, CC when read or ended (R247). -/
def Ring.step (r : Ring) : Ring :=
  if r.pc ≠ r.pcl && (r.pdone.contains r.pc || (Ivs.has r.pend r.pc && r.canFill r.pc)) then
    { r with pc := r.pc + 1, pdone := r.pdone.filter (· != r.pc), pend := Ivs.drop r.pend r.pc }
  else if r.cc ≠ r.ccl && (r.cdone.contains r.cc || (Ivs.has r.cend r.cc && r.canRead r.cc)) then
    { r with cc := r.cc + 1, cdone := r.cdone.filter (· != r.cc), cend := Ivs.drop r.cend r.cc }
  else r

/-- Every advance that is due: CC passes no more claims than either side has outstanding, and PC is at most NSLOT ahead of it. -/
def Ring.settle (r : Ring) : Ring :=
  (List.range (2 * min (r.pcl - r.cc) (r.ccl - r.cc) + r.nslot)).foldl (fun r _ => r.step) r

/-- Whether the ring has an outstanding claim. -/
def Ring.busy (r : Ring) : Bool := r.pc != r.pcl || r.cc != r.ccl

/-- `n` slots claimed on one side; the first claim and the ring (R247). -/
def Ring.claim (r : Ring) (prod : Bool) (n : Nat) : Nat × Ring :=
  if prod then (r.pcl, { r with pcl := r.pcl + n }) else (r.ccl, { r with ccl := r.ccl + n })

def State.ring (s : State) (crew n : Nat) : Option Ring := (s.crew crew).bind fun c => SMap.find c.rings n

/-- A ring changed; its counters advance, and a freeing ring whose last claim has completed is freed (R250). -/
def State.updRing (s : State) (crew n : Nat) (f : Ring → Ring) : State :=
  s.modCrew crew fun c =>
    match SMap.find c.rings n with
    | none => c
    | some r =>
      let r' := (f r).settle
      { c with rings := if r'.freeing && !r'.busy && r'.sub.isNone then SMap.del c.rings n else SMap.put c.rings n r' }

/-- Claim `c` done: its slot was filled, or read. -/
def State.ringDone (s : State) (crew n : Nat) (prod : Bool) (c : Nat) : State :=
  s.updRing crew n fun r => if prod then { r with pdone := c :: r.pdone } else { r with cdone := c :: r.cdone }

/-- Claims ended without a transfer, as intervals (R247). -/
def State.ringEnd (s : State) (crew n : Nat) (prod : Bool) (cs : List (Nat × Nat)) : State :=
  s.updRing crew n fun r => if prod then { r with pend := cs ++ r.pend } else { r with cend := cs ++ r.cend }

/-! ### Fault barriers (R152, R153) -/

/-- The assigned fault barrier at a location. -/
def State.faultBarAt (s : State) (loc : Nat) : Option (Nat × Nat) :=
  (List.range Config.numDies).findSome? fun d =>
    let die := s.die d
    let b := die.fbbase.toNat
    if decide (b ≤ loc) && (loc - b) % 16 == 0 && SMap.has die.faults ((loc - b) / 16) then some (d, (loc - b) / 16) else none

def EngineFault.on (e : EngineFault) (die bar : Nat) : Bool := e.die == die && e.bar == some bar

/-- A fault that an engine or a macro thread holds, once the barrier `bar` of a die has ended. -/
def EngineFault.ended (e : EngineFault) (die bar : Nat) (inval : Bool) : EngineFault :=
  if e.on die bar && e.result.isNone then { e with result := some inval } else e

/-- A TG when the fault barrier it may hold ends: it reissues, or takes ADDR at its instruction (R153). The faults of a running
macro are looked at when it ends (R353, R354). -/
def Tg.faultEnded (g : Tg) (die bar : Nat) (inval : Bool) : Tg :=
  let g1 := match g.wait with
    | .fault d i _ va tid _ =>
      if d = die && i = bar then { g with wait := .ready, faultInval := if inval then some (va, tid) else g.faultInval } else g
    | _ => g
  { g1 with mac := g1.mac.map fun m => { m with faults := m.faults.map fun p => (p.1, p.2.ended die bar inval) } }

/-- The fault of a transfer ends (R266). -/
def Transfer.faultEnded (x : Transfer) (die bar : Nat) (inval : Bool) : Transfer :=
  match x.fault with
  | some e => if e.on die bar then { x with fault := none, dead := if inval then some e.va else x.dead } else x
  | none => x

/-- A fault barrier ends: it returns to the pool, and everything that waited on it goes on or ends (R153, R227, R266). -/
def State.faultDone (s : State) (die bar : Nat) (inval : Bool) : State :=
  let since := ((SMap.find (s.die die).faults bar).map fun p => p.2.2).getD 0
  let s1 := (s.count (ctrService (s.gtime.toNat - since))).modDie die fun d => { d with faults := SMap.del d.faults bar }
  { s1 with
    tgs := s1.tgs.map fun p => (p.1, p.2.faultEnded die bar inval)
    copies := s1.copies.map fun p => match p.2.fault with
      | some e => if e.on die bar then (p.1, { p.2 with fault := none, dead := p.2.dead || inval }) else p
      | none => p
    crews := s1.crews.map fun p => (p.1, { p.2 with gangs := p.2.gangs.map fun q =>
      (q.1, { q.2 with xfers := q.2.xfers.map fun x => x.faultEnded die bar inval }) }) }

/-- An update of a barrier object in one step (R169); one that moves the phase of an assigned fault barrier ends the fault. -/
def State.barUpdate (s : State) (o : ObjRef) (inval : Bool) (f : Obj → Obj) : State :=
  let x := s.obj o
  let s1 := s.updObj o f
  match o with
  | .glob loc =>
    if (f x).phase = x.phase then s1
    else match s.faultBarAt loc with
      | some (d, i) => s1.faultDone d i inval
      | none => s1
  | _ => s1

/-- Bytes landed at an object (R171). -/
def State.landAt (s : State) (o : ObjRef) (n : Nat) : State := if n = 0 then s else s.barUpdate o false fun x => x.land n

/-! ### Held faults (R152) -/

/-- A TG whose fault was held and is now posted: it waits at a pre-emption point from here on (R331). -/
def Tg.faultPosted (s : State) (g : Tg) (die bar page : Nat) (phase : BitVec 16) : Tg :=
  let here (va : W64) : Bool := s.pageOf g.ctx va.toNat == page
  let g1 := match g.wait with
    | .heldFault d va tid fill =>
      if d = die && here va then { g with wait := .fault die bar phase va tid fill, sinceSafe := 0 } else g
    | _ => g
  { g1 with mac := g1.mac.map fun m => { m with faults := m.faults.map fun p =>
      if p.2.die = die && p.2.bar.isNone && here p.2.va then (p.1, { p.2 with bar := some bar }) else p } }

/-- The oldest held fault of a die is posted; every agent that holds a fault of its page waits on its barrier. -/
def State.postHeld (s : State) (die : Nat) : Option State :=
  match (s.die die).heldFaults with
  | [] => none
  | f :: _ =>
    if !(s.die die).canPost then none
    else
      let i := SMap.lowFree (s.die die).faults
      let s1 := (s.modDie die fun d =>
        { d with heldFaults := d.heldFaults.filter fun h => !(h.ctx == f.ctx && h.page == f.page) }).post die f
      let ph := (s1.obj (.glob ((s1.die die).barLoc i))).phase
      let mine (ctx : Nat) (e : EngineFault) : EngineFault :=
        if e.die = die && e.bar.isNone && ctx = f.ctx && s.pageOf ctx e.va.toNat = f.page then { e with bar := some i } else e
      some { s1 with
        tgs := s1.tgs.map fun p => if p.2.ctx = f.ctx then (p.1, Tg.faultPosted s p.2 die i f.page ph) else p
        copies := s1.copies.map fun p => (p.1, { p.2 with fault := p.2.fault.map (mine p.2.ctx) })
        crews := s1.crews.map fun p => (p.1, { p.2 with gangs := p.2.gangs.map fun q =>
          (q.1, { q.2 with xfers := q.2.xfers.map fun x => { x with fault := x.fault.map (mine x.ctx) } }) }) }

/-- A fault of an engine, load path or macro step: posted, merged or held on the die of the core that made the access. -/
def State.engineFault (s : State) (ctx core : Nat) (src : FaultSrc) (write : Bool) (va dl : W64) : State × EngineFault :=
  let info : FaultInfo :=
    { ctx := ctx, page := s.pageOf ctx va.toNat, va := va, src := src, kind := if write then 2 else 1, core := core, dl := dl
      time := s.gtime }
  let (s1, at') := s.raise (dieOf core) info
  (s1, { die := dieOf core, bar := at'.map (·.1), va := va })

end Sys2Proof.Machine
end

