-- ==== Sys2Proof/Machine/Sync.lean ====
section
/-! DEFINITION. Barrier instructions, atomics, deterministic reduction, bred and fence (R167 to R193). -/

namespace Sys2Proof.Machine

/-! ### Barrier instructions (R175 to R181) -/

/-- The object that an operand names, in global memory or in the arena, or the check of R175 that fails. -/
def objTarget (s : State) (g : Tg) (gl : Bool) (sp : Spec) (t : Nat) : Except Stop ObjRef :=
  let c := s.crewOf g
  if gl then
    let a := g.sAt (Spec.num sp)
    match s.checkGl g.core g.ctx [(t, a)] 16 .barrier with
    | some st => .error st
    | none => .ok (.glob (s.locOf g.core g.ctx a.toNat))
  else
    let off := match sp with
      | .imm i => wrapInt ((c.scratchSize : Int) - 16 * (i.toNat + 1)) 32
      | a => (g.sAt (Spec.num a)).toNat % 2 ^ 32
    match checkSp c.scratchSize c.nbar [(t, off)] 16 false with
    | some st => .error st
    | none =>
      if off < c.scratchSize - 16 * c.nbar then .error (.trap .arena (BitVec.ofNat 64 off) t)
      else .ok (.arena g.crew off)

/-- The object that A of a barrier instruction names (R175). -/
def barTarget (s : State) (g : Tg) (f : RArgs) (t : Nat) : Except Stop ObjRef := objTarget s g (f.x.getLsbD 0) f.a t

/-- The value of A as a trap reports it. -/
def barInfo (s : State) (g : Tg) (f : RArgs) : W64 :=
  match f.a with
  | .imm i => BitVec.ofInt 64 (((s.crewOf g).scratchSize : Int) - 16 * (i.toNat + 1))
  | a => if f.x.getLsbD 0 then g.sAt (Spec.num a) else (g.sAt (Spec.num a)).extractLsb' 0 32 |>.setWidth 64

/-- A barrier instruction: its guard once, then its object's checks (R175). -/
def onBar (f : RArgs) (s : State) (write : Bool) (k : State → Tg → ObjRef → Out) : Out :=
  onTg s fun g =>
    match g.once f.h with
    | none => skip s g (RArgs.words f)
    | some t =>
      match barTarget s g f t with
      | .error st => halted s st
      | .ok o =>
        let s1 := if f.x.getLsbD 0 then s.touch g.core g.ctx (g.sAt (Spec.num f.a)).toNat write else s
        k s1 g o

/-- Whether a TG is parked on an object, one of another module among them (R408); a saved TG is not registered (R179). -/
def State.parkedOn (s : State) (o : ObjRef) : Bool :=
  (s.remoteWaits.any fun loc => o == .glob loc) || s.tgs.any fun p => p.2.resident &&
    match p.2.wait with
    | .obj o' _ => o' == o
    | .fault d i _ _ _ _ => o == .glob ((s.die d).barLoc i)
    | _ => false

/-- The scope of an object's releases and acquires, as a code of R62: crew in the arena; dev, or sys with X[1], in global memory
(R174). -/
def objScope (f : RArgs) : Nat := if f.x.getLsbD 0 then (if f.x.getLsbD 1 then 5 else 4) else 2

/-- The scope of an instruction's release or acquire at an object: sys in host memory and in another module (R403, R407). -/
def objScopeAt (f : RArgs) (o : ObjRef) : Nat := accScope (objScope f) (o, 16)

/-- R176. -/
def execBarInit (f : RArgs) (s : State) : Out :=
  onBar f s true fun s1 g o =>
    if s.parkedOn o then trapOnce s g .barbusy (barInfo s g f)
    else
      let n : BitVec 16 := BitVec.ofNat 16 (opnd32 s g f.h f.b)
      done ((s1.updObj o fun x => x.init n).forgetPhase o (s1.obj o).phase) (g.advance (RArgs.words f))

/-- One arrival of the current TG (R177), whose phase's completion releases what precedes it (R174); the phase before it. -/
def State.arriveAt (s : State) (o : ObjRef) (scope : Nat) : State × BitVec 16 :=
  let ph := (s.obj o).phase
  ((s.arrived o scope ph).barUpdate o false Obj.arrive, ph)

/-- R177. -/
def execBarArrive (f : RArgs) (s : State) : Out :=
  onBar f s true fun s1 g o =>
    let s2 := s1.flushShare s.cur
    let (s3, ph) := s2.arriveAt o (objScopeAt f o)
    done s3 (((s3.curTg g).setS (Spec.num f.d) (ph.setWidth 64)).advance (RArgs.words f))

/-- R178. -/
def execBarExpect (f : RArgs) (s : State) : Out :=
  onBar f s true fun s1 g o =>
    let n := opnd32 s g f.h f.b
    let s2 := s1.barUpdate o false fun x => x.expect n
    done s2 ((s2.curTg g).advance (RArgs.words f))

/-- The phase operand: bits [15:0] of B (R175). -/
def phaseOp (s : State) (g : Tg) (f : RArgs) : BitVec 16 := BitVec.ofNat 16 (opnd32 s g f.h f.b)

/-- The status word of an object (R179, R180). -/
def Obj.word (o : Obj) : W64 := BitVec.ofNat 64 (o.status.toNat % 8 * 2 ^ 16 + o.phase.toNat)

/-- A TG that waits at a die's FQBAR serves its fault queue (R299). DEDUCED, log 34. -/
def State.serves (s : State) (o : ObjRef) (launch : Nat) : State :=
  match o with
  | .glob loc => { s with dies := s.dies.map fun (p : Nat × Die) =>
      if p.2.fqbar.toNat = loc then (p.1, { p.2 with server := some launch }) else p }
  | _ => s

/-- R179: continues, or parks with the pc kept, so that the TG issues bar.wait again. -/
def execBarWait (f : RArgs) (s : State) : Out :=
  onBar f s false fun s1 g o =>
    let x := s1.obj o
    if x.phase = phaseOp s g f then .next ((s1.serves o g.launch).setTg s.cur { g with wait := .obj o x.phase })
    else
      let s2 := s1.observed o (objScopeAt f o) x.phase
      let g0 := s2.curTg g
      let g1 := if f.x.getLsbD 3 then g0.setS (Spec.num f.d) x.word else g0
      done s2 (g1.advance (RArgs.words f))

/-- R180. -/
def execBarTest (f : RArgs) (s : State) : Out :=
  onBar f s false fun s1 g o =>
    let x := s1.obj o
    let b := allBits (x.phase != phaseOp s g f)
    let s2 := if x.phase = phaseOp s g f then s1 else s1.observed o (objScopeAt f o) x.phase
    let g1 := (s2.curTg g).setP (Spec.num f.d) fun t => if g.mask.has t then some (b, 15) else none
    done s2 ((g1.setS (Spec.num f.cs) x.word).advance (RArgs.words f))

/-- R181. -/
def execBarInval (f : RArgs) (s : State) : Out :=
  onBar f s true fun s1 g o =>
    let s2 := (s1.forgetPhase o (s1.obj o).phase).barUpdate o true Obj.inval
    done s2 ((s2.curTg g).advance (RArgs.words f))

/-! ### Atomics (R182 to R184) -/

/-- The element type of an atomic on a packed type. -/
def elemTy : Ty → Ty
  | .f16x2 => .f16
  | .bf16x2 => .bf16
  | t => t

/-- The new value of one element (R182). exch gives `b1` as its bits stand, a NaN that is not canonical too: the table gives b, and R33 is
of results that are computed (DESIGN CHOICE, log 55). -/
def atomElem (x : Nat) (ty : Ty) (old b1 b2 : Nat) : Nat :=
  let w := ty.width
  let pick (isMax : Bool) : Nat :=
    if ty.isFloat then minMaxBits ty isMax false old b1
    else if (if isMax then intVal ty old < intVal ty b1 else intVal ty b1 < intVal ty old) then b1 else old
  match x with
  | 0 => if ty.isFloat then (Ty.fmt ty).round (Exact.sum .rne [fltVal ty old, fltVal ty b1]) .rne false
         else (old + b1) % 2 ^ w
  | 1 => pick false
  | 2 => pick true
  | 3 => old &&& b1
  | 4 => old ||| b1
  | 5 => old ^^^ b1
  | 6 => b1
  | 7 => if old = b1 then b2 else old
  | 8 => if b1 ≤ old then 0 else old + 1
  | _ => if old = 0 || decide (b1 < old) then b1 else old - 1

/-- The elements of an access: byte offset, bytes, and whether the guard lets it act (R183). -/
def atomParts (ty : Ty) (gb : BitVec 4) : List (Nat × Nat × Bool) :=
  if ty.isPacked then [(0, 2, gb.getLsbD 0), (2, 2, gb.getLsbD 2)] else [(0, ty.bytes, true)]

/-- The writes of one read-modify-write: (offset, bytes) of each element that acts. -/
def atomWrites (x : Nat) (ty : Ty) (gb : BitVec 4) (old b1 b2 : Nat) : List (Nat × List Byte) :=
  (atomParts ty gb).filterMap fun p =>
    if p.2.2 then
      let el (v : Nat) : Nat := v / 2 ^ (8 * p.1) % 2 ^ (8 * p.2.1)
      some (p.1, leBytes (atomElem x (elemTy ty) (el old) (el b1) (el b2)) p.2.1)
    else none

/-- The effective space of atom and red: true for scratchpad (R63). -/
def atomSp (g : Tg) (f : RArgs) : Bool :=
  let m := g.mode.memdef.extractLsb' 3 2 == 2
  match f.pfx with
  | some p => if p.spc = 0 then m else p.spc == 2
  | none => m

/-- What R63 and R183 forbid once the space is known: a named policy in scratchpad, an odd pair base in global memory. -/
def atomIllegal (g : Tg) (f : RArgs) : Bool :=
  if atomSp g f then f.pfx.any fun p => decide (1 < p.pol.toNat)
  else match f.a with
    | .v n => n.toNat % 2 == 1
    | _ => false

/-- Data operand `k` (0 for b or b1, 1 for b2) of thread `t` (R183). -/
def atomData (g : Tg) (f : RArgs) (k t : Nat) : Nat :=
  let n := Spec.num f.cs
  if f.ty.width = 64 then (g.v64 (n + 2 * k) t).toNat else (g.vAt (n + k) t).toNat

/-- The threads of an atomic in increasing order: state and old values after each (R184). -/
structure AtomRun where
  s : State
  old : List (Nat × Nat)

def atomGl (g : Tg) (f : RArgs) (x z : Nat) (r : AtomRun) (p : Nat × Nat) : AtomRun :=
  let old := leNat (r.s.bytes p.2 z (16 * p.1))
  let ws := atomWrites x f.ty (g.guardBits f.h.g f.h.n p.1) old (atomData g f 0 p.1) (atomData g f 1 p.1)
  { s := ws.foldl (fun s w => s.setBytes (p.2 + w.1) w.2) r.s, old := r.old ++ [(p.1, old)] }

def atomSpad (g : Tg) (f : RArgs) (x z : Nat) (r : AtomRun) (p : Nat × Nat) : AtomRun :=
  let old := leNat ((r.s.crewOf g).spBytes p.2 z)
  let ws := atomWrites x f.ty (g.guardBits f.h.g f.h.n p.1) old (atomData g f 0 p.1) (atomData g f 1 p.1)
  { s := r.s.modCrew g.crew fun c => ws.foldl (fun c w => c.setSp (p.2 + w.1) w.2) c, old := r.old ++ [(p.1, old)] }

/-- The old values written to D, element by element for a packed type (R183). -/
def putOld (g : Tg) (f : RArgs) (old : List (Nat × Nat)) : Tg :=
  let n := Spec.num f.d
  if f.ty.width = 64 then g.setV64 n fun t => (SMap.find old t).map (BitVec.ofNat 64)
  else g.setV n fun t => (SMap.find old t).map fun x =>
    if f.ty.isPacked then BitVec.ofNat 32 (packGuarded (g.guardBits f.h.g f.h.n t) (g.vAt n t).toNat (half x 0) (half x 1))
    else BitVec.ofNat 32 x

/-- What the order of an update does before it: one that returns the old value is a load too, and red is none (R198). -/
def State.atomOrder (s : State) (ret : Bool) (ord scp : Nat) (places : List (ObjRef × Nat)) : State :=
  if ret then s.readOrder ord scp places else s.redOrder ord scp places

/-- The updates of global words whose checks have passed: the order is obeyed, the TG's earlier stores to the words are performed, the
pages are used, the threads take their turns, and the order releases (R184, R196, R198). -/
def atomRun (s : State) (g : Tg) (f : RArgs) (x ord scp : Nat) (ret : Bool) (accs : List (Nat × W64)) : AtomRun :=
  let z := f.ty.bytes
  let locs := accs.map fun p => (p.1, s.locOf g.core g.ctx p.2.toNat)
  let places := locs.map fun p => (ObjRef.glob p.2, z)
  let s1 := (s.atomOrder ret ord scp places).performTo s.cur (locs.map fun p => (p.2, z))
  let s2 := s1.touchAll g.core g.ctx (accs.map fun p => p.2.toNat) true
  let r := locs.foldl (atomGl g f x z) { s := s2, old := [] }
  { r with s := r.s.released ord scp places }

/-- atom and red: operation `x`, with the old value returned for atom (R184). -/
def atomic (i : Instr) (f : RArgs) (s : State) (x : Nat) (ret : Bool) : Out :=
  onTg s fun g =>
    let z := f.ty.bytes
    let act := if f.ty.isPacked then g.actingPacked f.h else g.acting f.h
    let ord := effOrd g f.pfx
    let scp := effScp g f.pfx (atomSp g f)
    let fin (r : AtomRun) : Out :=
      let g1 := r.s.curTg g
      done r.s ((if ret then putOld g1 f r.old else g1).advance (RArgs.words f))
    if atomIllegal g f then illop s g i
    else if act = 0 then skip s g (RArgs.words f)
    else
      if atomSp g f then
        let accs := act.threads.map fun t => (t, spAddr g f z t)
        match checkSp (s.crewOf g).scratchSize (s.crewOf g).nbar accs z true with
        | some st => halted s st
        | none =>
          let places := accs.map fun p => (ObjRef.arena g.crew p.2, z)
          let r := accs.foldl (atomSpad g f x z) { s := s.atomOrder ret ord scp places, old := [] }
          fin { r with s := r.s.released ord scp places }
      else
        let accs := act.threads.map fun t => (t, glAddr g f z t)
        match s.checkGl g.core g.ctx accs z .rmw with
        | some st => halted s st
        | none => fin (atomRun s g f x ord scp ret accs)

/-- R184. -/
def execAtom (f : RArgs) (s : State) : Out := atomic (.atom f) f s f.x.toNat true
/-- R184. -/
def execRed (f : RArgs) (s : State) : Out := atomic (.red f) f s f.x.toNat false

/-! ### Deterministic reduction (R185 to R190) -/

/-- Whether the launch's determinism mode is on (R289). -/
def State.detMode (s : State) (l : Nat) : Bool := (s.launch l).any fun x => x.desc.modes.getLsbD 0

/-- Whether an entry overlaps an access and is of another address or type (R186). -/
def ShareEntry.clash (e : ShareEntry) (loc : Nat) (ty : Ty) : Bool :=
  decide (e.loc < loc + ty.bytes) && decide (loc < e.loc + e.ty.bytes) && !(e.loc == loc && e.ty == ty)

/-- A contribution of thread `t` joins the share, by the location that its address has at issue (R186; DESIGN CHOICE, log 59). -/
def shareAdd (ty : Ty) (share : List ShareEntry) (t : Nat) (va : W64) (loc : Nat) (b : W64) : List ShareEntry :=
  if share.any fun e => e.loc == loc && e.thread == t then
    share.map fun e => if e.loc == loc && e.thread == t then { e with val := detAdd ty e.val b } else e
  else share ++ [{ loc := loc, va := va, thread := t, ty := ty, val := b }]

/-- R186; red.add in order rlx where the determinism mode is off (R185). Two addresses of one location share their entries: the spec says
"exact address" and not which (DESIGN CHOICE, log 59). -/
def execRedDet (f : RArgs) (s : State) : Out :=
  onTg s fun g =>
    let z := f.ty.bytes
    let act := g.acting f.h
    if act = 0 then skip s g (RArgs.words f)
    else
      let accs := act.threads.map fun t => (t, glAddr g f z t)
      match s.checkGl g.core g.ctx accs z .rmw with
      | some st => halted s st
      | none =>
        if !s.detMode g.launch then
          let r := atomRun s g f 0 1 (effScp g f.pfx false) false accs
          done r.s ((r.s.curTg g).advance (RArgs.words f))
        else
          let locs := accs.map fun p => (p.1, s.locOf g.core g.ctx p.2.toNat)
          let s1 := s.touchAll g.core g.ctx (accs.map fun p => p.2.toNat) true
          let clash := locs.any fun p => g.share.any fun e => e.clash p.2 f.ty
          let new := (locs.filter fun p => !g.share.any fun e => e.loc == p.2 && e.thread == p.1).length
          let s2 := if clash || decide (Config.shareSize < g.share.length + new) then s1.flushShare s.cur else s1
          let g2 := s2.curTg g
          let share := locs.foldl (fun sh p => shareAdd f.ty sh p.1 (glAddr g f z p.1) p.2 (BitVec.ofNat 64 (atomData g f 0 p.1))) g2.share
          done s2 ({ g2 with share := share }.advance (RArgs.words f))

/-- R190: a flush, and a dev-scope release of the TG's earlier accesses, which a read of a contribution meets once it is in memory. -/
def execAflush (f : RArgs) (s : State) : Out :=
  onTg s fun g =>
    match g.once f.h with
    | none => skip s g (RArgs.words f)
    | some _ =>
      let s1 := (s.releaseAs s.cur 4).flushShareAs s.cur (some s.stamp)
      done s1 ((s1.curTg g).advance (RArgs.words f))

/-! ### bred (R191, R192) -/

/-- A bred descriptor at a location: the location, and ACC. -/
structure Bred where
  loc : Nat
  acc : W64

/-- The addresses of a bred's accumulators for threads, and of the code word. -/
def bredWord (acc : W64) (t : Nat) : W64 := acc + BitVec.ofNat 64 (8 * t)

/-- A bred step: descriptor checks, then the checks of its accesses to the words `ws` of ACC, of which it loads `lds`, all before anything
is done. A descriptor that is not on a B
page traps PROT, as a barrier object does, since R191 gives no cause; where no thread acts nothing is done, so that bred.code and
bred.add make no arrival and leave D as it is (DESIGN CHOICE, log 54). -/
def onBred (f : RArgs) (s : State) (act ws lds : List Nat) (k : AccKind) (go : State → Tg → Bred → Out) : Out :=
  onTg s fun g =>
    match act.head? with
    | none => skip s g (RArgs.words f)
    | some t0 =>
      let a := g.sAt (Spec.num f.a)
      match s.checkGl g.core g.ctx [(t0, a)] 64 .barrier with
      | some st => halted s st
      | none =>
        let loc := s.locOf g.core g.ctx a.toNat
        let bs := tgBytes g s loc 64 0
        let acc : W64 := BitVec.ofNat 64 (leNat ((bs.drop 16).take 8))
        if leNat (bs.drop 24) ≠ 0 then halted s (.trap .addr a t0)
        else
          match s.checkGl g.core g.ctx (ws.map fun t => (if t < 96 then t else t0, bredWord acc t)) 8 k with
          | some st => halted s st
          | none =>
            let locs := ws.map fun t => s.locOf g.core g.ctx (bredWord acc t).toNat
            let s0 := s.readOrder 1 4 ((.glob loc, 64) :: lds.map fun t => (.glob (s.locOf g.core g.ctx (bredWord acc t).toNat), 8))
            let s1 := (s0.touchAll g.core g.ctx (a.toNat :: ws.map fun t => (bredWord acc t).toNat) k.writes).performTo s.cur
              (locs.map fun l => (l, 8))
            go s1 g { loc := loc, acc := acc }

/-- The location of word `t` of ACC; word 96 is the code word. -/
def Bred.wordLoc (b : Bred) (s : State) (g : Tg) (t : Nat) : Nat := s.locOf g.core g.ctx (bredWord b.acc t).toNat

/-- The words of ACC that a step updates, each by a relaxed access (R192, R198). -/
def Bred.places (b : Bred) (s : State) (g : Tg) (ws : List Nat) : List (ObjRef × Nat) :=
  ws.map fun t => (.glob (b.wordLoc s g t), 8)

/-- One arrival at BAR, which ends bred.code and bred.add: D takes the phase before; X[2] gives BAR sys scope (R192). -/
def bredArrive (f : RArgs) (s : State) (g : Tg) (b : Bred) : Out :=
  let (s2, ph) := s.arriveAt (.glob b.loc) (accScope (if f.x.getLsbD 2 then 5 else 4) (.glob b.loc, 16))
  done s2 (((s2.curTg g).setS (Spec.num f.d) (ph.setWidth 64)).advance (RArgs.words f))

/-- The threads that act in a bred step. -/
def bredActing (f : RArgs) (s : State) : List Nat := match s.tg s.cur with
  | some g => (g.acting f.h).threads
  | none => []

/-- Code `j` of the code word. -/
def bredCode (code j : Nat) : Nat := code / 2 ^ (8 * j) % 256

/-- R192, step 0: once for the TG. -/
def execBredClr (f : RArgs) (s : State) : Out :=
  let act := ((s.tg s.cur).bind fun g => g.once f.h).toList
  onBred f s act (List.range 97) [] .rmw fun s1 g b =>
    let s2 := (List.range 97).foldl (fun s t => s.write (b.wordLoc s1 g t) 8 0) s1
    let places := b.places s1 g (List.range 97)
    let s3 := (places.foldl State.overwrite s2).released 1 4 places
    done s3 ((s3.curTg g).advance (RArgs.words f))

/-- R192, step 1. -/
def execBredCode (f : RArgs) (s : State) : Out :=
  let act := bredActing f s
  onBred f s act [96] [] .rmw fun s1 g b =>
    let loc := b.wordLoc s1 g 96
    let old := leNat (s1.bytes loc 8 0)
    let new (j : Nat) : Nat :=
      let q := bredCodeOf ((act.filter fun t => t / 32 == j).map fun t => f32 (g.vAt (Spec.num f.b) t))
      max (bredCode old j) q
    let s2 := (List.range 3).foldl (fun s j => s.setByte (loc + j) (BitVec.ofNat 8 (new j))) s1
    bredArrive f (s2.released 1 4 (b.places s1 g [96])) g b

/-- What thread `t` adds in an accumulator under code `c`: nothing where the code is 0xFF. A NaN or an infinity under another code, which
only a bred.add issued before phase one has completed meets, adds a free value (DESIGN CHOICE, log 42: R47 gives none). -/
def bredTerm (s : State) (t : Nat) (x : Exact) (c : Nat) : Int :=
  if c = 255 then 0 else if x.isFinite then bredInt x c else s.free (18 + 64 * t)

/-- R192, step 2. A sum that does not fit the 40 bits of R47, which only misordered steps give, is kept modulo 2^64 in its word
(DESIGN CHOICE, log 42). -/
def execBredAdd (f : RArgs) (s : State) : Out :=
  let act := bredActing f s
  onBred f s act (act ++ [96]) [96] .rmw fun s1 g b =>
    let code := leNat (s1.bytes (b.wordLoc s1 g 96) 8 0)
    let s2 := act.foldl (fun s t =>
      let c := bredCode code (t / 32)
      let loc := b.wordLoc s1 g t
      let x := bredTerm s t (f32 (g.vAt (Spec.num f.b) t)) c
      s.write loc 8 (wrapInt (leNat (s.bytes loc 8 (8 * t)) + x) 64)) s1
    bredArrive f (s2.released 1 4 (b.places s1 g act)) g b

/-- R192, step 3. -/
def execBredGet (f : RArgs) (s : State) : Out :=
  let act := bredActing f s
  onBred f s act (act ++ [96]) (act ++ [96]) .load fun s1 g b =>
    let code := leNat (s1.bytes (b.wordLoc s1 g 96) 8 0)
    let vals := act.map fun t =>
      (t, bredResult (sextInt (leNat (s1.bytes (b.wordLoc s1 g t) 8 (8 * t))) 64) (bredCode code (t / 32)))
    let g1 := s1.curTg g
    done s1 ((g1.setV (Spec.num f.d) fun t => SMap.find vals t).advance (RArgs.words f))

/-! ### fence (R193) -/

/-- The scope of a fence, C[14:12] (R193). -/
def fenceScope (f : RArgs) : Nat := f.cs.toByte.toNat % 8

/-- R193. -/
def execFence (f : RArgs) (s : State) : Out :=
  onTg s fun g =>
    match g.once f.h with
    | none => skip s g (RArgs.words f)
    | some _ =>
      let s1 := s.fence f.x.toNat (fenceScope f)
      done s1 ((s1.curTg g).advance (RArgs.words f))

end Sys2Proof.Machine
end

