-- ==== Sys2Proof/Machine/Copy.lean ====
section
/-! DEFINITION. Copy-engine operations as plain arithmetic: what a descriptor means, which bytes an operation reads and writes,
and how an element converts (R221 to R232). An operation reads its source byte by byte, converts a unit once all of it is read (an
element; a scale block; a block of cpy.topk or cpy.expand; a byte of a subscription), and writes byte by byte (DEDUCED, log 13). -/

namespace Sys2Proof.Machine

/-- An access of an engine operation: space 0 scratchpad, 1 global, 2 staging; address; bytes; whether it writes. -/
structure CAcc where
  sp : Nat
  addr : Nat
  z : Nat
  wr : Bool
deriving DecidableEq, Repr

/-- An address in a space: 64 bits in global memory, 32 in scratchpad. -/
def spaceWrap (sp : Nat) (x : Int) : Nat := if sp = 1 then wrapInt x 64 else wrapInt x 32

/-! ### Tiles (R222 to R225) -/

def CopyTile.d0 (t : CopyTile) : Nat := if t.trans then t.t1 else t.t0
def CopyTile.d1 (t : CopyTile) : Nat := if t.trans then t.t0 else t.t1
/-- Elements of the tile. -/
def CopyTile.count (t : CopyTile) : Nat := t.t0 * t.t1 * t.t2
/-- Whether the operation writes one code per scale block (R224). -/
def CopyTile.codes (t : CopyTile) : Bool := t.smode == 2 || (t.smode == 3 && t.dstSp == 2)
/-- Elements per unit: a scale block where one code serves it, else one. -/
def CopyTile.unitLen (t : CopyTile) : Nat := if 2 ≤ t.smode then t.blen else 1

/-- Source indexes of destination element `lin` (R224). -/
def CopyTile.srcIdx (t : CopyTile) (lin : Nat) : Nat × Nat × Nat :=
  let j0 := lin % t.d0
  let j1 := lin / t.d0 % t.d1
  let j2 := lin / (t.d0 * t.d1)
  if t.trans then (j1, j0, j2) else (j0, j1, j2)

/-- Whether the source element of `lin` lies within the extents (R224). -/
def CopyTile.inside (t : CopyTile) (lin : Nat) : Bool :=
  let i := t.srcIdx lin
  decide (i.1 < t.e0) && decide (i.2.1 < t.e1) && decide (i.2.2 < t.e2)

/-- Linear source index of destination element `lin`: its place in a staging source. -/
def CopyTile.srcLin (t : CopyTile) (lin : Nat) : Nat :=
  let i := t.srcIdx lin
  i.1 + t.t0 * i.2.1 + t.t0 * t.t1 * i.2.2

/-- Source address of destination element `lin` outside staging (R224). -/
def CopyTile.srcAddr (t : CopyTile) (lin : Nat) : Nat :=
  let i := t.srcIdx lin
  spaceWrap t.srcSp (t.src.toNat + (i.1 * t.srct.bytes : Nat) + i.2.1 * t.ss1 + i.2.2 * t.ss2)

/-- Destination address of element `lin` outside staging (R224). -/
def CopyTile.dstAddr (t : CopyTile) (lin : Nat) : Nat :=
  spaceWrap t.dstSp (t.dst.toNat + (lin % t.d0 * t.dstt.bytes : Nat) + (lin / t.d0 % t.d1 : Nat) * t.ds1 +
    (lin / (t.d0 * t.d1) : Nat) * t.ds2)

/-- The space of the scale array (R223, R225). -/
def CopyTile.sclSp (t : CopyTile) : Nat := if t.smode = 3 && t.dstSp = 2 then t.srcSp else t.dstSp
def CopyTile.sclAddr (t : CopyTile) (b : Nat) : Nat := spaceWrap t.sclSp (t.scl.toNat + (b : Nat))

/-- Every access of a tile outside staging (R219 step 5). -/
def CopyTile.accs (t : CopyTile) : List CAcc :=
  let els := List.range t.count
  let blocks := List.range (t.count / t.blen)
  (if t.srcSp = 2 then [] else
    (els.filter t.inside).map fun l => { sp := t.srcSp, addr := t.srcAddr l, z := t.srct.bytes, wr := false }) ++
  (if t.smode = 3 then blocks.map fun b => { sp := t.sclSp, addr := t.sclAddr b, z := 1, wr := false } else []) ++
  (if t.dstSp = 2 then [] else els.map fun l => { sp := t.dstSp, addr := t.dstAddr l, z := t.dstt.bytes, wr := true }) ++
  (if t.smode = 2 && t.dstSp ≠ 2 then blocks.map fun b => { sp := t.sclSp, addr := t.sclAddr b, z := 1, wr := true } else [])

/-- Whether a pair of types and a scale mode is legal (R225). -/
def tileTypesOk (src dst : Ty) (smode : Nat) : Bool :=
  let is8 (t : Ty) : Bool := t == .e4m3 || t == .e5m2
  if src == dst then smode == 0
  else if dst == .e8m0 then false
  else if smode == 0 then src.isFloat && dst.isFloat
  else if is8 dst then src.isFloat || src.isInt
  else (smode == 1 || smode == 3) && is8 src && [Ty.f32, .f16, .bf16].contains dst

/-- Declared bytes of a tile (R224). -/
def CopyTile.declared (t : CopyTile) : Nat := t.count * t.dstt.bytes + (if t.codes then t.count / t.blen else 0)

/-- An address operand in a staging space has zero high bits (R221). -/
def stagingOk (sp : Nat) (a : W64) : Bool := sp != 2 || decide (a.toNat < 32)

/-- A copy descriptor parsed; none where a field is illegal (R223, R225, R219 step 2). -/
def parseTile (bs : List Byte) (seq : W32) (seed : W64) : Option CopyTile :=
  let f (i n : Nat) : Nat := leNat ((bs.drop i).take n)
  let ctl := f 52 4
  let fld (lo w : Nat) : Nat := ctl / 2 ^ lo % 2 ^ w
  match Ty.ofCode (BitVec.ofNat 5 (fld 0 5)), Ty.ofCode (BitVec.ofNat 5 (fld 5 5)) with
  | some src, some dst =>
    let t : CopyTile :=
      { src := BitVec.ofNat 64 (f 0 8), dst := BitVec.ofNat 64 (f 8 8), srcSp := fld 20 2, dstSp := fld 22 2
        t0 := f 16 2, t1 := f 18 2, t2 := f 20 2, ss1 := sextInt (f 24 4) 32, ss2 := sextInt (f 28 4) 32
        ds1 := sextInt (f 32 4) 32, ds2 := sextInt (f 36 4) 32, e0 := f 40 4, e1 := f 44 4, e2 := f 48 4
        srct := src, dstt := dst, rm := BitVec.ofNat 3 (fld 10 3), sat := fld 13 2, smode := fld 15 2
        trans := fld 17 1 == 1, blen := 16 * 2 ^ fld 18 2, scl := BitVec.ofNat 64 (f 56 8), seq := seq, seed := seed
        srcClaim := 0, dstClaim := 0, srcSlots := 0, dstSlots := 0 }
    let ok := f 22 2 == 0 && fld 24 8 == 0 && t.t0 != 0 && t.t1 != 0 && t.t2 != 0 && decide (t.srcSp < 3) &&
      decide (t.dstSp < 3) && decide (fld 18 2 < 3) && decide (t.sat < 3) && decide (t.rm.toNat < 5) && src != .cb4 &&
      dst != .cb4 && tileTypesOk src dst t.smode && (t.smode < 2 || t.d0 % t.blen == 0) &&
      !(t.smode == 3 && t.srcSp == 2 && t.dstSp == 2) && stagingOk t.srcSp t.src && stagingOk t.dstSp t.dst &&
      decide (t.declared ≤ 2 ^ 31)
    if ok then some t else none
  | _, _ => none

/-- The value of the source element of `lin` with the bits `x`: +0 outside the extents (R224). -/
def CopyTile.value (t : CopyTile) (lin x : Nat) : Exact :=
  if !t.inside lin then .zero false
  else if t.srct.isInt then Exact.ofInt (intVal t.srct x)
  else decodeTy t.srct x

/-- How element `lin` converts from the bits `x`, with scale code `c` (R225); under rm = sr its index is the e of R39. -/
def CopyTile.convert (t : CopyTile) (lin x c : Nat) : Nat :=
  let rnd := Rnd.ofCode t.rm (if t.rm = 4 then srbits t.seed t.seq lin else 0)
  let sat := effSat t.dstt t.sat
  let v := t.value lin x
  if t.srct == t.dstt then (if t.inside lin then x else 0)
  else if t.smode = 0 then (Ty.fmt t.dstt).round v rnd sat
  else if t.dstt == .e4m3 || t.dstt == .e5m2 then mxElem v c t.dstt rnd sat
  else if c = 255 then (Ty.fmt t.dstt).nan
  else (Ty.fmt t.dstt).round (v.scale ((c : Int) - 127)) rnd sat

/-! ### Staging sides (R226) -/

/-- Slots a staging side takes, or none where R226 fails on the ring, the size or the type. -/
def stageSlots (r : Option Ring) (ty : Ty) (bytes : Nat) : Option Nat :=
  match r with
  | none => none
  | some r =>
    let db := r.dataBytes
    let tyOk := r.ks == 0 || (match r.fmt with
      | some .cb4 => ty == .n8
      | some x => x == ty
      | none => false)
    if !r.freeing && tyOk && db != 0 && bytes % db == 0 && bytes != 0 then some (bytes / db) else none

/-- The claim and the byte in its slot of byte `b` of a packed tile. -/
def stageAt (r : Ring) (claim b : Nat) : Nat × Nat := (claim + b / r.dataBytes, b % r.dataBytes)

/-! ### Units -/

/-- Units of an operation. -/
def CopyWork.units : CopyWork → Nat
  | .tile t => t.count / t.unitLen
  | .fill _ _ count _ _ _ _ => count
  | .topk _ _ _ _ _ _ _ _ blk n => n / blk
  | .expand _ _ _ _ _ k blk n pcnt => max ((pcnt + k - 1) / k) ((n + blk - 1) / blk)
  | .sub _ _ _ _ nt _ size _ => nt * size

/-- Bytes of a pair (R230). -/
def pairBytes (ty : Ty) : Nat := if ty == .f32 then 8 else 4

/-- Places in a unit's list of source bytes: a tile's elements and then the scale code read for them; a block of cpy.topk and then
its scree; the pairs of a block of cpy.expand. -/
def CopyWork.reads : CopyWork → Nat
  | .tile t => t.unitLen * t.srct.bytes + (if t.smode = 3 then 1 else 0)
  | .topk ty _ _ _ _ _ _ _ blk _ => 2 * (blk * ty.bytes)
  | .expand ty _ _ _ _ k _ _ _ => k * pairBytes ty
  | .fill .. | .sub .. => 1

/-- Declared bytes (R222, R224, R229 to R233). -/
def CopyWork.declared : CopyWork → Nat
  | .tile t => t.declared
  | .fill _ _ count size _ _ _ => count * size
  | .topk ty _ _ _ _ _ _ k blk n => n / blk * (k * pairBytes ty + (blk - k) * ty.bytes)
  | .expand ty _ _ _ _ _ _ n _ => n * ty.bytes
  | .sub _ _ _ _ nt _ size _ => nt * size

/-- Declared bytes not landed yet. -/
def CopyOp.left (o : CopyOp) : Nat := o.work.declared - o.done

/-! ### Bytes in their spaces -/

/-- A byte of an operation's space. -/
def State.copyByte (s : State) (o : CopyOp) (sp addr : Nat) : Byte :=
  match sp with
  | 0 => SMap.get memDefault ((s.crew o.crew).getD noCrew).scratch addr
  | 1 => s.byte (s.locOf o.core o.ctx addr) 0
  | _ => SMap.get memDefault ((s.crew o.crew).getD noCrew).staging addr

/-- Before an operation reads or writes a byte of global memory, what its issuer stored there before its issue is performed (R195,
R236). -/
def State.copyBefore (s : State) (o : CopyOp) (sp addr : Nat) : State :=
  if sp = 1 then s.issuedBefore o.rel (s.locOf o.core o.ctx addr) 1 else s

/-- The page of a byte that an operation reads is used (R149, R150). -/
def State.copyTouch (s : State) (o : CopyOp) (sp addr : Nat) (write : Bool) : State :=
  if sp = 1 then s.touch o.core o.ctx addr write else s

/-- A byte of an operation lands. -/
def State.copyWrite (s : State) (o : CopyOp) (b : CByte) : State :=
  match b.sp with
  | 0 =>
    let p : ObjRef × Nat := (.arena o.crew b.addr, 1)
    ((s.modCrew o.crew fun c => c.setSp b.addr [b.val]).overwrite p).wroteFor o.tg o.rel p
  | 1 =>
    let loc := s.locOf o.core o.ctx b.addr
    ((s.store loc [b.val]).wroteFor o.tg o.rel (.glob loc, 1)).copyTouch o 1 b.addr true
  | _ => s.modCrew o.crew fun c => c.setSt b.addr [b.val]

/-- The staging ring of a side. -/
def State.ringOf (s : State) (o : CopyOp) (n : Nat) : Ring :=
  (s.ring o.crew n).getD { req := 0, pc := 0, cc := 0, pcl := 0, ccl := 0, freeing := false, sub := none, pdone := []
                           cdone := [], pend := [], cend := [] }

/-! ### Source bytes -/

/-- What stands at a place of a unit's list of source bytes: nothing is read there, it is not known yet, or a byte, with the
claim of its slot. -/
inductive CSource where
  | none
  | unknown
  | byte (sp addr claim : Nat)
deriving DecidableEq, Repr

/-- The destination elements of a unit. -/
def CopyTile.unitEls (t : CopyTile) (u : Nat) : List Nat := (List.range t.unitLen).map fun i => u * t.unitLen + i

/-- Place `i` of unit `u` of a tile (R224, R225). -/
def CopyTile.source (t : CopyTile) (rs : Ring) (u i : Nat) : CSource :=
  let z := t.srct.bytes
  let l := u * t.unitLen + i / z
  if t.unitLen * z ≤ i then .byte t.sclSp (t.sclAddr u) 0
  else if !t.inside l then .none
  else if t.srcSp = 2 then
    let p := stageAt rs t.srcClaim (t.srcLin l * z)
    .byte 2 (rs.slotOff p.1 + p.2 + i % z) p.1
  else .byte t.srcSp (t.srcAddr l + i % z) 0

/-- Whether element `i` of a block ranks above element `j` for cpy.topk (R231). -/
def topkBefore (ty : Ty) (xs : List Nat) (i j : Nat) : Bool :=
  let a := fltVal ty (xs.getD i 0)
  let b := fltVal ty (xs.getD j 0)
  if a.isNan || b.isNan then (a.isNan && !b.isNan) || (a.isNan && b.isNan && decide (i < j))
  else b.abs.lt a.abs || (a.abs.eqv b.abs && decide (i < j))

/-- The K selected indexes of a block, rising (R231). -/
def topkSelect (ty : Ty) (xs : List Nat) (k : Nat) : List Nat :=
  (List.range xs.length).filter fun i => decide ((List.range xs.length).countP (fun j => topkBefore ty xs j i) < k)

/-- The `n` elements of `z` bytes that stand from place `lo` of a unit's bytes on. -/
def unitElems (have' : SMap Byte) (lo n z : Nat) : List Nat :=
  (List.range n).map fun e => leNat ((List.range z).map fun k => SMap.get 0 have' (lo + e * z + k))

/-- Place `i` of block `u` of cpy.topk: the source, then the scree at the positions that are not selected (R231). -/
def topkSource (ty : Ty) (src scree : W64) (ssp csp k blk u i : Nat) (have' : SMap Byte) : CSource :=
  let z := ty.bytes
  let n := blk * z
  if i < n then .byte ssp (spaceWrap ssp (src.toNat + (u * n + i : Nat))) 0
  else if !((List.range n).all fun j => SMap.has have' j) then .unknown
  else if (topkSelect ty (unitElems have' 0 blk z) k).contains ((i - n) / z) then .none
  else .byte csp (spaceWrap csp (scree.toNat + (u * n + (i - n) : Nat))) 0

/-- Place `i` of unit `u` of an operation. -/
def CopyOp.source (o : CopyOp) (s : State) (u i : Nat) (have' : SMap Byte) : CSource :=
  match o.work with
  | .tile t => t.source (s.ringOf o t.src.toNat) u i
  | .fill .. => .none
  | .topk ty src _ scree ssp _ csp k blk _ => topkSource ty src scree ssp csp k blk u i have'
  | .expand ty src _ ssp _ k _ _ pcnt =>
    let pb := pairBytes ty
    if u * k + i / pb < pcnt then .byte ssp (spaceWrap ssp (src.toNat + (u * k * pb + i : Nat))) 0 else .none
  | .sub ring pull base step _ _ size claim =>
    let c := claim + u / size
    if pull then .byte 2 ((s.ringOf o ring).slotOff c + u % size) c
    else .byte 1 ((base + BitVec.ofNat 64 (u / size) * step).toNat + u % size) c

/-! ### Results of a unit -/

/-- The bytes of a result, one after another from an address on. -/
def putAt (sp addr claim : Nat) (bs : List Byte) : List CByte :=
  bs.zipIdx.map fun p => { sp := sp, addr := addr + p.2, claim := claim, val := p.1 }

/-- Whether another destination element covers a byte of this one (R224). -/
def CopyTile.shared (t : CopyTile) (lin byte : Nat) : Bool :=
  t.dstSp != 2 && !(t.d1 == 1 && t.t2 == 1) &&
    (List.range t.count).any fun l =>
      l != lin && decide (t.dstAddr l ≤ t.dstAddr lin + byte) && decide (t.dstAddr lin + byte < t.dstAddr l + t.dstt.bytes)

/-- The bytes of a destination element. A byte that two elements share is undefined (R224), and e8m0 has no +0 for an element outside
the extents: free values (DESIGN CHOICE, log 3). -/
def CopyTile.elemBytes (t : CopyTile) (s : State) (lin x : Nat) : List Byte :=
  (leBytes x t.dstt.bytes).zipIdx.map fun p =>
    if t.shared lin p.2 || (t.dstt == .e8m0 && !t.inside lin) then BitVec.ofNat 8 (s.free (5 + 64 * (lin * 8 + p.2))) else p.1

/-- The scale code of a unit (R225). -/
def CopyTile.code (t : CopyTile) (els xs : List Nat) (have' : SMap Byte) : Nat :=
  match t.smode with
  | 1 => t.scl.toNat % 256
  | 2 => mxScale ((els.zip xs).map fun p => t.value p.1 p.2) t.dstt
  | 3 => (SMap.get 0 have' (t.unitLen * t.srct.bytes)).toNat
  | _ => 0

/-- A unit of a tile, converted. The code of block j of a slot lies at its scale area plus j, also where j is 256 or more, which the spec
does not limit (DESIGN CHOICE, log 60). -/
def CopyTile.results (t : CopyTile) (s : State) (rd : Ring) (u : Nat) (have' : SMap Byte) : List CByte :=
  let els := t.unitEls u
  let xs := unitElems have' 0 t.unitLen t.srct.bytes
  let c := t.code els xs have'
  let elems := (els.zip xs).flatMap fun p =>
    let bs := t.elemBytes s p.1 (t.convert p.1 p.2 c)
    if t.dstSp = 2 then
      let q := stageAt rd t.dstClaim (p.1 * t.dstt.bytes)
      putAt 2 (rd.slotOff q.1 + q.2) q.1 bs
    else putAt t.dstSp (t.dstAddr p.1) 0 bs
  if !t.codes then elems
  else if t.dstSp = 2 then
    let q := stageAt rd t.dstClaim (u * t.unitLen * t.dstt.bytes)
    elems ++ putAt 2 (rd.slotOff q.1 + rd.scaleOff + q.2 / (t.blen * t.dstt.bytes)) q.1 [BitVec.ofNat 8 c]
  else elems ++ putAt t.sclSp (t.sclAddr u) 0 [BitVec.ofNat 8 c]

/-- A block of cpy.topk: pairs of index and element, and the sums of the others (R231). -/
def topkResults (ty : Ty) (dst scree : W64) (dsp csp k blk u : Nat) (have' : SMap Byte) : List CByte :=
  let z := ty.bytes
  let xs := unitElems have' 0 blk z
  let old := unitElems have' (blk * z) blk z
  let sel := topkSelect ty xs k
  let pb := pairBytes ty
  (sel.zipIdx.flatMap fun p =>
    putAt dsp (spaceWrap dsp (dst.toNat + ((u * k + p.2) * pb : Nat))) 0 (leBytes p.1 (pb / 2) ++ leBytes (xs.getD p.1 0) (pb / 2))) ++
  ((List.range blk).filter fun i => !sel.contains i).flatMap fun i =>
    let x := (Ty.fmt ty).round (Exact.sum .rne [fltVal ty (old.getD i 0), fltVal ty (xs.getD i 0)]) .rne false
    putAt csp (spaceWrap csp (scree.toNat + ((u * blk + i) * z : Nat))) 0 (leBytes x z)

/-- The pairs of block `u` of cpy.expand: index and value (R230). -/
def expandPairs (ty : Ty) (k pcnt u : Nat) (have' : SMap Byte) : List (Nat × Nat) :=
  let h := 8 * (pairBytes ty / 2)
  (unitElems have' 0 (min k (pcnt - u * k)) (pairBytes ty)).map fun x => (x % 2 ^ h, x / 2 ^ h)

/-- The value of the element with index `i` in its block: that of the last pair which names it, else +0 (R232). -/
def expandValue (ps : List (Nat × Nat)) (i : Nat) : Nat := ((ps.filter fun p => p.1 == i).getLast?.map (·.2)).getD 0

/-- Whether cpy.expand sets STATUS[0] as it reads block `u` (R232). -/
def expandMismatch (ps : List (Nat × Nat)) (k blk n pcnt u : Nat) : Bool :=
  (pcnt + k - 1) / k * blk != n || ps.any fun p => decide (blk ≤ p.1) || decide (n ≤ u * blk + p.1)

/-- What a unit writes, and whether it marks the object's STATUS[0]. -/
def CopyOp.results (o : CopyOp) (s : State) (u : Nat) (have' : SMap Byte) : List CByte × Bool :=
  match o.work with
  | .tile t => (t.results s (s.ringOf o t.dst.toNat) u have', false)
  | .fill dst sp _ size value claim _ =>
    let bs := leBytes value.toNat size
    if sp = 2 then
      let r := s.ringOf o dst.toNat
      let q := stageAt r claim (u * size)
      (putAt 2 (r.slotOff q.1 + q.2) q.1 bs, false)
    else (putAt sp (spaceWrap sp (dst.toNat + (u * size : Nat))) 0 bs, false)
  | .topk ty _ dst scree _ dsp csp k blk _ => (topkResults ty dst scree dsp csp k blk u have', false)
  | .expand ty _ dst _ dsp k blk n pcnt =>
    let ps := expandPairs ty k pcnt u have'
    (((List.range blk).filter fun i => decide (u * blk + i < n)).flatMap fun i =>
      putAt dsp (spaceWrap dsp (dst.toNat + ((u * blk + i) * ty.bytes : Nat))) 0 (leBytes (expandValue ps i) ty.bytes),
     expandMismatch ps k blk n pcnt u)
  | .sub ring pull base step _ _ size claim =>
    let c := claim + u / size
    let b := [SMap.get 0 have' 0]
    (if pull then putAt 1 ((base + BitVec.ofNat 64 (u / size) * step).toNat + u % size) c b
      else putAt 2 ((s.ringOf o ring).slotOff c + u % size) c b, false)

/-! ### Accesses checked at issue (R219 step 5) -/

/-- The accesses of cpy.topk and cpy.expand outside staging; `chosen u i` says that index `i` of block `u` is selected. -/
def CopyWork.accs (w : CopyWork) (chosen : Nat → Nat → Bool) : List CAcc :=
  match w with
  | .tile t => t.accs
  | .fill dst sp count size _ _ _ =>
    if sp = 2 then []
    else (List.range count).map fun u => { sp := sp, addr := spaceWrap sp (dst.toNat + (u * size : Nat)), z := size, wr := true }
  | .topk ty src dst scree ssp dsp csp k blk n =>
    let z := ty.bytes
    ((List.range n).map fun i => { sp := ssp, addr := spaceWrap ssp (src.toNat + (i * z : Nat)), z := z, wr := false }) ++
    ((List.range (n / blk * k)).map fun p =>
      { sp := dsp, addr := spaceWrap dsp (dst.toNat + (p * pairBytes ty : Nat)), z := pairBytes ty, wr := true }) ++
    ((List.range n).filter fun i => !chosen (i / blk) (i % blk)).map fun i =>
      { sp := csp, addr := spaceWrap csp (scree.toNat + (i * z : Nat)), z := z, wr := true }
  | .expand ty src dst ssp dsp _ _ n pcnt =>
    ((List.range pcnt).map fun p =>
      { sp := ssp, addr := spaceWrap ssp (src.toNat + (p * pairBytes ty : Nat)), z := pairBytes ty, wr := false }) ++
    (List.range n).map fun u => { sp := dsp, addr := spaceWrap dsp (dst.toNat + (u * ty.bytes : Nat)), z := ty.bytes, wr := true }
  | .sub .. => []

/-- The accesses of an operation whose data choose none of them. -/
def CopyWork.accs0 (w : CopyWork) : List CAcc := w.accs fun _ _ => false

/-! ### Staging slots (R226, R233, R247) -/

/-- The slots of an operation on its source or destination side: ring number, first claim, count. -/
def CopyWork.side (w : CopyWork) (read : Bool) : Option (Nat × Nat × Nat) :=
  match w with
  | .tile t =>
    if read then (if t.srcSp = 2 then some (t.src.toNat, t.srcClaim, t.srcSlots) else none)
    else if t.dstSp = 2 then some (t.dst.toNat, t.dstClaim, t.dstSlots) else none
  | .fill dst sp _ _ _ claim slots => if !read && sp = 2 then some (dst.toNat, claim, slots) else none
  | .sub ring pull _ _ nt _ _ claim => if read = pull then some (ring, claim, nt) else none
  | _ => none

/-- The claims that unit `u` meets on a side. -/
def CopyOp.unitClaims (o : CopyOp) (s : State) (read : Bool) (u : Nat) : List Nat :=
  match o.work with
  | .tile t =>
    if (if read then t.srcSp else t.dstSp) ≠ 2 then []
    else if read then
      ((t.unitEls u).filter t.inside).map fun l => (stageAt (s.ringOf o t.src.toNat) t.srcClaim (t.srcLin l * t.srct.bytes)).1
    else (t.unitEls u).map fun l => (stageAt (s.ringOf o t.dst.toNat) t.dstClaim (l * t.dstt.bytes)).1
  | .fill dst sp _ size _ claim _ => if !read && sp = 2 then [(stageAt (s.ringOf o dst.toNat) claim (u * size)).1] else []
  | .sub _ pull _ _ _ _ size claim => if read = pull then [claim + u / size] else []
  | _ => []

/-- The units that meet a claim of a side. -/
def CopyOp.unitsAt (o : CopyOp) (s : State) (read : Bool) (c : Nat) : List Nat :=
  match o.work with
  | .sub _ _ _ _ _ _ size claim => (List.range size).map fun b => (c - claim) * size + b
  | w => (List.range w.units).filter fun u => (o.unitClaims s read u).contains c

/-- Whether all that unit `u` reads of a source claim has been read; of another claim it may still wait for bytes. -/
def CopyOp.claimRead (o : CopyOp) (s : State) (c u : Nat) : Bool :=
  Ivs.has o.got u ||
    let have' := (SMap.find o.parts u).getD []
    (List.range o.work.reads).all fun i => SMap.has have' i || match o.source s u i have' with
      | .byte sp _ c' => sp != 2 || c' != c
      | _ => true

/-- Whether a claim is done: all of its slot has been read, or nothing of it is to be; or has landed; and of a pull, has been performed
in memory. -/
def CopyOp.claimDone (o : CopyOp) (s : State) (read : Bool) (c : Nat) : Bool :=
  let us := o.unitsAt s read c
  let on (b : CByte) : Bool := b.claim == c && match o.work with
    | .sub .. => true
    | _ => !read && b.sp == 2
  (read || !us.isEmpty) && us.all (fun u => if read then o.claimRead s c u else Ivs.has o.got u) && !o.pend.any on

/-- The claims of one side, among those given, that are done. -/
def State.finishClaims (s : State) (o : CopyOp) (read : Bool) (cs : List Nat) : State :=
  match o.work.side read with
  | none => s
  | some p => cs.eraseDups.foldl (fun s' c => if o.claimDone s read c then s'.ringDone o.crew p.1 (!read) c else s') s

/-- The claims of a side that an operation leaves behind, as intervals: of a subscription also the tiles it has not begun. -/
def CopyOp.openClaims (o : CopyOp) (s : State) (read : Bool) (p : Nat × Nat × Nat) : List (Nat × Nat) :=
  let n := match o.work with
    | .sub _ _ _ _ _ next _ _ => next
    | _ => p.2.2
  (((List.range n).map fun i => p.2.1 + i).filter fun c => !o.claimDone s read c).map (fun c => (c, c + 1)) ++
    (if n < p.2.2 then [(p.2.1 + n, p.2.1 + p.2.2)] else [])

/-- The claims of an operation's source slots that hold no element inside the extents: nothing is to be read there, so they pass as ended
claims do, once their slots are full (R226, R247). -/
def CopyOp.emptySlots (o : CopyOp) (s : State) : List (Nat × Nat) :=
  match o.work, o.work.side true with
  | .tile _, some p =>
    (((List.range p.2.2).map fun i => p.2.1 + i).filter fun c => (o.unitsAt s true c).isEmpty).map fun c => (c, c + 1)
  | _, _ => []

/-- An operation's claims on source slots of which it reads nothing end as it is handed over. -/
def State.passEmpty (s : State) (o : CopyOp) : State :=
  match o.work.side true with
  | some p => if (o.emptySlots s).isEmpty then s else s.ringEnd o.crew p.1 false (o.emptySlots s)
  | none => s

/-- The claims of a side that are not done end (R247). -/
def State.endSide (s : State) (o : CopyOp) (read : Bool) : State :=
  match o.work.side read with
  | none => s
  | some p => s.ringEnd o.crew p.1 (!read) (o.openClaims s read p)

/-- The subscription of a ring is no more. -/
def State.clearSub (s : State) (id : Nat) (o : CopyOp) : State :=
  match o.work with
  | .sub ring .. => s.updRing o.crew ring fun r => { r with sub := if r.sub = some id then none else r.sub }
  | _ => s

/-- An operation leaves the engine, with what is left of its claims. -/
def State.dropCopy (s : State) (id : Nat) (o : CopyOp) : State :=
  ((({ s with copies := SMap.del s.copies id }.endSide o true).endSide o false).clearSub id o)

/-! ### Ends and faults -/

/-- The page of a barrier object in global memory is used by an update (R149, R150). -/
def State.usedObj (s : State) (core ctx : Nat) (va : Option W64) : State :=
  match va with
  | some a => s.touch core ctx a.toNat true
  | none => s

/-- An operation updates its object. -/
def State.usesObj (s : State) (o : CopyOp) : State := s.usedObj o.core o.ctx o.objVa

/-- An operation counts `n` bytes into its object; the completion releases what precedes its issue (R171, R174, R236). -/
def State.landFor (s : State) (o : CopyOp) (n : Nat) : State := ((s.usesObj o).countedIn o.tg o.rel o.obj).landAt o.obj n

/-- Bytes that are not transferred count as landed, and STATUS[0] says so (R227, R234, R235). -/
def State.landUnwritten (s : State) (o : CopyOp) (n : Nat) : State :=
  if n = 0 then s
  else ((s.usesObj o).countedIn o.tg o.rel o.obj).barUpdate o.obj false fun x => { x with status := x.status ||| 1 }.land n

/-- An operation ends before it is done (R227, R235). -/
def State.endCopy (s : State) (id : Nat) : State :=
  match SMap.find s.copies id with
  | none => s
  | some o => ((s.dropCopy id o).landUnwritten o o.left).reapCrew o.crew

/-- A subscription ends (R234): the tiles it has begun complete, and the others count as landed. -/
def State.endSub (s : State) (id : Nat) : State :=
  match SMap.find s.copies id with
  | none => s
  | some o =>
    match o.work with
    | .sub ring pull base step nt next size claim =>
      let o' : CopyOp := { o with work := .sub ring pull base step next next size claim }
      let s1 := (s.ringEnd o.crew ring (!pull) [(claim + next, claim + nt)]).clearSub id o
      if o'.left = 0 then (({ s1 with copies := SMap.del s1.copies id }).landUnwritten o ((nt - next) * size)).reapCrew o.crew
      else { s1 with copies := SMap.put s1.copies id o' }.landUnwritten o ((nt - next) * size)
    | _ => s

/-- What stops an operation at a byte: nothing, a page that ends it, or a fault of a page that is not resident (R227, R407). -/
inductive CBlock where
  | pass
  | ends
  | fault
deriving DecidableEq, Repr

def CopyOp.blocked (o : CopyOp) (s : State) (sp addr : Nat) (write : Bool) : CBlock :=
  if sp ≠ 1 then .pass
  else match s.translate o.core o.ctx addr with
    | .bad => .ends
    | .leaf e r =>
      if unanswered (s.lostBy o.tg) e.loc || (write && AccKind.store.prot e) then .ends else if r then .pass else .fault

/-- The source number of an operation's faults (R152). -/
def CopyOp.src (o : CopyOp) : FaultSrc :=
  match o.work with
  | .sub .. => .base
  | _ => .copy

/-- An operation holds a fault at an address (R152, R227). -/
def State.copyFault (s : State) (id : Nat) (o : CopyOp) (write : Bool) (va : Nat) : State :=
  let (s1, e) := s.engineFault o.ctx o.core o.src write (BitVec.ofNat 64 va) (s.issuerDeadline o.tg o.dl)
  { s1 with copies := SMap.put s1.copies id { o with fault := some e } }

/-! ### Steps -/

/-- The bytes of unit `u` that have been read. -/
def CopyOp.partOf (o : CopyOp) (u : Nat) : SMap Byte := (SMap.find o.parts u).getD []

/-- Whether nothing of unit `u` is left to be read. -/
def CopyOp.unitRead (o : CopyOp) (s : State) (u : Nat) : Bool :=
  let have' := o.partOf u
  (List.range o.work.reads).all fun i => SMap.has have' i || decide (o.source s u i have' = .none)

/-- A unit whose bytes have been read is converted, and its bytes are on their way. -/
def State.finishUnit (s : State) (id : Nat) (o : CopyOp) (u : Nat) : State :=
  let (bs, mark) := o.results s u (o.partOf u)
  let o' : CopyOp := { o with got := Ivs.add o.got u, parts := SMap.del o.parts u, pend := o.pend ++ bs }
  let s1 := { s with copies := SMap.put s.copies id o' }
  if mark then (s1.usesObj o).barUpdate o.obj false fun x => { x with status := x.status ||| 1 }.settle else s1

/-- The byte at place `i` of unit `u` is read; its unit may be read with it, and so may the source slot of its claim (R226, R247). -/
def State.takeByte (s0 : State) (id : Nat) (o : CopyOp) (u i sp addr c : Nat) : State :=
  let s := s0.copyBefore o sp addr
  let o' : CopyOp := { o with parts := SMap.put o.parts u (SMap.put (o.partOf u) i (s.copyByte o sp addr)) }
  let s1 := { s with copies := SMap.put s.copies id o' }.copyTouch o sp addr false
  let s2 := if o'.unitRead s1 u then s1.finishUnit id o' u else s1
  match SMap.find s2.copies id with
  | some o2 => if sp = 2 then s2.finishClaims o2 true [c] else s2
  | none => s2

/-- A read step of an operation. -/
def State.readStep (s : State) (id : Nat) (o : CopyOp) (u i : Nat) : Out :=
  if Ivs.has o.got u || SMap.has (o.partOf u) i then .refused .eventNotEnabled
  else match o.source s u i (o.partOf u) with
    | .unknown => .refused .eventNotEnabled
    | .none => if o.unitRead s u then .next (s.finishUnit id o u) else .refused .eventNotEnabled
    | .byte sp addr c =>
      let ready := match o.work.side true with
        | some p => sp != 2 || (s.ringOf o p.1).canRead c
        | none => true
      if !ready then .refused .eventNotEnabled
      else match o.blocked s sp addr false with
        | .pass => .next (s.takeByte id o u i sp addr c)
        | .ends => .next (s.endCopy id)
        | .fault => .next (s.copyFault id o false addr)

/-- Byte `k` of those on their way lands and counts (R171); its slot and the operation may be done with it. -/
def State.landByte (s : State) (id : Nat) (o : CopyOp) (k : Nat) (b : CByte) : State :=
  let o' : CopyOp := { o with pend := o.pend.eraseIdx k, done := o.done + 1 }
  let s1 := (s.copyBefore o b.sp b.addr).copyWrite o b
  let s2 := ({ s1 with copies := SMap.put s1.copies id o' }.finishClaims o' false [b.claim]).finishClaims o' true
    (match o.work with | .sub .. => [b.claim] | _ => [])
  let s3 := if o'.left = 0 then s2.dropCopy id o' else s2
  let s4 := s3.landFor o 1
  if o'.left = 0 then s4.reapCrew o.crew else s4

/-- A write step of an operation. -/
def State.writeStep (s : State) (id : Nat) (o : CopyOp) (k : Nat) : Out :=
  match o.pend[k]? with
  | none => .refused .eventNotEnabled
  | some b =>
    let ready := match o.work.side false with
      | some p => b.sp != 2 || (s.ringOf o p.1).canFill b.claim
      | none => true
    if !ready then .refused .eventNotEnabled
    else match o.blocked s b.sp b.addr true with
      | .pass => .next (s.landByte id o k b)
      | .ends => .next (s.endCopy id)
      | .fault => .next (s.copyFault id o true b.addr)

/-- Whether an operation has begun. -/
def CopyOp.started (o : CopyOp) : Bool := !o.got.isEmpty || !o.parts.isEmpty || !o.pend.isEmpty || o.fault.isSome || o.dead

/-- The first unread byte of the first unit that has one: the unit and its place. -/
def CopyOp.firstPlace (o : CopyOp) (s : State) : Nat × Nat :=
  let u := Ivs.nthFree o.got 0
  (u, ((List.range o.work.reads).find? fun i => !SMap.has (o.partOf u) i && o.source s u i (o.partOf u) != .none).getD 0)

/-- Whether an operation that has not begun could. -/
def State.canBegin (s : State) (id : Nat) (o : CopyOp) : Bool :=
  match s.readStep id o (o.firstPlace s).1 (o.firstPlace s).2 with
  | .refused _ => false
  | _ => true

/-- Whether an operation may take its first step: of the copies of a core that could begin, the one of the earliest deadline begins
(R299). A subscription is the base-die controllers' (R233). -/
def State.mayBegin (s : State) (id : Nat) (o : CopyOp) : Bool :=
  let sub (w : CopyWork) : Bool := match w with | .sub .. => true | _ => false
  sub o.work || o.started || s.copies.all fun q =>
    q.2.started || sub q.2.work || q.2.core != o.core || decide (s.copyDeadline id ≤ s.copyDeadline q.1) || !s.canBegin q.1 q.2

/-- Whether a unit may be read: those of a subscription's tiles once their tile is taken up (R233). -/
def CopyWork.begun : CopyWork → Nat → Bool
  | .sub _ _ _ _ _ next size _, u => decide (u / size < next)
  | _, _ => true

/-- R171, R227, R233, R299: the engine of an operation reads a byte, lands one, takes a fault, or ends an operation whose fault was
invalidated. Steps are numbered: the places of all units in order, then the bytes on their way. -/
def execCopyLanding (op step : Nat) (s : State) : Out :=
  match SMap.find s.copies op with
  | none => .refused .eventNotEnabled
  | some o =>
    let reads := o.work.reads
    let all := o.work.units * reads
    if o.dead then .next (s.endCopy op)
    else if o.fault.isSome || !s.mayBegin op o then .refused .eventNotEnabled
    else if all ≤ step then s.writeStep op o (step - all)
    else if o.work.begun (step / reads) then s.readStep op o (step / reads) (step % reads)
    else .refused .eventNotEnabled

end Sys2Proof.Machine
end

