-- ==== Sys2Proof/Machine/CopyIssue.lean ====
section
/-! DEFINITION. The copy instructions at issue, and the base-die controllers' subscriptions (R218 to R235). -/

namespace Sys2Proof.Machine

/-! ### Operands -/

/-- A descriptor of `n` bytes at the address in A (R219 step 1). -/
def readDesc (s : State) (g : Tg) (f : RArgs) (n t : Nat) : Except Stop (List Byte) :=
  let a := g.sAt (Spec.num f.a)
  match s.checkGl g.core g.ctx [(t, a)] n .load with
  | some st => .error st
  | none => .ok (tgBytes g s (s.locOf g.core g.ctx a.toNat) n 0)

/-- The page of a descriptor is used. -/
def touchDesc (s : State) (g : Tg) (f : RArgs) : State := s.touch g.core g.ctx (g.sAt (Spec.num f.a)).toNat false

/-- A ring operand: its number, or none where a scalar has other bits set (R221, R249). -/
def ringNum (g : Tg) (sp : Spec) : Option Nat :=
  match sp with
  | .imm n => some n.toNat
  | sp => if (g.sAt (Spec.num sp)).toNat < 32 then some (g.sAt (Spec.num sp)).toNat else none

/-- The STG trap on a ring (R323). -/
def stgTrap (n t : Nat) : Stop := .trap .stg (BitVec.ofNat 64 n) t

/-- A copy address operand (R221): a global address, a scratchpad offset or a reservation number; none is ILLOP. -/
def copyOperand (g : Tg) (sp : Spec) (space : Nat) : Option W64 :=
  if space = 2 then (ringNum g sp).map (BitVec.ofNat 64)
  else match sp with
    | .imm n => some (n.setWidth 64)
    | sp => some (if space = 1 then g.sAt (Spec.num sp) else ((g.sAt (Spec.num sp)).extractLsb' 0 32).setWidth 64)

/-- The barrier operand of a copy, in CS (R221). -/
def copyObj (s : State) (g : Tg) (f : RArgs) (t : Nat) : Except Stop ObjRef :=
  objTarget s g (match f.cs with | .imm _ => false | _ => true) f.cs t

/-! ### Checks of steps 4 and 5 (R219, R226) -/

/-- The slots of one staging side, or the STG trap. -/
def checkStage (s : State) (g : Tg) (space : Nat) (n : W64) (ty : Ty) (bytes : Nat) (strides : Bool) (t : Nat) :
    Except Stop Nat :=
  if space ≠ 2 then .ok 0
  else
    match if strides then stageSlots (s.ring g.crew n.toNat) ty bytes else none with
    | some q => if n.toNat < (s.crewOf g).nrsv then .ok q else .error (stgTrap n.toNat t)
    | none => .error (stgTrap n.toNat t)

/-- Scale codes of a staging destination need SC = 1 and whole blocks per slot (R226). -/
def checkScales (s : State) (g : Tg) (x : CopyTile) : Bool :=
  x.dstSp != 2 || x.smode < 2 ||
    match s.ring g.crew x.dst.toNat with
    | some r => r.sc && r.dataBytes % (x.blen * x.dstt.bytes) == 0
    | none => false

/-- Steps 1 to 4 of R151 on every byte of an operation; pages that are not resident pass (R219 step 5), and so does a module that does not
answer, which ends the transfer as an invalidated fault (R407). -/
def checkAccs (s : State) (g : Tg) (accs : List CAcc) (t : Nat) : Option Stop :=
  let c := s.crewOf g
  let tr (cause : Cause) (a : CAcc) : Stop := .trap cause (BitVec.ofNat 64 a.addr) t
  let mem := accs.filter fun a => a.sp != 2
  match mem.find? fun a => a.addr % a.z != 0 with
  | some a => some (tr .align a)
  | none =>
    match mem.findSome? fun a =>
        if a.sp = 1 then (if 2 ^ 57 ≤ a.addr then some (tr .addr a) else none)
        else if c.scratchSize < a.addr + a.z then some (tr .addr a)
        else if a.wr && decide (c.scratchSize - 16 * c.nbar < a.addr + a.z) then some (tr .arena a)
        else none with
    | some st => some st
    | none =>
      let gl := (mem.filter fun a => a.sp == 1).map fun a => (a, s.translate g.core g.ctx a.addr)
      match gl.find? fun p => p.2 == .bad with
      | some p => some (tr .addr p.1)
      | none =>
        match gl.find? fun p => match p.2 with | .leaf e _ => p.1.wr && AccKind.store.prot e | .bad => false with
        | some p => some (tr .prot p.1)
        | none => none

/-! ### Issue -/

/-- The address of a copy's object in global memory. -/
def copyObjVa (g : Tg) (f : RArgs) : Option W64 :=
  match f.cs with
  | .imm _ => none
  | cs => some (g.sAt (Spec.num cs))

/-- The operation handed to the engine: its issue is a tg-scope release of what precedes it, EXPB takes its declared bytes, SRSEQ
advances under sr, then the engine has it (R149, R219, R236). -/
def handOver (s : State) (g : Tg) (f : RArgs) (o : ObjRef) (sr : Bool) (w : CopyWork) : Out :=
  let s1 := s.releaseAs s.cur 1
  let s2 := (s1.barUpdate o false fun x => x.expect w.declared).usedObj g.core g.ctx (copyObjVa g f)
  let op : CopyOp :=
    { tg := s.cur, dl := BitVec.ofNat 64 (s.effDeadline s.cur), ctx := g.ctx, crew := g.crew, launch := g.launch, core := g.core
      rel := s.stamp, obj := o, objVa := copyObjVa g f, work := w, got := [], parts := [], pend := [], done := 0, fault := none, dead := false }
  let id := SMap.fresh s2.copies
  let s3 := if w.declared = 0 then s2 else { s2 with copies := SMap.put s2.copies id op }.passEmpty op
  let s4 := match w with
    | .sub ring .. => s3.updRing g.crew ring fun r => { r with sub := some id }
    | _ => s3
  let g1 := s4.curTg g
  done s4 ((if sr then g1.bumpSr 4 else g1).advance (RArgs.words f))

/-- A claim of `q` slots on a ring (R247). -/
def claimSlots (s : State) (g : Tg) (ring : Nat) (prod : Bool) (q : Nat) : State × Nat :=
  match s.ring g.crew ring with
  | some r => (s.updRing g.crew ring fun r => (r.claim prod q).2, (r.claim prod q).1)
  | none => (s, 0)

/-- A tile through steps 3 to 5 of R219. SRSEQ advances where RM is sr, also where SRCT = DSTT and nothing is rounded (R39, R225).
DESIGN CHOICE, log 41. -/
def issueTile (s : State) (g : Tg) (f : RArgs) (t : Nat) (x : CopyTile) : Out :=
  match copyObj s g f t with
  | .error st => halted s st
  | .ok o =>
    match checkStage s g x.srcSp x.src x.srct (x.count * x.srct.bytes) (x.ss1 == 0 && x.ss2 == 0) t with
    | .error st => halted s st
    | .ok qs =>
      match checkStage s g x.dstSp x.dst x.dstt (x.count * x.dstt.bytes) (x.ds1 == 0 && x.ds2 == 0) t with
      | .error st => halted s st
      | .ok qd =>
        if !checkScales s g x then halted s (stgTrap x.dst.toNat t)
        else
          match checkAccs s g (CopyWork.tile x).accs0 t with
          | some st => halted s st
          | none =>
            let (s1, cs) := if x.srcSp = 2 then claimSlots s g x.src.toNat false qs else (s, 0)
            let (s2, cd) := if x.dstSp = 2 then claimSlots s1 g x.dst.toNat true qd else (s1, 0)
            handOver s2 g f o (x.rm == 4)
              (.tile { x with srcClaim := cs, dstClaim := cd, srcSlots := qs, dstSlots := qd })

/-- The seed of a TG's context (R38). -/
def seedOf (s : State) (g : Tg) : W64 := match s.ctx g.ctx with
  | some c => c.seed
  | none => 0

/-- The 1-D copy as a tile (R222). -/
def oneD (src dst : W64) (ssp dsp count : Nat) (ty : Ty) : CopyTile :=
  { src := src, dst := dst, srcSp := ssp, dstSp := dsp, t0 := count, t1 := 1, t2 := 1, ss1 := 0, ss2 := 0, ds1 := 0, ds2 := 0
    e0 := count, e1 := 1, e2 := 1, srct := ty, dstt := ty, rm := 0, sat := 0, smode := 0, blen := 16, trans := false, scl := 0
    seq := 0, seed := 0, srcClaim := 0, dstClaim := 0, srcSlots := 0, dstSlots := 0 }

/-- A copy instruction: its guard, once (R219). -/
def onCopy (f : RArgs) (s : State) (k : Tg → Nat → Out) : Out :=
  onTg s fun g =>
    match g.once f.h with
    | none => skip s g (RArgs.words f)
    | some t => k g t

/-- R222. -/
def execCpy (f : RArgs) (s : State) : Out :=
  onCopy f s fun g t =>
    let dsp := f.x.toNat % 4
    let ssp := f.x.toNat / 4
    let n := opnd32 s g f.h f.b
    match copyOperand g f.a ssp, copyOperand g f.d dsp with
    | some src, some dst =>
      if 2 ^ 31 < n * f.ty.bytes then illop s g (.cpy f) else issueTile s g f t (oneD src dst ssp dsp n f.ty)
    | _, _ => illop s g (.cpy f)

/-- R223, R224. -/
def execCpyDesc (f : RArgs) (s : State) : Out :=
  onCopy f s fun g t =>
    match readDesc s g f 64 t with
    | .error st => halted s st
    | .ok bs =>
      match parseTile bs g.mode.srseq (seedOf s g) with
      | none => illop s g (.cpyDesc f)
      | some x => issueTile (touchDesc s g f) g f t x

/-- The n type of a width (R221). -/
def nTy (w : Nat) : Ty := if w = 8 then .n8 else if w = 16 then .n16 else if w = 64 then .n64 else .n32

/-- R229. -/
def execCpyFill (f : RArgs) (s : State) : Out :=
  onCopy f s fun g t =>
    let dsp := f.x.toNat % 4
    let w := f.ty.width
    let z := f.ty.bytes
    let n := opnd32 s g f.h f.b
    let v := opnd s g f.h (nTy w) w f.a t
    match copyOperand g f.d dsp with
    | none => illop s g (.cpyFill f)
    | some dst =>
      if 2 ^ 31 < n * z then illop s g (.cpyFill f)
      else
        match copyObj s g f t with
        | .error st => halted s st
        | .ok o =>
          match checkStage s g dsp dst f.ty (n * z) true t with
          | .error st => halted s st
          | .ok q =>
            let mk (c : Nat) : CopyWork := .fill dst dsp n z (BitVec.ofNat 64 v) c q
            match checkAccs s g (mk 0).accs0 t with
            | some st => halted s st
            | none =>
              let (s1, c) := if dsp = 2 then claimSlots s g dst.toNat true q else (s, 0)
              handOver s1 g f o false (mk c)

/-- A sparse descriptor parsed for cpy.topk or cpy.expand; none where a field is illegal (R230, R219 step 2). -/
def parseSparse (ty : Ty) (expand : Bool) (bs : List Byte) : Option CopyWork :=
  let f (i n : Nat) : Nat := leNat ((bs.drop i).take n)
  let ctl := f 31 1
  let k := f 30 1
  let blk := f 28 2
  let n := f 24 4
  let ssp := ctl % 4
  let dsp := ctl / 4 % 4
  let csp := ctl / 16 % 2
  let src : W64 := BitVec.ofNat 64 (f 0 8)
  let dst : W64 := BitVec.ofNat 64 (f 8 8)
  let ok := decide (ssp < 2) && decide (dsp < 2) && ctl / 32 == 0 && decide (1 ≤ k) && decide (k ≤ blk) &&
    decide (1 ≤ blk) && decide (blk ≤ 4096) && decide (1 ≤ n) && decide (n ≤ 2 ^ 24)
  if !ok then none
  else if expand then
    let pcnt := f 16 4
    if decide (1 ≤ pcnt) && decide (pcnt ≤ 2 ^ 24) && f 20 4 == 0 && decide (n * ty.bytes ≤ 2 ^ 31) then
      some (.expand ty src dst ssp dsp k blk n pcnt)
    else none
  else
    let w : CopyWork := .topk ty src dst (BitVec.ofNat 64 (f 16 8)) ssp dsp csp k blk n
    if n % blk == 0 && decide (w.declared ≤ 2 ^ 31) then some w else none

/-- The selections that cpy.topk makes of its source as it stands at issue; only the scree of other positions is looked at then
(R219, R231). DEDUCED, log 13. -/
def chosenNow (s : State) (g : Tg) (w : CopyWork) : Nat → Nat → Bool :=
  match w with
  | .topk ty src _ _ ssp _ _ k blk _ => fun u i =>
    let z := ty.bytes
    let at' (e : Nat) : Nat := spaceWrap ssp (src.toNat + ((u * blk + e) * z : Nat))
    let xs := (List.range blk).map fun e =>
      leNat (if ssp = 1 then tgBytes g s (s.locOf g.core g.ctx (at' e)) z 0 else (s.crewOf g).spBytes (at' e) z)
    k == blk || (topkSelect ty xs k).contains i
  | _ => fun _ _ => false

/-- cpy.topk and cpy.expand (R230 to R232). -/
def sparseOp (i : Instr) (f : RArgs) (s : State) (expand : Bool) : Out :=
  onCopy f s fun g t =>
    match readDesc s g f 32 t with
    | .error st => halted s st
    | .ok bs =>
      match parseSparse f.ty expand bs with
      | none => illop s g i
      | some w =>
        match copyObj s g f t with
        | .error st => halted s st
        | .ok o =>
          match checkAccs s g (w.accs (chosenNow s g w)) t with
          | some st => halted s st
          | none => handOver (touchDesc s g f) g f o false w

/-- R231. -/
def execCpyTopk (f : RArgs) (s : State) : Out := sparseOp (.cpyTopk f) f s false
/-- R232. -/
def execCpyExpand (f : RArgs) (s : State) : Out := sparseOp (.cpyExpand f) f s true

/-- R233: the pages of a tile are met when it is transferred. -/
def execCpySub (f : RArgs) (s : State) : Out :=
  onCopy f s fun g t =>
    match readDesc s g f 32 t, ringNum g f.d with
    | .error st, _ => halted s st
    | .ok _, none => illop s g (.cpySub f)
    | .ok bs, some n =>
      let fl (i n : Nat) : Nat := leNat ((bs.drop i).take n)
      let r := s.ring g.crew n
      let size := (r.map Ring.slotSize).getD 0
      let nt := fl 16 4
      if fl 20 12 ≠ 0 || nt = 0 || fl 8 8 % 256 ≠ 0 || fl 0 8 % 256 ≠ 0 || decide (2 ^ 31 < nt * size) then
        illop s g (.cpySub f)
      else
        match copyObj s g f t with
        | .error st => halted s st
        | .ok o =>
          if (s.crewOf g).nrsv ≤ n || !r.any fun r => !r.freeing && r.sub.isNone then halted s (stgTrap n t)
          else
            let pull := f.x.getLsbD 0
            let (s1, c) := claimSlots (touchDesc s g f) g n (!pull) nt
            handOver s1 g f o false (.sub n pull (BitVec.ofNat 64 (fl 0 8)) (BitVec.ofNat 64 (fl 8 8)) nt 0 size c)

/-- The subscription of a ring ends (R234). -/
def State.unsub (s : State) (crew n : Nat) : State :=
  match (s.ring crew n).bind (·.sub) with
  | some id => s.endSub id
  | none => s

/-- R234. A reservation number of the crew that is not held, or is freeing, has no subscription: nothing changes, and the STG of R219 step 4,
which R234 does not name, is not taken (DESIGN CHOICE, log 60). -/
def execCpyUnsub (f : RArgs) (s : State) : Out :=
  onCopy f s fun g t =>
    match ringNum g f.d with
    | none => illop s g (.cpyUnsub f)
    | some n =>
      if (s.crewOf g).nrsv ≤ n then halted s (stgTrap n t)
      else
        let s1 := s.unsub g.crew n
        done s1 ((s1.curTg g).advance (RArgs.words f))

/-- R235. -/
def execCpyCancel (f : RArgs) (s : State) : Out :=
  onCopy f s fun g t =>
    match copyObj s g f t with
    | .error st => halted s st
    | .ok o =>
      let s1 := (s.copies.filter fun p => p.2.ctx == g.ctx && p.2.obj == o).foldl (fun s p => s.endCopy p.1) s
      done s1 ((s1.curTg g).advance (RArgs.words f))

/-! ### Subscriptions (R233) -/

/-- What stops a tile from being begun: an end of the subscription, or a fault at an address. A page that is not writable ends a pull, which
writes it, and not a push (DESIGN CHOICE, log 60). -/
def tileBlocked (s : State) (o : CopyOp) (va : W64) (size : Nat) (write : Bool) : Option (Option Nat) :=
  if 2 ^ 57 < va.toNat + size then some none
  else (rangeBlocks va.toNat size).findSome? fun v =>
    match s.translate o.core o.ctx v with
    | .bad => some none
    | .leaf e r =>
      if decide (2 ^ 52 ≤ e.loc) || (write && AccKind.store.prot e) then some none
      else if r then none else some (some v)

/-- A base-die controller takes up the next tile of a subscription, as the ring has room for it or holds a finished slot; its bytes
move by execCopyLanding. A tile on a non-HBM, illegal or unwritable page ends the subscription there (R233). -/
def takeTile (op : Nat) (s : State) (want : Bool) : Out :=
  match SMap.find s.copies op with
  | none => .refused .eventNotEnabled
  | some o =>
    match o.work with
    | .sub ring pull base st nt next size claim =>
      let r := s.ringOf o ring
      if pull != want || o.dead || o.fault.isSome || decide (nt ≤ next) || !(if pull then r.canRead (claim + next) else r.canFill (claim + next)) then
        .refused .eventNotEnabled
      else match tileBlocked s o (base + BitVec.ofNat 64 next * st) size pull with
        | some none => .next (s.endSub op)
        | some (some v) => .next (s.copyFault op o pull v)
        | none =>
          let o' : CopyOp := { o with work := .sub ring pull base st nt (next + 1) size claim }
          .next { s with copies := SMap.put s.copies op o' }
    | _ => .refused .eventNotEnabled

/-- R233: the next tile of a push. -/
def execSubscriptionPush (op : Nat) (s : State) : Out := takeTile op s false
/-- R233: the next tile of a pull. -/
def execSubscriptionPull (op : Nat) (s : State) : Out := takeTile op s true

end Sys2Proof.Machine
end

