-- ==== Sys2Proof/Machine/Staging.lean ====
section
/-! DEFINITION. Reservation and ring instructions (R244 to R250). -/

namespace Sys2Proof.Machine

/-- A ring instruction: its guard once, then the ring number (R249). -/
def onRing (i : Instr) (f : RArgs) (s : State) (k : Tg → Nat → Nat → Out) : Out :=
  onTg s fun g =>
    match g.once f.h with
    | none => skip s g (RArgs.words f)
    | some t =>
      match ringNum g f.a with
      | none => illop s g i
      | some n => if (s.crewOf g).nrsv ≤ n then halted s (stgTrap n t) else k g n t

/-- The keys of the other crews of a core. -/
def State.otherCrews (s : State) (core crew : Nat) : List Crew :=
  (s.crews.filter fun p => p.1 != crew && p.2.core == some core).map (·.2)

/-- Whether another crew of the core has a reservation that names codebook slot `n` (R248). -/
def State.cbTaken (s : State) (core crew n : Nat) : Bool :=
  (s.otherCrews core crew).any fun c => c.rings.any fun p => p.2.cbe && p.2.cbs == n

/-- Whether two half-open ranges overlap. -/
def overlaps (a n b m : Nat) : Bool := decide (a < b + m) && decide (b < a + n)

/-- Whether a request can be granted (R250). -/
def rsvOk (s : State) (g : Tg) (n : Nat) (r : Ring) : Bool :=
  let c := s.crewOf g
  let len := r.nslot * r.slotSize
  !SMap.has c.rings n && r.legal && decide (r.base + len ≤ c.stageSize) &&
    !(c.rings.any fun p => overlaps r.base len p.2.base (p.2.nslot * p.2.slotSize)) &&
    !(r.cbe && s.cbTaken g.core g.crew r.cbs)

/-- R250. -/
def execStgRsv (f : RArgs) (s : State) : Out :=
  onRing (.stgRsv f) f s fun g n t =>
    let r : Ring :=
      { req := g.sAt (Spec.num f.b), pc := 0, cc := 0, pcl := 0, ccl := 0, freeing := false, sub := none, pdone := []
        cdone := [], pend := [], cend := [] }
    if !rsvOk s g n r then halted s (stgTrap n t)
    else done (s.modCrew g.crew fun c => { c with rings := SMap.put c.rings n r }) (g.advance (RArgs.words f))

/-- R250. -/
def execStgRel (f : RArgs) (s : State) : Out :=
  onRing (.stgRel f) f s fun g n t =>
    match s.ring g.crew n with
    | none => halted s (stgTrap n t)
    | some r =>
      if r.freeing then skip s g (RArgs.words f)
      else
        let s1 := (s.unsub g.crew n).updRing g.crew n fun r => { r with freeing := true }
        done s1 ((s1.curTg g).advance (RArgs.words f))

/-- The rings an operation reads. -/
def EngineWork.rings : EngineWork → List Nat
  | .mma _ a b _ _ | .mmaBlk _ a b _ =>
    [a, b].filterMap fun o => match o with
      | .ring n _ => some n
      | .reg _ => none
  | _ => []

/-- Whether an issued, uncompleted operation of the core reads a ring that names codebook slot `n` (R250). -/
def State.cbBusy (s : State) (core n : Nat) : Bool :=
  s.crews.any fun p => p.2.core == some core && p.2.gangs.any fun q => q.2.ops.any fun o =>
    o.work.rings.any fun r => (SMap.find p.2.rings r).any fun x => x.cbe && x.cbs == n

/-- The base of a memory operand of stg.cb, mld and mst: a scalar, or 0 for 0xC0 (R266). -/
def memBase (g : Tg) (sp : Spec) : W64 :=
  match sp with
  | .s n => g.sAt n.toNat
  | _ => 0

/-- R250. -/
def execStgCb (f : RArgs) (s : State) : Out :=
  onTg s fun g =>
    match g.once f.h with
    | none => skip s g (RArgs.words f)
    | some t =>
      let n := Spec.num f.d
      let c := s.crewOf g
      let gl := f.x.getLsbD 0
      let va := memBase g f.a + BitVec.ofInt 64 (disp f)
      let off := va.toNat % 2 ^ 32
      match (if gl then s.checkGl g.core g.ctx [(t, va)] 32 .load else checkSp c.scratchSize c.nbar [(t, off)] 32 false) with
      | some st => halted s st
      | none =>
        if s.cbTaken g.core g.crew n || s.cbBusy g.core n then halted s (stgTrap 255 t)
        else
          let bs := if gl then tgBytes g s (s.locOf g.core g.ctx va.toNat) 32 0 else c.spBytes off 32
          let es := (List.range 16).map fun i => BitVec.ofNat 16 (leNat ((bs.drop (2 * i)).take 2))
          let s1 := if gl then s.touch g.core g.ctx va.toNat false else s
          let s2 := s1.modCore g.core fun x =>
            { x with codebooks := SMap.put x.codebooks n { entries := es, crew := some g.crew } }
          done s2 (g.advance (RArgs.words f))

/-- rng.adv on either side (R250). -/
def rngAdv (i : Instr) (f : RArgs) (s : State) (prod : Bool) : Out :=
  onRing i f s fun g n t =>
    let m := (opnd64 s g f.h f.b).toNat
    match s.ring g.crew n with
    | none => halted s (stgTrap n t)
    | some r =>
      let bad := if prod then r.pcl != r.pc || decide (r.nslot < r.full + m) else r.ccl != r.cc || decide (r.full < m)
      if r.freeing || bad then halted s (stgTrap n t)
      else
        let s1 := s.updRing g.crew n fun r =>
          if prod then { r with pc := r.pc + m, pcl := r.pcl + m } else { r with cc := r.cc + m, ccl := r.ccl + m }
        done s1 (g.advance (RArgs.words f))

/-- R250. -/
def execRngAdvProd (f : RArgs) (s : State) : Out := rngAdv (.rngAdvProd f) f s true
/-- R250. -/
def execRngAdvCons (f : RArgs) (s : State) : Out := rngAdv (.rngAdvCons f) f s false

/-- The counters as rng.take gives them: PC, CC, PCL and CCL of 16 bits each from bit 0 (R246, R250). -/
def Ring.counters (r : Ring) : W64 :=
  let c (n : Nat) : BitVec 16 := BitVec.ofNat 16 n
  c r.ccl ++ c r.pcl ++ c r.cc ++ c r.pc

/-- R250. -/
def execRngTake (f : RArgs) (s : State) : Out :=
  onRing (.rngTake f) f s fun g n t =>
    match s.ring g.crew n with
    | none => halted s (stgTrap n t)
    | some r => done s ((g.setS (Spec.num f.d) r.counters).advance (RArgs.words f))

end Sys2Proof.Machine
end

