-- ==== Sys2Proof/Machine/Gang.lean ====
section
/-! DEFINITION. Gangs, the col and matrix registers in issue order (R237 to R243, R261, R270 to R274). -/

namespace Sys2Proof.Machine

/-! ### Forms and occupancy -/

/-- Slabs of a form (R237, R270). -/
def MForm.slabs : MForm → Nat
  | .empty => 0
  | .dense t => 16 * t.bytes
  | .fact bf r => if bf then r else 2 * r
  | .work isFact r _ => if isFact then 192 else 2 * r + 4 * ((r * r + 63) / 64)

/-- FORM of R237 and R270. -/
def MForm.code : MForm → Nat
  | .empty => 0
  | .dense .f32 => 1
  | .dense .bf16 => 2
  | .dense .f16 => 3
  | .dense .e4m3 => 4
  | .dense _ => 5
  | .fact bf _ => if bf then 7 else 6
  | .work .. => 8

/-- The rank a form holds, 0 for one without (R277). -/
def MForm.rank : MForm → Nat
  | .fact _ r => r
  | .work _ r _ => r
  | _ => 0

def MForm.isWork : MForm → Bool
  | .work .. => true
  | _ => false

/-- An operand in a factored position: rank 0 for an empty register; none where the form is another (R269, R282). -/
def MForm.factRank : MForm → Option Nat
  | .empty => some 0
  | .fact _ r => some r
  | _ => none

def Gang.formOf (g : Gang) (m : Nat) : MForm := SMap.get .empty g.form m
def Gang.valOf (g : Gang) (m : Nat) : MVal := SMap.get .empty g.val m
def Gang.setForm (g : Gang) (m : Nat) (f : MForm) : Gang := { g with form := SMap.set .empty g.form m f }
def Gang.setVal (g : Gang) (m : Nat) (v : MVal) : Gang := { g with val := SMap.set .empty g.val m v }

/-- The gang's occupancy (R239). -/
def Gang.occ (g : Gang) : Nat := (g.form.map fun p => p.2.slabs).sum

/-- The occupancy that a change of form would give. -/
def Gang.occWith (g : Gang) (m : Nat) (f : MForm) : Nat := (g.setForm m f).occ

/-- Undefined contents of a form (R6, R261; DESIGN CHOICE, log 3). -/
def undefVal (s : State) (salt : Nat) (f : MForm) : MVal :=
  let w (i : Nat) : W32 := s.freeW32 (6 + 64 * (salt * 65536 + i))
  let cols (k c n : Nat) : List (List W32) :=
    (List.range c).map fun j => (List.range n).map fun i => w (k * 4096 + n * j + i)
  match f with
  | .empty => .empty
  | .dense t => .dense t ((List.range 4096).map fun i => (w i) &&& BitVec.ofNat 32 (2 ^ t.width - 1))
  | .fact bf r =>
    let clip (l : List (List W32)) : List (List W32) := if bf then l.map (·.map (· &&& 0xFFFF#32)) else l
    .fact bf (clip (cols 0 r 64)) (clip (cols 1 r 64))
  | .work isFact r _ =>
    let n := if isFact then 64 else r
    let v (k c m : Nat) : List (List W32) := if isFact then [] else cols k c m
    .work { su := cols 0 n 64, sv := v 1 n 64, qu := cols 2 n 64, tu := cols 3 n n, qv := v 4 n 64, tv := v 5 n n
            c := cols 6 n n, w := cols 7 n n }

/-- The form that a value has; of a work value, the register's. -/
def MVal.formOf (v : MVal) (own : MForm) : MForm :=
  match v with
  | .empty => .empty
  | .dense t _ => .dense t
  | .fact bf u _ => .fact bf u.length
  | .work _ => own

/-- Whether a value has a form. -/
def MVal.fits (v : MVal) (f : MForm) : Bool :=
  match v, f with
  | .empty, .empty | .work _, .work .. => true
  | .dense t _, .dense t' => t == t'
  | .fact bf u v, .fact bf' r => bf == bf' && u.length == r && v.length == r
  | _, _ => false

/-- The gang as a reader finds it that holds registers to be of given forms, those of issue order: a register whose value has another
form, which a write that R261 or R274 leaves undefined can put there, reads as undefined contents of its own (DESIGN CHOICE, log 3). -/
def Gang.inForms (g : Gang) (s : State) (forms : List (Nat × MForm)) : Gang :=
  forms.foldl (fun g p => if (g.valOf p.1).fits p.2 then g else g.setVal p.1 (undefVal s p.1 p.2)) g

/-! ### Addressing a gang -/

/-- The TGs a mask lists, by rising crew index (R240). -/
def State.listed (s : State) (crew : Nat) (mask : BitVec 16) : List (Nat × Tg) :=
  (List.range 16).filterMap fun i =>
    if mask.getLsbD i then s.tgs.find? fun p => p.2.crew == crew && p.2.idx == i else none

/-- A trap taken by several TGs, each at its own instruction (R325). -/
def State.trapAll (s : State) (ids : List Nat) (c : Cause) (info : Tg → W64) : State :=
  ids.foldl (fun s id =>
    match s.tg id with
    | none => s
    | some g => s.enter id c g.pc (info g) (g.mask.lowest.getD 0)) s

def gmaskInfo (g : Tg) : W64 := g.mode.gmask.setWidth 64

/-! ### The col (R241) -/

/-- A TG goes on past a gang instruction; one with S = 1 is a safe point that completes, where a pending BUDGET is taken
(R296, R324). -/
def State.pastCol (s : State) (id : Nat) (g : Tg) (c : Col) (write : Option (Nat × W64)) : State :=
  let g1 := match write with
    | some (n, x) => g.setS n x
    | none => g
  ((s.setTg id { g1.advance c.words with wait := .ready }).settle id).passSafe id g c.instr

/-- The col completes: what it waited for a token is counted (R410), its phase advances, every listed TG takes the scalar written and
goes on. -/
def State.completeCol (s : State) (crew : Nat) (mask : BitVec 16) (write : Option (Nat × W64)) : State :=
  match (s.gang crew mask).bind (·.col) with
  | none => s
  | some c =>
    let s0 := match c.denied with
      | some n => s.count (ctrDenial n)
      | none => s
    let s1 := s0.returnToken c.token
    let s2 := s1.modGang crew mask fun g => { g with col := none, colObj := g.colObj.bump }
    (s2.listed crew mask).foldl (fun s p => s.pastCol p.1 p.2 c write) s2

/-- A check at the col fails: every listed TG traps and the col resets. -/
def State.trapCol (s : State) (crew : Nat) (mask : BitVec 16) (c : Cause) (info : Tg → W64) : State :=
  let s1 := s.returnToken (((s.gang crew mask).bind (·.col)).any (·.token))
  let s2 := s1.modGang crew mask fun g => { g with col := none }
  s2.trapAll ((s2.listed crew mask).map (·.1)) c info

/-- What performing a gang instruction gives. -/
inductive Perf where
  | trap (c : Cause) (info : W64)
  | gang
  | stop (st : Stop)
  /-- It waits at the col. -/
  | hold (s : State)
  /-- It is performed; a scalar written in every listed TG. -/
  | fin (s : State) (write : Option (Nat × W64))

/-- The outcome takes effect. -/
def State.perf (s : State) (crew : Nat) (mask : BitVec 16) (p : Perf) : State :=
  match p with
  | .trap c info => s.trapCol crew mask c fun _ => info
  | .gang => s.trapCol crew mask .gang gmaskInfo
  | .stop (.trap c info _) => s.trapCol crew mask c fun _ => info
  | .stop (.fault ..) => s
  | .hold s' => s'
  | .fin s' w => s'.completeCol crew mask w

/-- A TG arrives at a gang's col, is recorded and parks; the flag says that every listed TG has arrived. A TG that differs
makes every arrived TG trap, and the others at their next gang instruction; the col resets once each of them has, and a TG that
arrives before that waits for it (R241). DEDUCED, log 31. -/
def State.arriveCol (s : State) (id : Nat) (g : Tg) (i : Instr) (words : Nat) (guard : Bool) (mask : BitVec 16) :
    State × Bool :=
  match s.gang g.crew mask with
  | none => (s, false)
  | some gg =>
    let c : Col := gg.col.getD
      { pc := g.pc, words := words, instr := i, guard := guard, arrived := [], request := none, token := false, stage := none
        denied := none, trapping := none }
    if c.trapping.isSome then (s.setTg id { g with wait := .col mask }, false)
    else if c.pc ≠ g.pc || c.instr != i || c.guard != guard then
      let came (p : Nat × Tg) : Bool := c.arrived.contains p.2.idx || p.1 == id
      let arrived := (s.listed g.crew mask).filter came
      let rest := (s.listed g.crew mask).filter fun p => !came p
      let s1 := rest.foldl (fun s p => s.modTg p.1 fun g => { g with gangBad := true }) s
      let s2 := if rest.isEmpty then s1.resetCol g.crew mask
        else s1.modGang g.crew mask fun x => { x with col := some { c with arrived := [], trapping := some (rest.map (·.2.idx)) } }
      (s2.trapAll (arrived.map (·.1)) .gang gmaskInfo, false)
    else
      let fresh := !c.arrived.contains g.idx
      let c' := { c with arrived := if fresh then g.idx :: c.arrived else c.arrived }
      let s1 := (s.modGang g.crew mask fun x => { x with col := some c' }).setTg id { g with wait := .col mask }
      (s1, fresh && (List.range 16).all fun k => !mask.getLsbD k || c'.arrived.contains k)

/-- GANG at this instruction; a TG that a mismatch left to trap has done so (R241). -/
def State.gangTrap (s : State) (id : Nat) (g : Tg) : State :=
  ((s.modTg id fun g => { g with gangBad := false }).tookGang g.crew g.idx).trapHere id .gang (gmaskInfo g) (g.mask.lowest.getD 0)

/-- A gang instruction of a formed gang: arrival, and its effect once every listed TG has arrived. `k` gets the state, the
gang and the lowest-indexed listed TG. In a TG without such a gang it traps GANG whatever its guard: R241 and R242 give the trap and name
no guard, and R67 takes the checks of an entry under a true guard (DESIGN CHOICE, log 56). -/
def onGang (i : Instr) (h : Hdr) (words : Nat) (s : State) (k : State → Gang → Tg → Perf) : Out :=
  onTg s fun g =>
    let mask := g.mode.gmask
    let bad : Out := .next (s.gangTrap s.cur g)
    match s.gang g.crew mask with
    | none => bad
    | some gg =>
      if g.gangBad || mask = 0 || !gg.formed || gg.dissolved then bad
      else
        let (s1, all) := s.arriveCol s.cur g i words (g.once h).isSome mask
        if !all then .next s1
        else if (g.once h).isNone then .next (s1.completeCol g.crew mask none)
        else
          let s2 := (s1.listed g.crew mask).foldl (fun s p => s.drain p.1) s1
          match s2.gang g.crew mask, (s2.listed g.crew mask).head? with
          | some gg, some p => .next (s2.perf g.crew mask (k s2 gg p.2))
          | _, _ => .next s2

/-! ### gang (R240) -/

/-- The mask that a gang instruction names. -/
def gangMask (g : Tg) (f : RArgs) : BitVec 16 :=
  if f.x.getLsbD 0 then (g.sAt (Spec.num f.a)).setWidth 16 else f.a.toByte ++ f.b.toByte

/-- The checks of R240 in the executing TG. -/
def gangOk (c : Crew) (g : Tg) (m : BitVec 16) : Bool :=
  let n := (List.range 16).countP m.getLsbD
  let live := c.gangs.filter fun p => !p.2.dissolved
  m.getLsbD g.idx && decide (2 ≤ n) && decide (n ≤ 6) && decide (m.toNat < 2 ^ c.tgs.length) &&
    (g.mode.gmask == 0 || (g.mode.gmask == m && live.any fun p => p.2.mask == m && p.2.formed)) &&
    live.all (fun p => p.2.mask == m || p.2.mask &&& m == 0) &&
    (live.any (fun p => p.2.mask == m) || decide (live.length < c.gmax))

/-- A forming gang, every register empty. -/
def Gang.fresh (m : BitVec 16) : Gang :=
  { mask := m, formed := false, dissolved := false, colObj := .fresh (BitVec.ofNat 16 ((List.range 16).countP m.getLsbD))
    col := none, streams := List.replicate 4 (.fresh 0), form := [], val := [], ops := [], xfers := [], hazards := [], unfenced := [] }

/-- R240. -/
def execGang (f : RArgs) (s : State) : Out :=
  onTg s fun g =>
    let m := gangMask g f
    let c := s.crewOf g
    if g.gangBad || !gangOk c g m then
      .next (s.gangTrap s.cur g)
    else
      let guard := (g.once f.h).isSome
      let s0 := if SMap.has c.gangs m.toNat then s
        else s.modCrew g.crew fun c => { c with gangs := SMap.put c.gangs m.toNat (.fresh m) }
      let forming := !((s0.gang g.crew m).any (·.formed))
      let (s1, all) := s0.arriveCol s.cur g (.gang f) (RArgs.words f) guard m
      if !all then .next s1
      else if !forming then .next (s1.completeCol g.crew m none)
      else if guard then
        let s2 := s1.modGang g.crew m fun x => { x with formed := true }
        let s3 := (s2.listed g.crew m).foldl (fun s p => s.modTg p.1 fun g => { g with mode := { g.mode with gmask := m } }) s2
        .next (s3.completeCol g.crew m none)
      else
        let s2 := s1.completeCol g.crew m none
        .next (s2.modCrew g.crew fun c => { c with gangs := SMap.del c.gangs m.toNat })

/-! ### Hazards and undefined contents (R261, R273, R274) -/

/-- An operation whose result becomes undefined: if it has completed, its register does. -/
def Gang.poisonOp (s : State) (g : Gang) (h : Hazard) : Gang :=
  if g.ops.any fun o => o.id == h.op then
    { g with ops := g.ops.map fun o => if o.id = h.op then { o with poison := true } else o }
  else match h.write with
    | some m => g.setVal m (undefVal s (h.op % 16) ((g.valOf m).formOf (g.formOf m)))
    | none => g

/-- Whether a hazard's operation uses register `m`. -/
def Hazard.uses (h : Hazard) (m : Nat) : Bool := h.reads.contains m || h.write == some m

/-- A transfer that writes `w` and reads `r`: the gang with what becomes undefined, and whether the transfer's own bytes are: where it
writes a register that an operation with no mwait uses (R261), or reads one, an operand too (R203). DEDUCED, log 16. -/
def Gang.xferHazard (s : State) (g : Gang) (w r : Option Nat) : Gang × Bool :=
  let hit := g.hazards.filter fun h => w.any h.uses
  let rd := g.hazards.any fun h => r.any h.uses
  (hit.foldl (fun g h => g.poisonOp s h) g, !hit.isEmpty || rd)

/-- Whether an operation and an earlier one on another stream leave undefined contents (R261, R274). -/
def opConflict (h : Hazard) (dense : Bool) (reads : List Nat) (w : Option Nat) : Bool :=
  let wUses := w.any h.uses
  let rUses := h.write.any reads.contains
  if dense && h.dense then w.any h.reads.contains && w != h.write else wUses || rUses

/-- The register a transfer writes. -/
def XferWork.target : XferWork → Option Nat
  | .mzero d _ _ | .mld d _ _ _ _ | .mmov d _ _ _ | .set d _ _ _ _ _ => some d
  | .mst .. | .get _ _ _ _ _ _ => none

/-- An operation on a stream: the gang with what becomes undefined, and whether its own result is. It reads undefined values from a
register that an unfenced transfer writes; where it writes such a register, that register is undefined, whichever of the two is
performed last (R261). -/
def Gang.opHazard (s : State) (g : Gang) (stream : Nat) (dense : Bool) (reads : List Nat) (w : Option Nat) : Gang × Bool :=
  let hit := g.hazards.filter fun h => h.stream != stream && opConflict h dense reads w
  let mine (m : Nat) : Bool := reads.contains m || w == some m
  let g1 := { g with xfers := g.xfers.map fun x => if w.isSome && x.work.target == w then { x with poison := true } else x }
  (hit.foldl (fun g h => g.poisonOp s h) g1, g.unfenced.any mine || !hit.isEmpty)

/-! ### Issue of transfers and operations -/

/-- A transfer joins the load path (R260). -/
def issueXfer (s : State) (gg : Gang) (lead : Tg) (w : XferWork) (write read : Option Nat) (form : Option MForm) : State :=
  let (g1, poison) := gg.xferHazard s write read
  let g2 := match write, form with
    | some m, some f => g1.setForm m f
    | _, _ => g1
  let x : Transfer :=
    { work := w, form := form.getD .empty, src := (read.map gg.formOf).getD .empty, vals := none, moved := [], ctx := lead.ctx
      dl := BitVec.ofNat 64 (s.gangDeadline lead.crew gg.mask), poison := poison, fault := none, dead := none }
  let g3 := { g2 with xfers := g2.xfers ++ [x], unfenced := write.toList ++ g2.unfenced }
  s.modGang lead.crew gg.mask fun _ => g3

/-- An operation joins the engine queue: its claims, its stream object's EXPB, its hazards, its new form (R247, R251, R258). -/
def issueOp (s : State) (crew : Nat) (mask : BitVec 16) (stream : Nat) (w : EngineWork) (ovf : Bool) (reads : List Nat)
    (write : Option Nat) (form : Option MForm) : State :=
  match s.gang crew mask with
  | none => s
  | some gg =>
    let dense := match w with
      | .mma .. | .mmaBlk .. => true
      | _ => false
    let id := s.stamp
    let (g1, poison) := gg.opHazard s stream dense reads write
    let g2 := match write, form with
      | some m, some f => g1.setForm m f
      | _, _ => g1
    let op : EngineOp :=
      { id := id, stream := stream, work := w, form := form.getD .empty, forms := reads.map fun m => (m, gg.formOf m), overDense := ovf
        started := false, result := none, poison := poison }
    let g3 := { g2 with
      ops := g2.ops ++ [op]
      hazards := g2.hazards ++ [{ op := id, stream := stream, reads := reads, write := write, dense := dense }]
      streams := g2.streams.set stream ((g2.streams.getD stream (.fresh 0)).expect 1) }
    { s.modGang crew mask fun _ => g3 with stamp := s.stamp + 1 }

/-- Whether the col's mlr.rcmp or mlr.fact holds a token and has begun its stages: it fills an entry of the engine queue (R253, R254). -/
def Col.runs (c : Col) : Bool := c.token && c.stage.isSome

/-- Uncompleted operations of a core's engine queue (R253). -/
def State.engineLoad (s : State) (core : Nat) : Nat :=
  ((s.crews.filter fun p => p.2.core == some core).map fun p =>
    (p.2.gangs.map fun q => q.2.ops.length + (if q.2.col.any Col.runs then 1 else 0)).sum).sum

/-- The instruction at the col asks for a token (R254). -/
def requestToken (s : State) (crew : Nat) (mask : BitVec 16) : State :=
  { s.modGang crew mask fun g => { g with col := g.col.map fun c => { c with request := some (s.stamp, s.clk) } } with
    stamp := s.stamp + 1 }

end Sys2Proof.Machine
end

