-- ==== Sys2Proof/Machine/NumMatrix.lean ====
section
/-! DEFINITION. The matrix engine's sum order and recompression (R44 to R46, R283), and how the engine reads elements (R34).
A matrix is the list of its columns, FP32 bits. -/

namespace Sys2Proof.Machine

/-- The sum S of one group of products (R44); `none` where every product is 0. -/
def groupS (p : List Exact) : Option Exact :=
  if p.any Exact.isNan then some .nan
  else if p.any (· == .inf false) then (if p.any (· == .inf true) then some .nan else some (.inf false))
  else if p.any (· == .inf true) then some (.inf true)
  else
    match p.filterMap fun x => match x with | .fin _ n d => some (floorLog2 n d) | _ => none with
    | [] => none
    | e0 :: es =>
      let g := es.foldl max e0 - 48
      let t : Int := p.foldl (fun acc x =>
        match x with
        | .fin neg n d =>
          let q : Int := ((n * 2 ^ (-g).toNat) / (d * 2 ^ g.toNat) : Nat)
          if neg then acc - q else acc + q
        | _ => acc) 0
      some ((Exact.ofInt t).scale g)

/-- One group joins the accumulator (R44). With every product 0 the accumulator stays as it is, a NaN that is not canonical too
(R33, R44). DESIGN CHOICE, log 43. -/
def groupStep (acc : W32) (p : List Exact) : W32 :=
  match groupS p with
  | none => acc
  | some .nan => 0x7FC00000
  | some s => toF32 (Exact.sum .rne [f32 acc, s])

/-- group_sum of R44, `n` groups at most. -/
def groupSumN : Nat → W32 → List Exact → W32
  | 0, acc, _ => acc
  | n + 1, acc, p => if p.isEmpty then acc else groupSumN n (groupStep acc (p.take 32)) (p.drop 32)

/-- group_sum of R44. -/
def groupSum (acc : W32) (p : List Exact) : W32 := groupSumN (p.length / 32 + 1) acc p

/-- dotx of R45. -/
def dotx (a b : List W32) : W32 := groupSum 0 (List.zipWith (fun x y => (f32 x).mul (f32 y)) a b)

/-- How the matrix engine reads an element: an FP16 or BF16 subnormal is a zero of its sign (R34). -/
def engineRead (t : Ty) (bits : Nat) : Exact :=
  let f := Ty.fmt t
  match t with
  | .f16 | .bf16 => if bits % 2 ^ f.sign < 2 ^ f.m then .zero (bits.testBit f.sign) else f.decode bits
  | t => decodeTy t bits

/-- Row `i` of a matrix given by columns. -/
def rowOf (m : List (List W32)) (i : Nat) : List W32 := m.map fun c => c.getD i 0

/-- The n × n identity. -/
def identCols (n len : Nat) : List (List W32) :=
  (List.range n).map fun j => (List.range len).map fun i => if i = j then fone else 0

/-- The matrix with entry (i, j) = f i j, r rows and c columns. -/
def tabCols (r c : Nat) (f : Nat → Nat → W32) : List (List W32) :=
  (List.range c).map fun j => (List.range r).map fun i => f i j

/-- A Householder vector and its square sum, or none for a zero column (hqr of R46). -/
abbrev House := Option (List W32 × W32)

/-- The update of one column by a Householder vector from row `j` on (hqr of R46). -/
def houseApply (j : Nat) (h : House) (col : List W32) : List W32 :=
  match h with
  | none => col
  | some (v, vv) =>
    let t := col.drop j
    let w := dotx v t
    let f := fdiv (fadd w w) vv
    col.take j ++ List.zipWith (fun vi x => ffma (fneg f) vi x) v t

/-- The Householder vector of column `j` (hqr of R46). -/
def houseOf (j : Nat) (col : List W32) : House :=
  let x := col.drop j
  let nn := dotx x x
  if (f32 nn).isZero then none
  else
    let nm := fsqrt nn
    let x0 := x.headD 0
    let ge0 := !(f32 x0).isNan && !(f32 x0).lt (.zero false)
    let al := if ge0 then fneg nm else nm
    let v := fsub x0 al :: x.drop 1
    some (v, dotx v v)

/-- The forward pass of hqr: reduced columns and Householder vectors, the newest first. -/
def houseForward (a : List (List W32)) (r : Nat) : List (List W32) × List (Nat × House) :=
  (List.range r).foldl (fun acc j =>
    let h := houseOf j (acc.1.getD j [])
    (acc.1.zipIdx.map fun p => if j ≤ p.2 then houseApply j h p.1 else p.1, (j, h) :: acc.2)) (a, [])

/-- hqr of R46: Q (64 × r) and T (r × r), as columns. -/
def hqr (a : List (List W32)) (r : Nat) : List (List W32) × List (List W32) :=
  let (cols, hs) := houseForward a r
  let t := cols.zipIdx.map fun p => (p.1.take r).zipIdx.map fun q => if p.2 < q.2 then 0 else q.1
  let q := hs.foldl (fun (m : List (List W32)) h => m.map (houseApply h.1 h.2)) (identCols r 64)
  (q, t)

/-- One column pair of a rotation: M[q][i] and M[q][j] from their old values (jrot of R46). -/
def jrotCols (c s : W32) (ci cj : List W32) : List W32 × List W32 :=
  (List.zipWith (fun x y => ffma (fneg s) y (fmul c x)) ci cj,
   List.zipWith (fun x y => ffma s x (fmul c y)) ci cj)

/-- jrot of R46 on C and W. -/
def jrot (cw : List (List W32) × List (List W32)) (i j : Nat) : List (List W32) × List (List W32) :=
  let ci := cw.1.getD i []
  let cj := cw.1.getD j []
  let a := dotx ci ci
  let b := dotx cj cj
  let g := dotx ci cj
  if (f32 g).isZero then cw
  else
    let z := fdiv (fsub b a) (fadd g g)
    let ge0 := !(f32 z).isNan && !(f32 z).lt (.zero false)
    let sg := if ge0 then fone else fneg fone
    let t := fdiv sg (fadd (fabs z) (fsqrt (ffma z z fone)))
    let c := fdiv fone (fsqrt (ffma t t fone))
    let s := fmul c t
    let (ci', cj') := jrotCols c s ci cj
    let (wi', wj') := jrotCols c s (cw.2.getD i []) (cw.2.getD j [])
    ((cw.1.set i ci').set j cj', (cw.2.set i wi').set j wj')

/-- The pairs i < j in the order of a sweep. -/
def sweepPairs (r : Nat) : List (Nat × Nat) :=
  (List.range r).flatMap fun i => (List.range (r - i - 1)).map fun d => (i, i + 1 + d)

/-- One sweep of jrot over all pairs (R46, stages 4 to 9). -/
def jsweep (cw : List (List W32) × List (List W32)) : List (List W32) × List (List W32) :=
  (sweepPairs cw.1.length).foldl (fun acc p => jrot acc p.1 p.2) cw

/-- Stages 1 to 9 of mlr.rcmp and mlr.fact (R283). The source factors of rcmp, or the columns of the dense source of fact,
are `su` and `sv`. -/
def workStage (isFact : Bool) (stage : Nat) (w : Work) : Work :=
  match stage with
  | 1 =>
    let r := if isFact then 64 else w.su.length
    let (q, t) := hqr w.su r
    { w with qu := q, tu := t }
  | 2 =>
    if isFact then w
    else
      let (q, t) := hqr w.sv w.sv.length
      { w with qv := q, tv := t }
  | 3 =>
    if isFact then { w with c := w.tu, w := identCols 64 64 }
    else
      let r := w.su.length
      { w with c := tabCols r r fun i j => dotx (rowOf w.tu i) (rowOf w.tv j), w := identCols r r }
  | _ =>
    let (c, x) := jsweep (w.c, w.w)
    { w with c := c, w := x }

/-- The result of stage 10 (R46): factors of all `ktol` columns, or the source where a value is not finite. -/
structure Stage10 where
  nonfinite : Bool
  ktol : Nat
  u : List (List W32)
  v : List (List W32)
deriving DecidableEq, Repr

/-- Insertion of an index by falling energy, equal energies keeping increasing index (R46). -/
def insEnergy (en : List W32) (i : Nat) : List Nat → List Nat
  | [] => [i]
  | j :: r => if (f32 (en.getD j 0)).lt (f32 (en.getD i 0)) then i :: j :: r else j :: insEnergy en i r

/-- Stage 10 of recompress (R46) and of mlr.fact (R283). -/
def stage10 (isFact : Bool) (w : Work) (mtol : W32) : Stage10 :=
  let r := w.c.length
  let en := w.c.map fun c => dotx c c
  let ord := (List.range r).foldl (fun acc i => insEnergy en i acc) []
  let fin (b : W32) : Bool := (f32 b).isFinite
  let tot := ord.foldl (fun acc i => fadd acc (en.getD i 0)) 0
  if !en.all fin || !fin tot then { nonfinite := true, ktol := r, u := w.su, v := w.sv }
  else
    let tol := if (f32 mtol).isNan || (f32 mtol).sign then 0 else mtol
    let thr := f32 (fmul (fmul tol tol) tot)
    -- d[p] for p from r down to 0, the last computed first in the list
    let ds := ord.reverse.foldl (fun acc i => fadd (acc.headD 0) (en.getD i 0) :: acc) [0]
    let ktol := if (f32 tot).isZero then 0 else (ds.findIdx fun d => !thr.lt (f32 d))
    let cols := ord.take ktol
    { nonfinite := false, ktol := ktol
      u := cols.map fun p => (List.range 64).map fun q => dotx (rowOf w.qu q) (w.c.getD p [])
      v := if isFact then cols.map fun p => w.w.getD p []
           else cols.map fun p => (List.range 64).map fun q => dotx (rowOf w.qv q) (w.w.getD p []) }

/-- An element of a factor widened exactly to FP32 (R269). -/
def widen (bf : Bool) (b : W32) : W32 := if bf then b <<< 16 else b

/-- A factor element rounded to the destination's format (R269). -/
def narrow (bf : Bool) (b : W32) : W32 :=
  if bf then BitVec.ofNat 32 (fmtBf16.round (f32 b) .rne false) else toF32 (f32 b)

end Sys2Proof.Machine
end

