-- ==== Sys2Proof/Machine/Matrix.lean ====
section
/-! DEFINITION. Dense matrix instructions and transfers (R251 to R266), the issue of engine operations, and mfence.op and
mwait (R258 to R260). -/

namespace Sys2Proof.Machine

/-! ### Contents of registers -/

/-- A list cut into rows of `n`. -/
def rowsOf {α : Type} (n : Nat) (l : List α) : List (List α) := (List.range ((l.length + n - 1) / n)).map fun i => (l.drop (n * i)).take n

/-- The columns of a list of rows. -/
def transpose {α : Type} (d : α) (n : Nat) (l : List (List α)) : List (List α) := (List.range n).map fun j => l.map fun r => r.getD j d

/-- The 4,096 exact values of a register in a dense position; an empty register reads +0 (R237). -/
def MVal.exact (f : Ty → Nat → Exact) (v : MVal) : List Exact :=
  match v with
  | .dense t e => e.map fun b => f t b.toNat
  | _ => List.replicate 4096 (.zero false)

/-- Factor columns widened to FP32 (R269); an empty register has rank 0. -/
def MVal.factors (v : MVal) : List (List W32) × List (List W32) :=
  match v with
  | .fact bf u v => (u.map (·.map (widen bf)), v.map (·.map (widen bf)))
  | _ => ([], [])

/-! ### Addresses and accesses of transfers (R266, R276) -/

/-- Bytes of a dense register in memory: element (i, j) at base + i·pitch + j·z. -/
def denseAccs (gl wr : Bool) (base pitch : W64) (z : Nat) : List CAcc :=
  let sp := if gl then 1 else 0
  (List.range 64).flatMap fun i => (List.range 64).map fun j =>
    { sp := sp, addr := spaceWrap sp (base.toNat + i * pitch.toNat + j * z : Nat), z := z, wr := wr }

/-- One factor in memory: element (i, c) at base + (64c + i)·z. -/
def factAccs (gl wr : Bool) (base : W64) (z rank : Nat) : List CAcc :=
  let sp := if gl then 1 else 0
  (List.range (64 * rank)).map fun k => { sp := sp, addr := spaceWrap sp (base.toNat + k * z : Nat), z := z, wr := wr }

/-- The accesses of a transfer, in element order. -/
def XferWork.accs (w : XferWork) : List CAcc :=
  match w with
  | .mld _ ty base pitch gl => denseAccs gl false base pitch ty.bytes
  | .mst _ ty base pitch gl _ => denseAccs gl true base pitch ty.bytes
  | .set _ ty u v rank gl => factAccs gl false u ty.bytes rank ++ factAccs gl false v ty.bytes rank
  | .get _ ty u v rank gl => factAccs gl true u ty.bytes rank ++ factAccs gl true v ty.bytes rank
  | _ => []

/-- The 16-byte alignment of the scalars that address a transfer (R266, R276). DEDUCED, log 31. -/
def align16 (as : List W64) : Option W64 := as.find? fun a => a.toNat % 16 != 0

/-- The memory checks at the col: the scalars' alignment, then steps 1 to 4 of R151. -/
def xferCheck (s : State) (lead : Tg) (scalars : List W64) (accs : List CAcc) : Option Stop :=
  match align16 scalars with
  | some a => some (.trap .align a 0)
  | none => checkAccs s lead accs 0

/-! ### Issue of a transfer -/

/-- A transfer issues: its quota is checked, it joins the load path, its target takes its form (R239, R260). -/
def startXfer (s : State) (gg : Gang) (lead : Tg) (w : XferWork) (write read : Option Nat) (form : Option MForm) : Perf :=
  let occ := match write, form with
    | some m, some f => gg.occWith m f
    | _, _ => 0
  if (s.crewOf lead).slabs < occ then .trap .slabq (BitVec.ofNat 64 occ) else .fin (issueXfer s gg lead w write read form) none

/-- R266. -/
def execMzero (f : RArgs) (s : State) : Out :=
  onGang (.mzero f) f.h (RArgs.words f) s fun s gg lead =>
    let d := Spec.num f.d
    let empty := f.x.getLsbD 0
    startXfer s gg lead (.mzero d f.ty empty) (some d) none (some (if empty then .empty else .dense f.ty))

/-- The pitch of mld and mst: a scalar, or 64·z for 0xC0 (R266). -/
def pitchOf (g : Tg) (sp : Spec) (z : Nat) : W64 :=
  match sp with
  | .s n => g.sAt n.toNat
  | _ => BitVec.ofNat 64 (64 * z)

/-- R266. -/
def execMld (f : RArgs) (s : State) : Out :=
  onGang (.mld f) f.h (RArgs.words f) s fun s gg lead =>
    let d := Spec.num f.d
    let base := memBase lead f.a
    let pitch := pitchOf lead f.cs f.ty.bytes
    let w : XferWork := .mld d f.ty (base + BitVec.ofInt 64 (disp f)) pitch (f.x.getLsbD 0)
    match xferCheck s lead [base, pitch] w.accs with
    | some st => .stop st
    | none => startXfer s gg lead w (some d) none (some (.dense f.ty))

/-- Whether a register can be read in a dense position: empty or dense (R266). -/
def MForm.denseLike : MForm → Bool
  | .empty | .dense _ => true
  | _ => false

/-- R266. -/
def execMst (f : RArgs) (s : State) : Out :=
  onGang (.mst f) f.h (RArgs.words f) s fun s gg lead =>
    let d := Spec.num f.d
    let base := memBase lead f.a
    let pitch := pitchOf lead f.cs f.ty.bytes
    let w : XferWork := .mst d f.ty (base + BitVec.ofInt 64 (disp f)) pitch (f.x.getLsbD 0) f.rm
    match xferCheck s lead [base, pitch] w.accs with
    | some st => .stop st
    | none => if (gg.formOf d).denseLike then startXfer s gg lead w none (some d) none else .gang

/-- R266. -/
def execMmov (f : RArgs) (s : State) : Out :=
  onGang (.mmov f) f.h (RArgs.words f) s fun s gg lead =>
    let d := Spec.num f.d
    let a := Spec.num f.a
    let src := gg.formOf a
    if !src.denseLike || (gg.formOf d).isWork then .gang
    else startXfer s gg lead (.mmov d a f.ty f.rm) (some d) (some a) (some (if src = .empty then .empty else .dense f.ty))

/-! ### Transfers performed (R260, R266, R276) -/

/-- cvt_flt of a dense element (R40, R266). -/
def cvtDense (ty : Ty) (rm : BitVec 3) (x : Exact) : Nat := (Ty.fmt ty).round x (Rnd.ofCode rm 0) (effSat ty 0)

/-- A byte that a transfer moves: its number, its element's access, and its place there. -/
structure XByte where
  num : Nat
  acc : CAcc
  at' : Nat
deriving DecidableEq, Repr

/-- The bytes of a transfer, element by element. -/
def XferWork.bytes (w : XferWork) : List XByte :=
  (w.accs.flatMap fun a => (List.range a.z).map fun j => (a, j)).zipIdx.map fun p => { num := p.2, acc := p.1.1, at' := p.1.2 }

/-- The bytes that a transfer has not moved yet. -/
def Transfer.left (x : Transfer) : List XByte := x.work.bytes.filter fun b => !SMap.has x.moved b.num

/-- The bytes that it moves now: any of those left, chosen by free values (R194, R204). DEDUCED, log 13. -/
def Transfer.choice (x : Transfer) (s : State) : List XByte :=
  let l := x.left.filter fun b => s.free (21 + 64 * b.num) % 2 == 1
  if l.isEmpty then x.left else l

/-- A byte of memory as a transfer of a crew, core and context reads it, or as it leaves it. -/
def readXByte (s : State) (o : Nat × Nat × Nat) (b : XByte) : Byte :=
  if b.acc.sp = 1 then s.byte (s.locOf o.2.1 o.2.2 b.acc.addr + b.at') b.num
  else SMap.get memDefault ((s.crew o.1).getD noCrew).scratch (b.acc.addr + b.at')

def writeXByte (o : Nat × Nat × Nat) (vals : List Nat) (s : State) (b : XByte) : State :=
  let x := BitVec.ofNat 8 (vals.getD (b.num / b.acc.z) 0 / 256 ^ b.at')
  if b.acc.sp = 1 then s.store (s.locOf o.2.1 o.2.2 b.acc.addr + b.at') [x]
  else s.modCrew o.1 fun c => c.setSp (b.acc.addr + b.at') [x]

/-- The elements that a transfer has read. -/
def Transfer.elems (x : Transfer) : List W32 :=
  let accs := x.work.accs
  (unitElems x.moved 0 accs.length ((accs.head?.map (·.z)).getD 1)).map (BitVec.ofNat 32)

/-- The values that an undefined dense or factored form gives to memory. -/
def undefVals (s : State) (f : MForm) : List Nat :=
  match undefVal s 16 f with
  | .dense _ e => e.map (·.toNat)
  | .fact _ u v => (u ++ v).flatten.map (·.toNat)
  | _ => []

/-- What a transfer leaves in its register, if it has one; `xs` are the elements it read from memory. -/
def XferWork.result (w : XferWork) (g : Gang) (xs : List W32) : MVal :=
  match w with
  | .mzero _ ty empty => if empty then .empty else .dense ty (List.replicate 4096 0)
  | .mld _ ty _ _ _ => .dense ty xs
  | .mmov _ a ty rm =>
    match g.valOf a with
    | .empty => .empty
    | v => .dense ty ((v.exact decodeTy).map fun x => BitVec.ofNat 32 (cvtDense ty rm x))
  | .set _ ty _ _ rank _ =>
    let cols := rowsOf 64 xs
    .fact (ty == .bf16) (cols.take rank) (cols.drop rank)
  | _ => .empty

/-- The values a transfer stores; of mlr.get, those of the rank that its register held at issue. -/
def XferWork.stored (w : XferWork) (g : Gang) : List Nat :=
  match w with
  | .mst d ty _ _ _ rm => ((g.valOf d).exact decodeTy).map (cvtDense ty rm)
  | .get d ty _ _ _ _ =>
    let (u, v) := (g.valOf d).factors
    (u ++ v).flatten.map fun x => (Ty.fmt ty).round (f32 x) .rne false
  | _ => []

/-- The form whose undefined values a poisoned store gives. -/
def XferWork.storedForm (w : XferWork) : MForm :=
  match w with
  | .mst _ ty .. => .dense ty
  | .get _ ty _ _ rank _ => .fact (ty == .bf16) rank
  | _ => .empty

/-- The register that a transfer reads. -/
def XferWork.source : XferWork → Option Nat
  | .mst d .. | .get d .. => some d
  | .mmov _ a .. => some a
  | _ => none

/-- The gang as a transfer finds its source register: in the form of issue order. -/
def Transfer.gang (x : Transfer) (s : State) (g : Gang) : Gang := g.inForms s (x.work.source.toList.map fun m => (m, x.src))

/-- The values that a transfer stores, read from its register at its first step. -/
def Transfer.values (x : Transfer) (s : State) (g : Gang) : List Nat :=
  x.vals.getD (if x.poison then undefVals s x.work.storedForm else x.work.stored (x.gang s g))

/-- What a transfer leaves in its register once its bytes have moved. -/
def Transfer.landed (x : Transfer) (s : State) (g : Gang) (d : Nat) : MVal :=
  if x.poison then undefVal s d x.form else x.work.result (x.gang s g) x.elems

/-- A step of a transfer: it moves some of its bytes, and with the last of them it is done; of a function in reset, its result is
discarded (R194, R204, R260, R405). -/
def performXfer (s : State) (crew core : Nat) (g : Gang) (x : Transfer) : State :=
  let o := (crew, core, x.ctx)
  let now := x.choice s
  let vas := (now.filter fun b => b.acc.sp == 1).map (·.acc.addr)
  let fin := x.left.length == now.length
  let put (x : Transfer) (g : Gang) : Gang := { g with xfers := x :: g.xfers.drop 1 }
  let pop (g : Gang) : Gang := { g with xfers := g.xfers.drop 1 }
  if s.inReset x.ctx then s.modGang crew g.mask pop
  else match x.work.target with
  | some d =>
    let x' : Transfer := { x with moved := now.foldl (fun m b => SMap.put m b.num (readXByte s o b)) x.moved }
    (s.modGang crew g.mask fun h => if fin then (pop h).setVal d (x'.landed s g d) else put x' h).touchAll core x.ctx vas false
  | none =>
    let vals := x.values s g
    let x' : Transfer := { x with vals := some vals, moved := now.foldl (fun m b => SMap.put m b.num 0) x.moved }
    ((now.foldl (writeXByte o vals) s).modGang crew g.mask fun h => if fin then pop h else put x' h).touchAll core x.ctx vas true

/-- A transfer ended by an invalidated fault (R266). -/
def endXfer (s : State) (crew : Nat) (g : Gang) (x : Transfer) (va : W64) : State :=
  let s1 := s.modGang crew g.mask fun g =>
    let g1 := { g with xfers := g.xfers.drop 1 }
    match x.work.target with
    | some d => g1.setVal d (undefVal s d x.form)
    | none => g1
  (s1.listed crew g.mask).foldl (fun s p => s.modTg p.1 fun g => { g with ending := .addr va }) s1

/-- The first page of a transfer that cannot serve it: a fault to raise, or an end (R266). -/
def xferBlocked (s : State) (core ctx : Nat) (lost : Bool) (accs : List CAcc) : Option (CAcc × Bool) :=
  accs.findSome? fun a =>
    if a.sp ≠ 1 then none
    else match s.translate core ctx a.addr with
      | .bad => some (a, true)
      | .leaf e r => if unanswered lost e.loc || (a.wr && AccKind.store.prot e) then some (a, true)
                     else if r then none else some (a, false)

/-! ### Engine operations at the col (R255, R256, R263) -/

/-- An engine operation as its col decides it: what it computes (rings unclaimed), the registers it reads and writes, and the
form its result takes. -/
structure OpPlan where
  stream : Nat
  work : EngineWork
  ovf : Bool
  reads : List Nat
  write : Option Nat
  form : Option MForm
deriving DecidableEq, Repr

/-- An operand of mma or mma.blk: a register, or a ring by R249; none is ILLOP. -/
def matArg (g : Tg) (sp : Spec) : Option MOperand :=
  match sp with
  | .m n => some (.reg n.toNat)
  | sp => (ringNum g sp).map fun n => .ring n 0

/-- The class of a source type (R256). -/
def tyClass (t : Ty) : List Ty :=
  match t with
  | .f16 => [.f16]
  | .bf16 => [.bf16, .cb4]
  | _ => [.e4m3, .e5m2]

/-- A register operand of mma: empty, or dense in the class. -/
def MOperand.formOk (gg : Gang) (src : Ty) (o : MOperand) : Bool :=
  match o with
  | .reg n => match gg.formOf n with
    | .empty => true
    | .dense t => (tyClass src).contains t
    | _ => false
  | .ring .. => true

/-- A held ring that accepts claims, by number; none is STG. -/
def heldRing (s : State) (g : Tg) (n : Nat) : Option Ring :=
  if (s.crewOf g).nrsv ≤ n then none
  else match s.ring g.crew n with
    | some r => if r.freeing then none else some r
    | none => none

/-- The k-steps of an operand, or the number of the ring that breaks R256. -/
def MOperand.steps (s : State) (g : Tg) (src : Ty) (blk : Bool) (o : MOperand) : Except Nat Nat :=
  match o with
  | .reg _ => .ok 64
  | .ring n _ => match heldRing s g n with
    | some r =>
      if r.ks = 0 || !(r.fmt.any (tyClass src).contains) || (blk && (!r.sc || decide (r.k < 128))) then .error n else .ok r.k
    | none => .error n

def MOperand.ringNo : MOperand → Option Nat
  | .ring n _ => some n
  | .reg _ => none
def MOperand.regNo : MOperand → Option Nat
  | .reg n => some n
  | .ring .. => none

/-- Both operands' rings, and their equal k-steps; the ring reported where R256 fails. DEDUCED, log 16. -/
def stepsOk (s : State) (g : Tg) (src : Ty) (blk : Bool) (a b : MOperand) : Except Nat Unit :=
  match a.steps s g src blk, b.steps s g src blk with
  | .error n, _ => .error n
  | _, .error n => .error n
  | .ok x, .ok y => if x = y then .ok () else .error ((a.ringNo.or b.ringNo).getD 255)

/-- ILLOP of a gang instruction whose operand value is illegal (R249). -/
def gangIllop (i : Instr) : Perf := .trap .illop (firstWord i)

/-- The plan of mma, or the trap of R256. -/
def mmaPlan (f : RArgs) (s : State) (gg : Gang) (lead : Tg) : Except Perf OpPlan :=
  let d := Spec.num f.d
  let src := srcTy f
  match matArg lead f.a, matArg lead f.b with
  | some a, some b =>
    let dOk := gg.formOf d == .empty || gg.formOf d == .dense .f32
    if !a.formOk gg src || !b.formOk gg src || !dOk then .error .gang
    else
      match stepsOk s lead src false a b with
      | .error n => .error (.trap .stg (BitVec.ofNat 64 n))
      | .ok _ =>
        let occ := gg.occWith d (.dense .f32)
        if (s.crewOf lead).slabs < occ then .error (.trap .slabq (BitVec.ofNat 64 occ))
        else .ok { stream := f.x.toNat % 4, work := .mma d a b src (f.x.getLsbD 2), ovf := false
                   reads := d :: (a.regNo.toList ++ b.regNo.toList), write := some d, form := some (.dense .f32) }
  | _, _ => .error (gangIllop (.mma f))

/-- The output ring of mma.blk (R256). -/
def outRingOk (s : State) (g : Tg) (n : Nat) : Bool :=
  match heldRing s g n with
  | some r => r.ks == 0 && (r.fmt == some .n8 || r.fmt == some .f32) && decide (65 * 256 ≤ r.slotSize)
  | none => false

/-- The plan of mma.blk, or the trap of R256. -/
def blkPlan (f : RArgs) (s : State) (lead : Tg) : Except Perf OpPlan :=
  let src := srcTy f
  match ringNum lead f.d, matArg lead f.a, matArg lead f.b with
  | some o, some a, some b =>
    match stepsOk s lead src true a b with
    | .error n => .error (.trap .stg (BitVec.ofNat 64 n))
    | .ok _ =>
      if !outRingOk s lead o then .error (.trap .stg (BitVec.ofNat 64 o))
      else .ok { stream := f.x.toNat % 4, work := .mmaBlk (.ring o 0) a b src, ovf := false, reads := [], write := none, form := none }
  | _, _, _ => .error (gangIllop (.mmaBlk f))

/-- An instruction at the col whose checks pass asks for a token and waits (R254). -/
def askToken {α : Type} (s : State) (lead : Tg) (mask : BitVec 16) (p : Except Perf α) : Perf :=
  match p with
  | .error e => e
  | .ok _ => .hold (requestToken s lead.crew mask)

/-- R255. -/
def execMma (f : RArgs) (s : State) : Out :=
  onGang (.mma f) f.h (RArgs.words f) s fun s gg lead => askToken s lead gg.mask (mmaPlan f s gg lead)

/-- R263. -/
def execMmaBlk (f : RArgs) (s : State) : Out :=
  onGang (.mmaBlk f) f.h (RArgs.words f) s fun s gg lead => askToken s lead gg.mask (blkPlan f s lead)

/-- The claim of one operand (R247). -/
def claimArg (s : State) (crew : Nat) (prod : Bool) (o : MOperand) : State × MOperand :=
  match o with
  | .reg _ => (s, o)
  | .ring n _ => match s.ring crew n with
    | some r => (s.updRing crew n fun r => (r.claim prod 1).2, .ring n (r.claim prod 1).1)
    | none => (s, o)

/-- The claims of an operation: its inputs in the order A, B, then its output (R247). DEDUCED, log 16. -/
def EngineWork.claim (w : EngineWork) (s : State) (crew : Nat) : State × EngineWork :=
  match w with
  | .mma d a b src tb =>
    let (s1, a1) := claimArg s crew false a
    let (s2, b1) := claimArg s1 crew false b
    (s2, .mma d a1 b1 src tb)
  | .mmaBlk o a b src =>
    let (s1, a1) := claimArg s crew false a
    let (s2, b1) := claimArg s1 crew false b
    let (s3, o1) := claimArg s2 crew true o
    (s3, .mmaBlk o1 a1 b1 src)
  | w => (s, w)

/-! ### What the engine computes -/

/-- Element `i` of a packed cb4 array (R32). -/
def nibble (bs : List Byte) (i : Nat) : Nat := (bs.getD (i / 2) 0).toNat / 16 ^ (i % 2) % 16

/-- The exact values of a slot's operand bytes in linear order (R255). -/
def slotValues (s : State) (crew core : Nat) (r : Ring) (claim : Nat) : List Exact :=
  let bs := ((s.crew crew).getD noCrew).stBytes (r.slotOff claim) r.opBytes
  match r.fmt with
  | some .cb4 =>
    let es := match SMap.find (s.core core).codebooks r.cbs with
      | some cb => cb.entries
      | none => []
    (List.range (64 * r.k)).map fun i => engineRead .bf16 (es.getD (nibble bs i) 0).toNat
  | some t => (rowsOf t.bytes bs).map fun b => engineRead t (leNat b)
  | none => []

/-- The 64 rows of A, or with `col` the 64 columns of B, as exact values (R255). -/
def MOperand.vectors (s : State) (crew core : Nat) (g : Gang) (o : MOperand) (col tb : Bool) : List (List Exact) :=
  match o with
  | .reg n =>
    let rows := rowsOf 64 ((g.valOf n).exact engineRead)
    if col && !tb then transpose (.zero false) 64 rows else rows
  | .ring n c => match s.ring crew n with
    | some r => rowsOf r.k (slotValues s crew core r c)
    | none => List.replicate 64 []

/-- The tile of group sums of rows of A with columns of B from accumulators `acc`, row-major (R255). -/
def sumTile (acc : List W32) (a b : List (List Exact)) : List W32 :=
  let tiles := a.flatMap fun r => b.map fun c => List.zipWith Exact.mul r c
  List.zipWith groupSum acc tiles

/-- The accumulator of mma: dense f32 bits, +0 where empty. -/
def MVal.acc (v : MVal) : List W32 :=
  match v with
  | .dense .f32 e => e
  | _ => List.replicate 4096 0

/-- The bytes of an mma.blk output slot (R263). -/
def blkBytes (p : List W32) (ca cb : List Byte) : List Byte :=
  (p.flatMap fun x => leBytes x.toNat 4) ++ ca ++ cb ++ List.replicate 128 0

/-- The 64 codes of an operand's scale area. -/
def codesOf (s : State) (crew : Nat) (o : MOperand) : List Byte :=
  match o with
  | .ring n c => match s.ring crew n with
    | some r => ((s.crew crew).getD noCrew).stBytes (r.slotOff c + r.scaleOff) 64
    | none => []
  | .reg _ => []

/-! ### mfence.op and mwait (R259, R260) -/

/-- The streams mwait waits for. -/
def waitStreams (f : RArgs) : List Nat := if f.x.getLsbD 2 then [0, 1, 2, 3] else [f.x.toNat % 4]

/-- Whether every operation issued on the streams has completed (R258). -/
def Gang.streamsIdle (g : Gang) (ns : List Nat) : Bool := ns.all fun n => (g.streams.getD n (.fresh 0)).expb == 0

/-- mwait at its col: it completes, and the registers of its streams are settled, or it waits (R259, R261). DEDUCED, log 31. -/
def mwaitPerf (f : RArgs) (s : State) (gg : Gang) (lead : Tg) : Perf :=
  let ns := waitStreams f
  if gg.streamsIdle ns then
    .fin (s.modGang lead.crew gg.mask fun g => { g with hazards := g.hazards.filter fun h => !ns.contains h.stream }) none
  else .hold s

/-- mfence.op at its col (R260). -/
def mfencePerf (s : State) (gg : Gang) (lead : Tg) : Perf :=
  if gg.xfers.isEmpty then .fin (s.modGang lead.crew gg.mask fun g => { g with unfenced := [] }) none else .hold s

/-- R260. -/
def execMfenceOp (f : RArgs) (s : State) : Out := onGang (.mfenceOp f) f.h (RArgs.words f) s mfencePerf

/-- R259. -/
def execMwait (f : RArgs) (s : State) : Out := onGang (.mwait f) f.h (RArgs.words f) s (mwaitPerf f)

end Sys2Proof.Machine
end

