-- ==== Sys2Proof/Machine/Lowrank.lean ====
section
/-! DEFINITION. Factored matrix registers and the mlr instructions (R269 to R283). -/

namespace Sys2Proof.Machine

/-! ### The cap, forms and what a result becomes -/

/-- kmax (R271). -/
def Tg.kmax (g : Tg) : Nat := min g.mode.rankcap.toNat 32

/-- Rank of a scalar or small-immediate count (R275). -/
def countOf (s : State) (g : Tg) (f : RArgs) (sp : Spec) : Nat := opnd32 s g f.h sp

/-- A rank within the cap, or the rank-overflow rule of R272: the trap, or a dense result. -/
def overRank (g : Tg) (k : Nat) : Except Perf Bool :=
  if k ≤ g.kmax then .ok false
  else if g.mode.rmode then .ok true
  else .error (.trap .rankovf (BitVec.ofNat 64 k))

/-- The form of a result of rank `k`: factored in T, or dense f32 under overflow. -/
def resultForm (ty : Ty) (k : Nat) (ovf : Bool) : MForm := if ovf then .dense .f32 else .fact (ty == .bf16) k

/-- The quota check of a plan (R239). -/
def quotaOk (s : State) (gg : Gang) (lead : Tg) (d : Nat) (f : MForm) : Except Perf Unit :=
  let occ := gg.occWith d f
  if (s.crewOf lead).slabs < occ then .error (.trap .slabq (BitVec.ofNat 64 occ)) else .ok ()

/-- The plan of an asynchronous operation whose form checks have passed: rank overflow, then quota (R273). -/
def mlrPlan (f : RArgs) (s : State) (gg : Gang) (lead : Tg) (w : EngineWork) (reads : List Nat) (k : Nat) (capped : Bool) :
    Except Perf OpPlan :=
  let d := Spec.num f.d
  match (if capped then overRank lead k else .ok false) with
  | .error p => .error p
  | .ok ovf =>
    let form := match w with
      | .dense .. => .dense .f32
      | _ => resultForm f.ty k ovf
    match quotaOk s gg lead d form with
    | .error p => .error p
    | .ok _ => .ok { stream := f.x.toNat % 4, work := w, ovf := ovf, reads := reads, write := some d, form := some form }

/-- Destinations of the asynchronous forms: any form but work (R282). -/
def dstOk (gg : Gang) (f : RArgs) : Bool := !(gg.formOf (Spec.num f.d)).isWork

/-- mlr.mul (R278). -/
def mulPlan (f : RArgs) (s : State) (gg : Gang) (lead : Tg) : Except Perf OpPlan :=
  let a := Spec.num f.a
  let b := Spec.num f.b
  match (gg.formOf a).factRank, (gg.formOf b).factRank, dstOk gg f with
  | some ra, some rb, true => mlrPlan f s gg lead (.mul f.ty (Spec.num f.d) a b) [a, b] (min ra rb) true
  | _, _, _ => .error .gang

/-- mlr.add (R280). -/
def addPlan (f : RArgs) (s : State) (gg : Gang) (lead : Tg) : Except Perf OpPlan :=
  let a := Spec.num f.a
  let b := Spec.num f.b
  match (gg.formOf a).factRank, (gg.formOf b).factRank, dstOk gg f with
  | some ra, some rb, true => mlrPlan f s gg lead (.add f.ty (Spec.num f.d) a b) [a, b] (ra + rb) true
  | _, _, _ => .error .gang

/-- mlr.muld (R279). -/
def muldPlan (f : RArgs) (s : State) (gg : Gang) (lead : Tg) : Except Perf OpPlan :=
  let a := Spec.num f.a
  let b := Spec.num f.b
  let fd := f.x.getLsbD 2
  let fac := if fd then a else b
  let den := if fd then b else a
  match (gg.formOf fac).factRank, (gg.formOf den).denseLike, dstOk gg f with
  | some r, true, true => mlrPlan f s gg lead (.muld f.ty (Spec.num f.d) a b fd) [a, b] r true
  | _, _, _ => .error .gang

/-- The factor of mlr.scl: bits [31:0] of a scalar, or a small immediate as f32 (R275). -/
def sclFactor (s : State) (g : Tg) (f : RArgs) : W32 := BitVec.ofNat 32 (opnd s g f.h .f32 32 f.b 0)

/-- mlr.scl (R281). -/
def sclPlan (f : RArgs) (s : State) (gg : Gang) (lead : Tg) : Except Perf OpPlan :=
  let a := Spec.num f.a
  match (gg.formOf a).factRank, dstOk gg f with
  | some r, true => mlrPlan f s gg lead (.scl f.ty (Spec.num f.d) a (sclFactor s lead f)) [a] r true
  | _, _ => .error .gang

/-- mlr.trunc (R282). -/
def truncPlan (f : RArgs) (s : State) (gg : Gang) (lead : Tg) : Except Perf OpPlan :=
  let a := Spec.num f.a
  let k := countOf s lead f f.b
  match (gg.formOf a).factRank, dstOk gg f with
  | some r, true => mlrPlan f s gg lead (.trunc f.ty (Spec.num f.d) a k) [a] (min k r) false
  | _, _ => .error .gang

/-- mlr.dense (R282). -/
def densePlan (f : RArgs) (s : State) (gg : Gang) (lead : Tg) : Except Perf OpPlan :=
  let a := Spec.num f.a
  match (gg.formOf a).factRank, dstOk gg f with
  | some _, true => mlrPlan f s gg lead (.dense (Spec.num f.d) a) [a] 0 false
  | _, _ => .error .gang

/-- R278. -/
def execMlrMul (f : RArgs) (s : State) : Out :=
  onGang (.mlrMul f) f.h (RArgs.words f) s fun s gg lead => askToken s lead gg.mask (mulPlan f s gg lead)
/-- R279. -/
def execMlrMuld (f : RArgs) (s : State) : Out :=
  onGang (.mlrMuld f) f.h (RArgs.words f) s fun s gg lead => askToken s lead gg.mask (muldPlan f s gg lead)
/-- R280. -/
def execMlrAdd (f : RArgs) (s : State) : Out :=
  onGang (.mlrAdd f) f.h (RArgs.words f) s fun s gg lead => askToken s lead gg.mask (addPlan f s gg lead)
/-- R281. -/
def execMlrScl (f : RArgs) (s : State) : Out :=
  onGang (.mlrScl f) f.h (RArgs.words f) s fun s gg lead => askToken s lead gg.mask (sclPlan f s gg lead)
/-- R282. -/
def execMlrTrunc (f : RArgs) (s : State) : Out :=
  onGang (.mlrTrunc f) f.h (RArgs.words f) s fun s gg lead => askToken s lead gg.mask (truncPlan f s gg lead)
/-- R282. -/
def execMlrDense (f : RArgs) (s : State) : Out :=
  onGang (.mlrDense f) f.h (RArgs.words f) s fun s gg lead => askToken s lead gg.mask (densePlan f s gg lead)

/-! ### mlr.set, mlr.get, mlr.info (R276, R277) -/

/-- R276. A rank above 32 exceeds every cap. -/
def execMlrSet (f : RArgs) (s : State) : Out :=
  onGang (.mlrSet f) f.h (RArgs.words f) s fun s gg lead =>
    let d := Spec.num f.d
    let u := lead.sAt (Spec.num f.a)
    let v := lead.sAt (Spec.num f.b)
    let r := countOf s lead f f.cs
    let w : XferWork := .set d f.ty u v r (f.x.getLsbD 0)
    match xferCheck s lead [u, v] w.accs with
    | some st => .stop st
    | none =>
      if lead.kmax < r then .trap .rankovf (BitVec.ofNat 64 r)
      else startXfer s gg lead w (some d) none (some (.fact (f.ty == .bf16) r))

/-- The accesses that mlr.get will make for a rank (R276). -/
def getAccs (f : RArgs) (u v : W64) (r : Nat) : List CAcc :=
  factAccs (f.x.getLsbD 0) true u f.ty.bytes r ++ factAccs (f.x.getLsbD 0) true v f.ty.bytes r

/-- R276. -/
def execMlrGet (f : RArgs) (s : State) : Out :=
  onGang (.mlrGet f) f.h (RArgs.words f) s fun s gg lead =>
    let d := Spec.num f.d
    let u := lead.sAt (Spec.num f.a)
    let v := lead.sAt (Spec.num f.b)
    let r := (gg.formOf d).factRank
    match xferCheck s lead [u, v] (getAccs f u v (r.getD 0)) with
    | some st => .stop st
    | none => if r.isNone then .gang
              else startXfer s gg lead (.get d f.ty u v (r.getD 0) (f.x.getLsbD 0)) none (some d) none

/-- The value of mlr.info (R277). -/
def infoOf (c : Crew) (gg : Gang) (m : Nat) : W64 :=
  let f := gg.formOf m
  BitVec.ofNat 16 c.slabs ++ BitVec.ofNat 16 gg.occ ++ BitVec.ofNat 16 f.slabs ++ BitVec.ofNat 8 f.rank ++ 0#4 ++
    BitVec.ofNat 4 f.code

/-- R277. -/
def execMlrInfo (f : RArgs) (s : State) : Out :=
  onGang (.mlrInfo f) f.h (RArgs.words f) s fun s gg lead =>
    .fin s (some (Spec.num f.d, infoOf (s.crewOf lead) gg (Spec.num f.a)))

/-! ### What the mlr operations compute (R278 to R282) -/

/-- The dense f32 tile of factors: element (i, j) = dotx of row i of U and row j of V, row-major (R272, R282). -/
def expandFactors (u v : List (List W32)) : List W32 :=
  let ru := (List.range 64).map (rowOf u)
  let rv := (List.range 64).map (rowOf v)
  ru.flatMap fun x => rv.map fun y => dotx x y

/-- A result from FP32 factors: rounded to the format of T, or the dense tile under overflow (R269, R272). -/
def factorResult (ty : Ty) (ovf : Bool) (u v : List (List W32)) : MVal :=
  if ovf then .dense .f32 (expandFactors u v)
  else
    let bf := ty == .bf16
    .fact bf (u.map (·.map (narrow bf))) (v.map (·.map (narrow bf)))

/-- The rows of a dense operand as the engine reads it, in FP32 (R269): every value of the five formats is exact in FP32. -/
def MVal.denseRows (v : MVal) : List (List W32) :=
  match v with
  | .dense .f32 e => rowsOf 64 e
  | v => rowsOf 64 ((v.exact engineRead).map toF32)

/-- mlr.mul on widened factors (R278). -/
def mulFactors (ua va ub vb : List (List W32)) : List (List W32) × List (List W32) :=
  if ua.isEmpty || ub.isEmpty then ([], [])
  else
    -- K[p][q], as rows
    let k := va.map fun x => ub.map fun y => dotx x y
    if ub.length ≤ ua.length then
      (((List.range ub.length).map fun q => (List.range 64).map fun i => dotx (rowOf ua i) (k.map fun r => r.getD q 0)), vb)
    else (ua, k.map fun r => (List.range 64).map fun j => dotx (rowOf vb j) r)

/-- mlr.muld on a dense operand's rows and a factor pair (R279). -/
def muldFactors (rows : List (List W32)) (factFirst : Bool) (u v : List (List W32)) : List (List W32) × List (List W32) :=
  if factFirst then (u, v.map fun c => (transpose 0 64 rows).map fun col => dotx col c)
  else (u.map fun c => rows.map fun r => dotx r c, v)

/-- The result of an engine operation from the registers as the gang holds them, in their forms of issue order (R251, R274). -/
def EngineOp.compute (o : EngineOp) (s : State) (crew core : Nat) (g0 : Gang) : MVal :=
  let g := g0.inForms s o.forms
  let fac (m : Nat) := (g.valOf m).factors
  match o.work with
  | .mma d a b _ tb => .dense .f32 (sumTile (g.valOf d).acc (a.vectors s crew core g false false) (b.vectors s crew core g true tb))
  | .mmaBlk _ a b _ =>
    .dense .f32 (sumTile (List.replicate 4096 0) (a.vectors s crew core g false false) (b.vectors s crew core g true false))
  | .mul ty _ a b =>
    let (u, v) := mulFactors (fac a).1 (fac a).2 (fac b).1 (fac b).2
    factorResult ty o.overDense u v
  | .muld ty _ a b fd =>
    let (fm, dm) := if fd then (a, b) else (b, a)
    let (u, v) := muldFactors (g.valOf dm).denseRows fd (fac fm).1 (fac fm).2
    factorResult ty o.overDense u v
  | .add ty _ a b => factorResult ty o.overDense ((fac a).1 ++ (fac b).1) ((fac a).2 ++ (fac b).2)
  | .scl ty _ a f => factorResult ty o.overDense ((fac a).1.map (·.map fun x => fmul x f)) (fac a).2
  | .trunc ty _ a k => factorResult ty false ((fac a).1.take k) ((fac a).2.take k)
  | .dense _ a => .dense .f32 (expandFactors (fac a).1 (fac a).2)

/-! ### mlr.rcmp and mlr.fact at their col (R283) -/

/-- The counter, destination and source of an interruptible form. -/
structure Interruptible where
  isFact : Bool
  d : Nat
  src : Nat
  sreg : Nat
  ty : Ty

def rcmpArgs (f : RArgs) (isFact : Bool) : Interruptible :=
  { isFact := isFact, d := Spec.num f.d, src := Spec.num f.a, sreg := Spec.num f.b, ty := f.ty }

/-- The rank of a source as the form table reads it: factored for rcmp, dense (64) or empty (0) for fact; none is GANG. -/
def Interruptible.srcRank (x : Interruptible) (gg : Gang) : Option Nat :=
  match gg.formOf x.src with
  | .empty => some 0
  | .dense _ => if x.isFact then some 64 else none
  | .fact _ r => if x.isFact then none else some r
  | .work .. => none

/-- The checks at the col, and the last completed stage from which the instruction goes on (R283). -/
def Interruptible.start (x : Interruptible) (s : State) (gg : Gang) (lead : Tg) : Except Perf Nat :=
  let c := (lead.sAt x.sreg).toNat
  if c = 0 then
    match x.srcRank gg with
    | none => .error .gang
    | some r =>
      match quotaOk s gg lead x.d (if r = 0 then .fact (x.ty == .bf16) 0 else .work x.isFact r 0) with
      | .error p => .error p
      | .ok _ => .ok 0
  else
    match gg.formOf x.d with
    | .work k _ st => if k == x.isFact && st == c && decide (c ≤ 9) then .ok c else .error .gang
    | _ => .error .gang

/-- R283: the checks, then a request for a token; the stages are the sequencer's. -/
def execMlrRcmp (f : RArgs) (s : State) : Out :=
  onGang (.mlrRcmp f) f.h (RArgs.words f) s fun s gg lead => askToken s lead gg.mask ((rcmpArgs f false).start s gg lead)

/-- R283. -/
def execMlrFact (f : RArgs) (s : State) : Out :=
  onGang (.mlrFact f) f.h (RArgs.words f) s fun s gg lead => askToken s lead gg.mask ((rcmpArgs f true).start s gg lead)

/-- The work state before stage 1: the source's factors, or the columns of the dense source, in FP32. -/
def Interruptible.source (x : Interruptible) (gg : Gang) : Work :=
  let v := gg.valOf x.src
  let (su, sv) := if x.isFact then (transpose 0 64 v.denseRows, []) else v.factors
  { su := su, sv := sv, qu := [], tu := [], qv := [], tv := [], c := [], w := [] }

/-- Whether a source holds a NaN or an infinity. -/
def Work.nonfinite (w : Work) : Bool := (w.su ++ w.sv).any fun c => c.any fun b => !(f32 b).isFinite

/-- The result of a non-finite source: the factors rounded to T, or the dense source in f32, a NaN canonical (R33, R269, R283). -/
def Interruptible.giveBack (x : Interruptible) (w : Work) : MForm × MVal :=
  if x.isFact then (.dense .f32, .dense .f32 ((transpose 0 64 w.su).flatten.map fun b => toF32 (f32 b)))
  else (.fact (x.ty == .bf16) w.su.length, factorResult x.ty false w.su w.sv)

/-- How a stage ends. -/
inductive StageEnd where
  /-- Work at a stage; the instruction may stop there. -/
  | work (rank : Nat) (w : Work)
  /-- The result. -/
  | done (f : MForm) (v : MVal)
  | rankovf (k : Nat)

/-- Stage `c` + 1 of an instruction (R283). -/
def Interruptible.stage (x : Interruptible) (gg : Gang) (lead : Tg) (c : Nat) : StageEnd :=
  if c = 0 then
    match x.srcRank gg with
    | some 0 => .done (.fact (x.ty == .bf16) 0) (.fact (x.ty == .bf16) [] [])
    | r =>
      let w := x.source gg
      if w.nonfinite then
        let (f, v) := x.giveBack w
        .done f v
      else .work (r.getD 0) (workStage x.isFact 1 w)
  else
    match gg.valOf x.d, gg.formOf x.d with
    | .work w, .work _ r _ =>
      if c < 9 then .work r (workStage x.isFact (c + 1) w)
      else
        let o := stage10 x.isFact w lead.mode.mtol
        if o.nonfinite then
          let (f, v) := x.giveBack w
          .done f v
        else
          match overRank lead o.ktol with
          | .error _ => .rankovf o.ktol
          | .ok ovf => .done (resultForm x.ty o.ktol ovf) (factorResult x.ty ovf o.u o.v)
    | _, _ => .work 0 { su := [], sv := [], qu := [], tu := [], qv := [], tv := [], c := [], w := [] }

end Sys2Proof.Machine
end

