-- ==== Sys2Proof/Machine/Engine.lean ====
section
/-! DEFINITION. The power-token pool, the matrix engine, the gang load path and the stages of mlr.rcmp and mlr.fact as agents
(R252, R254, R258, R260, R283). -/

namespace Sys2Proof.Machine

/-! ### The pool (R254, R412) -/

/-- Tokens of the pool in a mode, and under thermal step-down (R412). -/
def Ralfester.pool (r : Ralfester) : Nat :=
  let n := match r.mode with
    | .peak => 192
    | .balanced => 128
    | .cool => 80
  if r.stepDown then min n 80 else n

/-- The plan of an operation at the col; none for an instruction that issues no operation. -/
def colPlan (i : Instr) (s : State) (gg : Gang) (lead : Tg) : Option (Except Perf OpPlan) :=
  match i with
  | .mma f => some (mmaPlan f s gg lead)
  | .mmaBlk f => some (blkPlan f s lead)
  | .mlrMul f => some (mulPlan f s gg lead)
  | .mlrMuld f => some (muldPlan f s gg lead)
  | .mlrAdd f => some (addPlan f s gg lead)
  | .mlrScl f => some (sclPlan f s gg lead)
  | .mlrTrunc f => some (truncPlan f s gg lead)
  | .mlrDense f => some (densePlan f s gg lead)
  | _ => none

/-- The interruptible instruction at a col (R283). -/
def colStages (i : Instr) : Option Interruptible :=
  match i with
  | .mlrRcmp f => some (rcmpArgs f false)
  | .mlrFact f => some (rcmpArgs f true)
  | _ => none

/-- Every gang of a resident crew. -/
def State.gangs (s : State) : List (Nat × Crew × Gang) :=
  (s.crews.filter fun p => p.2.core.isSome).flatMap fun p => p.2.gangs.map fun q => (p.1, p.2, q.2)

/-- Waiting requests: deadline, request stamp, crew and mask. -/
def State.tokenRequests (s : State) : List (Nat × Nat × Nat × BitVec 16) :=
  s.gangs.filterMap fun p =>
    match p.2.2.col with
    | some c => match c.request with
      | some r => if c.token then none else some (s.gangDeadline p.1 p.2.2.mask, r.1, p.1, p.2.2.mask)
      | none => none
    | none => none

/-! ### Issue once a token is held (R254) -/

/-- The operation at a col that holds a token issues, if the engine queue has room; its col completes. -/
def State.tryIssue (s : State) (crew : Nat) (mask : BitVec 16) : State :=
  match s.crew crew, s.gang crew mask, (s.listed crew mask).head? with
  | some c, some gg, some p =>
    match gg.col with
    | none => s
    | some col =>
      if !col.token then s
      else
        match colPlan col.instr s gg p.2 with
        | none => s
        | some (.error e) => s.perf crew mask e
        | some (.ok plan) =>
          if Config.engineQueue ≤ s.engineLoad (c.core.getD 0) then s
          else
            let s1 := s.modGang crew mask fun g => { g with col := g.col.map fun k => { k with token := false } }
            let (s2, w) := plan.work.claim s1 crew
            (issueOp s2 crew mask plan.stream w plan.ovf plan.reads plan.write plan.form).completeCol crew mask none
  | _, _, _ => s

/-- R254: the pool grants a token to the waiting request of the earliest gang deadline. What the request waited is kept for the
col's completion (R410). -/
def execTokenGrant (crew : Nat) (mask : BitVec 16) (s : State) : Out :=
  match earliest s.tokenRequests, s.gang crew mask with
  | some first, some gg =>
    if first ≠ (crew, mask) || decide (s.ralf.pool ≤ s.ralf.tokens) then .refused .eventNotEnabled
    else
      match gg.col with
      | none => .refused .eventNotEnabled
      | some col =>
        let since := (col.request.map (·.2)).getD s.clk
        let s1 := { s with ralf := { s.ralf with tokens := s.ralf.tokens + 1 } }
        let s2 := s1.modGang crew mask fun g => { g with col := g.col.map fun k =>
          { k with token := true, denied := some (s.clk - since) } }
        .next (s2.tryIssue crew mask)
  | _, _ => .refused .eventNotEnabled

/-! ### What a completion wakes -/

/-- Whether every listed TG has arrived at a col. -/
def Col.full (c : Col) (mask : BitVec 16) : Bool := (List.range 16).all fun k => !mask.getLsbD k || c.arrived.contains k

/-- A waiting mwait or mfence.op looks again (R259, R260). -/
def State.wakeCol (s : State) (crew : Nat) (mask : BitVec 16) : State :=
  match s.gang crew mask, (s.listed crew mask).head? with
  | some gg, some p =>
    match gg.col with
    | none => s
    | some col =>
      if !col.full mask || gg.dissolved then s
      else match col.instr with
        | .mwait f => s.perf crew mask (mwaitPerf f s gg p.2)
        | .mfenceOp _ => s.perf crew mask (mfencePerf s gg p.2)
        | _ => s
  | _, _ => s

/-- The oldest request of a core's gangs that holds a token and waits for room in the engine queue; mlr.rcmp and mlr.fact take their
entry as they begin. -/
def State.wakeQueue (s : State) (core : Nat) : State :=
  let l := s.gangs.filterMap fun p =>
    match p.2.2.col with
    | some c => match c.request with
      | some r => if c.token && p.2.1.core == some core && (colStages c.instr).isNone then some (0, r.1, p.1, p.2.2.mask) else none
      | none => none
    | none => none
  match earliest l with
  | some q => s.tryIssue q.1 q.2
  | none => s

/-- The cores whose gangs have an instruction that waits for room in the engine queue look again. -/
def State.wakeQueues (s : State) : State :=
  ((s.gangs.filterMap fun p => if p.2.2.col.any (·.token) then p.2.1.core else none).eraseDups).foldl State.wakeQueue s

/-! ### The engine (R252, R258) -/

/-- Whether the rings of an operation let it start (R247, R252). -/
def EngineWork.ready (w : EngineWork) (s : State) (crew : Nat) : Bool :=
  let ok (f : Ring → Nat → Bool) (o : MOperand) : Bool :=
    match o with
    | .reg _ => true
    | .ring n c => (s.ring crew n).any fun r => f r c
  match w with
  | .mma _ a b _ _ => ok Ring.canRead a && ok Ring.canRead b
  | .mmaBlk o a b _ => ok Ring.canRead a && ok Ring.canRead b && ok Ring.canFill o
  | _ => true

/-- Whether an operation can start: the oldest unstarted of its stream, its rings ready (R252). -/
def EngineOp.canStart (o : EngineOp) (s : State) (crew : Nat) (g : Gang) : Bool :=
  !o.started && (g.ops.all fun p => p.stream != o.stream || p.started || decide (o.id ≤ p.id)) && o.work.ready s crew

/-- The operations of a core that can start: deadline, issue, crew and mask. -/
def State.startable (s : State) (core : Nat) : List (Nat × Nat × Nat × Nat × BitVec 16) :=
  s.gangs.flatMap fun p =>
    if p.2.1.core ≠ some core then []
    else (p.2.2.ops.filter fun o => o.canStart s p.1 p.2.2).map fun o =>
      (s.gangDeadline p.1 p.2.2.mask, o.id, o.id, p.1, p.2.2.mask)

/-- Whether the core's engine is performing an operation (R251). -/
def State.engineRuns (s : State) (core : Nat) : Bool :=
  s.gangs.any fun p => p.2.1.core == some core && p.2.2.ops.any (·.started)

/-- R252: the engine starts an operation and reads its operands. -/
def execEngineOpStart (core op : Nat) (s : State) : Out :=
  match earliest (s.startable core) with
  | some (id, crew, mask) =>
    if id ≠ op || s.engineRuns core then .refused .eventNotEnabled
    else
      match s.gang crew mask with
      | none => .refused .eventNotEnabled
      | some g =>
        .next (s.modGang crew mask fun x => { x with ops := x.ops.map fun o =>
          if o.id = op then { o with started := true, result := some (o.compute s crew core g) } else o })
  | none => .refused .eventNotEnabled

/-- The started operation of a core with an id. -/
def State.runningOp (s : State) (core op : Nat) : Option (Nat × Gang × EngineOp) :=
  s.gangs.findSome? fun p =>
    if p.2.1.core ≠ some core then none
    else (p.2.2.ops.find? fun o => o.id == op && o.started).map fun o => (p.1, p.2.2, o)

/-- The register and the slots an operation writes, and the slots it has read (R247, R258). An undefined result has the form that the
operation gives its register in issue order (R261, R274). -/
def landOp (s : State) (crew : Nat) (g : Gang) (o : EngineOp) : State :=
  let v := o.result.getD .empty
  let landReg (d : Nat) (s : State) : State :=
    s.modGang crew g.mask fun x => x.setVal d (if o.poison then undefVal s d o.form else v)
  let readSlot (s : State) (a : MOperand) : State :=
    match a with
    | .ring n c => s.ringDone crew n false c
    | .reg _ => s
  match o.work with
  | .mma d a b _ _ => readSlot (readSlot (landReg d s) a) b
  | .mmaBlk out a b _ =>
    let bs := blkBytes v.acc (codesOf s crew a) (codesOf s crew b)
    let s1 := match out with
      | .ring n c => match s.ring crew n with
        | some r => (s.modCrew crew fun k => k.setSt (r.slotOff c) bs).ringDone crew n true c
        | none => s
      | .reg _ => s
    readSlot (readSlot s1 a) b
  | .mul _ d _ _ | .muld _ d _ _ _ | .add _ d _ _ | .scl _ d _ _ | .trunc _ d _ _ | .dense d _ => landReg d s

/-- R258: a started operation completes; its token returns, its stream object counts it, and what waited goes on. -/
def execEngineOpComplete (core op : Nat) (s : State) : Out :=
  match s.runningOp core op with
  | none => .refused .eventNotEnabled
  | some (crew, g, o) =>
    let s1 := landOp s crew g o
    let s2 := s1.modGang crew g.mask fun x => { x with ops := x.ops.filter fun p => p.id != op }
    let s3 := s2.returnToken true
    let s4 := s3.landAt (.stream crew g.mask o.stream) 1
    .next (((s4.wakeCol crew g.mask).wakeQueue core).reapCrew crew)

/-! ### The load path (R260, R266) -/

/-- Whether a gang's load path has a next step: a transfer that holds no fault, or one that ends. -/
def Gang.mayTransfer (g : Gang) : Bool := g.xfers.head?.any fun x => x.dead.isSome || x.fault.isNone

/-- R260: the gang's load path moves bytes of its next transfer, takes a fault for it, or ends it. -/
def execTransferPerform (crew : Nat) (mask : BitVec 16) (s : State) : Out :=
  match s.crew crew, s.gang crew mask with
  | some c, some g =>
    match g.xfers with
    | [] => .refused .eventNotEnabled
    | x :: rest =>
      let core := c.core.getD 0
      let wake (s : State) : Out := .next ((s.wakeCol crew mask).reapCrew crew)
      match x.dead with
      | some va => wake (endXfer s crew g x va)
      | none =>
        if x.fault.isSome then .refused .eventNotEnabled
        else
          let live := s.listed crew mask
          match xferBlocked s core x.ctx (live.any fun p => p.2.linkLost) ((x.choice s).map (·.acc)) with
          | none => wake (performXfer s crew core g x)
          | some (a, true) => wake (endXfer s crew g x (BitVec.ofNat 64 a.addr))
          | some (a, false) =>
            let (s1, e) := s.engineFault x.ctx core .matrix a.wr (BitVec.ofNat 64 a.addr)
              (if live.isEmpty then x.dl else BitVec.ofNat 64 (s.gangDeadline crew mask))
            .next (s1.modGang crew mask fun g => { g with xfers := { x with fault := some e } :: rest })
  | _, _ => .refused .eventNotEnabled

/-! ### Stages of mlr.rcmp and mlr.fact (R283) -/

/-- A scalar written in every listed TG. -/
def State.setAllS (s : State) (crew : Nat) (mask : BitVec 16) (n : Nat) (x : Nat) : State :=
  (s.listed crew mask).foldl (fun s p => s.modTg p.1 fun g => g.setS n (BitVec.ofNat 64 x)) s

/-- The instruction stops at a stage boundary: its token returns and its TGs are at the instruction again. -/
def State.stopStages (s : State) (crew : Nat) (mask : BitVec 16) (sreg c : Nat) : State :=
  let s1 := (s.returnToken true).setAllS crew mask sreg c
  let s2 := s1.modGang crew mask fun g => { g with col := none }
  (s2.listed crew mask).foldl (fun s p => s.modTg p.1 fun g => { g with wait := .ready, held := g.preempt }) s2

/-- The gang as a stage reads it: the source undefined after a transfer with no mfence.op (R273), its registers in the forms of issue
order (R274). -/
def Gang.stageSource (g : Gang) (s : State) (x : Interruptible) (c : Nat) : Gang :=
  if c ≠ 0 then g.inForms s [(x.d, g.formOf x.d)]
  else if g.unfenced.contains x.src then g.setVal x.src (undefVal s x.src (g.formOf x.src))
  else g.inForms s [(x.src, g.formOf x.src)]

/-- R283: one stage completes; the first needs room in the engine queue (R253, R254). DEDUCED, log 16. -/
def execRecompressStage (crew : Nat) (mask : BitVec 16) (s : State) : Out :=
  match s.gang crew mask, (s.listed crew mask).head? with
  | some gg, some p =>
    match gg.col with
    | none => .refused .eventNotEnabled
    | some col =>
      match colStages col.instr with
      | some x =>
        let c := col.stage.getD (p.2.sAt x.sreg).toNat
        let room := col.stage.isSome || decide (s.engineLoad (((s.crew crew).bind (·.core)).getD 0) < Config.engineQueue)
        if !col.token || !room || !gg.ops.isEmpty || !gg.xfers.isEmpty then .refused .eventNotEnabled
        else
          match x.stage (gg.stageSource s x c) p.2 c with
          | .work r w =>
            let s1 := s.modGang crew mask fun g =>
              { (g.setForm x.d (.work x.isFact r (c + 1))).setVal x.d (.work w) with
                col := some { col with stage := some (c + 1) } }
            let stopDue := (s1.listed crew mask).any fun q => q.2.preempt || (q.2.budgetDue && !q.2.trap.tstat)
            .next (if stopDue then s1.stopStages crew mask x.sreg (c + 1) else s1)
          | .done f v =>
            let occ := gg.occWith x.d f
            if (s.crewOf p.2).slabs < occ then
              .next ((if c = 0 then s else s.setAllS crew mask x.sreg 9).trapCol crew mask .slabq fun _ => BitVec.ofNat 64 occ)
            else
              .next ((s.modGang crew mask fun g => (g.setForm x.d f).setVal x.d v).completeCol crew mask (some (x.sreg, 0)))
          | .rankovf k => .next ((s.setAllS crew mask x.sreg 9).trapCol crew mask .rankovf fun _ => BitVec.ofNat 64 k)
      | none => .refused .eventNotEnabled
  | _, _ => .refused .eventNotEnabled

end Sys2Proof.Machine
end

