-- ==== Sys2Proof/Machine/Launches.lean ====
section
/-! DEFINITION. Launch descriptors, acceptance and handle dependences (R289, R290, R293), how a TG starts (R291, R301), bins that
fire (R301, R304), and placement (R144, R238, R244, R292). -/

namespace Sys2Proof.Machine

/-! ### Descriptors (R289) -/

/-- `n` bytes of a descriptor from byte `lo` on. -/
def fieldAt (bs : List Byte) (lo n : Nat) : Nat := leNat ((bs.drop lo).take n)

/-- The smallest carve that holds an allocation, in 64 KiB units (R143). -/
def defaultCarve (scratch : Nat) : Nat := max 2 ((256 * scratch + 65535) / 65536)

/-- The fields of a descriptor as the command processor reads them; a budget of 0 means 2^32 − 1. -/
def Desc.ofBytes (bs : List Byte) : Desc :=
  let f := fieldAt bs
  let a (lo : Nat) : W64 := BitVec.ofNat 64 (f lo 8)
  { entry := a 0, args := a 8, stat := a 16, hlist := a 24, dlrel := a 32
    budget := if f 40 4 = 0 then 0xFFFFFFFF else BitVec.ofNat 32 (f 40 4)
    ncrew := f 44 4, crewtg := f 48 1, regs := f 49 1
    carve := if f 50 1 = 0 then defaultCarve (f 54 2) else f 50 1
    modes := BitVec.ofNat 8 (f 51 1), nhandle := f 52 2, scratch := f 54 2, nbar := f 56 1, rankcap := f 57 1, stage := f 58 2
    nrsv := f 60 1, gangs := f 61 1, slabs := f 62 2, talus := a 64, tstride := f 72 4, mtol := BitVec.ofNat 32 (f 76 4)
    rspb := a 80, rsstride := f 88 4, inldepth := f 92 1, inlb := a 96, redsp := a 104, redsz := f 112 4, sparea := a 120
    expa := (List.range 32).map fun i => BitVec.ofNat 16 (f (136 + 2 * i) 2) }

/-- Whether every field lies in its values (R143, R238, R289). -/
def Desc.legal (bs : List Byte) (d : Desc) : Bool :=
  let zero (lo n : Nat) : Bool := fieldAt bs lo n == 0
  zero 200 56 && zero 128 8 && zero 116 4 && zero 93 3 && decide (d.inldepth ≤ 15) && d.rsstride % 256 == 0 &&
    d.tstride % 256 == 0 && decide (d.slabs ≤ 1024) && decide (1 ≤ d.gangs) && decide (d.gangs ≤ 8) &&
    decide (d.slabs * d.gangs ≤ 1024) && decide (d.nrsv ≤ 32) && decide (d.stage ≤ 4096) && decide (d.rankcap ≤ 63) &&
    decide (d.nbar ≤ 32) && decide (d.scratch ≤ 2560) && decide (d.nhandle ≤ 1024) && decide (d.modes.toNat < 32) &&
    (fieldAt bs 50 1 == 0 || decide (2 ≤ d.carve)) && decide (d.carve ≤ 10) && decide (256 * d.scratch ≤ 65536 * d.carve) &&
    decide (4 ≤ d.regs) && decide (d.regs ≤ 16) && decide (1 ≤ d.crewtg) && decide (d.crewtg ≤ 16) && decide (1 ≤ d.ncrew) &&
    decide (d.ncrew ≤ 2 ^ 24) && d.stat.toNat % 32 == 0 && d.entry.toNat % 8 == 0 && decide (16 * d.nbar ≤ 256 * d.scratch)

def Desc.det (d : Desc) : Bool := d.modes.getLsbD 0
def Desc.fixed (d : Desc) : Bool := d.modes.getLsbD 1
def Desc.inlineMode (d : Desc) : Bool := d.modes.getLsbD 3
def Desc.overDense (d : Desc) : Bool := d.modes.getLsbD 4
/-- KiB of scratchpad on a core that runs the launch (R143). -/
def Desc.carveKiB (d : Desc) : Nat := 64 * d.carve

/-- A handle-list entry: HID and ACC, or none where it is illegal (R293). -/
def parseHandle (x : Nat) : Option (Nat × Bool × Bool) :=
  let acc := x / 2 ^ 32
  if acc = 0 || 3 < acc then none else some (x % 2 ^ 32, acc % 2 == 1, decide (2 ≤ acc))

/-- The handle list of a launch: HID, whether it is read, whether it is written. -/
def State.handleList (s : State) (ctx : Nat) (d : Desc) : Option (List (Nat × Bool × Bool)) :=
  (List.range d.nhandle).mapM fun i =>
    (s.cpRead ctx (d.hlist + BitVec.ofNat 64 (8 * i)) 8).bind parseHandle

/-- One entry of the list joins the handle table; the launches it must wait for (R293). -/
def useHandle (l : Nat) (acc : SMap HandleUse × List Nat) (h : Nat × Bool × Bool) : SMap HandleUse × List Nat :=
  let u := SMap.get { writer := none, readers := [] } acc.1 h.1
  let deps := u.writer.toList ++ (if h.2.2 then u.readers else [])
  let u' : HandleUse := if h.2.2 then { writer := some l, readers := [] } else { u with readers := l :: u.readers }
  (SMap.put acc.1 h.1 u', acc.2 ++ deps)

/-! ### Completion of a launch's future (R321) -/

/-- The future of a launch instruction: DONE with the status bytes [15:8], or FAILED (R321). -/
def State.endLaunchFuture (s : State) (l : Launch) (tend : W64) : State :=
  match l.fut with
  | none => s
  | some h =>
    match s.lookup l.ctx h with
    | .entry loc e =>
      if e.state ≠ stRunning then s
      else if e.doom then s.freeEntry l.ctx (hIndex h) loc e (l.desc.modes.getLsbD 2) true
      else if l.state = 6 then s.setEntry l.ctx (hIndex h) loc { e with state := stFailed, phase := e.phase + 1 }
      else s.setEntry l.ctx (hIndex h) loc
        { e with state := stDone, result := BitVec.ofNat 64 (leNat (((l.status tend).drop 8).take 8)), phase := e.phase + 1 }
    | _ => s

/-! ### Acceptance (R289, R290, R293) -/

/-- The command processor accepts the launch of a descriptor's bytes. A malformed one fails at once; a legal one waits for its
handles, whose list is read by sys-scope acquires, or is placed. DESIGN CHOICE, log 19. -/
def State.acceptDesc (s0 : State) (ctx : Nat) (bs : List Byte) (fut : Option W64) : State :=
  match s0.ctx ctx with
  | none => s0
  | some c =>
    let d := Desc.ofBytes bs
    let s := if Desc.legal bs d then s0.cpAcquire ctx d.hlist (8 * d.nhandle) else s0
    let id := s.stamp
    let l0 : Launch :=
      { ctx := ctx, desc := d, seq := BitVec.ofNat 64 (c.accepted + 1), state := 2, cause := 0, trapn := 0, flags := 0
        tstart := s.gtime, tvec := c.tvec, failed := false, waits := [], placed := [], fut := fut, timers := [], spilled := 0
        order := id }
    let s1 := { s.modCtx ctx fun c => { c with accepted := c.accepted + 1 } with stamp := s.stamp + 1 }
    match (if Desc.legal bs d then s.handleList ctx d else none) with
    | none =>
      let l := { l0 with state := 6, failed := true }
      (s1.cpWrite ctx d.stat (l.status s.gtime)).endLaunchFuture l s.gtime
    | some hs =>
      let (tab, deps) := hs.foldl (useHandle id) (c.handles, [])
      let waits := (deps.filter fun w => w != id && SMap.has s.launches w).eraseDups
      let l := { l0 with state := if waits.isEmpty then 2 else 1, waits := waits }
      ({ s1.modCtx ctx fun c => { c with handles := tab } with launches := SMap.put s1.launches id l }).writeStatus id 0

/-- A future whose launch cannot be read fails (DESIGN CHOICE, log 11). -/
def State.failFuture (s : State) (ctx : Nat) (fut : Option W64) : State :=
  match fut with
  | none => s
  | some h => match s.lookup ctx h with
    | .entry loc e => s.setEntry ctx (hIndex h) loc { e with state := stFailed, phase := e.phase + 1 }
    | _ => s

/-- The 256 bytes of a descriptor that the command processor can reach. -/
def State.descBytes (s : State) (ctx : Nat) (va : W64) : Option (List Byte) :=
  if va.toNat % 256 ≠ 0 then none else s.cpBytes ctx va 256

/-- The launch of the descriptor at an address, read by sys-scope acquires (R289, R321). -/
def State.acceptLaunch (s0 : State) (ctx : Nat) (va : W64) (fut : Option W64) : State :=
  let s := s0.cpAcquire ctx va 256
  match s.descBytes ctx va with
  | none => s.failFuture ctx fut
  | some bs => s.acceptDesc ctx bs fut

/-! ### How a TG starts (R291, R301) -/

/-- What differs between the TGs of launches and of bins. -/
structure TgSeed where
  launch : Nat
  crew : Nat
  num : BitVec 64
  idx : Nat
  crewNum : BitVec 64
  core : Nat
  sub : Nat
  resident : Bool
  order : Nat
  pc : W64
  k : Nat
  s : List W64
  wspill : W64
  rspill : W64
  inlbase : W64
  tgdl : W64
  live : Mask
  v : SMap (Row W32)
  f : SMap (Row FReg)
  threads : Row ThreadTask
  slot : Option Nat

/-- A TG at its start. DEDUCED, log 35. -/
def freshTg (l : Launch) (c : Context) (x : TgSeed) : Tg :=
  { ctx := l.ctx, launch := x.launch, crew := x.crew, num := x.num, idx := x.idx, crewNum := x.crewNum, core := x.core, sub := x.sub
    resident := x.resident, order := x.order, pc := x.pc, mask := x.live, xmask := ~~~x.live, v := x.v
    s := x.s.zipIdx.foldl (fun m p => SMap.set 0 m p.2 p.1) [], p := [], f := x.f
    reconv := { core := [], depth := 0, rspill := x.rspill &&& ~~~31#64 }
    win := { k := x.k, wbase := 0, wlo := 0, wneed := 0, wspill := x.wspill, wtlim := BitVec.ofNat 32 (l.desc.tstride / 384) }
    trap := { tpc := 0, tcause := 0, taddr := 0, ttid := 0, tam := 0, twbase := 0, tvec := l.tvec, tstat := false }
    mode := { memdef := c.memdef, srseq := 0, gmask := 0, rankcap := BitVec.ofNat 6 l.desc.rankcap, mtol := l.desc.mtol
              rmode := l.desc.overDense }
    task := { tgdl := x.tgdl, tgbud := l.desc.budget, spdone := 0, inlbase := x.inlbase
              inldepth := BitVec.ofNat 4 l.desc.inldepth, ffail := 0 }
    threads := x.threads, frames := [], share := [], flushSeq := 0, stores := [], late := [], seen := [], reads := [], fences := [], readyAt := 0
    sliceEnd := false, wait := .ready, mac := none, mcOld := [], budget := false, budgetTaken := false, budgetForced := false, forced := false, preempt := false, held := false
    sinceSafe := 0, slot := x.slot, ending := .none, gangBad := false, faultInval := none, linkLost := false }

/-- TG `n` of a launch, in its crew (R291). -/
def launchedTg (lid : Nat) (l : Launch) (c : Context) (crew n core sub order : Nat) : Tg :=
  let d := l.desc
  let w (x : Nat) : W64 := BitVec.ofNat 64 x
  freshTg l c
    { launch := lid, crew := crew, num := w n, idx := n % d.crewtg, crewNum := w (n / d.crewtg), core := core, sub := sub
      resident := true, order := order, pc := d.entry, k := 16 * d.regs
      s := [d.args, w n, w (d.ncrew * d.crewtg), w (n / d.crewtg), w (n % d.crewtg)]
      wspill := d.talus + w (n * d.tstride), rspill := d.rspb + w (n * d.rsstride), inlbase := d.inlb + w (n * 12288 * d.inldepth)
      tgdl := l.tstart + d.dlrel, live := BitVec.allOnes 96, v := [], f := [], threads := Row.tab fun _ => taskNone, slot := none }

/-- The addresses of slot `m` in SPAREA (R301). -/
def spAreaAt (d : Desc) (m : Nat) : W64 := d.sparea + BitVec.ofNat 64 (m * (d.tstride + d.rsstride + 12288 * d.inldepth))

/-- A fired TG as it starts in its slot (R301). -/
def Tg.inSlot (g : Tg) (l : Launch) (c : Context) (m : Nat) : Tg :=
  let d := l.desc
  let a := spAreaAt d m
  let r := a + BitVec.ofNat 64 d.tstride
  { (g.setS 1 (BitVec.ofNat 64 m)) with
    num := BitVec.ofNat 64 m
    win := { g.win with wspill := a }
    reconv := { g.reconv with rspill := r &&& ~~~31#64 }
    task := { g.task with inlbase := r + BitVec.ofNat 64 d.rsstride }
    trap := { g.trap with tvec := l.tvec }
    mode := { g.mode with memdef := c.memdef } }

/-! ### Bins that fire (R301, R304) -/

/-- A pending entry becomes RUNNING (R307). -/
def State.runEntry (s : State) (ctx : Nat) (h : W64) : State :=
  match s.lookup ctx h with
  | .entry loc e => if e.state = stPending then s.setEntry ctx (hIndex h) loc { e with state := stRunning } else s
  | _ => s

/-- The lowest spawn slot of a die not in use (R301). -/
def freeSlot (d : Die) (die : Nat) : Option Nat :=
  ((List.range (d.slots.length + 1)).map fun i => die * Config.slotsPerDie + i).find? fun m =>
    !d.slots.contains m && decide (m < (die + 1) * Config.slotsPerDie)

/-- The crew key of a fired TG: no other crew has it or ever had it, since the stamp moves on with each that fires and the keys of launched
crews lie below. -/
def State.spawnKey (s : State) : Nat := 2 ^ 90 + s.stamp

/-- The TG of a bin's threads. -/
def firedTg (lid : Nat) (l : Launch) (c : Context) (b : Bin) (crew die : Nat) (slot : Option Nat) (order : Nat) : Tg :=
  let n := b.threads.length
  let at' (t : Nat) : Option BinThread := b.threads[t]?
  let pay (hi t : Nat) : W32 := ((at' t).map fun x => x.payload.extractLsb' (32 * hi) 32).getD 0
  freshTg l c
    { launch := lid, crew := crew, num := BitVec.ofNat 64 (slot.getD 0), idx := 0, crewNum := 0xFFFFFFFF
      core := die * Config.coresPerDie, sub := 0, resident := false, order := order, pc := b.entry, k := 16 * b.regs
      s := [l.desc.args, BitVec.ofNat 64 (slot.getD 0), 1, 0xFFFFFFFF, 0], wspill := 0, rspill := 0, inlbase := 0
      tgdl := BitVec.ofNat 64 ((b.threads.map fun t => t.dl.toNat).foldl min (2 ^ 64 - 1))
      live := Mask.of fun t => decide (t < n)
      v := [(0, Row.tab (pay 0)), (1, Row.tab (pay 1))]
      f := [(0, Row.tab fun t => ((at' t).map fun x => { h := x.handle, counted := false : FReg }).getD fNull)]
      threads := Row.tab fun t =>
        ((at' t).map fun x => { own := x.handle, depth := x.depth, srec := x.srec, hold := false : ThreadTask }).getD taskNone
      slot := slot }

/-- A bin fires: its threads run, the bin is free, and a crew of one waits to be placed (R301). The TG of a failed launch ends at
once (R328). DESIGN CHOICE, log 19. -/
def State.fireBin (s : State) (die bin : Nat) : State :=
  match SMap.find (s.die die).bins bin with
  | none => s
  | some b =>
    match s.launch b.launch with
    | none => s
    | some l =>
      match s.ctx l.ctx with
      | none => s
      | some c =>
        let s1 := (s.modDie die fun d => { d with bins := SMap.del d.bins bin }).bumpPool die
        let s2 := b.threads.foldl (fun s t => s.runEntry l.ctx t.handle) s1
        let slot := freeSlot (s2.die die) die
        let s3 := s2.modDie die fun d => { d with slots := slot.toList ++ d.slots }
        let key := s3.spawnKey
        let id := key * 16
        let k : Crew := { noCrew with
          ctx := l.ctx, launch := b.launch, num := 0, spawned := true, tgs := [id], live := 1, k := 16 * b.regs, order := l.order
          die := some die }
        let s4 := { s3 with
          crews := SMap.put s3.crews key k
          tgs := SMap.put s3.tgs id (firedTg b.launch l c b key die slot s.stamp)
          stamp := s.stamp + 1 }
        if l.failed then s4.endQuiet id else s4

/-- Whether a TG's clk count: it is resident and not parked (R294, R333). A held fault is memory latency, not a wait (R152). -/
def Tg.running (g : Tg) : Bool :=
  g.resident && match g.wait with
    | .ready | .mac | .heldFault .. => true
    | _ => false

/-- `n` clk pass. -/
def State.advanceClk (s : State) (n : Nat) : State :=
  { s with
    clk := s.clk + n
    tgs := s.tgs.map fun p =>
      if p.2.running then
        (p.1, { p.2 with sinceSafe := p.2.sinceSafe + n
                         task := { p.2.task with tgbud := BitVec.ofNat 32 (p.2.task.tgbud.toNat - n) } })
      else p }

/-- The clk at which the first bin's timer expires (R304). -/
def State.nextDue (s : State) : Option Nat := ((s.dies.flatMap fun p => p.2.bins.map fun b => b.2.due).min?)

/-! ### Placement (R17, R144, R238, R244, R292) -/

/-- Resident TGs of a sub-scheduler, and the bytes of its register stack in use (R17). -/
def State.subLoad (s : State) (core sub : Nat) : Nat × Nat :=
  let l := s.tgs.filter fun p => p.2.resident && p.2.core == core && p.2.sub == sub
  (l.length, (l.map fun p => p.2.win.k * 384).sum)

/-- Sub-schedulers for TGs of a crew with these indexes, or none where they do not fit. Under fixed placement TG `i` runs on
sub-scheduler i mod 4 (R292); else TG `i` takes the first with room from `at' i` on, a free choice (DESIGN CHOICE, log 2). -/
def subsFor (load : Nat → Nat × Nat) (k : Nat) (fixed : Bool) (at' : Nat → Nat) : List Nat → Option (List Nat)
  | [] => some []
  | i :: r =>
    let fits (x : Nat) : Bool := decide ((load x).1 < Config.tgsPerSub) && decide ((load x).2 + k * 384 ≤ Config.subStackBytes)
    let tries := if fixed then [i % 4] else (List.range 4).map fun j => (at' i + j) % 4
    match tries.find? fits with
    | none => none
    | some x =>
      match subsFor (fun y => if y = x then ((load y).1 + 1, (load y).2 + k * 384) else load y) k fixed at' r with
      | some l => some (x :: l)
      | none => none

/-- What a crew needs of a core: among it, the indexes of its TGs and the codebook slots that its reservations name. -/
structure Need where
  carve : Nat
  scratch : Nat
  stage : Nat
  nrsv : Nat
  slabs : Nat
  idxs : List Nat
  k : Nat
  fixed : Bool
  cbs : List Nat
deriving DecidableEq, Repr

/-- A launched crew's need. -/
def Desc.need (d : Desc) : Need :=
  { carve := d.carveKiB, scratch := 256 * d.scratch, stage := 256 * d.stage, nrsv := d.nrsv, slabs := d.slabs * d.gangs
    idxs := List.range d.crewtg, k := 16 * d.regs, fixed := d.fixed, cbs := [] }

/-- The codebook slots that a crew's reservations name (R248). -/
def Crew.slots (c : Crew) : List Nat := c.rings.filterMap fun p => if p.2.cbe then some p.2.cbs else none

/-- The TGs of a crew that have not retired. -/
def Crew.liveTgs (c : Crew) (s : State) : List (Nat × Tg) := c.tgs.filterMap fun id => (s.tg id).map fun g => (id, g)

/-- The need of a crew that exists: fired, or saved. -/
def Crew.need (c : Crew) (s : State) (l : Launch) : Need :=
  { carve := l.desc.carveKiB, scratch := c.scratchSize, stage := c.stageSize, nrsv := c.nrsv, slabs := c.slabs * c.gmax
    idxs := (c.liveTgs s).map fun p => p.2.idx, k := c.k, fixed := l.desc.fixed && !c.spawned, cbs := c.slots }

/-- The sub-schedulers a core gives a crew, where it has room: the slabs of a crew until its last TG retires (R238). -/
def State.fits (s : State) (core : Nat) (x : Need) : Option (List Nat) :=
  let on := (s.crews.filter fun p => p.2.core == some core).map (·.2)
  let sum (f : Crew → Nat) : Nat := (on.map f).sum
  if (s.core core).carve == some x.carve && decide (sum (·.scratchSize) + x.scratch ≤ 1024 * x.carve) &&
      decide (sum (·.stageSize) + x.stage ≤ Config.stagingBytes) && decide (sum (·.nrsv) + x.nrsv ≤ Config.stagingRsv) &&
      decide (sum (fun c => if c.live = 0 then 0 else c.slabs * c.gmax) + x.slabs ≤ Config.slabsPerCore) &&
      !on.any (fun c => c.slots.any x.cbs.contains) then
    subsFor (s.subLoad core) x.k x.fixed (fun i => s.free (15 + 64 * i)) x.idxs
  else none

/-- Whether a crew may run on a core: fixed placement, and the die of a fired TG (R20, R292). -/
def coreAllowed (core num : Nat) (fixed : Bool) (die : Option Nat) : Bool :=
  decide (core < Config.numCores) && (!fixed || core == num % Config.numCores) && (die.isNone || die == some (dieOf core))

/-- A launch whose crews are being placed. -/
def Launch.placing (l : Launch) : Bool := (l.state == 2 || l.state == 3) && !l.failed && decide (l.placed.length < l.desc.ncrew)

/-- Whether some unplaced crew of a launch may run on a core. -/
def Launch.hasCrewFor (l : Launch) (core : Nat) : Bool :=
  if l.desc.fixed then
    let total := if core < l.desc.ncrew then (l.desc.ncrew - core - 1) / Config.numCores + 1 else 0
    decide ((l.placed.filter fun c => c % Config.numCores == core).length < total)
  else true

/-- Whether a context may run: neither it nor the module is halted (R344), the module is not disabled (R413), and its function is not
being reset (R405). -/
def State.runs (s : State) (ctx : Nat) : Bool :=
  !s.halted && !s.ralf.disabled && (s.ctx ctx).any fun c => !c.halted && !s.resetting.contains c.function

/-- The waiting crews that some core could take now: effective deadline, order, and what waits (a launch, or a crew). -/
def State.placeable (s : State) : List (Nat × Nat × Bool × Nat) :=
  let d := s.deadlines
  let cores := List.range Config.numCores
  (s.launches.filterMap fun p =>
    if p.2.placing && s.runs p.2.ctx && cores.any (fun k => p.2.hasCrewFor k && (s.fits k p.2.desc.need).isSome) then
      some ((SMap.find d (launchNode p.1)).getD (2 ^ 64), p.2.order, true, p.1)
    else none) ++
  (s.crews.filterMap fun p =>
    match s.launch p.2.launch with
    | none => none
    | some l =>
      if p.2.core.isNone && s.runs l.ctx && (!p.2.spawned || (s.tg (p.1 * 16)).any (·.slot.isSome)) &&
          cores.any (fun k => coreAllowed k p.2.num (p.2.need s l).fixed p.2.die && (s.fits k (p.2.need s l)).isSome) then
        some (s.crewDeadline p.1, p.2.order, false, p.1)
      else none)

/-- The arena of a new crew (R26, R142). -/
def newScratch (d : Desc) : SMap Byte :=
  let n := 256 * d.scratch
  (List.range d.nbar).foldl (fun m i =>
    let e := d.expa.getD i 0
    [(0, e.extractLsb' 0 8), (1, e.extractLsb' 8 8)].foldl (fun m p => SMap.set memDefault m (n - 16 * (i + 1) + p.1) p.2) m) []

/-- Crew `num` of a launch placed on a core (R142, R244, R291). -/
def State.placeNew (s : State) (lid : Nat) (l : Launch) (c : Context) (num core : Nat) (subs : List Nat) : State :=
  let d := l.desc
  let key := lid * 2 ^ 26 + num
  let ids := (List.range d.crewtg).map fun i => key * 16 + i
  let k : Crew :=
    { ctx := l.ctx, launch := lid, num := num, spawned := false, core := some core, saved := false, tgs := ids, live := d.crewtg
      scratchSize := 256 * d.scratch, nbar := d.nbar, scratch := newScratch d, stageSize := 256 * d.stage, nrsv := d.nrsv, staging := []
      rings := [], gangs := [], slabs := d.slabs, gmax := d.gangs, k := 16 * d.regs, order := l.order, die := none, preempt := false }
  let s1 := { s with crews := SMap.put s.crews key k }
  let s2 := (List.range d.crewtg).foldl (fun s i =>
    s.setTg (key * 16 + i) (launchedTg lid l c key (num * d.crewtg + i) core (subs.getD i 0) (s.stamp + i))) s1
  let placed := num :: l.placed
  ({ s2 with stamp := s.stamp + d.crewtg }).updLaunch lid fun x =>
    { x with placed := placed, state := if placed.length = d.ncrew then 3 else 2, flags := x.flags &&& 0xFE }

/-- A TG that was parked when it was saved stands at its wait until it reissues the waiting instruction; at a col it keeps its arrival,
which is part of the gang's context (R243, R331, R334). -/
def Wait.restored (w : Wait) : Wait :=
  match w with
  | .ready => .ready
  | .col m => .col m
  | .mac => .mac
  | _ => .reissue

/-- A fired or saved crew placed on a core; one that was saved goes on where it stopped (R301, R334). -/
def State.placeOld (s : State) (key : Nat) (k : Crew) (l : Launch) (c : Context) (core : Nat) (subs : List Nat) : State :=
  let s1 := s.modCrew key fun x => { x with core := some core, saved := false, preempt := false }
  let ids := (k.liveTgs s).map (·.1)
  let s2 := ids.zipIdx.foldl (fun s p =>
    s.modTg p.1 fun g =>
      let g1 := match g.slot, k.saved with
        | some m, false => g.inSlot l c m
        | _, _ => g
      { g1 with core := core, sub := subs.getD p.2 0, resident := true, order := s.stamp + p.2, preempt := false, held := false
                forced := false, sinceSafe := 0, wait := g1.wait.restored }) s1
  { s2 with stamp := s.stamp + ids.length }.updLaunch k.launch fun x => { x with flags := x.flags &&& 0xFE }

/-- R292: the command processor places the waiting crew of the earliest effective deadline. -/
def execCrewPlace (crew core : Nat) (s : State) : Out :=
  match earliest s.placeable with
  | none => .refused .eventNotEnabled
  | some (isLaunch, id) =>
    if isLaunch then
      match s.launch id with
      | none => .refused .eventNotEnabled
      | some l =>
        let num := crew - id * 2 ^ 26
        match s.ctx l.ctx, s.fits core l.desc.need with
        | some c, some subs =>
          if crew < id * 2 ^ 26 || decide (l.desc.ncrew ≤ num) || l.placed.contains num ||
              !coreAllowed core num l.desc.fixed none then .refused .eventNotEnabled
          else .next (s.placeNew id l c num core subs)
        | _, _ => .refused .eventNotEnabled
    else if crew ≠ id then .refused .eventNotEnabled
    else
      match s.crew id with
      | none => .refused .eventNotEnabled
      | some k =>
        match s.launch k.launch with
        | none => .refused .eventNotEnabled
        | some l =>
          match s.ctx l.ctx, s.fits core (k.need s l) with
          | some c, some subs =>
            if !coreAllowed core k.num (k.need s l).fixed k.die then .refused .eventNotEnabled
            else .next (s.placeOld id k l c core subs)
          | _, _ => .refused .eventNotEnabled

/-- R144: a core that holds no TG and no unfinished work takes another carve. DESIGN CHOICE, log 27. -/
def execCarveChange (core carve : Nat) (s : State) : Out :=
  if !decide (core < Config.numCores) || carve % 64 ≠ 0 || decide (carve < 128) || decide (640 < carve) ||
      s.crews.any (fun p => p.2.core == some core) || s.copies.any (fun p => p.2.core == core) then .refused .eventNotEnabled
  else .next (s.modCore core fun c => { c with carve := some carve })

/-- The carve-wait flag of R144: some crew of a launch, new, fired or saved, waits only because no core that may take it has the
carve or is empty. -/
def State.carveWaits (s : State) (id : Nat) (l : Launch) : Bool :=
  let cores := List.range Config.numCores
  let blocked (k : Nat) : Bool :=
    (s.core k).carve != some l.desc.carveKiB && s.tgs.any fun p => p.2.resident && p.2.core == k
  (l.placing && if l.desc.fixed then cores.any fun k => l.hasCrewFor k && blocked k else cores.all blocked) ||
    s.crews.any fun p => p.2.launch == id && p.2.core.isNone && (!p.2.spawned || (s.tg (p.1 * 16)).any (·.slot.isSome)) &&
      cores.all fun k => !coreAllowed k p.2.num (p.2.need s l).fixed p.2.die || blocked k

/-- The flag set in every launch of which a crew waits so; the placement of a crew clears it (R144). -/
def State.refreshCarve (s : State) : State :=
  s.launches.foldl (fun s p =>
    if s.carveWaits p.1 p.2 && !p.2.flags.getLsbD 0 then s.updLaunch p.1 fun x => { x with flags := x.flags ||| 1 } else s) s

end Sys2Proof.Machine
end

