-- ==== Sys2Proof/Machine/Tasks.lean ====
section
/-! DEFINITION. Task instructions (R303, R309, R312 to R321). -/

namespace Sys2Proof.Machine

/-! ### Reclamation (R309, R310, R326) -/

/-- The threads that the wait of a parked TG reclaims: none at the col of an instruction without S (R309) or after a mismatch there
(R241), and none while a fault is held, which is no wait (R152). -/
def State.waitReclaims (s : State) (g : Tg) : Mask :=
  match g.wait with
  | .col m =>
    if ((s.gang g.crew m).bind (·.col)).any fun c => isSafe c.instr && c.trapping.isNone then s.reclaimable g else 0
  | .mac | .ready | .heldFault .. => 0
  | _ => s.reclaimable g

/-- A parked TG's wait reclaims threads. The TG stays at a col while a thread is left; elsewhere, and with none left, its registration
is removed and it goes on with R78 or its instruction (R179, R309). -/
def State.reclaimParked (s : State) (id : Nat) : State :=
  match s.tg id with
  | none => s
  | some g =>
    let ts := s.waitReclaims g
    if ts = 0 then s
    else
      let go (s : State) : State := (s.modTg id fun x => { x with wait := .ready }).reclaim id
      match g.wait with
      | .col m => if g.mask &&& ~~~ts = 0 then go (s.leaveCol g.crew m g.idx) else s.reclaim id
      | _ => go s

/-! ### Operands -/

/-- The entry address of fspawn and bin.set: a scalar, or pc + IMM (R312). -/
def entryAddr (g : Tg) (f : RArgs) : W64 :=
  match f.a with
  | .limm => g.pc + (Hdr.imm f.h).signExtend 64
  | a => g.sAt (Spec.num a)

/-- The 64-bit value of thread `t`: a v pair, a scalar, or 0 for 0xC0 (R312). -/
def valueOf (g : Tg) (sp : Spec) (t : Nat) : W64 :=
  match sp with
  | .v n => g.v64 n.toNat t
  | .s n => g.sAt n.toNat
  | _ => 0

/-- An entry header of R300: REGS and the bin timer, or none where it is illegal. -/
def parseHeader (x : Nat) : Option (Nat × Nat) :=
  let regs := x % 256
  let timer := x / 2 ^ 16 % 2 ^ 16
  if regs < 4 || decide (16 < regs) || x / 256 % 256 ≠ 0 || x / 2 ^ 32 ≠ 0 then none
  else some (regs, if timer = 0 then 2048 else timer)

/-- The entry of fspawn and bin.set checked, and its header (R300, R313). DESIGN CHOICE, log 15. -/
def checkEntry (s : State) (g : Tg) (entry : W64) (t : Nat) : Except Stop (Nat × Nat) :=
  if entry.toNat % 8 ≠ 0 then .error (.trap .align entry t)
  else
    let va := entry - 8
    match s.checkGl g.core g.ctx [(t, va)] 8 .load with
    | some st => .error st
    | none =>
      match parseHeader (leNat (tgBytes g s (s.locOf g.core g.ctx va.toNat) 8 0)) with
      | some p => .ok p
      | none => .error (.trap .addr va t)

/-- The handles of an f register in the acting threads. -/
def actHandles (g : Tg) (h : Hdr) (sp : Spec) : List (Nat × W64) :=
  (g.acting h).threads.map fun t => (t, (g.fAt (Spec.num sp) t).h)

/-! ### fspawn (R302, R303, R313) -/

/-- The TG parks on its die's pool barrier (R302). -/
def State.parkPool (s : State) (id : Nat) : State :=
  s.modTg id fun g => { g with wait := .obj (.pool (dieOf g.core)) (s.die (dieOf g.core)).pool.phase }

/-- A thread put into the bin of its key; a new bin starts its timer, the 96th thread fires it; none where no bin is free
(R301). -/
def State.putBin (s : State) (die launch : Nat) (entry : W64) (regs timer : Nat) (x : BinThread) : Option State :=
  let bins := (s.die die).bins
  match bins.find? fun p => p.2.launch == launch && p.2.entry == entry with
  | some (b, bin) =>
    let bin' := { bin with threads := bin.threads ++ [x] }
    let s1 := s.modDie die fun d => { d with bins := SMap.put d.bins b bin' }
    some (if numThreads ≤ bin'.threads.length then s1.fireBin die b else s1)
  | none =>
    if Config.binsPerDie ≤ bins.length then none
    else
      let b := SMap.lowFree bins
      some (s.modDie die fun d =>
        { d with bins := SMap.put d.bins b { launch := launch, entry := entry, regs := regs, due := s.clk + timer, threads := [x] } })

/-- Why fspawn cannot place the next thread: it parks, no record is available (R303), or the future table cannot be reached at an
address (R306). -/
inductive SpawnStop where
  | park
  | noRecord
  | noTable (va : W64) (t : Nat)
deriving DecidableEq, Repr

/-- What fspawn places: register D, entry, REGS, timer. -/
structure SpawnArgs where
  d : Nat
  entry : W64
  regs : Nat
  timer : Nat

/-- One thread of fspawn (R313). -/
def State.spawnOne (s : State) (id : Nat) (x : SpawnArgs) (pay : W64) (t : Nat) : Except SpawnStop State :=
  match s.tg id with
  | none => .error .park
  | some g =>
    let k := g.taskAt t
    let die := dieOf g.core
    match s.takeRecord die (k.depth + 1) with
    | none => .error .noRecord
    | some (s1, rec) =>
      match s1.allocEntry g.ctx stPending (k.depth + 1) (hIndex k.own) g.task.tgdl false false with
      | .error .full => .error .park
      | .error (.noTable va) => .error (.noTable va t)
      | .ok (s2, h) =>
        let s3 := s2.putF id x.d t { h := h, counted := true }
        match s3.putBin die g.launch x.entry x.regs x.timer
            { handle := h, payload := pay, depth := k.depth + 1, srec := rec, dl := g.task.tgdl } with
        | none => .error .park
        | some s4 => .ok (s4.modTg id fun g =>
            { g with task := { g.task with spdone := g.task.spdone ||| BitVec.ofNat 96 (2 ^ t) } })

/-- fspawn over its threads in increasing order, as far as they can be placed. -/
def State.spawnAll (s : State) (id : Nat) (x : SpawnArgs) (pay : Nat → W64) : List Nat → State × Option SpawnStop
  | [] => (s, none)
  | t :: ts =>
    match s.spawnOne id x (pay t) t with
    | .error e => (s, some e)
    | .ok s1 => State.spawnAll s1 id x pay ts

/-- RUNNING entries for the threads of an inline call; it parks while the table is full. -/
def State.inlineEntries (s : State) (g : Tg) : List Nat → Except SpawnStop (State × SMap W64)
  | [] => .ok (s, [])
  | t :: ts =>
    let k := g.taskAt t
    match s.allocEntry g.ctx stRunning (k.depth + 1) (hIndex k.own) g.task.tgdl true false with
    | .error .full => .error .park
    | .error (.noTable va) => .error (.noTable va t)
    | .ok (s1, h) => (State.inlineEntries s1 g ts).map fun p => (p.1, (t, h) :: p.2)

/-- The bytes of an inline frame, whose layout is not visible (R303; DESIGN CHOICE, log 3). -/
def frameStores (s : State) (g : Tg) (va : W64) : List PStore :=
  (rangeBlocks va.toNat 12288).map fun v =>
    { loc := s.locOf g.core g.ctx v, va := BitVec.ofNat 64 v, tid := g.mask.lowest.getD 0, pos := s.stamp
      data := (List.range (blockLen va.toNat 12288 v)).map fun i => BitVec.ofNat 8 (s.free (7 + 64 * (v - va.toNat + i))) }

/-- The TG inside an inline call of the threads `q` (R303). -/
def Tg.inlined (g : Tg) (x : SpawnArgs) (q : Mask) (next : W64) (hs : SMap W64) (pay : Nat → W64) (stores : List PStore) : Tg :=
  let top := (List.range 8).map fun i => g.slotOf (56 + i)
  let fr : InlineFrame :=
    { mask := g.mask, q := q, ret := next, wbase := g.win.wbase, rdepth := g.reconv.depth, spdone := g.task.spdone, d := x.d
      fregs := (List.range 8).map fun r => (r, Row.tab (g.fAt r))
      vtop := top.foldl (fun m p => SMap.put m p (Row.tab fun t => Row.at (SMap.get [] g.v p) 0 t)) []
      tasks := g.threads, children := hs }
  let fOf (r t : Nat) : FReg :=
    if q.has t then (if r = 0 then { h := (SMap.find hs t).getD 0, counted := false } else fNull) else g.fAt r t
  let g1 : Tg := { g with
    frames := fr :: g.frames
    win := { g.win with wbase := g.win.wbase + 56 }
    mask := q
    f := (List.range 8).map fun r => (r, Row.tab (fOf r))
    threads := Row.tab fun t =>
      if q.has t then { own := (SMap.find hs t).getD 0, depth := (g.taskAt t).depth + 1, srec := .none, hold := false } else g.taskAt t
    stores := g.stores ++ stores
    pc := x.entry }
  g1.setV64 0 fun t => if q.has t then some (pay t) else none

/-- The inline mode of R303 for the threads left. -/
def inlineCall (s : State) (g : Tg) (x : SpawnArgs) (q : Mask) (next : W64) (pay : Nat → W64) (t0 : Nat) : Out :=
  if g.task.inldepth.toNat ≤ g.frames.length then
    halted s (.trap .spawnfull (BitVec.ofNat 64 (g.taskAt (q.lowest.getD 0)).depth) (q.lowest.getD 0))
  else
    match checkCall g.win 56 with
    | some p => windowTrap s g p
    | none =>
      let va := g.frameVa g.frames.length
      let ends := (rangeBlocks va.toNat 12288 ++ [va.toNat + 12287]).map fun v => (t0, BitVec.ofNat 64 v)
      match s.checkGl g.core g.ctx ends 1 .store with
      | some st => halted s st
      | none =>
        match s.inlineEntries g q.threads with
        | .error (.noTable va t) => halted s (.trap .addr va t)
        | .error _ => .next (s.parkPool s.cur)
        | .ok (s1, hs) =>
          let s2 := s1.touchAll g.core g.ctx (rangeBlocks va.toNat 12288) true
          done s2 ((s2.curTg g).inlined x q next hs pay (frameStores s g va))

/-- R313: TG-wide checks, and an effect per acting thread. DEDUCED, log 20. -/
def execFspawn (f : RArgs) (s : State) : Out :=
  onTg s fun g =>
    let act := g.acting f.h
    match act.lowest with
    | none => skip s g (RArgs.words f)
    | some t0 =>
      let entry := entryAddr g f
      match checkEntry s g entry t0 with
      | .error st => halted s st
      | .ok (regs, timer) =>
        match ((act.threads.find? fun t => (g.taskAt t).depth == 15).map fun t => Stop.trap .spawnfull 15 t).or
            (dropStop s g (act &&& ~~~g.task.spdone).threads (Spec.num f.d)) with
        | some st => halted s st
        | none =>
          let own := ((s.launch g.launch).map fun l => SMap.find l.timers entry.toNat).join
          let x : SpawnArgs := { d := Spec.num f.d, entry := entry, regs := regs, timer := own.getD timer }
          let pay (t : Nat) : W64 := valueOf g f.b t
          let s1 := (s.drain s.cur).touch g.core g.ctx (entry - 8).toNat false
          let (s2, stop) := s1.spawnAll s.cur x pay (act &&& ~~~g.task.spdone).threads
          let g2 := s2.curTg g
          let inl := (s2.launch g.launch).any fun l => l.desc.inlineMode
          match stop with
          | none => done s2 ({ g2 with task := { g2.task with spdone := 0 } }.advance (RArgs.words f))
          | some .park => .next (s2.parkPool s.cur)
          | some (.noTable va t) => halted s2 (.trap .addr va t)
          | some .noRecord =>
            if inl then inlineCall s2 g2 x (act &&& ~~~g2.task.spdone) (g2.advance (RArgs.words f)).pc pay t0
            else .next (s2.parkPool s.cur)

/-- R320. -/
def execBinSet (f : RArgs) (s : State) : Out :=
  onTg s fun g =>
    match g.once f.h with
    | none => skip s g (RArgs.words f)
    | some t0 =>
      let entry := entryAddr g f
      match checkEntry s g entry t0 with
      | .error st => halted s st
      | .ok _ =>
        let s1 := (s.touch g.core g.ctx (entry - 8).toNat false).modLaunch g.launch fun l =>
          { l with timers := match f.b with
              | .s n => SMap.put l.timers entry.toNat (min (max (g.sAt n.toNat).toNat 64) 65535)
              | _ => SMap.del l.timers entry.toNat }
        done s1 (g.advance (RArgs.words f))

/-! ### launch (R321) -/

/-- R321. -/
def execLaunch (f : RArgs) (s : State) : Out :=
  onTg s fun g =>
    match g.once f.h with
    | none => skip s g (RArgs.words f)
    | some t0 =>
      let va := g.sAt (Spec.num f.a)
      if va.toNat % 256 ≠ 0 then halted s (.trap .align va t0)
      else
        let s1 := s.drain s.cur
        if f.x.getLsbD 0 && (dropStop s g [t0] (Spec.num f.d)).isSome then
          halted s ((dropStop s g [t0] (Spec.num f.d)).getD (.trap .addr 0 t0))
        else if !f.x.getLsbD 0 then
          let s2 := s1.acceptLaunch g.ctx va none
          done s2 ((s2.curTg g).advance (RArgs.words f))
        else
          match s1.allocEntry g.ctx stRunning 0 (hIndex (g.taskAt t0).own) g.task.tgdl false true with
          | .error .full => .next (s1.parkPool s.cur)
          | .error (.noTable va) => halted s (.trap .addr va t0)
          | .ok (s2, h) =>
            let s3 := (s2.putF s.cur (Spec.num f.d) t0 { h := h, counted := true }).acceptLaunch g.ctx va (some h)
            done s3 ((s3.curTg g).advance (RArgs.words f))

/-! ### References (R314, R315) -/

/-- Additions that would pass 65,535: FFAIL and FCOUNT with the return address after the instruction (R315); else the
instruction completes. -/
def countDone (s : State) (g0 : Tg) (words : Nat) (failed : List (Nat × W64)) : Out :=
  let g := (s.curTg g0).advance words
  match failed with
  | [] => done s g
  | (t, h) :: _ =>
    let g1 := { g with task := { g.task with ffail := Mask.of fun u => failed.any fun p => p.1 == u } }
    .next ((s.setTg s.cur g1).enter s.cur .fcount g1.pc (BitVec.ofNat 64 (hIndex h)) t)

/-- R314. -/
def execFref (f : RArgs) (s : State) : Out :=
  onTg s fun g =>
    let hs := actHandles g f.h f.a
    match (handleStop s g hs).or (dropStop s g (g.acting f.h).threads (Spec.num f.d)) with
    | some st => halted s st
    | none =>
      let r := hs.foldl (fun (r : State × List (Nat × W64)) p =>
        if p.2 = 0 then (r.1.putF s.cur (Spec.num f.d) p.1 fNull, r.2)
        else match r.1.addRef g.ctx p.2 with
          | some s1 => (s1.putF s.cur (Spec.num f.d) p.1 { h := p.2, counted := true }, r.2)
          | none => (r.1, r.2 ++ [p])) (s, [])
      countDone r.1 g (RArgs.words f) r.2

/-- R314. -/
def execFdrop (f : RArgs) (s : State) : Out :=
  onTg s fun g =>
    let hs := actHandles g f.h f.a
    match handleStop s g hs with
    | some st => halted s st
    | none =>
      let s1 := hs.foldl (fun s' p => s'.putF s.cur (Spec.num f.a) p.1 fNull) s
      done s1 ((s1.curTg g).advance (RArgs.words f))

/-- R314. -/
def execFself (f : RArgs) (s : State) : Out :=
  onTg s fun g =>
    match dropStop s g (g.acting f.h).threads (Spec.num f.d) with
    | some st => halted s st
    | none =>
      let s1 := (g.acting f.h).threads.foldl (fun s' t =>
        s'.putF s.cur (Spec.num f.d) t { h := (g.taskAt t).own, counted := false }) s
      done s1 ((s1.curTg g).advance (RArgs.words f))

/-- The accesses of fstm and fldm (R312): as ld.gl forms them, with z = 8. -/
def cellAccs (g : Tg) (f : RArgs) : List (Nat × W64) := (g.acting f.h).threads.map fun t => (t, glAddr g f 8 t)

/-- One thread of fstm: the new target is counted, the cell exchanged, a live old target dropped (R315). -/
def fstmOne (g : Tg) (r : State × List (Nat × W64)) (loc : Nat) (h : W64) (t : Nat) : State × List (Nat × W64) :=
  match (if h = 0 then some r.1 else r.1.addRef g.ctx h) with
  | none => (r.1, r.2 ++ [(t, h)])
  | some s1 =>
    let old := BitVec.ofNat 64 (leNat (s1.bytes loc 8 (8 * t)))
    ((s1.write loc 8 h.toNat).dropRef g.ctx old, r.2)

/-- R315: a relaxed exchange of each cell, which a fence may make a release or an acquire (R198). -/
def execFstm (f : RArgs) (s : State) : Out :=
  onTg s fun g =>
    let accs := cellAccs g f
    if accs.isEmpty then skip s g (RArgs.words f)
    else
      match s.checkGl g.core g.ctx accs 8 .rmw with
      | some st => halted s st
      | none =>
        match handleStop s g (actHandles g f.h f.cs) with
        | some st => halted s st
        | none =>
          let locs := accs.map fun p => (p.1, s.locOf g.core g.ctx p.2.toNat)
          let places := locs.map fun p => (ObjRef.glob p.2, 8)
          let s1 := ((s.readOrder 1 4 places).performTo s.cur (locs.map fun p => (p.2, 8))).touchAll g.core g.ctx
            (accs.map fun p => p.2.toNat) true
          let olds := locs.map fun p => (p.1, BitVec.ofNat 64 (leNat (s1.bytes p.2 8 (8 * p.1))))
          match handleStop s1 g (olds.filter fun p => s1.lookup g.ctx p.2 == .noTable) with
          | some st => halted s st
          | none =>
            let r := locs.foldl (fun r p => fstmOne g r p.2 (g.fAt (Spec.num f.cs) p.1).h p.1) (s1, [])
            countDone (r.1.released 1 4 places) g (RArgs.words f) r.2

/-- R315: a load of each cell. -/
def execFldm (f : RArgs) (s : State) : Out :=
  onTg s fun g =>
    let accs := cellAccs g f
    if accs.isEmpty then skip s g (RArgs.words f)
    else
      match s.checkGl g.core g.ctx accs 8 .load with
      | some st => halted s st
      | none =>
        let locs := accs.map fun p => (p.1, s.locOf g.core g.ctx p.2.toNat)
        let s1 := ((s.readOrder 1 4 (locs.map fun p => (.glob p.2, 8))).performTo s.cur (locs.map fun p => (p.2, 8))).touchAll
          g.core g.ctx (accs.map fun p => p.2.toNat) false
        let cells := locs.map fun p => (p.1, BitVec.ofNat 64 (leNat (s1.bytes p.2 8 (8 * p.1))))
        match (handleStop s1 g (cells.filter fun p => s1.lookup g.ctx p.2 == .noTable)).or
            (dropStop s g (g.acting f.h).threads (Spec.num f.d)) with
        | some st => halted s st
        | none =>
          let r := cells.foldl (fun (r : State × List (Nat × W64)) p =>
            match r.1.lookup g.ctx p.2 with
            | .entry .. => match r.1.addRef g.ctx p.2 with
              | some s2 => (s2.putF s.cur (Spec.num f.d) p.1 { h := p.2, counted := true }, r.2)
              | none => (r.1, r.2 ++ [p])
            | _ => (r.1.putF s.cur (Spec.num f.d) p.1 fNull, r.2)) (s1, [])
          countDone r.1 g (RArgs.words f) r.2

/-! ### fwait, fpoll, fput (R316, R317) -/

/-- The entries of handles that have passed the checks. -/
def entriesOf (s : State) (g : Tg) (hs : List (Nat × W64)) : List (Nat × Nat × Entry) :=
  hs.filterMap fun p => match s.lookup g.ctx p.2 with
    | .entry _ e => some (p.1, hIndex p.2, e)
    | _ => none

/-- The entries of handles are read: their pages are used (R149). -/
def State.readEntries (s : State) (g : Tg) (hs : List (Nat × W64)) : State :=
  hs.foldl (fun s p => s.usedEntry g.ctx (hIndex p.2) false) s

/-- Where a put of an entry stands: the entry, and its bytes in memory. -/
def entryPlaces (s : State) (ctx index : Nat) : List (ObjRef × Nat) :=
  (.fut ctx index, 32) :: (s.entryLoc ctx index).toList.map fun loc => (.glob loc, 32)

/-- DONE results are acquired at dev scope (R316). -/
def State.takeResults (s : State) (g : Tg) (es : List (Nat × Nat × Entry)) : State :=
  s.readOrder 2 4 ((es.filter fun p => p.2.2.state == stDone).map fun p => (.fut g.ctx p.2.1, 32))

def Entry.finished (e : Entry) : Bool := e.state == stDone || e.state == stFailed

/-- A null handle in an acting thread of fwait or fpoll traps ADDR after the check of R312 (R316). -/
def waitStop (s : State) (g : Tg) (hs : List (Nat × W64)) : Option Stop :=
  (handleStop s g hs).or ((hs.find? fun p => p.2 == 0).map fun p => .trap .addr 0 p.1)

/-- R316. -/
def execFwait (f : RArgs) (s : State) : Out :=
  onTg s fun g =>
    let hs := actHandles g f.h f.a
    match waitStop s g hs with
    | some st => halted s st
    | none =>
      let es := entriesOf s g hs
      let pend := es.filter fun p => !p.2.2.finished
      if !pend.isEmpty then
        .next ((s.readEntries g hs).setTg s.cur { g with wait := .futs (pend.map fun p => (p.2.1, p.2.2.phase)).eraseDups })
      else
        let at' (t : Nat) : Option Entry := (es.find? fun p => p.1 == t).map fun p => p.2.2
        let s1 := (s.readEntries g hs).takeResults g es
        let g1 := (s1.curTg g).setV64 (Spec.num f.d) fun t => (at' t).map (·.result)
        let g2 := if f.x.getLsbD 0 then
            g1.setP (Spec.num f.cs) fun t => (at' t).map fun e => (allBits (e.state == stDone), 15)
          else g1
        done s1 (g2.advance (RArgs.words f))

/-- R316. -/
def execFpoll (f : RArgs) (s : State) : Out :=
  onTg s fun g =>
    let hs := actHandles g f.h f.a
    match waitStop s g hs with
    | some st => halted s st
    | none =>
      let es := entriesOf s g hs
      let at' (t : Nat) : Option Entry := (es.find? fun p => p.1 == t).map fun p => p.2.2
      let s1 := (s.readEntries g hs).takeResults g es
      let g1 := (s1.curTg g).setV64 (Spec.num f.d) fun t => (at' t).bind fun e => if e.finished then some e.result else none
      let g2 := g1.setP (Spec.num f.cs) fun t => (at' t).map fun e => (allBits e.finished, 15)
      done s1 (g2.advance (RArgs.words f))

/-- fput of one thread (R317). -/
def State.putResult (s : State) (ctx : Nat) (h value : W64) : State :=
  match s.lookup ctx h with
  | .entry loc e =>
    if e.state ≠ stRunning then s
    else if e.doom then s.setEntry ctx (hIndex h) loc { e with result := value }
    else s.setEntry ctx (hIndex h) loc { e with result := value, state := stDone, phase := e.phase + 1 }
  | _ => s

/-- The places of the entries that fput makes DONE. -/
def putPlaces (s : State) (ctx : Nat) (hs : List W64) : List (ObjRef × Nat) :=
  hs.flatMap fun h => match s.lookup ctx h with
    | .entry _ e => if e.state = stRunning && !e.doom then entryPlaces s ctx (hIndex h) else []
    | _ => []

/-- R317: the put is a dev-scope release. -/
def execFput (f : RArgs) (s : State) : Out :=
  onTg s fun g =>
    let ts := (g.acting f.h).threads
    let own := ts.map fun t => (t, (g.taskAt t).own)
    match handleStop s g (own.filter fun p => s.lookup g.ctx p.2 == .noTable) with
    | some st => halted s st
    | none =>
      if ts.isEmpty then skip s g (RArgs.words f)
      else
        let s0 := own.foldl (fun s' p => if p.2 = 0 then s' else s'.putResult g.ctx p.2 (valueOf g f.a p.1)) s
        let s1 := s0.releaseAll 4 (putPlaces s g.ctx ((own.map (·.2)).filter (· != 0)))
        done s1 ((s1.curTg g).advance (RArgs.words f))

/-! ### yield, fhold, frel (R318, R319) -/

/-- R319. -/
def execYield (f : RArgs) (s : State) : Out :=
  onTg s fun g =>
    match g.once f.h with
    | none => skip s g (RArgs.words f)
    | some _ =>
      let s1 := s.newSlice s.cur
      let g1 := s1.curTg g
      let dl := match f.a with
        | .s n => s.gtime + g.sAt n.toNat
        | _ => g1.task.tgdl
      let bud := match f.b with
        | .s n => (g.sAt n.toNat).setWidth 32
        | _ => g1.task.tgbud
      done s1 ({ g1 with task := { g1.task with tgdl := dl, tgbud := bud } }.advance (RArgs.words f))

/-- The hold mark of the acting threads set or cleared. -/
def Tg.setHold (g : Tg) (ts : Mask) (b : Bool) : Tg :=
  { g with threads := Row.tab fun t => if ts.has t then { g.taskAt t with hold := b } else g.taskAt t }

/-- R318. -/
def execFhold (f : RArgs) (s : State) : Out :=
  onTg s fun g => done s ((g.setHold (g.acting f.h) true).advance (RArgs.words f))

/-- R318: the marks are cleared, and the instruction is a reclamation point. -/
def execFrel (f : RArgs) (s : State) : Out :=
  onTg s fun g =>
    let s1 := s.setTg s.cur ((g.setHold (g.acting f.h) false).advance (RArgs.words f))
    .next ((s1.reclaim s.cur).settle s.cur)

end Sys2Proof.Machine
end

