-- ==== Sys2Proof/Machine/System.lean ====
section
/-! DEFINITION. System instructions (R327, R336 to R344). -/

namespace Sys2Proof.Machine

/-! ### System registers (R336) -/

/-- Register slots that a save takes at a pre-emption point: WLO to min(WBASE + 63, WLO + k − 1) (R333). -/
def Tg.liveSlots (g : Tg) : Nat :=
  min (g.win.wbase.toNat + 63) (g.win.wlo.toNat + g.win.k - 1) + 1 - g.win.wlo.toNat

/-- Bytes that a save would take with `slots` register slots (R334). -/
def saveSize (s : State) (g : Tg) (slots : Nat) : Nat :=
  let c := s.crewOf g
  let crewPart := if g.idx = 0 then c.scratchSize + c.stageSize + 16 * c.rings.length else 0
  let gangs := c.gangs.filter fun p => p.2.formed && !p.2.dissolved &&
    ((List.range 16).find? fun i => p.2.mask.getLsbD i) == some g.idx
  12288 + 384 * slots + 16 * g.share.length + crewPart + (gangs.map fun p => 256 * p.2.occ + 64).sum

/-- A mask register of three words. -/
def maskReg (m : Mask) (n base : Nat) : W64 := (maskWord m (n - base)).setWidth 64

/-- The value of system register `n` (R336, R341). -/
def sysRead (s : State) (g : Tg) (n : Nat) : W64 :=
  let d := s.die (dieOf g.core)
  let ctx (f : Context → W64) : W64 := ((s.ctx g.ctx).map f).getD 0
  let b (x : Bool) : W64 := if x then 1 else 0
  match n with
  | 0x00 => g.trap.tpc
  | 0x01 => g.trap.tcause.setWidth 64
  | 0x02 => g.trap.taddr
  | 0x03 => g.trap.ttid.setWidth 64
  | 0x04 | 0x05 | 0x06 => maskReg g.trap.tam n 0x04
  | 0x07 => g.trap.twbase.setWidth 64
  | 0x08 => g.trap.tvec
  | 0x09 => b g.trap.tstat
  | 0x10 => g.win.wbase.setWidth 64
  | 0x11 => g.win.wlo.setWidth 64
  | 0x12 => g.win.wneed.setWidth 64
  | 0x13 => g.win.wspill
  | 0x14 => g.win.wspill + 384 * g.win.wlo.setWidth 64
  | 0x15 => g.reconv.rspill
  | 0x16 => BitVec.ofNat 64 g.reconv.depth
  | 0x17 | 0x18 | 0x19 => maskReg g.xmask n 0x17
  | 0x1A => g.mode.memdef
  | 0x1B => ctx (·.seed)
  | 0x1C => g.mode.srseq.setWidth 64
  | 0x1D => g.mode.gmask.setWidth 64
  | 0x1E => g.mode.rankcap.setWidth 64
  | 0x1F => g.mode.mtol.setWidth 64
  | 0x20 => b g.mode.rmode
  | 0x21 => g.task.tgdl
  | 0x22 => g.task.tgbud.setWidth 64
  | 0x23 | 0x24 | 0x25 => maskReg g.task.spdone n 0x23
  | 0x26 => BitVec.ofNat 64 g.frames.length
  | 0x27 => g.task.inlbase
  | 0x28 => g.task.inldepth.setWidth 64
  | 0x29 | 0x2A | 0x2B => maskReg g.task.ffail n 0x29
  | 0x2C => BitVec.ofNat 64 (saveSize s g g.liveSlots)
  | 0x2D => BitVec.ofNat 64 (saveSize s g g.win.k)
  | 0x2E => g.win.wtlim.setWidth 64
  | 0x30 => ctx (·.ftbase)
  | 0x31 => ctx (·.ftsize)
  | 0x32 => ctx (·.safemax)
  | 0x33 => ctx fun c => b c.faultmode
  | 0x34 => ctx fun c => b c.system
  | 0x35 => ctx (·.savebase)
  | 0x40 => ctx (·.ptroot)
  | 0x41 => d.fqbase
  | 0x42 => d.fqsize
  | 0x43 => d.fqhead
  | 0x44 => d.fqtail
  | 0x45 => d.fqbar
  | 0x46 => d.fbbase
  | _ => 0

/-- Whether a value may be written to register `n` (R271, R306, R333, R336, R337). -/
def sysValueOk (n : Nat) (x : W64) : Bool :=
  let below (k : Nat) : Bool := decide (x.toNat < 2 ^ k)
  match n with
  | 0x04 | 0x05 | 0x06 | 0x07 | 0x10 | 0x11 | 0x1C | 0x1F | 0x22 => below 32
  | 0x15 => x.extractLsb' 0 5 == 0
  | 0x1E => below 6
  | 0x20 | 0x33 => below 1
  | 0x31 => x != 0 && decide (x.toNat ≤ 2 ^ 20) && x &&& (x - 1) == 0
  | 0x32 => decide (1024 ≤ x.toNat) && decide (x.toNat ≤ 65535)
  | 0x35 => x.extractLsb' 0 8 == 0
  | 0x40 => x.extractLsb' 0 21 == 0
  | _ => true

/-- Register `n` of the current TG, its context or its die written (R337). -/
def sysWrite (s : State) (g : Tg) (n : Nat) (x : W64) : State :=
  let tg (f : Tg → Tg) : State := s.modTg s.cur f
  let trap (f : TrapRegs → TrapRegs) : State := tg fun g => { g with trap := f g.trap }
  let win (f : WinRegs → WinRegs) : State := tg fun g => { g with win := f g.win }
  let mode (f : ModeRegs → ModeRegs) : State := tg fun g => { g with mode := f g.mode }
  let task (f : TaskRegs → TaskRegs) : State := tg fun g => { g with task := f g.task }
  let ctx (f : Context → Context) : State := s.modCtx g.ctx f
  let die (f : Die → Die) : State := s.modDie (dieOf g.core) f
  let w : W32 := x.setWidth 32
  match n with
  | 0x00 => trap fun r => { r with tpc := x }
  | 0x04 => trap fun r => { r with tam := setMaskWord r.tam 0 w }
  | 0x05 => trap fun r => { r with tam := setMaskWord r.tam 1 w }
  | 0x06 => trap fun r => { r with tam := setMaskWord r.tam 2 w }
  | 0x07 => trap fun r => { r with twbase := w }
  | 0x10 => win fun r => { r with wbase := w }
  | 0x11 => win fun r => { r with wlo := w }
  | 0x13 => win fun r => { r with wspill := x }
  | 0x15 => tg fun g => { g with reconv := { g.reconv with rspill := x } }
  | 0x1B => ctx fun c => { c with seed := x }
  | 0x1C => mode fun r => { r with srseq := w }
  | 0x1E => mode fun r => { r with rankcap := x.setWidth 6 }
  | 0x1F => mode fun r => { r with mtol := w }
  | 0x20 => mode fun r => { r with rmode := x.getLsbD 0 }
  | 0x21 => task fun r => { r with tgdl := x }
  | 0x22 => task fun r => { r with tgbud := w }
  | 0x30 => ctx fun c => { c with ftbase := x }
  | 0x31 => ctx fun c => { c with ftsize := x }
  | 0x32 => ctx fun c => { c with safemax := x }
  | 0x33 => ctx fun c => { c with faultmode := x.getLsbD 0 }
  | 0x35 => ctx fun c => { c with savebase := x }
  | 0x40 => ctx fun c => { c with ptroot := x }
  | 0x41 => die fun d => { d with fqbase := x }
  | 0x42 => die fun d => { d with fqsize := x }
  | 0x43 => die fun d => { d with fqhead := x, server := some g.launch }
  | 0x45 => die fun d => { d with fqbar := x }
  | 0x46 => die fun d => { d with fbbase := x }
  | _ => s

/-- PRIV at decode, whatever the guard (R67 step 5). DEDUCED, log 29. -/
def privTrap (s : State) (g : Tg) (i : Instr) : Out := halted s (.trap .priv (firstWord i) (g.mask.lowest.getD 0))

/-- A state in which the current TG goes on with its next instruction. -/
def goOn (s : State) (g : Tg) (words : Nat) : Out := done s ((s.curTg g).advance words)

/-- R341. -/
def execSysr (f : RArgs) (s : State) : Out :=
  onTg s fun g =>
    match g.once f.h with
    | none => skip s g (RArgs.words f)
    | some _ => done s ((g.setS (Spec.num f.d) (sysRead s g (srn f))).advance (RArgs.words f))

/-- R337, R341. -/
def execSysw (f : RArgs) (s : State) : Out :=
  onTg s fun g =>
    if sysPrivileged (srn f) && !s.privileged g then privTrap s g (.sysw f)
    else
      match g.once f.h with
      | none => skip s g (RArgs.words f)
      | some _ =>
        let x := g.sAt (Spec.num f.a)
        if !sysValueOk (srn f) x then illop s g (.sysw f) else goOn (sysWrite s g (srn f) x) g (RArgs.words f)

/-- The values of MEMDEF that R64 allows. -/
def memdefOk (x : W64) : Bool :=
  let ord := (x.extractLsb' 8 3).toNat
  let scp := (x.extractLsb' 5 3).toNat
  let spc := (x.extractLsb' 3 2).toNat
  let pol := (x.extractLsb' 0 3).toNat
  x.extractLsb' 11 53 == 0 && (ord == 1 || ord == 5) && decide (1 ≤ scp) && decide (scp ≤ 5) && (spc == 1 || spc == 2) &&
    decide (1 ≤ pol) && decide (pol ≤ 4)

/-- R64: the writer's copy and the context value. -/
def execSyswMemdef (f : RArgs) (s : State) : Out :=
  onTg s fun g =>
    match g.once f.h with
    | none => skip s g (RArgs.words f)
    | some _ =>
      let x := g.sAt (Spec.num f.a)
      if !memdefOk x then illop s g (.syswMemdef f)
      else
        let s1 := (s.modTg s.cur fun g => { g with mode := { g.mode with memdef := x } }).modCtx g.ctx fun c => { c with memdef := x }
        goOn s1 g (RArgs.words f)

/-- R338: the writer's TVEC, its launch's, and in a system context the context's. -/
def execSyswTvec (f : RArgs) (s : State) : Out :=
  onTg s fun g =>
    match g.once f.h with
    | none => skip s g (RArgs.words f)
    | some _ =>
      let x := g.sAt (Spec.num f.a)
      if x.toNat % 2048 ≠ 0 then illop s g (.syswTvec f)
      else
        let s1 := (s.modTg s.cur fun g => { g with trap := { g.trap with tvec := x } }).modLaunch g.launch fun l => { l with tvec := x }
        let s2 := if s.privileged g then s1.modCtx g.ctx fun c => { c with tvec := x } else s1
        goOn s2 g (RArgs.words f)

/-! ### Traps and returns (R327, R340) -/

/-- R340. -/
def execTrap (f : IArgs) (s : State) : Out :=
  onTg s fun g =>
    match g.once f.h with
    | none => skip s g (IArgs.words f)
    | some t => .next (s.enter s.cur .user (g.advance (IArgs.words f)).pc (BitVec.ofNat 64 (f.c.toNat % 256)) t)

/-- R340. -/
def execBrkpt (f : RArgs) (s : State) : Out :=
  onTg s fun g =>
    match g.once f.h with
    | none => skip s g (RArgs.words f)
    | some t => .next (s.enter s.cur .brkpt (g.advance (RArgs.words f)).pc 0 t)

/-- R327. -/
def execRett (f : RArgs) (s : State) : Out :=
  onTg s fun g =>
    match s.leave s.cur with
    | none => illop s g (.rett f)
    | some s1 => .next (s1.settle s.cur)

/-! ### tlb.inv (R342) -/

/-- What a tlb.inv covers: contexts, and a range or everything. -/
def tlbCovers (ctx : Nat) (all whole : Bool) (a n : Nat) (e : TlbEntry) : Bool :=
  (all || e.ctx == ctx) && (all || whole || (decide (e.base < a + n) && decide (a < e.base + e.size)))

/-- R342: earlier accesses of the TG are performed, those already translated too, the late halves of 16-byte accesses among them, and no TLB
holds a covered entry. -/
def execTlbInv (f : RArgs) (s : State) : Out :=
  onTg s fun g =>
    if !s.privileged g then privTrap s g (.tlbInv f)
    else
      match g.once f.h with
      | none => skip s g (RArgs.words f)
      | some _ =>
        let all := f.x.getLsbD 1
        let whole := f.x.getLsbD 0 || f.b == .imm 0
        let hit := tlbCovers g.ctx all whole (g.sAt (Spec.num f.a)).toNat (valueOf g f.b 0).toNat
        let ids := (s.tgs.filter fun p => all || p.2.ctx == g.ctx).map (·.1)
        let s1 := ids.foldl (fun s id => (s.finishLate id).drain id) s
        let keep (l : List TlbEntry) : List TlbEntry := l.filter fun e => !hit e
        let s2 := (List.range Config.numCores).foldl (fun s c => s.modCore c fun k => { k with tlb := keep k.tlb }) s1
        let s3 := (List.range Config.numDies).foldl (fun s d => s.modDie d fun k => { k with tlb := keep k.tlb }) s2
        goOn s3 g (RArgs.words f)

/-! ### mcload (R343) -/

/-- The keys of the Ralfester key store, as Config.signatureOk numbers them. -/
def keyRalfester : Nat := 0
def keyProcessor : Nat := 1
def keyMicrocode : Nat := 2

/-- Body bytes of a well-formed image header. -/
def imageLen (hdr : List Byte) : Option Nat :=
  let n := fieldAt hdr 0 8
  if n % 8 ≠ 0 || n < 8 || 65536 < n || fieldAt hdr 48 16 ≠ 0 then none else some n

/-- The status of an image, and the slot it gives. -/
def judgeImage (s : State) (img : List Byte) (n : Nat) : Nat × Option Microcode :=
  let signed := img.take (64 + n)
  let ver : W64 := BitVec.ofNat 64 (fieldAt img 8 8)
  let q (lo : Nat) : W64 := BitVec.ofNat 64 (fieldAt img lo 8)
  if s.ralf.keysErased || !Config.signatureOk keyMicrocode signed (img.drop (64 + n)) then (1, none)
  else if ver < s.ralf.microFloor then (2, none)
  else (0, some { ver := ver, fndef := q 16, fnpriv := q 24, longi := q 32, longk := q 40, image := img })

/-- A slot number: a scalar or small immediate 0 to 7; another value is ILLOP. -/
def slotNum (g : Tg) (sp : Spec) : Option Nat :=
  let x := match sp with
    | .s n => (g.sAt n.toNat).toNat
    | sp => Spec.num sp
  if x < 8 then some x else none

/-- The bytes of an image of `n` bytes at an address, as the TG reads them. -/
def imageBytes (s : State) (g : Tg) (va n : Nat) : List Byte :=
  (rangeBlocks va n).flatMap fun v => tgBytes g s (s.locOf g.core g.ctx v) (blockLen va n v) 0

/-- The reads of an image's bytes: dev-scope acquires, which use their pages (R343). -/
def State.readImage (s : State) (g : Tg) (va n : Nat) : State :=
  (s.readOrder 2 4 ((rangeBlocks va n).map fun v => (.glob (s.locOf g.core g.ctx v), blockLen va n v))).touchAll g.core g.ctx
    (rangeBlocks va n) false

/-- R343; from zeroisation on no image has its header judged, and the status is 1 (R415). DEDUCED, log 30. -/
def execMcload (f : RArgs) (s : State) : Out :=
  onTg s fun g =>
    if !s.privileged g then privTrap s g (.mcload f)
    else
      match g.once f.h with
      | none => skip s g (RArgs.words f)
      | some t =>
        let fin (s1 : State) (st : Nat) : Out :=
          done s1 (((s1.curTg g).setS (Spec.num f.d) (BitVec.ofNat 64 st)).advance (RArgs.words f))
        match slotNum g f.b with
        | none => illop s g (.mcload f)
        | some slot =>
          if f.x.getLsbD 0 then fin { s with microcode := SMap.del s.microcode slot } 0
          else
            let va := g.sAt (Spec.num f.a)
            match s.checkGl g.core g.ctx [(t, va)] 64 .load with
            | some st => halted s st
            | none =>
              let s0 := s.readImage g va.toNat 64
              if s.ralf.keysErased then fin s0 1 else
              match imageLen (imageBytes s0 (s0.curTg g) va.toNat 64) with
              | none => fin s0 3
              | some n =>
                let total := 64 + n + 96
                match s.checkGl g.core g.ctx ((rangeBlocks va.toNat total).map fun v => (t, BitVec.ofNat 64 v)) 1 .load with
                | some st => halted s st
                | none =>
                  let s1 := s0.readImage g va.toNat total
                  let (st, mc) := judgeImage s1 (imageBytes s1 (s1.curTg g) va.toNat total) n
                  fin (match mc with
                    | some m => { s1 with microcode := SMap.put s1.microcode slot m }
                    | none => s1) st

/-! ### halt (R344) -/

/-- Every TG of the contexts that satisfy `p` stops at its next instruction boundary, to be saved as by a forced stop. -/
def State.haltWhere (s : State) (p : Nat → Bool) : State :=
  { s with
    contexts := s.contexts.map fun c => if p c.1 then (c.1, { c.2 with halted := true }) else c
    tgs := s.tgs.map fun t =>
      if p t.2.ctx && t.2.resident then (t.1, { t.2 with preempt := true, held := true, forced := true }) else t
    crews := s.crews.map fun c => if p c.2.ctx && c.2.core.isSome then (c.1, { c.2 with preempt := true }) else c }

/-- The whole module stops (R344). -/
def State.haltModule (s : State) : State := { s.haltWhere fun _ => true with halted := true }

/-- R344. -/
def execHalt (f : RArgs) (s : State) : Out :=
  onTg s fun g =>
    if !s.privileged g then privTrap s g (.halt f)
    else
      match g.once f.h with
      | none => skip s g (RArgs.words f)
      | some _ =>
        let s1 := s.setTg s.cur (g.advance (RArgs.words f))
        .next (if f.x.getLsbD 0 then s1.haltModule else s1.haltWhere fun c => c == g.ctx)

end Sys2Proof.Machine
end

