-- ==== Sys2Proof/Machine/Macro.lean ====
section
/-! DEFINITION. What every macro shares: reasons, steps and their ends, stops, the end of a macro (R350 to R357). -/

namespace Sys2Proof.Machine

/-! ### Reasons (R351) -/

def rRun : Nat := 0
def rHit : Nat := 1
def rMiss : Nat := 2
def rAlpha : Nat := 3
def rCandFull : Nat := 4
def rBufFull : Nat := 5
def rFaultCb : Nat := 6
def rSlice : Nat := 7
def rDone : Nat := 8

/-- The reason code of a thread. -/
def Tg.reason (g : Tg) (t : Nat) : Nat := (g.vAt 63 t).toNat % 256

/-- One word of one thread written. -/
def Tg.put1 (g : Tg) (n t : Nat) (x : W32) : Tg := g.setV n fun u => if u = t then some x else none

/-- v63 of a thread written with a reason, and an access kind above it (R350, R354). -/
def Tg.setReason (g : Tg) (t r : Nat) (kind : Nat := 0) : Tg := g.put1 63 t (BitVec.ofNat 32 (r + 256 * kind))

/-- Whether a stop waits for the TG (R353); none does in a handler (R326). -/
def Tg.stopPending (g : Tg) : Bool := !g.trap.tstat && (g.preempt || g.budgetDue)

/-! ### The end of a step -/

/-- Why a step performs nothing: a stop of R151 or an illegal record, and the access kind of fault-callback mode (R354). -/
structure StepStop where
  st : Stop
  kind : Nat
deriving DecidableEq, Repr

/-- A step's checks and what they give. -/
abbrev StepM := Except StepStop

/-- Every check of R151 on one access of `z` bytes in thread `t`; the state has the page used (R149), and what a relaxed read meets noted
(R198, R199). -/
def stepCheck (s : State) (g : Tg) (t : Nat) (va : W64) (z : Nat) (k : AccKind) (kind : Nat) : StepM State :=
  match s.checkGl g.core g.ctx [(t, va)] z k with
  | some st => .error { st := st, kind := kind }
  | none =>
    let s1 := s.touch g.core g.ctx va.toNat k.writes
    .ok (if k == .store then s1 else s1.noteSeen (s1.meets [(.glob (s.locOf g.core g.ctx va.toNat), z)]))

/-- The checks of accesses one after another. -/
def stepChecks (s : State) (g : Tg) (t z : Nat) (k : AccKind) (kind : Nat) : List W64 → StepM State
  | [] => .ok s
  | va :: r =>
    match stepCheck s g t va z k kind with
    | .error e => .error e
    | .ok s1 => stepChecks s1 g t z k kind r

/-- An illegal record found by a step: ADDR with its address. -/
def stepAddr (t : Nat) (va : W64) : StepStop := { st := .trap .addr va t, kind := 0 }

/-- Bytes that a macro of the TG reads: relaxed, its own stores included (R355). -/
def macBytes (s : State) (g : Tg) (va : W64) (n : Nat) : List Byte := tgBytes g s (s.locOf g.core g.ctx va.toNat) n 0

def macNat (s : State) (g : Tg) (va : W64) (n : Nat) : Nat := leNat (macBytes s g va n)

/-- A relaxed store of the macro in thread `t`, in the TG's program order (R355). -/
def Tg.macStore (g : Tg) (s : State) (t : Nat) (va : W64) (bs : List Byte) : Tg :=
  { g with stores := g.stores ++ [{ loc := s.locOf g.core g.ctx va.toNat, data := bs, va := va, tid := t, pos := s.stamp }] }

/-- The ADDR trap of cells to be exchanged, by thread and address, where the table that an old handle names cannot be reached (R306,
R315, R355). -/
def cellStop (s : State) (g : Tg) (cells : List (Nat × W64)) : Option Stop :=
  handleStop s g ((cells.map fun p => (p.1, BitVec.ofNat 64 (macNat s g p.2 8))).filter fun p => s.lookup g.ctx p.2 == .noTable)

/-- A memory reference cell exchanged with null by a relaxed exchange of the issuing TG, whose checks have passed; a live old target is
dropped (R315, R367). -/
def State.clearCell (s : State) (id : Nat) (va : W64) : State :=
  match s.tg id with
  | none => s
  | some g =>
    let loc := s.locOf g.core g.ctx va.toNat
    let s1 := s.performTo id [(loc, 8)]
    let old := BitVec.ofNat 64 (leNat (s1.bytes loc 8 0))
    ((s1.write loc 8 0).released 1 4 [(.glob loc, 8)]).dropRef g.ctx old

/-! ### Ending a macro (R353) -/

/-- Whether a macro's guard selects thread `t`. -/
def macHdr (i : Instr) : Option Hdr :=
  match i with
  | .trav f | .rast f | .filt f | .blnd f => some f.h
  | .mcx f => some { g := f.g, n := f.n, u := f.u, safe := f.safe, long := (f.long.bind Long.ofBits).getD .none }
  | _ => none

/-- The image of a microcode macro and the words of the instruction: what its opaque body is a function of (R357). -/
def MacRun.body (m : MacRun) : List Byte × List W64 :=
  ((m.mc.map Microcode.image).getD [], (encode m.instr).getD [])

/-- The reasons that call back. -/
def callsBack (m : MacRun) (r : Nat) : Bool :=
  match m.instr with
  | .trav _ => r == rAlpha || r == rCandFull || r == rFaultCb
  | .rast _ => r == rBufFull
  | .filt _ => r == rFaultCb
  | .blnd _ => r == rRun
  | .mcx _ => Config.mcCallsBack m.body.1 m.body.2 r
  | _ => false

/-- Whether a macro works once for the TG (R350). -/
def tgWide (m : MacRun) : Bool :=
  match m.instr with
  | .rast _ => true
  | .mcx _ => Config.mcWide m.body.1 m.body.2
  | _ => false

/-- The reason of a TG-wide macro (R375). -/
def Tg.wideReason (g : Tg) : Nat := (g.sAt 55).toNat % 256

/-- s55 written with a reason (R350). -/
def Tg.setWide (g : Tg) (r : Nat) : Tg := g.setS 55 (BitVec.ofNat 64 r)

/-- rc at the end of a macro (R353, R376). -/
def macRc (g : Tg) (m : MacRun) (h : Hdr) : W64 :=
  let bit (c : Nat) : Nat := if c ≤ 63 then 2 ^ c else 0
  if tgWide m then BitVec.ofNat 64 (bit g.wideReason)
  else (g.acting h).threads.foldl (fun r t => r ||| BitVec.ofNat 64 (bit (g.reason t))) 0

/-- Whether the macro calls back: some active thread, or the TG, holds such a reason. DEDUCED, log 26. -/
def macCallback (g : Tg) (m : MacRun) : Bool :=
  if tgWide m then callsBack m g.wideReason else g.mask.threads.any fun t => callsBack m (g.reason t)

/-- A stop is taken at a pre-emption point whose next instruction is at `ret`: BUDGET, or the wait for the crew's save. -/
def State.takeStop (s : State) (id : Nat) (ret : W64) : State :=
  match s.tg id with
  | none => s
  | some g =>
    if g.trap.tstat then s
    else if g.budgetDue then s.takeBudget id ret 0
    else if g.preempt then s.modTg id fun g => { g with held := true }
    else s

/-- The image of a microcode macro that has completed is the TG's no more. -/
def Tg.dropImage (g : Tg) : Tg := { g with mcOld := g.mcOld.filter fun p => p.1 != g.pc }

/-- A microcode macro that stops before it completes is reissued under the image it began under (R66). -/
def Tg.keepImage (g : Tg) (m : MacRun) : Tg :=
  match m.mc with
  | some c => { g with mcOld := (g.pc, c) :: g.dropImage.mcOld }
  | none => g

/-- A TG whose macro ended with the fault of thread `t`: parked, or ready to issue the macro again where the fault has ended (R153). -/
def Tg.macPark (g : Tg) (s : State) (t : Nat) (e : EngineFault) : Tg :=
  match e.result, e.bar with
  | some true, _ => { g with faultInval := some (e.va, t) }
  | some false, _ => g
  | none, some b => { g with wait := .fault e.die b (s.obj (.glob ((s.die e.die).barLoc b))).phase e.va t false }
  | none, none => { g with wait := .heldFault e.die e.va t false }

/-- Where a macro goes when every thread has stopped: to itself where a thread wrote SLICE or faulted, to park there on the barrier of
the lowest-numbered faulting thread, or at once where that barrier has ended; else to its callback or the next instruction. -/
def State.finishMac (s : State) (id : Nat) : State :=
  match s.tg id with
  | none => s
  | some g =>
    match g.mac with
    | none => s
    | some m =>
      match macHdr m.instr with
      | none => s
      | some h =>
        let g1 := { g.keepImage m with mac := none, wait := .ready }.setS regRc (macRc g m h)
        let low := m.faults.foldl (fun (b : Option (Nat × EngineFault)) p =>
          match b with
          | some q => if p.1 < q.1 then some p else b
          | none => some p) none
        if m.slice then (s.setTg id g1).takeStop id g.pc
        else
          match low with
          | some (t, e) => s.setTg id (g1.macPark s t e)
          | none =>
            let g2 := match h.long, macCallback g m with
              | .callback c, true => { g1 with pc := g.pc + c.signExtend 64 }
              | _, _ => g1.dropImage.advance m.words
            (s.setTg id g2).passSafe id g m.instr

/-- The macro ends if no thread is left that steps, and its end occupies the sub-scheduler for 1 clk (R393). -/
def State.endIfStopped (s : State) (id : Nat) : State :=
  match s.tg id with
  | none => s
  | some g => if g.mac.any fun m => m.running == 0 then (s.finishMac id).occupy g.core g.sub 1 else s

/-- A change of the macro in progress. -/
def State.modMac (s : State) (id : Nat) (f : MacRun → MacRun) : State := s.modTg id fun g => { g with mac := g.mac.map f }

def Mask.drop (m : Mask) (t : Nat) : Mask := m &&& ~~~(BitVec.ofNat 96 (2 ^ t))

/-- A thread stops. -/
def State.macLeave (s : State) (id t : Nat) : State :=
  s.modMac id fun m => { m with running := Mask.drop m.running t, pass := Mask.drop m.pass t }

/-- A macro starts: the threads `ts` step, unless a stop is pending, when each writes SLICE (R353). -/
def startMac (s : State) (g : Tg) (i : Instr) (words : Nat) (ts : Mask) (mc : Option Microcode := none) : Out :=
  let m : MacRun :=
    { instr := i, words := words, mc := mc, running := ts, slice := false, faults := [], pass := ts, progress := false }
  if g.stopPending && ts != 0 then
    let g1 := if tgWide m then g.setS 55 (BitVec.ofNat 64 rSlice)
      else g.setV 63 fun t => if ts.has t then some (BitVec.ofNat 32 rSlice) else none
    .next ((s.setTg s.cur { g1 with mac := some { m with running := 0, slice := true } }).endIfStopped s.cur)
  else .next ((s.setTg s.cur { g with mac := some m, wait := .mac }).endIfStopped s.cur)

/-- The fault of a step in park mode, of thread `t` as its check reports it: posted with SRC 3 whatever FAULTMODE says, as an engine's
(R152, R330, R354). -/
def State.macFault (s : State) (id t : Nat) (write : Bool) (va : W64) : State :=
  match s.tg id with
  | none => s
  | some g =>
    let (s1, e) := s.engineFault g.ctx g.core .mac write va (BitVec.ofNat 64 (s.effDeadline id))
    s1.modMac id fun m => { m with faults := m.faults ++ [(t, e)] }

/-- A trap of a step ends the macro at once; TPC is the macro's own address (R354). -/
def State.macTrap (s : State) (id : Nat) (c : Cause) (info : W64) (t : Nat) : State :=
  let s1 := match s.tg id with
    | some g => s.occupy g.core g.sub 1
    | none => s
  (s1.modTg id fun g => { g.dropImage with mac := none, wait := .ready }).trapHere id c info t

/-- Doomed threads go at a step boundary (R309, R352). -/
def State.macReclaim (s : State) (id : Nat) : State :=
  match s.tg id with
  | none => s
  | some g =>
    let ts := s.reclaimable g
    if ts = 0 then s
    else
      let s1 := ((s.drain id).removeThreads id ts).modMac id fun m =>
        { m with running := if tgWide m then m.running else m.running &&& ~~~ts, pass := m.pass &&& ~~~ts }
      match s1.tg id with
      | some g1 => if g1.mask = 0 then (s1.modTg id fun g => { g with mac := none, wait := .ready }).settle id else s1.endIfStopped id
      | none => s1

/-- Whether no TG of the core with a macro in progress has an earlier effective deadline (R356). -/
def State.macTurn (s : State) (id : Nat) (g : Tg) : Bool :=
  let d := s.effDeadline id
  s.tgs.all fun p => !(p.2.mac.isSome && p.2.core == g.core && p.2.resident) || decide (d ≤ s.effDeadline p.1)

end Sys2Proof.Machine
end

