-- ==== Sys2Proof/Machine/Microcode.lean ====
section
/-! DEFINITION. Microcode macros (R66, R67, R357): the checks and the frame are the spec's; what the body of an image does is an
opaque function of the image (DESIGN CHOICE, log 17). -/

namespace Sys2Proof.Machine

/-- The image an instruction of a slot runs under: the one it began under, else the slot's (R66, R343). -/
def State.imageFor (s : State) (g : Tg) (slot : Nat) : Option Microcode :=
  match g.mcOld.find? fun p => p.1 == g.pc with
  | some p => some p.2
  | none => SMap.find s.microcode slot

/-- The kind of a long word: 0 IMM32, 1 CALLBACK, else reserved (R58). -/
def longKind (w : W64) : Nat := (w.extractLsb' 62 2).toNat

/-- Whether the image accepts the long word of an instruction (R58, R66). -/
def mcLongOk (m : Microcode) (f : McArgs) : Bool :=
  let fn := f.fn.toNat
  match f.long with
  | none => true
  | some w =>
    (longKind w == 0 && w.extractLsb' 32 30 == 0 && m.longi.getLsbD fn) ||
      (longKind w == 1 && w.extractLsb' 32 30 == 0 && w.extractLsb' 0 3 == 0 && m.longk.getLsbD fn)

/-- Words of a microcode macro. -/
def McArgs.words (f : McArgs) : Nat := if f.long.isSome then 2 else 1

/-- What a step of the body reads: v0 to v63 and p0 to p7 of its thread, and s0 to s63. -/
def mcRegs (g : Tg) (t : Nat) : List W64 :=
  ((List.range 64).map fun n => (g.vAt n t).setWidth 64) ++ (List.range 64).map g.sAt ++
    (List.range 8).map fun n => (g.pAt n t).setWidth 64

/-- The threads of a per-thread macro that step; a TG-wide one steps once, by the reason of the TG (R351). -/
def mcStepping (g : Tg) (m : MacRun) (h : Hdr) : Mask :=
  let steps (r : Nat) : Bool := r == rRun || r == rSlice || Config.mcSteps m.body.1 m.body.2 r
  if tgWide m then (if (g.once h).isSome && steps g.wideReason then 1 else 0)
  else Mask.of fun t => (g.acting h).has t && steps (g.reason t)

/-- The state block of a thread, or of the TG (R350): the registers a step leaves, the last with the reason in its low byte. -/
def Tg.putBlock (g : Tg) (wide : Bool) (t : Nat) (block : List W64) : Tg :=
  if wide then (List.range 16).foldl (fun g i => g.setS (40 + i) (block.getD i 0)) g
  else (List.range 24).foldl (fun g i => g.put1 (40 + i) t ((block.getD i 0).setWidth 32)) g

/-- The checks of a step's accesses (R352). -/
def mcChecks (s : State) (g : Tg) (t : Nat) : List (W64 × BitVec 2 × Bool × BitVec 2) → StepM State
  | [] => .ok s
  | (va, z, st, kind) :: r =>
    match stepCheck s g t va (2 ^ z.toNat) (if st then .store else .load) kind.toNat with
    | .error e => .error e
    | .ok s1 => mcChecks s1 g t r

/-- One step of the body in thread `t`. -/
def mcxStep (m : MacRun) (s : State) (id : Nat) (g : Tg) (t : Nat) : StepM (State × Nat) :=
  let u := if tgWide m then g.mask.lowest.getD 0 else t
  let accs := Config.mcAccesses m.body.1 m.body.2 (mcRegs g u)
  match mcChecks s g u accs with
  | .error e => .error e
  | .ok s1 =>
    let data := accs.map fun a => if a.2.2.1 then [] else macBytes s1 g a.1 (2 ^ a.2.1.toNat)
    let out := Config.mcStep m.body.1 m.body.2 (mcRegs g u) data
    let stores := (accs.filter fun a => a.2.2.1).zipIdx.map fun a => (a.1.1, 2 ^ a.1.2.1.toNat, out.2.getD a.2 [])
    let g1 := stores.foldl (fun g p => g.macStore s1 u p.1 ((List.range p.2.1).map fun i => p.2.2.getD i 0)) g
    let last := out.1.getD (if tgWide m then 15 else 23) 0
    let r := last.toNat % 256 % 9
    let g2 := g1.putBlock (tgWide m) t out.1
    .ok (s1.setTg id (if tgWide m then g2.setWide r else g2.setReason t r (last.toNat / 256)), r)

/-- R66, R357: the checks of R67 and of the image, then the macro. -/
def execMcx (f : McArgs) (s : State) : Out :=
  onTg s fun g =>
    let t := g.mask.lowest.getD 0
    match s.imageFor g f.slot.toNat with
    | none => halted s (.trap .nomacro (f.slot.setWidth 64) t)
    | some c =>
      let m : MacRun :=
        { instr := .mcx f, words := McArgs.words f, mc := some c, running := 0, slice := false, faults := [], pass := 0
          progress := false }
      if !c.fndef.getLsbD f.fn.toNat || f.u || !mcLongOk c f then illop s g (.mcx f)
      else if c.fnpriv.getLsbD f.fn.toNat && !s.privileged g then privTrap s g (.mcx f)
      else if !Config.mcLegal m.body.1 m.body.2 then illop s g (.mcx f)
      else
        match macHdr (.mcx f) with
        | none => skip s g (McArgs.words f)
        | some h => startMac s g (.mcx f) (McArgs.words f) (mcStepping g m h) (some c)

end Sys2Proof.Machine
end

