-- ==== Sys2Proof/Machine/Traversal.lean ====
section
/-! DEFINITION. Ray traversal: box and triangle tests, trav, tacc and trej (R358 to R370). -/

namespace Sys2Proof.Machine

/-- NONE of R358. -/
def noNode : W32 := 0xFFFFFFFF

/-! ### The box test (R360) -/

def Exact.le (a b : Exact) : Bool := !a.isNan && !b.isNan && !b.lt a
def Exact.max2 (a b : Exact) : Exact := if a.lt b then b else a
def Exact.min2 (a b : Exact) : Exact := if b.lt a then b else a

/-- A value rounded to FP32 in a direction. -/
def roundDir (m : Rnd) (x : Exact) : Exact := fmtF32.decode (fmtF32.round x m false)

/-- A ray: origin, direction and interval (R364). -/
structure Ray where
  o : List W32
  d : List W32
  tmin : W32
  tmax : W32
deriving DecidableEq, Repr

def Ray.of (g : Tg) (t : Nat) : Ray :=
  { o := (List.range 3).map fun i => g.vAt (40 + i) t, d := (List.range 3).map fun i => g.vAt (43 + i) t
    tmin := g.vAt 46 t, tmax := g.vAt 47 t }

/-- The slab of one axis: near and far, or none for a miss. -/
def slab (o d lo hi : Exact) : Option (Exact × Exact) :=
  if d.isZero then (if lo.le o && o.le hi then some (.inf true, .inf false) else none)
  else
    let a := (Exact.sum .rne [lo, o.neg]).div d
    let b := (Exact.sum .rne [hi, o.neg]).div d
    some (roundDir .rdn (a.min2 b), roundDir .rup (a.max2 b))

/-- box_hit of R360: tnear where the box is hit. -/
def boxHit (r : Ray) (box : List W32) : Option Exact :=
  let v (i : Nat) : Exact := f32 (box.getD i 0)
  let bad := box.any (fun b => (f32 b).isNan) || (List.range 3).any fun a => (v (3 + a)).lt (v a)
  if bad then none
  else
    match (List.range 3).mapM fun a => slab (f32 (r.o.getD a 0)) (f32 (r.d.getD a 0)) (v a) (v (3 + a)) with
    | none => none
    | some ss =>
      let tn := (ss.map (·.1)).foldl Exact.max2 (f32 r.tmin)
      let tf := (ss.map (·.2)).foldl Exact.min2 (f32 r.tmax)
      if tn.le tf && tn.lt (f32 r.tmax) then some tn else none

/-! ### The triangle test (R361, R362) -/

/-- The axis with the largest magnitude, the higher index on a tie. -/
def mainAxis (d : List W32) : Nat :=
  (List.range 3).foldl (fun k i => if (f32 (d.getD i 0)).abs.lt (f32 (d.getD k 0)).abs then k else i) 0

/-- A vertex in the sheared frame (R361). -/
def shear (r : Ray) (p : List W32) : W32 × W32 × W32 :=
  let kz := mainAxis r.d
  let dz := r.d.getD kz 0
  let k1 := (kz + 1) % 3
  let k2 := (k1 + 1) % 3
  let (kx, ky) := if (f32 dz).lt (.zero false) then (k2, k1) else (k1, k2)
  let sx := fdiv (r.d.getD kx 0) dz
  let sy := fdiv (r.d.getD ky 0) dz
  let sz := fdiv fone dz
  let q (i : Nat) : W32 := fsub (p.getD i 0) (r.o.getD i 0)
  (ffma (fneg sx) (q kz) (q kx), ffma (fneg sy) (q kz) (q ky), fmul sz (q kz))

/-- E(P, Q) of R362, exact with the special cases of R37. -/
def edgeFn (p q : W32 × W32 × W32) : Exact :=
  Exact.sum .rne [(f32 q.1).mul (f32 p.2.1), ((f32 q.2.1).mul (f32 p.1)).neg]

/-- The sign of a comparison: of x − y. -/
def signDiff (x y : W32) : Int :=
  if (f32 y).lt (f32 x) then 1 else if (f32 x).lt (f32 y) then -1 else 0

/-- The sign of E(P, Q) with its tie-break; 0 makes the triangle missed. -/
def edgeSign (p q : W32 × W32 × W32) : Int :=
  let e := edgeFn p q
  if e.isNan then 0
  else if !e.isZero then (if e.sign then -1 else 1)
  else
    let a := signDiff q.2.1 p.2.1
    if a ≠ 0 then a else signDiff p.1 q.1

/-- The triangle test of R362: t, u and v where the triangle is hit. -/
def triHit (r : Ray) (v0 v1 v2 : List W32) : Option (W32 × W32 × W32) :=
  let a := shear r v0
  let b := shear r v1
  let c := shear r v2
  let ss := [edgeSign b c, edgeSign c a, edgeSign a b]
  if !(ss.all (· == 1) || ss.all (· == -1)) then none
  else
    let u' := toF32 (edgeFn b c)
    let v' := toF32 (edgeFn c a)
    let w' := toF32 (edgeFn a b)
    let det := fadd (fadd u' v') w'
    if (f32 det).isZero then none
    else
      let t := fdiv (ffma u' a.2.2 (ffma v' b.2.2 (fmul w' c.2.2))) det
      if (f32 r.tmin).le (f32 t) && (f32 t).lt (f32 r.tmax) then some (t, fdiv v' det, fdiv w' det) else none

/-! ### The control word (R364) -/

structure Ctl where
  raw : W32
  fin : Bool
  nq : Bool
  qmask : BitVec 8
  rv : Bool
  slot : Nat
  lpos : Nat
  scnt : Nat
deriving DecidableEq, Repr

def Ctl.of (w : W32) : Ctl :=
  { raw := w, fin := w.getLsbD 25, nq := w.getLsbD 24, qmask := w.extractLsb' 16 8, rv := w.getLsbD 15
    slot := (w.extractLsb' 12 3).toNat, lpos := (w.extractLsb' 8 4).toNat, scnt := (w.extractLsb' 0 7).toNat }

/-- The control word with its fields; reserved bits as they were. -/
def Ctl.word (c : Ctl) : W32 :=
  c.raw.extractLsb' 26 6 ++ BitVec.ofBool c.fin ++ BitVec.ofBool c.nq ++ c.qmask ++ BitVec.ofBool c.rv ++
    BitVec.ofNat 3 c.slot ++ BitVec.ofNat 4 c.lpos ++ c.raw.extractLsb' 7 1 ++ BitVec.ofNat 7 c.scnt

/-- The legal values of R364. -/
def Ctl.legal (c : Ctl) : Bool :=
  c.raw.extractLsb' 26 6 == 0 && !c.raw.getLsbD 7 && decide (c.scnt ≤ 64) &&
    (if c.rv then (if c.nq then c.slot == 0 else c.qmask.getLsbD c.slot) else !c.nq && c.slot == 0)

/-- Whether the register candidate is the queued one of a slot. -/
def Ctl.inRegs (c : Ctl) (q : Nat) : Bool := c.rv && !c.nq && c.slot == q

/-- The register candidate is gone. -/
def Ctl.clearReg (c : Ctl) : Ctl := { c with rv := false, nq := false, slot := 0 }

/-- Queued slot `q` is gone. -/
def Ctl.clearSlot (c : Ctl) (q : Nat) : Ctl :=
  let c1 := if c.inRegs q then c.clearReg else c
  { c1 with qmask := c1.qmask &&& ~~~(BitVec.ofNat 8 (2 ^ q)) }

/-- The queue slots that hold a candidate. -/
def Ctl.queued (c : Ctl) : List Nat := (List.range 8).filter c.qmask.getLsbD

/-! ### The traversal area (R365) -/

def areaOf (g : Tg) (t : Nat) : W64 := g.sAt regSp + BitVec.ofNat 64 (512 * t)
def cellVa (g : Tg) (t q : Nat) : W64 := areaOf g t + BitVec.ofNat 64 (384 + 8 * q)
def recVa (g : Tg) (t q : Nat) : W64 := areaOf g t + BitVec.ofNat 64 (256 + 16 * q)
/-- The address of stack entry `i`, which lies in the area from 6 on. -/
def stackVa (g : Tg) (t i : Nat) : W64 := areaOf g t + BitVec.ofNat 64 (4 * (i - 6))

/-- The 16 bytes of the record in v60 to v62. -/
def regRecord (g : Tg) (t : Nat) : List Byte :=
  leBytes (g.vAt 60 t).toNat 4 ++ leBytes (g.vAt 61 t).toNat 4 ++ leBytes (g.vAt 62 t).toNat 4 ++ leBytes 0 4

/-- The candidate t of a queued slot: in v61, or in its record. -/
def slotT (s : State) (g : Tg) (t : Nat) (c : Ctl) (q : Nat) : W32 :=
  if c.inRegs q then g.vAt 61 t else BitVec.ofNat 32 (macNat s g (recVa g t q + 4) 4)

/-- The queued slots whose records lie in memory. -/
def Ctl.inMemory (c : Ctl) : List Nat := c.queued.filter fun q => !c.inRegs q

/-- Whether a candidate at `x` is discarded by a limit `t`. -/
def beyond (x t : W32) : Bool := (f32 t).le (f32 x)

/-- The cells of slots cleared, in increasing slot order. -/
def State.clearCells (s : State) (id : Nat) (g : Tg) (t : Nat) (qs : List Nat) : State :=
  qs.foldl (fun s q => s.clearCell id (cellVa g t q)) s

/-- A thread's control word and reason written. -/
def Tg.putCtl (g : Tg) (t : Nat) (c : Ctl) (r : Nat) : Tg := (g.put1 49 t c.word).setReason t r

/-- The record in the registers goes to its slot's memory. -/
def saveRecord (s : State) (g : Tg) (t : Nat) (c : Ctl) : Tg :=
  if c.rv && !c.nq then g.macStore s t (recVa g t c.slot) (regRecord g t) else g

/-! ### One step of trav (R367 to R369) -/

/-- The FP16 pair of a record (R368). -/
def halfPair (u v : W32) : W32 :=
  BitVec.ofNat 32 (fmtF16.round (f32 u) .rne false + 2 ^ 16 * fmtF16.round (f32 v) .rne false)

/-- end_of_tree (R369): the thread's end. -/
def endOfTree (s : State) (id : Nat) (g : Tg) (t : Nat) (c : Ctl) : StepM (State × Nat) :=
  match c.queued with
  | [] =>
    let r := if g.vAt 56 t ≠ noNode then rHit else rMiss
    .ok (s.setTg id (g.putCtl t { c with fin := true } r), r)
  | q0 :: qs =>
    match stepChecks s g t 16 .load 3 (c.inMemory.map (recVa g t)) with
    | .error e => .error e
    | .ok s =>
      let best := qs.foldl (fun b q => if (f32 (slotT s g t c q)).lt (f32 (slotT s g t c b)) then q else b) q0
      if c.inRegs best then .ok (s.setTg id (g.putCtl t { c with fin := true } rAlpha), rAlpha)
      else
        let saved : List W64 := if c.rv && !c.nq then [recVa g t c.slot] else []
        match stepChecks s g t 16 .store 3 saved with
        | .error e => .error e
        | .ok s =>
          let w (i : Nat) : W32 := BitVec.ofNat 32 (macNat s g (recVa g t best + BitVec.ofNat 64 (4 * i)) 4)
          let g1 := saveRecord s g t c
          let g2 := ((g1.put1 60 t (w 0)).put1 61 t (w 1)).put1 62 t (w 2)
          .ok (s.setTg id (g2.putCtl t { c with fin := true, rv := true, nq := false, slot := best } rAlpha), rAlpha)

/-- A candidate found at a leaf (R368). -/
def newCandidate (s : State) (id : Nat) (g : Tg) (t : Nat) (c : Ctl) (deferred : Bool) (prim tt u v : W32) : StepM (State × Nat) :=
  let put (g : Tg) : Tg := ((g.put1 60 t prim).put1 61 t tt).put1 62 t (halfPair u v)
  if !deferred then .ok (s.setTg id ((put g).putCtl t { c with rv := true, nq := true, slot := 0 } rAlpha), rAlpha)
  else
    let saved : List W64 := if c.rv && !c.nq then [recVa g t c.slot] else []
    match stepChecks s g t 16 .store 3 saved with
    | .error e => .error e
    | .ok s =>
      let g1 := put (saveRecord s g t c)
      match (List.range 8).find? fun q => !c.qmask.getLsbD q with
      | none => .ok (s.setTg id (g1.putCtl t { c with rv := true, nq := true, slot := 0 } rCandFull), rCandFull)
      | some q =>
        match stepCheck s g t (cellVa g t q) 8 .rmw 3 with
        | .error e => .error e
        | .ok s =>
          let c1 := { c with qmask := c.qmask ||| BitVec.ofNat 8 (2 ^ q), rv := true, nq := false, slot := q }
          match cellStop s g [(t, cellVa g t q)] with
          | some st => .error { st := st, kind := 0 }
          | none => .ok ((s.setTg id (g1.putCtl t c1 rAlpha)).clearCell id (cellVa g t q), rAlpha)

/-- An opaque hit accepted: the limit shortens and candidates beyond it go (R367). -/
def acceptHit (s : State) (id : Nat) (g : Tg) (t : Nat) (c : Ctl) (prim tt u v : W32) : StepM (State × Nat) :=
  match stepChecks s g t 16 .load 3 (c.inMemory.map (recVa g t)) with
  | .error e => .error e
  | .ok s =>
    let gone := c.queued.filter fun q => beyond (slotT s g t c q) tt
    match stepChecks s g t 8 .rmw 3 (gone.map (cellVa g t)) with
    | .error e => .error e
    | .ok s =>
      let c1 := gone.foldl Ctl.clearSlot c
      let c2 := if c1.rv && c1.nq && beyond (g.vAt 61 t) tt then c1.clearReg else c1
      let g1 := ((((g.put1 56 t prim).put1 57 t tt).put1 58 t u).put1 59 t v).put1 47 t tt
      match cellStop s g (gone.map fun q => (t, cellVa g t q)) with
      | some st => .error { st := st, kind := 0 }
      | none => .ok ((s.setTg id (g1.putCtl t c2 rRun)).clearCells id g t gone, rRun)

/-- A leaf's next triangle (R367). -/
def leafStep (s : State) (id : Nat) (g : Tg) (t : Nat) (c : Ctl) (n : W32) (deferred : Bool) (node : Nat → Nat) : StepM (State × Nat) :=
  let count := node 4
  let alpha := node 8 % 2 == 1
  let va := g.sAt 41 + BitVec.ofNat 64 (48 * (node 0 + c.lpos))
  match stepChecks s g t 16 .load 2 [va, va + 16, va + 32] with
  | .error e => .error e
  | .ok s =>
    let w (k : Nat) : W32 := BitVec.ofNat 32 (macNat s g (va + BitVec.ofNat 64 (4 * k)) 4)
    if w 10 ≠ 0 || w 11 ≠ 0 then .error (stepAddr t va)
    else
      let last := c.lpos + 1 == count
      let c1 := { c with lpos := if last then 0 else (c.lpos + 1) % 16 }
      let g1 := g.put1 48 t (if last then noNode else n)
      let vtx (k : Nat) : List W32 := [w (3 * k), w (3 * k + 1), w (3 * k + 2)]
      match triHit (Ray.of g t) (vtx 0) (vtx 1) (vtx 2) with
      | none => .ok (s.setTg id (g1.putCtl t c1 rRun), rRun)
      | some (tt, u, v) =>
        if alpha then newCandidate s id g1 t c1 deferred (w 9) tt u v else acceptHit s id g1 t c1 (w 9) tt u v

/-- An internal node (R367). -/
def innerStep (s : State) (id : Nat) (g : Tg) (t : Nat) (c : Ctl) (node : Nat → Nat) : StepM (State × Nat) :=
  let ch (k : Nat) : W32 := BitVec.ofNat 32 (node (48 + 4 * k))
  let box (k : Nat) : List W32 := (List.range 6).map fun i => BitVec.ofNat 32 (node (24 * k + 4 * i))
  let hit (k : Nat) : Option Exact := if ch k = noNode then none else boxHit (Ray.of g t) (box k)
  match hit 0, hit 1 with
  | some a, some b =>
    let (first, other) := if b.lt a then (ch 1, ch 0) else (ch 0, ch 1)
    if c.scnt = 64 then .error (stepAddr t (areaOf g t + 232))
    else
      let c1 := { c with scnt := c.scnt + 1 }
      let g1 := (g.put1 48 t first).putCtl t c1 rRun
      if c.scnt < 6 then .ok (s.setTg id (g1.put1 (50 + c.scnt) t other), rRun)
      else
        match stepCheck s g t (stackVa g t c.scnt) 4 .store 3 with
        | .error e => .error e
        | .ok s => .ok (s.setTg id (g1.macStore s t (stackVa g t c.scnt) (leBytes other.toNat 4)), rRun)
  | some _, none => .ok (s.setTg id ((g.put1 48 t (ch 0)).putCtl t c rRun), rRun)
  | none, some _ => .ok (s.setTg id ((g.put1 48 t (ch 1)).putCtl t c rRun), rRun)
  | none, none => .ok (s.setTg id ((g.put1 48 t noNode).putCtl t c rRun), rRun)

/-- Whether a node is malformed (R358). -/
def nodeBad (node : Nat → Nat) : Bool :=
  match node 60 with
  | 0 => node 56 != 0
  | 1 => (List.range 12).any (fun i => node (12 + 4 * i) != 0) || decide (2 ≤ node 8) || node 4 == 0 || decide (16 < node 4)
  | _ => true

/-- Whether a thread's ray ends it without reading memory (R366). -/
def Ray.bad (r : Ray) : Bool :=
  (r.o ++ r.d ++ [r.tmin, r.tmax]).any (fun b => (f32 b).isNan) || (r.o ++ r.d).any (fun b => (f32 b).isInf) ||
    r.d.all fun b => (f32 b).isZero

/-- One step of trav in thread `t`: the state after it, and the reason written (R367). -/
def travStep (s : State) (id : Nat) (g : Tg) (t : Nat) (deferred : Bool) : StepM (State × Nat) :=
  let c := Ctl.of (g.vAt 49 t)
  if (Ray.of g t).bad then .ok (s.setTg id (g.putCtl t { c with fin := true } rMiss), rMiss)
  else if g.vAt 48 t = noNode && c.scnt = 0 then endOfTree s id g t c
  else
    let pop := g.vAt 48 t = noNode
    let top := c.scnt - 1
    match (if pop && 6 ≤ top then stepCheck s g t (stackVa g t top) 4 .load 3 else .ok s) with
    | .error e => .error e
    | .ok s =>
      let n : W32 := if !pop then g.vAt 48 t
        else if top < 6 then g.vAt (50 + top) t else BitVec.ofNat 32 (macNat s g (stackVa g t top) 4)
      let va := g.sAt 40 + BitVec.ofNat 64 (64 * n.toNat)
      match stepCheck s g t va 64 .load 1 with
      | .error e => .error e
      | .ok s =>
        let bs := macBytes s g va 64
        let node (i : Nat) : Nat := leNat ((bs.drop i).take 4)
        if nodeBad node then .error (stepAddr t va)
        else
          let c1 := if pop then { c with scnt := c.scnt - 1 } else c
          if node 60 = 0 then innerStep s id g t c1 node else leafStep s id g t c1 n deferred node

/-! ### trav at issue (R366) -/

/-- The acting threads that step (R351). -/
def travSteps (g : Tg) (f : RArgs) : Mask :=
  Mask.of fun t =>
    let r := g.reason t
    (g.acting f.h).has t &&
      (r == rRun || r == rFaultCb || r == rSlice || (r == rAlpha && f.x.getLsbD 0 && !(Ctl.of (g.vAt 49 t)).fin))

/-- R366, R367. -/
def execTrav (f : RArgs) (s : State) : Out :=
  onTg s fun g =>
    let ts := travSteps g f
    let misaligned := [(g.sAt 40, 64), (g.sAt 41, 16), (g.sAt regSp, 16)].find? fun p => p.1.toNat % p.2 != 0
    match (if g.acting f.h = 0 then none else misaligned) with
    | some p => trapOnce s g .align p.1
    | none =>
      match ts.threads.find? fun t => !(Ctl.of (g.vAt 49 t)).legal with
      | some t => halted s (.trap .illop (firstWord (.trav f)) t)
      | none => startMac s g (.trav f) (RArgs.words f) ts

/-! ### tacc and trej (R370) -/

/-- The threads on which tacc and trej act. -/
def candThreads (g : Tg) (f : RArgs) : List Nat := (g.acting f.h).threads.filter fun t => (Ctl.of (g.vAt 49 t)).rv

/-- The slots whose candidates a thread discards: with NQ = 0 that of SLOT, whatever QMASK says, and queued ones beyond the limit. -/
def candGone (s : State) (g : Tg) (accept : Bool) (t : Nat) : List Nat :=
  let c := Ctl.of (g.vAt 49 t)
  (List.range 8).filter fun q =>
    c.inRegs q || (c.qmask.getLsbD q && accept && beyond (slotT s g t c q) (g.vAt 61 t))

/-- The registers of a thread after its candidate is decided. -/
def Tg.decided (g : Tg) (accept : Bool) (t : Nat) (gone : List Nat) : Tg :=
  let c1 := (gone.foldl Ctl.clearSlot (Ctl.of (g.vAt 49 t))).clearReg
  let h (i : Nat) : W32 := toF32 (fmtF16.decode ((g.vAt 62 t).extractLsb' (16 * i) 16).toNat)
  let g1 := if accept then
      ((((g.put1 56 t (g.vAt 60 t)).put1 57 t (g.vAt 61 t)).put1 47 t (g.vAt 61 t)).put1 58 t (h 0)).put1 59 t (h 1)
    else g
  g1.putCtl t c1 rRun

/-- tacc and trej: every access is checked before anything changes. -/
def decideCand (f : RArgs) (s : State) (accept : Bool) : Out :=
  onTg s fun g =>
    let ts := candThreads g f
    let recs := if accept then ts.flatMap fun t => (Ctl.of (g.vAt 49 t)).inMemory.map fun q => (t, recVa g t q) else []
    match s.checkGl g.core g.ctx recs 16 .load with
    | some st => halted s st
    | none =>
      let gone := ts.map fun t => (t, candGone s g accept t)
      let cells := gone.flatMap fun p => p.2.map fun q => (p.1, cellVa g p.1 q)
      match (s.checkGl g.core g.ctx cells 8 .rmw).or (cellStop s g cells) with
      | some st => halted s st
      | none =>
        let s1 := (s.touchAll g.core g.ctx (recs.map fun p => p.2.toNat) false).touchAll g.core g.ctx
          (cells.map fun p => p.2.toNat) true
        let s2 := gone.foldl (fun s p => s.clearCells s.cur g p.1 p.2) s1
        let g2 := gone.foldl (fun g p => g.decided accept p.1 p.2) (s2.curTg g)
        done s2 (g2.advance (RArgs.words f))

/-- R370. -/
def execTacc (f : RArgs) (s : State) : Out := decideCand f s true
/-- R370. -/
def execTrej (f : RArgs) (s : State) : Out := decideCand f s false

end Sys2Proof.Machine
end

