-- ==== Sys2Proof/Machine/Raster.lean ====
section
/-! DEFINITION. Tiles and fragments, rast, filt, blnd and sobol (R373 to R392). A step function gives the state after one step
and the reason it writes. -/

namespace Sys2Proof.Machine

/-! ### Tiles (R373) -/

/-- S, the samples per pixel. -/
def tileSamples (d : W64) : Nat := 2 ^ (d.extractLsb' 32 2).toNat
/-- TB, the tile base. -/
def tileBase (d : W64) : Nat := (d.extractLsb' 0 32).toNat
/-- Whether the reserved bits of a tile descriptor are 0. -/
def tileOk (d : W64) : Bool := d.extractLsb' 34 30 == 0
/-- The scratchpad offset of a pixel record. DEDUCED, log 24. -/
def pixelOff (d : W64) (pix : Nat) : Nat := tileBase d + 16 * pix

/-- Every check of R151 on 16 bytes of scratchpad that a step writes. -/
def spStepCheck (s : State) (g : Tg) (t off : Nat) : StepM Unit :=
  match checkSp (s.crewOf g).scratchSize (s.crewOf g).nbar [(t, off)] 16 true with
  | some st => .error { st := st, kind := 0 }
  | none => .ok ()

def spNat (s : State) (g : Tg) (off n : Nat) : Nat := leNat ((s.crewOf g).spBytes off n)

/-! ### The state of rast (R375) -/

/-- A field of a scalar register. -/
def Tg.sField (g : Tg) (n lo w : Nat) : Nat := ((g.sAt n).extractLsb' lo w).toNat

/-- A field of a scalar register written. -/
def Tg.setSField (g : Tg) (n lo w x : Nat) : Tg :=
  let m : W64 := BitVec.ofNat 64 ((2 ^ w - 1) * 2 ^ lo)
  g.setS n ((g.sAt n &&& ~~~m) ||| BitVec.ofNat 64 (x % 2 ^ w * 2 ^ lo))

def rastPhase (g : Tg) : Nat := g.sField 47 16 2
def Tg.setPhase (g : Tg) (p : Nat) : Tg := g.setSField 47 16 2 p
def rastFbuf (g : Tg) : Nat := g.sField 48 0 32
def rastFcap (g : Tg) : Nat := g.sField 48 32 16
def rastFcnt (g : Tg) : Nat := g.sField 48 48 16

/-- Edge `e` as exact integers A, B and C. -/
def rastEdge (g : Tg) (e : Nat) : Int × Int × Int :=
  (((g.sAt (40 + 2 * e)).extractLsb' 0 32).toInt, ((g.sAt (40 + 2 * e)).extractLsb' 32 32).toInt, (g.sAt (41 + 2 * e)).toInt)

/-- E_e(X, Y) of R379. -/
def edgeAt (e : Int × Int × Int) (x y : Int) : Int := e.1 * x + e.2.1 * y + e.2.2

/-- Whether a sample lies inside an edge (R379). -/
def insideEdge (e : Int × Int × Int) (x y : Int) : Bool :=
  let v := edgeAt e x y
  decide (0 < v) || (v == 0 && (decide (0 < e.1) || (e.1 == 0 && decide (0 < e.2.1))))

def rastEdges (g : Tg) : List (Int × Int × Int) := [rastEdge g 0, rastEdge g 1, rastEdge g 2]

/-- The coverage mask of pixel (x, y) (R379). -/
def coverage (g : Tg) (x y : Nat) : Nat :=
  (List.range (tileSamples (g.sAt 53))).foldl (fun m k =>
    let sx : Int := 16 * x + g.sField 51 (8 * k) 4
    let sy : Int := 16 * y + g.sField 51 (8 * k + 4) 4
    if (rastEdges g).all fun e => insideEdge e sx sy then m + 2 ^ k else m) 0

/-- L1 and L2 at a pixel centre, as f16 (R379). -/
def edgeWeights (g : Tg) (x y : Nat) : Nat × Nat :=
  let ec (e : Nat) : Int := edgeAt (rastEdge g e) (16 * x + 8) (16 * y + 8)
  let sum := ec 0 + ec 1 + ec 2
  if sum = 0 then (0x7E00, 0x7E00)
  else
    let l (e : Nat) : Nat := fmtF16.round ((Exact.ofInt (ec e)).div (Exact.ofInt sum)) .rne false
    (l 1, l 2)

/-- A fragment record (R374). -/
def fragment (seq pix cov prev l1 l2 : Nat) : List Byte :=
  leBytes seq 4 ++ leBytes (pix + 2 ^ 16 * cov) 4 ++ leBytes prev 4 ++ leBytes l1 2 ++ leBytes l2 2

/-! ### One step of rast (R378) -/

/-- The fetch step: an indivisible pop of one 16-byte record, an acquire at dev scope (R380). -/
def rastFetch (s : State) (id : Nat) (g : Tg) (t : Nat) : StepM (State × Nat) :=
  let a := g.sAt 49
  match stepChecks s g t 32 .rmw 0 [a] with
  | .error e => .error e
  | .ok s =>
    let loc := s.locOf g.core g.ctx a.toNat
    let q := QDesc.ofBytes (tgBytes g s loc 32 0)
    if !QDesc.valid s g q 16 then .error (stepAddr t a)
    else
      let s1 := s.performTo id ((loc, 32) :: q.parts s g)
      if q.held = 0 then .ok (s1.modTg id fun g => (g.setSField 47 18 1 1).setWide rDone, rDone)
      else
        let at' := s1.locOf g.core g.ctx (q.slot q.head)
        let sa := s1.readOrder 2 4 [(.glob at', 16)]
        let bs := sa.bytes at' 16 0
        let s2 := (sa.touch g.core g.ctx (q.slot q.head) false).setBytes (loc + 16) (leBytes (q.head + 1).toNat 8)
        .ok (s2.modTg id fun g =>
          ((((g.setS 50 (BitVec.ofNat 64 (leNat (bs.take 8)))).setSField 46 32 32 (leNat ((bs.drop 8).take 4))).setSField 47 18 1 0).setPhase
            1).setWide rRun, rRun)

/-- The setup step: the record of R377. -/
def rastSetup (s : State) (id : Nat) (g : Tg) (t : Nat) : StepM (State × Nat) :=
  let a := g.sAt 50
  match stepCheck s g t a 64 .load 0 with
  | .error e => .error e
  | .ok s =>
    let bs := macBytes s g a 64
    let b (i : Nat) : Nat := leNat ((bs.drop i).take 1)
    if leNat (bs.drop 52) ≠ 0 || (List.range 4).any (fun i => decide (63 < b (48 + i))) then .error (stepAddr t a)
    else
      let g1 := (List.range 6).foldl (fun g i => g.setS (40 + i) (BitVec.ofNat 64 (leNat ((bs.drop (8 * i)).take 8)))) g
      let g2 := g1.setSField 46 0 32 (leNat ((bs.drop 48).take 4))
      if b 50 < b 48 || b 51 < b 49 then .ok (s.setTg id ((g2.setPhase 0).setWide rDone), rDone)
      else
        .ok (s.setTg id ((((g2.setSField 47 0 6 (b 48)).setSField 47 6 6 (b 49)).setPhase 2).setWide rRun), rRun)

/-- The cursor's move after a pixel. -/
def rastNext (g : Tg) : Tg × Nat :=
  let cx := g.sField 47 0 6 + 1
  let cy := g.sField 47 6 6
  let (x, y) := if g.sField 46 16 8 < cx then (g.sField 46 0 8, cy + 1) else (cx, cy)
  let g1 := (g.setSField 47 0 6 x).setSField 47 6 6 y
  if g.sField 46 24 8 < y then ((g1.setPhase 0).setWide rDone, rDone) else (g1.setWide rRun, rRun)

/-- The raster step: one pixel. -/
def rastPixel (s : State) (id : Nat) (g : Tg) (t : Nat) : StepM (State × Nat) :=
  let x := g.sField 47 0 6
  let y := g.sField 47 6 6
  let cov := coverage g x y
  if cov = 0 then
    let (g1, r) := rastNext g
    .ok (s.setTg id g1, r)
  else if rastFcnt g = rastFcap g then .ok (s.setTg id (g.setWide rBufFull), rBufFull)
  else
    let pix := x + 64 * y
    let p := pixelOff (g.sAt 53) pix
    let fr := rastFbuf g + 16 * rastFcnt g
    match spStepCheck s g t p with
    | .error e => .error e
    | .ok _ =>
      match spStepCheck s g t fr with
      | .error e => .error e
      | .ok _ =>
        let seq := g.sField 46 32 32
        let (l1, l2) := edgeWeights g x y
        let rec' := fragment seq pix cov (spNat s g (p + 8) 4) l1 l2
        let s1 := s.modCrew g.crew fun c => (c.setSp (p + 8) (leBytes seq 4)).setSp fr rec'
        let (g1, r) := rastNext ((g.setSField 48 48 16 (rastFcnt g + 1)).setS 52 (g.sAt 52 + 1))
        .ok (s1.setTg id g1, r)

def rastStep (s : State) (id : Nat) (g : Tg) (t : Nat) : StepM (State × Nat) :=
  match rastPhase g with
  | 0 => rastFetch s id g t
  | 1 => rastSetup s id g t
  | _ => rastPixel s id g t

/-- Whether rast steps on a reason (R376). -/
def rastSteps (r : Nat) : Bool := r == rRun || r == rSlice || r == rBufFull || r == rDone

/-- Whether the registers of rast are legal (R376). -/
def rastLegal (g : Tg) : Bool :=
  (g.sAt 47).extractLsb' 19 45 == 0 && (g.sAt 47).extractLsb' 12 4 == 0 && tileOk (g.sAt 53) && rastPhase g != 3 &&
    rastFcap g != 0 && decide (rastFcnt g ≤ rastFcap g)

/-- R376. -/
def execRast (f : RArgs) (s : State) : Out :=
  onTg s fun g =>
    match g.once f.h with
    | none => skip s g (RArgs.words f)
    | some _ =>
      match [rastFbuf g, tileBase (g.sAt 53)].find? fun o => o % 16 != 0 with
      | some o => trapOnce s g .align (BitVec.ofNat 64 o)
      | none =>
        if !rastLegal g then illop s g (.rast f)
        else if !rastSteps g.wideReason then skip s g (RArgs.words f)
        else startMac s g (.rast f) (RArgs.words f) 1

/-! ### filt (R381 to R384) -/

/-- A texture descriptor (R381). -/
structure Texture where
  base : W64
  half : Bool
  levels : Nat
  logw : Nat
  logh : Nat
deriving DecidableEq, Repr

/-- A descriptor's fields, none where it is malformed. -/
def Texture.ofBytes (bs : List Byte) : Option Texture :=
  let b (i : Nat) : Nat := leNat ((bs.drop i).take 1)
  let base : W64 := BitVec.ofNat 64 (leNat (bs.take 8))
  if leNat (bs.drop 12) ≠ 0 || 1 < b 11 || b 10 = 0 || 16 < b 10 || 15 < b 8 || 15 < b 9 || base.toNat % 256 ≠ 0 then none
  else some { base := base, half := b 11 == 1, levels := b 10, logw := b 8, logh := b 9 }

def Texture.size (x : Texture) : Nat := if x.half then 8 else 4
def Texture.width (x : Texture) (l : Nat) : Nat := max 1 (2 ^ x.logw / 2 ^ l)
def Texture.height (x : Texture) (l : Nat) : Nat := max 1 (2 ^ x.logh / 2 ^ l)

/-- The offset of level `l` from BASE. -/
def Texture.levelOff (x : Texture) (l : Nat) : Nat :=
  (List.range l).foldl (fun o k => o + (x.width k * x.height k * x.size + 255) / 256 * 256) 0

/-- The address of texel (i, j) of level `l`, clamped to the level (R383). -/
def Texture.texelVa (x : Texture) (l : Nat) (i j : Int) : W64 :=
  let c (a : Int) (n : Nat) : Nat := (min (max a 0) ((n : Int) - 1)).toNat
  x.base + BitVec.ofNat 64 (x.levelOff l + (c j (x.height l) * x.width l + c i (x.width l)) * x.size)

/-- Channel `c` of a texel's bytes, as FP32. -/
def Texture.channel (x : Texture) (bs : List Byte) (c : Nat) : W32 :=
  if x.half then toF32 (fmtF16.decode (leNat ((bs.drop (2 * c)).take 2)))
  else toF32 (Exact.ofFrac ((bs.getD c 0).toNat : Int) 255 false)

/-- The fields of v52 (R382). -/
def filtN (g : Tg) (t : Nat) : Nat := (g.vAt 52 t).toNat % 32
def filtK (g : Tg) (t : Nat) : Nat := ((g.vAt 52 t).extractLsb' 8 5).toNat
def filtLevel (g : Tg) (t : Nat) : Nat := ((g.vAt 52 t).extractLsb' 16 4).toNat

/-- Whether v52 is legal (R384). -/
def filtLegal (g : Tg) (t : Nat) : Bool :=
  let w := g.vAt 52 t
  w.extractLsb' 5 3 == 0 && w.extractLsb' 13 3 == 0 && w.extractLsb' 20 12 == 0 && filtN g t != 0 && decide (filtN g t ≤ 16) &&
    decide (filtK g t < filtN g t)

/-- An integer as FP32. -/
def intF32 (x : Int) : W32 := toF32 (Exact.ofInt x)

/-- The floor of a finite FP32 value. -/
def floorF32 (x : W32) : Int := roundInt (f32 x) .rdn

/-- 0.5 in FP32. -/
def fhalf : W32 := 0x3F000000

/-- A tap's position on one axis (R383): `c` is the centre, `d` the half-axis. -/
def tapPos (tk c d : W32) (l : Nat) : W32 := toF32 ((f32 (ffma tk d c)).scale (-(l : Int)))

/-- The bilinear value of a channel from its four texels. -/
def bilinear (fx fy t00 t10 t01 t11 : W32) : W32 :=
  let top := ffma fx (fsub t10 t00) t00
  let bot := ffma fx (fsub t11 t01) t01
  ffma fy (fsub bot top) top

/-- A tap's four values, and the texels it reads: none where the position is not finite (R383). -/
structure TapAt where
  l : Nat
  i : Int
  j : Int
  fx : W32
  fy : W32
deriving DecidableEq, Repr

def tapAt (g : Tg) (t : Nat) (x : Texture) (tk : W32) : Option TapAt :=
  let l := min (filtLevel g t) (x.levels - 1)
  let pu := tapPos tk (g.vAt 48 t) (g.vAt 50 t) l
  let pv := tapPos tk (g.vAt 49 t) (g.vAt 51 t) l
  if !(f32 pu).isFinite || !(f32 pv).isFinite then none
  else
    let px := fsub pu fhalf
    let py := fsub pv fhalf
    some { l := l, i := floorF32 px, j := floorF32 py, fx := fsub px (intF32 (floorF32 px)), fy := fsub py (intF32 (floorF32 py)) }

/-- The addresses of a tap's texels: (i, j), (i+1, j), (i, j+1), (i+1, j+1). DEDUCED, log 24. -/
def TapAt.vas (p : TapAt) (x : Texture) : List W64 :=
  [x.texelVa p.l p.i p.j, x.texelVa p.l (p.i + 1) p.j, x.texelVa p.l p.i (p.j + 1), x.texelVa p.l (p.i + 1) (p.j + 1)]

/-- The registers of a thread after a tap with these four channel values. -/
def Tg.tapped (g : Tg) (t : Nat) (w : W32) (vals : Nat → W32) : Tg × Nat :=
  let k := filtK g t
  let n := filtN g t
  let old (r : Nat) : W32 := if k = 0 then 0 else g.vAt r t
  let wsum := fadd (old 53) w
  let sum (c : Nat) : W32 := ffma w (vals c) (old (54 + c))
  let g1 := (g.put1 53 t wsum).put1 52 t (g.vAt 52 t &&& 0xFFFFE0FF#32 ||| BitVec.ofNat 32 ((k + 1) * 256))
  let g2 := (List.range 4).foldl (fun g c => g.put1 (54 + c) t (sum c)) g1
  if k + 1 = n then ((List.range 4).foldl (fun g c => g.put1 (58 + c) t (fdiv (sum c) wsum)) g2 |>.setReason t rDone, rDone)
  else (g2.setReason t rRun, rRun)

/-- One tap (R383). -/
def filtStep (s : State) (id : Nat) (g : Tg) (t : Nat) (a : W64) : StepM (State × Nat) :=
  match stepCheck s g t a 32 .load 2 with
  | .error e => .error e
  | .ok s =>
    match Texture.ofBytes (macBytes s g a 32) with
    | none => .error (stepAddr t a)
    | some x =>
      let n := filtN g t
      let tk := fdiv (intF32 (2 * (filtK g t : Int) + 1 - n)) (intF32 n)
      let w := fsub fone (fmul fhalf (fabs tk))
      match tapAt g t x tk with
      | none =>
        let (g1, r) := g.tapped t w fun _ => 0x7FC00000
        .ok (s.setTg id g1, r)
      | some p =>
        match stepChecks s g t x.size .load 1 (p.vas x) with
        | .error e => .error e
        | .ok s =>
          let ts := (p.vas x).map fun va => macBytes s g va x.size
          let ch (k c : Nat) : W32 := x.channel (ts.getD k []) c
          let (g1, r) := g.tapped t w fun c => bilinear p.fx p.fy (ch 0 c) (ch 1 c) (ch 2 c) (ch 3 c)
          .ok (s.setTg id g1, r)

/-- The acting threads that step in filt (R384) or blnd (R386). -/
def perThreadSteps (g : Tg) (f : RArgs) (callback : Bool) : Mask :=
  Mask.of fun t =>
    let r := g.reason t
    (g.acting f.h).has t && (r == rRun || r == rSlice || (callback && r == rFaultCb))

/-- R384. -/
def execFilt (f : RArgs) (s : State) : Out :=
  onTg s fun g =>
    let ts := perThreadSteps g f true
    let a := g.sAt (Spec.num f.a)
    if g.acting f.h ≠ 0 && a.toNat % 32 ≠ 0 then trapOnce s g .align a
    else
      match ts.threads.find? fun t => !filtLegal g t with
      | some t => halted s (.trap .illop (firstWord (.filt f)) t)
      | none => startMac s g (.filt f) (RArgs.words f) ts

/-! ### blnd (R385 to R387) -/

/-- f: the covered share of a fragment's samples. -/
def coverShare (samples cov : Nat) : W32 :=
  toF32 (Exact.ofFrac (((List.range samples).filter cov.testBit).length : Int) samples false)

/-- blend of R386 on FP32 channels. -/
def blendMode (mode : Nat) (d src : List W32) (f : W32) : List W32 :=
  let dc (c : Nat) : W32 := d.getD c 0
  let sc (c : Nat) : W32 := src.getD c 0
  match mode with
  | 0 =>
    let a := fmul (sc 3) f
    [0, 1, 2].map (fun c => ffma (dc c) (fsub fone a) (fmul (sc c) f)) ++ [ffma (dc 3) (fsub fone a) a]
  | 1 => (List.range 4).map fun c => fadd (dc c) (fmul (sc c) f)
  | _ => src

/-- A colour of four f16 as bytes. -/
def colourBytes (cs : List W32) : List Byte := cs.flatMap fun c => leBytes (fmtF16.round (f32 c) .rne false) 2

/-- A thread looks at its pixel and blends where it is next in the chain (R386): the state, and whether it blended. -/
def blndStep (s : State) (id : Nat) (g : Tg) (t : Nat) (d : W64) (mode : Nat) : StepM (State × Nat) :=
  let pix := (g.vAt 60 t).toNat % 4096
  let p := pixelOff d pix
  match spStepCheck s g t p with
  | .error e => .error e
  | .ok _ =>
    if spNat s g (p + 12) 4 ≠ (g.vAt 62 t).toNat then .ok (s.setTg id (g.setReason t rRun), rRun)
    else
      let cov := ((g.vAt 60 t).extractLsb' 16 8).toNat
      let src := (List.range 4).map fun c => g.vAt (56 + c) t
      let dst := (List.range 4).map fun c => toF32 (fmtF16.decode (spNat s g (p + 2 * c) 2))
      let new := blendMode mode dst src (coverShare (tileSamples d) cov)
      let s1 := s.modCrew g.crew fun c => (c.setSp p (colourBytes new)).setSp (p + 12) (leBytes (g.vAt 61 t).toNat 4)
      .ok (s1.setTg id (g.setReason t rDone), rDone)

/-- Whether v60 is legal (R387). -/
def blndLegal (g : Tg) (t : Nat) : Bool :=
  let w := g.vAt 60 t
  w.extractLsb' 12 4 == 0 && w.extractLsb' 24 8 == 0

/-- R387. -/
def execBlnd (f : RArgs) (s : State) : Out :=
  onTg s fun g =>
    let ts := perThreadSteps g f false
    let d := g.sAt (Spec.num f.a)
    let some' := g.acting f.h != 0
    if some' && tileBase d % 16 != 0 then trapOnce s g .align (BitVec.ofNat 64 (tileBase d))
    else if some' && !tileOk d then illop s g (.blnd f)
    else
      match ts.threads.find? fun t => !blndLegal g t with
      | some t => halted s (.trap .illop (firstWord (.blnd f)) t)
      | none => startMac s g (.blnd f) (RArgs.words f) ts

/-! ### sobol (R389, R390) -/

/-- The value that follows in R390: `a` are the inner coefficients, the newest value first in `vs`. -/
def nextDir (q : Nat) (a : List Bool) (vs : List W32) : W32 :=
  let vq := vs.getD (q - 1) 0
  a.zipIdx.foldl (fun x p => if p.1 then x ^^^ vs.getD p.2 0 else x) (vq ^^^ (vq >>> q))

/-- V_d[0] to V_d[31], newest first, from the first values `m`. -/
def dirsFrom (q : Nat) (a : List Bool) (m : List Nat) : List W32 :=
  let start := (m.zipIdx.map fun p => BitVec.ofNat 32 (p.1 * 2 ^ (31 - p.2))).reverse
  (List.range (32 - q)).foldl (fun vs _ => nextDir q a vs :: vs) start

/-- The direction numbers V_d (R390). -/
def dirs (d : Nat) : List W32 :=
  match d with
  | 0 => (List.range 32).map fun k => BitVec.ofNat 32 (2 ^ (31 - k))
  | 1 => (dirsFrom 1 [] [1]).reverse
  | 2 => (dirsFrom 2 [true] [1, 3]).reverse
  | _ => (dirsFrom 3 [false, true] [1, 3, 1]).reverse

/-- sobol of R389. -/
def sobolAt (pixel i dim : W32) (seed : W64) : W32 :=
  let d := dim.toNat % 4
  let g := dim.toNat / 4
  let sd := hash32 (pixel ^^^ (BitVec.ofNat 32 g * 0x9E3779B9#32) ^^^ seed.extractLsb' 0 32)
  let i' := if g = 0 then i else brev32 (lks (brev32 i) (hash32 (sd + BitVec.ofNat 32 g)))
  let x := (dirs d).zipIdx.foldl (fun x p => if i'.getLsbD p.2 then x ^^^ p.1 else x) 0
  brev32 (lks (brev32 x) (hash32 (sd + BitVec.ofNat 32 (256 * d))))

/-- R389. -/
def execSobol (f : RArgs) (s : State) : Out :=
  lanes f s
    { tyA := .n32, tyB := .n32, tyC := .n32, dw := 32, packed := false
      run := fun _ i =>
        let r := sobolAt (BitVec.ofNat 32 i.a) (BitVec.ofNat 32 i.b) (BitVec.ofNat 32 i.c) (seedOf s i.g)
        .reg (if f.ty == .f32 then (toF32 (Exact.ofDyadic false (r.toNat / 256) (-24))).toNat else r.toNat) }

end Sys2Proof.Machine
end

