-- ==== Sys2Proof/Machine/MacroStep.lean ====
section
/-! DEFINITION. One step of a macro in progress, as a move of the core's macro sequencer (R352 to R356). -/

namespace Sys2Proof.Machine

/-- The step function of a macro in one thread. -/
def stepOf (m : MacRun) (s : State) (id : Nat) (g : Tg) (t : Nat) : StepM (State × Nat) :=
  match m.instr with
  | .trav f => travStep s id g t (f.x.getLsbD 0)
  | .rast _ => rastStep s id g (g.mask.lowest.getD 0)
  | .filt f => filtStep s id g t (g.sAt (Spec.num f.a))
  | .blnd f => blndStep s id g t (g.sAt (Spec.num f.a)) (f.x.toNat % 4)
  | .mcx _ => mcxStep m s id g t
  | _ => .ok (s, rDone)

/-- Whether a macro calls back on a fault instead of parking (R354). -/
def faultCallback (m : MacRun) : Bool :=
  match m.instr with
  | .trav f | .filt f => f.x.getLsbD 1
  | .mcx _ => Config.mcFaultCallback m.body.1 m.body.2
  | _ => false

/-- Whether a macro works in passes (R386). -/
def inPasses (i : Instr) : Bool :=
  match i with
  | .blnd _ => true
  | _ => false

/-- The reason of one thread, or of the TG. -/
def Tg.putReason (g : Tg) (m : MacRun) (t r kind : Nat) : Tg := if tgWide m then g.setWide r else g.setReason t r kind

/-- A pass that is over: another one follows where it blended a thread, else the macro ends with the rest at RUN (R386). -/
def State.nextPass (s : State) (id : Nat) : State :=
  s.modMac id fun m =>
    if !inPasses m.instr || m.pass ≠ 0 then m
    else if m.progress then { m with pass := m.running, progress := false }
    else { m with running := 0 }

/-- The thread that steps next may be any that steps; in a pass it is the lowest that the pass has not looked at (R386). -/
def MacRun.mayStep (m : MacRun) (t : Nat) : Bool :=
  if inPasses m.instr then m.pass.lowest == some t else m.running.has t

/-- A pending stop at the step boundary of a thread: SLICE, in blnd for every thread that is left (R353, R386). -/
def State.macSlice (s : State) (id t : Nat) (m : MacRun) : State :=
  let ts := if inPasses m.instr then m.running.threads else [t]
  (ts.foldl (fun s u => (s.modTg id fun g => g.putReason m u rSlice 0).macLeave id u) s).modMac id fun m =>
    { m with slice := true }

/-- A step that performs nothing: a trap, a callback or a park (R354). -/
def State.macStop (s : State) (id t : Nat) (m : MacRun) (e : StepStop) : State :=
  match e.st with
  | .trap c info tid => s.macTrap id c info tid
  | .fault w _ va tid =>
    if faultCallback m then ((s.modTg id fun g => g.putReason m t rFaultCb e.kind).macLeave id t).endIfStopped id
    else (((s.modTg id fun g => g.putReason m t rRun 0).macFault id tid w va).macLeave id t).endIfStopped id

/-- What a reason does to the macro: a thread that does not go on stops. -/
def State.macAfter (s : State) (id t r : Nat) (m : MacRun) : State :=
  let s1 := if r ≠ rRun then s.macLeave id t else s
  if inPasses m.instr then
    ((s1.modMac id fun k => { k with pass := Mask.drop k.pass t, progress := k.progress || r == rDone }).nextPass id).endIfStopped id
  else s1.endIfStopped id

/-- R352 to R356: a reclamation point and, outside a handler, a pre-emption point (R326), then a stop or a step of one thread. -/
def execMacroStep (id thread : Nat) (s0 : State) : Out :=
  let s := { s0 with cur := id }.modTg id fun g => { g with sinceSafe := if g.trap.tstat then g.sinceSafe else 0 }
  match s.tg id with
  | none => .refused .eventNotEnabled
  | some g0 =>
    match g0.mac with
    | none => .refused .eventNotEnabled
    | some m0 =>
      if g0.wait != .mac || !g0.resident || !s.macTurn id g0 || !m0.mayStep thread then .refused .eventNotEnabled
      else
        let s1 := s.macReclaim id
        match s1.tg id with
        | none => .next s1
        | some g =>
          match g.mac with
          | none => .next s1
          | some m =>
            if !m.running.has thread then .next ((s1.nextPass id).endIfStopped id)
            else if g.stopPending then .next ((s1.macSlice id thread m).endIfStopped id)
            else
              match stepOf m s1 id g thread with
              | .error e => .next (s1.macStop id thread m e)
              | .ok (s2, r) => .next (s2.macAfter id thread r m)

end Sys2Proof.Machine
end

