-- ==== Sys2Proof/Machine/Agents.lean ====
section
/-! DEFINITION. The agents of scheduling: held faults, budgets, forced stops, pre-emption and saving, the start and completion of
launches, and deterministic reduction at the home slices (R152, R188, R189, R243, R290, R293, R296, R297, R332 to R334). -/

namespace Sys2Proof.Machine

/-! ### Faults and budgets -/

/-- R152. -/
def execHeldFaultPost (die : Nat) (s : State) : Out :=
  match s.postHeld die with
  | some s1 => .next s1
  | none => .refused .eventNotEnabled

/-- R296: once per slice. -/
def execBudgetExhausted (tg : Nat) (s : State) : Out :=
  match s.tg tg with
  | none => .refused .eventNotEnabled
  | some g =>
    if g.task.tgbud ≠ 0 || g.budget || g.budgetTaken then .refused .eventNotEnabled
    else .next (s.modTg tg fun g => { g with budget := true })

/-- R333: the TG stands at an instruction boundary; a pre-emption makes it wait for its crew's save, and a BUDGET is taken when it
goes on. DEDUCED, log 18. -/
def execForcedStop (tg : Nat) (s : State) : Out :=
  match s.tg tg with
  | none => .refused .eventNotEnabled
  | some g =>
    let safemax := ((s.ctx g.ctx).map fun c => c.safemax.toNat).getD 8192
    let due := g.budgetDue && !g.trap.tstat
    if !g.resident || g.wait != .ready || g.held || !(g.preempt || due) || decide (g.sinceSafe < safemax) then
      .refused .eventNotEnabled
    else
      .next (s.modTg tg fun g =>
        { g with forced := g.preempt, held := g.preempt, budgetForced := g.budgetForced || due, sinceSafe := 0 })

/-! ### Pre-emption (R297) -/

/-- A crew that waits to be placed: its effective deadline, its need, and the cores that may take it. -/
structure Waiting where
  dl : Nat
  need : Need
  ok : Nat → Bool

/-- The crews that wait. -/
def State.waitingCrews (s : State) : List Waiting :=
  let d := s.deadlines
  (s.launches.filterMap fun p =>
    if p.2.placing && s.runs p.2.ctx then
      some { dl := (SMap.find d (launchNode p.1)).getD (2 ^ 64), need := p.2.desc.need, ok := p.2.hasCrewFor }
    else none) ++
  (s.crews.filterMap fun p =>
    match s.launch p.2.launch with
    | none => none
    | some l =>
      if p.2.core.isNone && s.runs l.ctx && (!p.2.spawned || (s.tg (p.1 * 16)).any (·.slot.isSome)) then
        some { dl := s.crewDeadline p.1, need := p.2.need s l, ok := fun k => coreAllowed k p.2.num (p.2.need s l).fixed p.2.die }
      else none)

/-- The state as it would be with some crews off their cores. -/
def State.without (s : State) (gone : Nat → Crew → Bool) : State :=
  let ids := (s.crews.filter fun p => gone p.1 p.2).map (·.1)
  { s with
    crews := s.crews.map fun p => if ids.contains p.1 then (p.1, { p.2 with core := none }) else p
    tgs := s.tgs.map fun p => if ids.contains p.2.crew then (p.1, { p.2 with resident := false }) else p }

/-- Whether a core could take a waiting crew once the crews of later deadlines are off it. -/
def Waiting.couldUse (w : Waiting) (s : State) (core : Nat) : Bool :=
  w.ok core && ((s.without fun id c => c.core == some core && decide (w.dl < s.crewDeadline id)).fits core w.need).isSome

/-- Whether a resident crew is the one that some waiting crew displaces: no core takes that crew even when the crews now being
pre-empted are gone, and of the crews on cores that could take it this one has the latest effective deadline. DESIGN CHOICE, log 27. -/
def State.displaced (s : State) (crew : Nat) (c : Crew) : Bool :=
  let s0 := s.without fun _ c => c.preempt
  let dl := s.crewDeadline crew
  match c.core with
  | none => false
  | some core =>
    s.waitingCrews.any fun w =>
      decide (w.dl < dl) && !((List.range Config.numCores).any fun k => w.ok k && (s0.fits k w.need).isSome) &&
        w.couldUse s core &&
        s.crews.all fun p => match p.2.core with
          | some k => p.2.preempt || !w.couldUse s k || decide (s.crewDeadline p.1 ≤ dl)
          | none => true

/-- Whether a TG stands at no pre-emption point: it runs, it is in a macro, or an access that it issued waits on a held fault (R152, R331,
R332). -/
def Tg.underway (g : Tg) : Bool :=
  match g.wait with
  | .ready => !g.held
  | .mac | .heldFault .. => true
  | _ => false

/-- Whether a crew must wait before it is saved: for TGs that run, for its own copies, and for its gangs (R228, R243, R332). A copy between
global addresses is none of those, also where it counts into an object of the crew's arena (DESIGN CHOICE, log 13). -/
def State.unsavable (s : State) (crew : Nat) (c : Crew) : Bool :=
  (s.tgs.any fun p => p.2.crew == crew && p.2.underway) ||
    (s.copies.any fun p => p.2.crew == crew && p.2.work.isLocal) ||
    c.gangs.any fun p => !p.2.ops.isEmpty || !p.2.xfers.isEmpty || p.2.holdsToken

/-- A TG saved: the register slots that the save leaves out hold undefined values afterwards (R333, DESIGN CHOICE, log 3). DEDUCED, log 18. -/
def Tg.saved (g : Tg) (s : State) (id : Nat) : Tg :=
  let n := g.liveSlots
  let kept (p : Nat) : Bool := (List.range n).any fun j => (g.win.wlo.toNat + j) % g.win.k == p
  { g with
    resident := false, held := false, preempt := false, forced := false
    v := if g.forced then g.v
      else (List.range g.win.k).foldl (fun m p =>
        if kept p then m else SMap.put m p (Row.tab fun t => s.freeW32 (8 + 64 * (t + 96 * (p + 256 * id))))) g.v }

/-- The doomed threads of a TG that go before it is saved: at its wait, or at the pre-emption point where it stands; a forced stop is
none (R331). -/
def State.reclaimNow (s : State) (g : Tg) : Mask :=
  if g.wait = .ready then (if g.forced then 0 else s.reclaimable g) else s.waitReclaims g

/-- They go. -/
def State.reclaimStopped (s : State) (id : Nat) : State :=
  match s.tg id with
  | none => s
  | some g => if s.reclaimNow g = 0 then s else if g.wait = .ready then s.reclaim id else s.reclaimParked id

/-- A crew marked for pre-emption, or no longer; where it is not, a TG that stood for its save goes on. -/
def State.setPreempt (s : State) (crew : Nat) (b : Bool) : State :=
  let s1 := s.modCrew crew fun c => { c with preempt := b }
  { s1 with tgs := s1.tgs.map fun p =>
      if p.2.crew = crew then (p.1, { p.2 with preempt := b, held := p.2.held && b, forced := p.2.forced && b }) else p }

/-- R297 is applied to the crew of a TG with the deadline of its new slice: outside a handler the TG stands at a pre-emption point
(R319, R326). -/
def State.sliceEnded (s : State) (id : Nat) (g : Tg) : State :=
  match s.crew g.crew with
  | none => s
  | some c =>
    if c.core.isNone then s
    else
      let now := (s.setPreempt g.crew false).displaced g.crew { c with preempt := false }
      (s.setPreempt g.crew now).modTg id fun x => { x with held := now && !x.trap.tstat }

/-- R319, R323: what follows for each TG whose slice has ended in this step. -/
def State.endSlices (s : State) : State :=
  (s.tgs.filter fun p => p.2.sliceEnd).foldl
    (fun s p => (s.modTg p.1 fun x => { x with sliceEnd := false }).sliceEnded p.1 p.2) s

/-- R297, R332 to R334: a resident crew is marked, so that its TGs stop at their next pre-emption points; and once they stand there
or are parked, and its own operations have completed, it is saved whole. -/
def execCrewPreempt (crew : Nat) (s : State) : Out :=
  match s.crew crew with
  | none => .refused .eventNotEnabled
  | some c =>
    if c.core.isNone then .refused .eventNotEnabled
    else if !c.preempt then
      if !s.displaced crew c then .refused .eventNotEnabled
      else .next (s.setPreempt crew true)
    else if s.unsavable crew c then .refused .eventNotEnabled
    else if c.tgs.any fun id => (s.tg id).any fun g => s.reclaimNow g != 0 then .next (c.tgs.foldl State.reclaimStopped s)
    else
      let s0 := c.tgs.foldl State.finishLate s
      let s1 := s0.modCrew crew fun c => { c with core := none, saved := true, preempt := false }
      .next { s1 with tgs := s1.tgs.map fun p => if p.2.crew = crew then (p.1, p.2.saved s0 p.1) else p }

/-! ### Launches (R290, R293) -/

/-- R293. -/
def execLaunchStart (launch : Nat) (s : State) : Out :=
  match s.launch launch with
  | none => .refused .eventNotEnabled
  | some l =>
    if l.state ≠ 1 || l.waits.any (SMap.has s.launches) || s.inReset l.ctx then .refused .eventNotEnabled
    else .next (s.updLaunch launch fun x => { x with state := 2, waits := [] })

/-- Whether a TG or a filling bin of a launch is left. -/
def State.launchLives (s : State) (launch : Nat) : Bool :=
  (s.tgs.any fun p => p.2.launch == launch) || s.dies.any fun p => p.2.bins.any fun b => b.2.launch == launch

/-- The launch completes or has failed: its record, its future, and it is gone (R290, R321). DESIGN CHOICE, log 19. -/
def State.finishLaunch (s : State) (launch : Nat) (l : Launch) : State :=
  let t := s.gtime
  let s1 := (s.modLaunch launch fun x => { x with state := if l.failed then 6 else 5 }).writeStatus launch t
  let s2 := s1.endLaunchFuture { l with state := if l.failed then 6 else 5 } t
  { s2 with
    launches := (SMap.del s2.launches launch).map fun p => (p.1, { p.2 with waits := p.2.waits.filter (· != launch) }) }

/-- R290: every operation of the launch has completed, after its reduction flush unless it failed. -/
def execLaunchComplete (launch : Nat) (s : State) : Out :=
  match s.launch launch with
  | none => .refused .eventNotEnabled
  | some l =>
    if s.inReset l.ctx || !(l.failed || l.state == 4) || s.launchLives launch || s.crews.any (fun p => p.2.launch == launch) ||
        s.copies.any (fun p => p.2.launch == launch) then .refused .eventNotEnabled
    else .next (s.finishLaunch launch l)

/-! ### Deterministic reduction at the home slices (R188, R189, R408) -/

/-- The number of a home slice: its die and its index there (R12, R141). -/
def homeSlice (loc : Nat) : Nat :=
  let pa : BitVec 52 := BitVec.ofNat 52 loc
  let f (lo : Nat) : BitVec 6 := pa.extractLsb' lo 6
  let i := f 8 ^^^ f 14 ^^^ f 20 ^^^ f 26 ^^^ (pa.extractLsb' 32 4).setWidth 6
  (if 2 ^ 52 ≤ loc then 0 else loc / 2 ^ 36 / 3) * 64 + i.toNat

/-- A contribution added to memory; one that an aflush sent carries its release (R190). -/
def State.applyContrib (s : State) (c : Contrib) : State :=
  let n := c.ty.bytes
  let s1 := s.write c.loc n (detAdd c.ty (BitVec.ofNat 64 (s.read c.loc n)) c.val).toNat
  match c.rel with
  | some base => s1.releasedAt base (.glob c.loc, n)
  | none => s1

/-- The determinism-lost flag of a launch (R189). -/
def State.loseDet (s : State) (launch : Nat) : State := s.updLaunch launch fun l => { l with flags := l.flags ||| 2 }

/-- A contribution is held in its slice's array, spilled, or applied on arrival. -/
def State.takeContrib (s : State) (c : Contrib) (l : Launch) : State :=
  if 2 ^ 53 ≤ c.loc then (s.applyContrib c).loseDet c.launch
  else if (s.held.filter fun h => !h.spilled && homeSlice h.loc == homeSlice c.loc).length < Config.sliceEntries then
    { s with held := s.held ++ [c] }
  else if l.spilled < l.desc.redsz then
    let junk := (List.range 16).map fun i => BitVec.ofNat 8 (s.free (9 + 64 * i))
    let s1 := { s with held := s.held ++ [{ c with spilled := true }] }.modLaunch c.launch fun l => { l with spilled := l.spilled + 1 }
    s1.cpWrite l.ctx (l.desc.redsp + BitVec.ofNat 64 (16 * l.spilled)) junk
  else (s.applyContrib c).loseDet c.launch

/-- R189: a contribution on its way arrives; one of a failed launch is discarded (R328). -/
def execRedDetContribution (idx : Nat) (s : State) : Out :=
  match s.contribs[idx]? with
  | none => .refused .eventNotEnabled
  | some c =>
    let s1 := { s with contribs := s.contribs.eraseIdx idx }
    match s.launch c.launch with
    | none => .next s1
    | some l => if l.failed || s.inReset l.ctx then .next s1 else .next (s1.takeContrib c l)

/-- The order of R188: core, TG number, flush sequence. -/
def Contrib.before (a b : Contrib) : Bool :=
  decide (a.core < b.core) || (a.core == b.core && (decide (a.tg < b.tg) || (a.tg == b.tg && decide (a.seq ≤ b.seq))))

/-- Insertion of a contribution in the order of R188. -/
def insContrib (c : Contrib) : List Contrib → List Contrib
  | [] => [c]
  | x :: r => if c.before x then c :: x :: r else x :: insContrib c r

/-- R188: the contributions of a launch are applied in order, after its last TG has retired. -/
def execReductionFlush (launch : Nat) (s : State) : Out :=
  match s.launch launch with
  | none => .refused .eventNotEnabled
  | some l =>
    if l.state ≠ 3 || l.failed || s.inReset l.ctx || s.launchLives launch || s.contribs.any (fun c => c.launch == launch) then
      .refused .eventNotEnabled
    else
      let mine := (s.held.filter fun c => c.launch == launch).foldr insContrib []
      let s1 := { s with held := s.held.filter fun c => c.launch != launch }
      let s2 := mine.foldl State.applyContrib s1
      .next (s2.updLaunch launch fun x => { x with state := 4, spilled := 0 })

end Sys2Proof.Machine
end

