-- ==== Sys2Proof/Machine/AgentsHost.lean ====
section
/-! DEFINITION. What the host and the command processor do: user queues (R286 to R289), contexts and functions (R338, R402 to
R406), the fault server (R153), and home slices (R13, R407, R408). -/

namespace Sys2Proof.Machine

/-! ### Records (R409) -/

def srcRalfester : BitVec 16 := 0x0101

/-- A record of the Ralfester. -/
def State.report (s : State) (e : HostEvent) : State := s.record srcRalfester e

/-- A command to the module: one that a failed boot left answering only management reads turns it away (R413). DESIGN CHOICE, log 22. -/
def commanded (s : State) (k : Out) : Out := if s.ralf.disabled then .next (s.report .turnedAway) else k

/-! ### User queues (R286 to R288) -/

/-- A queue descriptor as read, with its context, its address and its location. -/
structure QHead where
  ctx : Nat
  va : W64
  loc : Nat
  ok : Bool
  ring : W64
  cap : Nat
  err : Nat
  head : Nat
  notify : Nat
deriving DecidableEq, Repr

/-- The descriptor of a queue; none where the command processor cannot reach it (DESIGN CHOICE, log 11). -/
def State.queueHead (s : State) (ctx : Nat) (q : Queue) : Option QHead :=
  if q.desc.toNat % 64 ≠ 0 then none
  else (s.cpLoc ctx q.desc true).map fun loc =>
    let bs := s.bytes loc 64 0
    let f := fieldAt bs
    { ctx := ctx, va := q.desc, loc := loc
      ok := f 48 16 == 0 && decide (16 ≤ f 16 4) && decide (f 16 4 ≤ 2 ^ 24) && 2 ^ (f 16 4).log2 == f 16 4 && f 0 8 % 256 == 0
      ring := BitVec.ofNat 64 (f 0 8), cap := f 16 4, err := f 22 2, head := f 24 8, notify := f 40 8 }

/-- Whether a queue holds work (R287). -/
def QHead.work (h : QHead) (q : Queue) : Bool := decide (h.head < max q.notify.toNat h.notify)

/-- The queue of a context. -/
def State.queue (s : State) (ctx queue : Nat) : Option Queue := (s.ctx ctx).bind fun c => SMap.find c.queues queue

def State.modQueue (s : State) (ctx queue : Nat) (f : Queue → Queue) : State :=
  s.modCtx ctx fun c => { c with queues := SMap.adjust c.queues queue f }

/-- Whether the command processor accepts commands of a context (R344, R405, R413). -/
def State.accepts (s : State) (ctx : Nat) : Bool := !s.halted && !s.ralf.disabled && !s.inReset ctx

/-- The command processor writes a field of a queue descriptor; its walk sets ACC and DIRTY of the page (R149, R150). -/
def State.writeHead (s : State) (h : QHead) (off n x : Nat) : State := (s.write (h.loc + off) n x).walked h.ctx h.va.toNat true

def State.setErr (s : State) (h : QHead) (e : Nat) : State := s.writeHead h 22 2 e

/-- KIND and argument of the command at HEAD. -/
def State.commandAt (s : State) (ctx : Nat) (h : QHead) (i : Nat) : Option (Nat × Nat) :=
  let va := h.ring + BitVec.ofNat 64 (16 * (i % h.cap))
  match s.cpRead ctx va 8, s.cpRead ctx (va + 8) 8 with
  | some k, some a => some (k, a)
  | _, _ => none

/-- The command processor's sys-scope acquires as it reads a queue's descriptor, and the command that HEAD names (R205). -/
def State.readQueue (s : State) (ctx : Nat) (q : Queue) : State := s.cpAcquire ctx q.desc 64
def State.readCommand (s : State) (ctx : Nat) (h : QHead) : State :=
  s.cpAcquire ctx (h.ring + BitVec.ofNat 64 (16 * (h.head % h.cap))) 16

/-- The command processor looks at a mapped queue: a malformed descriptor or command stops it, a command that `go` takes is
accepted (R286, R287). -/
def command (ctx queue : Nat) (s0 : State) (go : State → QHead → Nat → Nat → Option State) : Out :=
  match s0.queue ctx queue with
  | none => .refused .eventNotEnabled
  | some q =>
    let s1 := s0.readQueue ctx q
    match s1.queueHead ctx q with
    | none => .refused .eventNotEnabled
    | some h =>
      if !s1.accepts ctx || q.slot.isNone || h.err ≠ 0 || !h.work q then .refused .eventNotEnabled
      else if !h.ok then .next (s1.setErr h 1)
      else
        let s := s1.readCommand ctx h
        match s.commandAt ctx h h.head with
        | none => .refused .eventNotEnabled
        | some (k, a) =>
          if k ≠ 1 && !(k = 2 && a = 0) then .next (s.setErr h 2)
          else match go s h k a with
            | some s1 => .next s1
            | none => .refused .eventNotEnabled

/-- HEAD after one more accepted command. -/
def State.bumpHead (s : State) (h : QHead) : State := s.writeHead h 24 8 (h.head + 1)

/-- R289. -/
def execCmdLaunch (ctx queue : Nat) (s : State) : Out :=
  command ctx queue s fun s h k a => if k = 1 then some ((s.bumpHead h).acceptLaunch ctx (BitVec.ofNat 64 a) none) else none

/-- R286. -/
def execCmdNop (ctx queue : Nat) (s : State) : Out :=
  command ctx queue s fun s h k _ => if k = 2 then some (s.bumpHead h) else none

/-- NOTIFY takes the greater value (R288). -/
def State.foldNotify (s : State) (h : QHead) (x : Nat) : State := s.writeHead h 40 8 (max h.notify x)

/-- R287, R288: the write lands in the slot's register, or in NOTIFY; a write to a function that is being reset is discarded (R405), as
is one to a disabled module (R413). DESIGN CHOICE, log 28. -/
def execNotify (ctx queue : Nat) (value : BitVec 64) (s : State) : Out :=
  match s.queue ctx queue with
  | none => .refused .eventNotEnabled
  | some q =>
    if s.inReset ctx || s.ralf.disabled then .next s
    else if q.slot.isSome then .next (s.modQueue ctx queue fun q => { q with notify := value })
    else match s.queueHead ctx q with
      | some h => .next (s.foldNotify h value.toNat)
      | none => .refused .eventNotEnabled

/-- A host read of a notify address: all ones while the function is being reset (R405); what it returns else the spec does not say
(DESIGN CHOICE, log 28: a free value). A disabled module does not answer it (R413). -/
def State.hostRead (s : State) (ctx queue : Nat) : State :=
  if s.ralf.disabled then s
  else s.record s.srcLink (.regRead ctx queue (if s.inReset ctx then BitVec.allOnes 64 else BitVec.ofNat 64 (s.free (17 + 128))))

/-- The hardware slots in use. -/
def State.slotsUsed (s : State) : List Nat := s.contexts.flatMap fun c => c.2.queues.filterMap fun q => q.2.slot

/-- The relative deadline of the next launch of a queue; the latest for a queue without one. -/
def State.nextLaunchDl (s : State) (ctx : Nat) (q : Queue) (h : QHead) : Nat :=
  let n := min (max q.notify.toNat h.notify - h.head) h.cap
  ((List.range n).findSome? fun i =>
    match s.commandAt ctx h (h.head + i) with
    | some (1, a) => (s.descBytes ctx (BitVec.ofNat 64 a)).map fun bs => (Desc.ofBytes bs).dlrel.toNat
    | _ => none).getD (2 ^ 64)

/-- The unmapped queues that hold work: deadline of the next launch, context, queue. -/
def State.toMap (s : State) : List (Nat × Nat × Nat) :=
  s.contexts.flatMap fun c => c.2.queues.filterMap fun q =>
    match s.queueHead c.1 q.2 with
    | some h => if q.2.slot.isNone && h.err == 0 && h.work q.2 && s.accepts c.1 then
        some (s.nextLaunchDl c.1 q.2 h, c.1, q.1) else none
    | none => none

/-- The acquires of the command processor as it looks for the next launch among `n` commands from number `i` on, and at its descriptor
(R205). -/
def State.scanCommands (s : State) (ctx : Nat) (h : QHead) : Nat → Nat → State
  | 0, _ => s
  | n + 1, i =>
    let s1 := s.cpAcquire ctx (h.ring + BitVec.ofNat 64 (16 * (i % h.cap))) 16
    match s1.commandAt ctx h i with
    | some (1, a) =>
      let s2 := s1.cpAcquire ctx (BitVec.ofNat 64 a) 256
      if (s2.descBytes ctx (BitVec.ofNat 64 a)).isSome then s2 else State.scanCommands s2 ctx h n (i + 1)
    | _ => State.scanCommands s1 ctx h n (i + 1)

/-- Its acquires as it looks at an unmapped queue: the descriptor, and the commands up to the next launch. -/
def State.scanQueue (s : State) (ctx : Nat) (q : Queue) : State :=
  let s1 := s.readQueue ctx q
  match s1.queueHead ctx q with
  | some h => s1.scanCommands ctx h (min (max q.notify.toNat h.notify - h.head) h.cap) h.head
  | none => s1

/-- The queues among which it chooses the next to map are read by sys-scope acquires (R205, R288). -/
def State.scanQueues (s : State) : State :=
  s.contexts.foldl (fun s c =>
    if s.accepts c.1 then (c.2.queues.filter fun q => q.2.slot.isNone).foldl (fun s q => s.scanQueue c.1 q.2) s else s) s

/-- R288. DESIGN CHOICE, log 28. -/
def execQueueMap (ctx queue : Nat) (s0 : State) : Out :=
  let s := s0.scanQueues
  let l := s.toMap
  let used := s.slotsUsed
  match l.find? (fun p => p.2 == (ctx, queue)), (s.queue ctx queue).bind (s.queueHead ctx) with
  | some me, some h =>
    let room := Config.queueSlots - used.length
    if room = 0 || (decide (room < l.length) && l.any fun p => p.1 < me.1) then .refused .eventNotEnabled
    else
      let slot := ((List.range Config.queueSlots).find? fun i => !used.contains i).getD 0
      .next ((s.writeHead h 20 2 slot).modQueue ctx queue fun q => { q with slot := some slot, notify := 0 })
  | _, _ => .refused .eventNotEnabled

/-- A queue leaves its slot (R288): the notify register is folded into NOTIFY, and SLOT reads 0xFFFF. -/
def State.unmapQueue (s : State) (ctx queue : Nat) : State :=
  match s.queue ctx queue with
  | none => s
  | some q =>
    if q.slot.isNone then s
    else
      let s1 := match s.queueHead ctx q with
        | some h => (s.foldNotify h q.notify.toNat).writeHead h 20 2 0xFFFF
        | none => s
      s1.modQueue ctx queue fun q => { q with slot := none, notify := 0 }

/-- R288. -/
def execQueueUnmap (ctx queue : Nat) (s : State) : Out :=
  match s.queue ctx queue with
  | some q => if q.slot.isNone then .refused .eventNotEnabled else .next (s.unmapQueue ctx queue)
  | none => .refused .eventNotEnabled

/-! ### Contexts (R338, R402, R404) -/

/-- MEMDEF at context creation: rlx, dev, gl, normal (R64). -/
def memdefInit : W64 := 0x189

/-- Whether the values of a new context are legal (R306, R336, R338). -/
def specOk (c : ContextSpec) : Bool :=
  decide (c.id < 2 ^ 16) && decide (c.function ≤ 16) && sysValueOk 0x31 c.ftsize &&
    sysValueOk 0x35 c.savebase && sysValueOk 0x40 c.ptroot && c.tvec.toNat % 2048 == 0

/-- R338, R402: the host driver creates a context; SAFEMAX has its default (R333). -/
def execContextCreate (c : ContextSpec) (s : State) : Out :=
  commanded s <|
  if !specOk c || SMap.has s.contexts c.id || s.resetting.contains c.function then .refused .eventNotEnabled
  else
    let x : Context :=
      { function := c.function, system := c.system, memdef := memdefInit, seed := c.seed, ftbase := c.ftbase, ftsize := c.ftsize
        safemax := 8192, faultmode := c.faultmode, savebase := c.savebase, ptroot := c.ptroot, tvec := c.tvec, halted := false
        accepted := 0, handles := []
        queues := c.queues.zipIdx.map fun p => (p.2, { desc := p.1, slot := none, notify := 0 }) }
    .next { s with contexts := SMap.put s.contexts c.id x }

/-- R404: once every TG of the context is saved, it runs again; its crews are placed as saved crews. -/
def execResume (ctx : Nat) (s : State) : Out :=
  commanded s <|
  if !(s.ctx ctx).any (·.halted) || s.halted || s.crews.any (fun p => p.2.ctx == ctx && p.2.core.isSome) then
    .refused .eventNotEnabled
  else .next (s.modCtx ctx fun c => { c with halted := false })

/-- R344, R404: a halted module accepts commands again; its contexts wait for RESUME. DESIGN CHOICE, log 22. -/
def execHostReset (s : State) : Out := commanded s (.next { s with halted := false })

/-! ### Function-level reset (R405) -/

/-- The contexts of a function. -/
def State.ctxsOf (s : State) (f : Nat) : List Nat := (s.contexts.filter fun c => c.2.function == f).map (·.1)

/-- The spawn records of a TG's threads return to their pool. -/
def State.freeRecords (s : State) (g : Tg) : State :=
  let die := dieOf g.core
  let own := (List.range numThreads).map fun t => (g.taskAt t).srec
  let under := g.frames.flatMap fun fr => fr.q.threads.map fun t => (Row.at fr.tasks taskNone t).srec
  (own ++ under).foldl (fun s r => s.freeRecord die r) s

/-- A TG ends without a save, and without its references, its share and its status record having an effect; its issued stores are
performed or not (R405, R406). DESIGN CHOICE, log 21. -/
def State.flrTg (s : State) (id : Nat) : State :=
  match s.tg id with
  | none => s
  | some g =>
    let s1 := if s.free (10 + 64 * id) % 2 = 1 then s.drain id else s
    let s2 := (((s1.keepDeadline id g).freeRecords g).tookGang g.crew g.idx).dissolveGangs g.crew g.idx
    let s3 := { s2 with tgs := SMap.del s2.tgs id, releases := s2.releases.filter fun r => r.tg != id }
    let s4 := match g.slot with
      | some m => s3.giveSlot (dieOf g.core) m
      | none => s3
    let s5 := s4.modCrew g.crew fun c => { c with live := c.live - 1 }
    let last := (s5.crew g.crew).any fun c => c.live == 0
    (if last then s5.resetCodebooks g.crew else s5).reapCrew g.crew

/-- The filling bins of a function go, and their records return. -/
def State.flrBins (s : State) (mine : Nat → Bool) : State :=
  (List.range Config.numDies).foldl (fun s d =>
    let gone := (s.die d).bins.filter fun b => mine ((s.launch b.2.launch).map (·.ctx) |>.getD (2 ^ 16))
    gone.foldl (fun s b =>
      let s1 := s.modDie d fun x => { x with bins := SMap.del x.bins b.1 }
      (b.2.threads.foldl (fun s t => s.freeRecord d t.srec) s1).bumpPool d) s) s

/-- Steps 1 to 4: queues unmapped, TGs at an instruction boundary ended, copies and subscriptions cancelled. -/
def State.flrStop (s : State) (f : Nat) : State :=
  let ctxs := s.ctxsOf f
  let mine (c : Nat) : Bool := ctxs.contains c
  let s1 := { s with resetting := if s.resetting.contains f then s.resetting else f :: s.resetting }
  let s2 := ctxs.foldl (fun s c => (((s.ctx c).map (·.queues)).getD []).foldl (fun s q => s.unmapQueue c q.1) s) s1
  let ids := (s2.tgs.filter fun p => mine p.2.ctx && p.2.wait != .mac).map (·.1)
  let s3 := ids.foldl State.flrTg s2
  let s4 := (s3.copies.filter fun p => mine p.2.ctx).foldl (fun s p => s.endCopy p.1) s3
  s4.flrBins mine

/-- Whether nothing of the function is left to complete. -/
def State.flrQuiet (s : State) (f : Nat) : Bool :=
  let ctxs := s.ctxsOf f
  !(s.tgs.any fun p => ctxs.contains p.2.ctx) &&
    !(s.crews.any fun p => ctxs.contains p.2.ctx && p.2.gangs.any fun q => !q.2.ops.isEmpty || !q.2.xfers.isEmpty)

/-- The fault records of a die's queue that stand between FQHEAD and FQTAIL, by location. -/
def Die.records (d : Die) : List Nat :=
  (List.range (min (d.fqtail - d.fqhead).toNat d.fqsize.toNat)).map fun k =>
    d.fqbase.toNat + 32 * ((d.fqhead.toNat + k) % d.fqsize.toNat)

/-- The fault barriers assigned to some contexts, and their records in the queue, are zeroed (R405). -/
def State.zeroFaults (s : State) (mine : Nat → Bool) (die : Nat) : State :=
  let d := s.die die
  let bars := (d.faults.filter fun q => mine q.2.1).map fun q => d.barLoc q.1
  let recs := d.records.filter fun loc => mine (s.read (loc + 8) 2)
  recs.foldl (fun s loc => s.write loc 32 0) (bars.foldl (fun s loc => s.write loc 16 0) s)

/-- Steps 5 and 6. DESIGN CHOICE, log 21. -/
def State.flrScrub (s0 : State) (f : Nat) : State :=
  let ctxs := s0.ctxsOf f
  let mine (c : Nat) : Bool := ctxs.contains c
  let s := (s0.dies.map (·.1)).foldl (fun s d => s.zeroFaults mine d) s0
  let ofLaunch (l : Nat) : Bool := (s.launch l).any fun x => mine x.ctx
  let keep (l : List TlbEntry) : List TlbEntry := l.filter fun e => !mine e.ctx
  let mineEntry (loc : Nat) : Bool := ctxs.any fun c =>
    (List.range (((s.ctx c).map fun x => x.ftsize.toNat).getD 0)).any fun i => s.entryLoc c i == some loc
  let s1 : State := { s with
    entries := s.entries.filter fun p => !mineEntry p.1
    contribs := s.contribs.filter fun c => !ofLaunch c.launch
    held := s.held.filter fun c => !ofLaunch c.launch
    launches := s.launches.filter fun p => !mine p.2.ctx
    crews := s.crews.filter fun p => !mine p.2.ctx
    cores := s.cores.map fun p => (p.1, { p.2 with tlb := keep p.2.tlb })
    dies := s.dies.map fun p =>
      (p.1, { p.2 with
        tlb := keep p.2.tlb, faults := p.2.faults.filter (fun q => !mine q.2.1)
        heldFaults := p.2.heldFaults.filter fun h => !mine h.ctx })
    contexts := s.contexts.map fun c => if c.2.function = f then (c.1, { c.2 with queues := [], handles := [] }) else c
    resetting := s.resetting.filter (· != f) }
  s1.record s1.srcLink (.flrDone f)

/-- R405: the first event begins the reset of a function, and each later one ends what has stopped since; when nothing is left the
function's state is zeroed and the reset completes. -/
def execFlr (function : Nat) (s : State) : Out :=
  commanded s <|
  if 16 < function then .refused .eventNotEnabled
  else
    let s1 := s.flrStop function
    if s.resetting.contains function && s1.flrQuiet function then .next (s1.flrScrub function) else .next s1

/-! ### The fault server (R153) -/

/-- A page made resident with the bytes that the driver holds of it (R395): they are written, RES is set in its leaf, and stale
translations are dropped. -/
def State.makeResident (s : State) (ctx page : Nat) (contents : List Byte) : State :=
  match s.walk ctx page with
  | .leaf e _ =>
    let s0 := if contents.isEmpty then s else s.store e.loc (contents.take e.size)
    let s1 := s0.setByte e.leaf (s0.last e.leaf ||| 0x20#8)
    let keep (l : List TlbEntry) : List TlbEntry := l.filter fun x => !(x.ctx == ctx && decide (x.base < e.base + e.size) &&
      decide (e.base < x.base + x.size))
    { s1 with
      cores := s1.cores.map fun p => (p.1, { p.2 with tlb := keep p.2.tlb })
      dies := s1.dies.map fun p => (p.1, { p.2 with tlb := keep p.2.tlb }) }
  | .bad => s

/-- R153; a disabled module takes no access of the host (R413). -/
def execHostFaultService (die barrier : Nat) (contents : Option (List Byte)) (s : State) : Out :=
  match SMap.find (s.die die).faults barrier with
  | none => .refused .eventNotEnabled
  | some f =>
    if s.ralf.disabled then .next s
    else
    let o : ObjRef := .glob ((s.die die).barLoc barrier)
    match contents with
    | some bs => .next ((s.makeResident f.1 f.2.1 bs).barUpdate o false Obj.arrive)
    | none => .next (s.barUpdate o true Obj.inval)

/-! ### Home slices (R13, R196, R407, R408) -/

/-- Whether an earlier unperformed store of the TG overlaps one, so that its home slice performs that first (R196). -/
def Tg.storeWaits (g : Tg) (idx : Nat) (p : PStore) : Bool :=
  (g.stores.take idx).any fun q => overlaps q.loc q.data.length p.loc p.data.length

/-- R13, R196: a store of a TG that no earlier unperformed store of it overlaps reaches its home slice. -/
def execHomeSlicePerform (tg idx : Nat) (s : State) : Out :=
  match s.tg tg with
  | none => .refused .eventNotEnabled
  | some g =>
    match g.stores[idx]? with
    | none => .refused .eventNotEnabled
    | some p =>
      if g.storeWaits idx p then .refused .eventNotEnabled else .next (s.performAt tg idx p)

/-- The bytes a remote request acts on. -/
def RemoteOp.bytes : RemoteOp → Nat
  | .load n _ => n
  | .store d _ => d.length
  | .rmw _ ty _ _ _ _ => ty.bytes
  | .barInit _ | .barArrive | .barExpect _ | .barWait _ | .barTest _ | .barInval => 16

/-- What the order of an access of another module's agent does before it, at sys scope as every access of its: an sc access takes its
place in the single order, and a read may acquire (R199, R201, R407). -/
def State.remoteOrder (s : State) (p : ObjRef × Nat) (ord : Nat) (reads : Bool) : State :=
  let s1 := if ord = 5 then s.scAfter (.other 0) 5 else s
  if reads && isAcquire ord then s1.acquireAt (.other 0) [p] else s1

/-- A request performed. A load and an atomic send their value back, an arrival the phase before it, bar.init whether a
parked TG turned it away (R176), and bar.wait and bar.test the object's word; a bar.wait whose phase has not completed is registered and
sends nothing (R179). DESIGN CHOICE, log 37. -/
def State.remote (s : State) (loc : Nat) (op : RemoteOp) : State :=
  let o : ObjRef := .glob loc
  let x := s.obj o
  let reply (s : State) (bs : List Byte) : State := s.record s.srcPort (.linkReply bs)
  let word (ph : BitVec 16) : State := reply (if x.phase != ph then s.acquireAt (.other 0) [phasePlace o] else s) (leBytes x.word.toNat 8)
  match op with
  | .load n ord =>
    let s1 := s.remoteOrder (o, n) ord true
    reply s1 (s1.bytes loc n 0)
  | .store d ord => (s.remoteOrder (o, d.length) ord false).store loc d
  | .rmw op ty b1 b2 ord ret =>
    let s1 := s.remoteOrder (o, ty.bytes) ord ret
    let old := s1.bytes loc ty.bytes 0
    let ws := atomWrites op.toNat ty 15 (leNat old) b1.toNat b2.toNat
    let s2 := ws.foldl (fun s w => s.setBytes (loc + w.1) w.2) s1
    if ret then reply s2 old else s2
  | .barWait ph => if x.phase = ph then { s with remoteWaits := loc :: s.remoteWaits } else word ph
  | .barTest ph => word ph
  | .barInit n =>
    if s.parkedOn o then reply s [1]
    else reply ((s.updObj o fun x => x.init n).forgetPhase o (s.obj o).phase) [0]
  | .barArrive => reply (s.barUpdate o false Obj.arrive) (leBytes (s.obj o).phase.toNat 2)
  | .barExpect n => s.barUpdate o false fun x => x.expect n.toNat
  | .barInval => (s.forgetPhase o (s.obj o).phase).barUpdate o true Obj.inval

/-- R407, R408: a request of another module on this module's memory; a disabled module does not answer it (R413). -/
def execAedunRemoteRequest (loc : Nat) (op : RemoteOp) (s : State) : Out :=
  let n := RemoteOp.bytes op
  if s.ralf.disabled then .next s else
  if n = 0 || 16 < n || loc % n ≠ 0 || !hbmOk loc || !hbmOk (loc + n - 1) then .refused .eventNotEnabled
  else .next (s.remote loc op)

/-- R407: the TG's requests to other modules are undelivered. A store or a contribution that it has sent there is not performed, and the
TG takes ADDR for the first such, a store before a contribution, before its next instruction; a request that it makes later traps ADDR.
DESIGN CHOICE, log 25. -/
def execLinkDeliveryTimeout (tg : Nat) (s : State) : Out :=
  match s.tg tg with
  | none => .refused .eventNotEnabled
  | some g =>
    let far (p : PStore) : Bool := decide (2 ^ 53 ≤ p.loc)
    let sent (c : Contrib) : Bool := c.owner == tg && decide (2 ^ 53 ≤ c.loc)
    let s1 := { s.modTg tg (fun g => { g with linkLost := true }) with contribs := s.contribs.filter fun c => !sent c }
    match ((g.stores.find? far).map fun p => (p.va, p.tid)).or ((s.contribs.find? sent).map fun c => (c.va, c.tid)) with
    | none => .next s1
    | some at' =>
      let s2 := (s1.modTg tg fun g => { g with stores := g.stores.filter (fun q => !far q), faultInval := some at' }).prune
      match g.wait with
      | .col m => .next ((s2.leaveCol g.crew m g.idx).modTg tg fun g => { g with wait := .ready })
      | _ => .next s2

end Sys2Proof.Machine
end

