-- ==== Sys2Proof/Machine/AgentsRalf.lean ====
section
/-! DEFINITION. The Ralfester controller: boot, power, counters, soft errors, alarms and attestation (R410 to R415). -/

namespace Sys2Proof.Machine

def State.modRalf (s : State) (f : Ralfester → Ralfester) : State := { s with ralf := f s.ralf }

/-! ### Boot (R413) -/

/-- Bytes made `n` long: the lengths of digests and signatures are the spec's (R414), their contents Config's. -/
def fixLen (n : Nat) (l : List Byte) : List Byte := (List.range n).map fun i => l.getD i 0

/-- SHA-384: 48 bytes. -/
def sha384 (l : List Byte) : List Byte := fixLen 48 (Config.sha384 l)

/-- Whether an image passes: signature under a key that is not erased, and version not below the floor. -/
def Ralfester.verifies (r : Ralfester) (key floor : Nat) (x : Firmware) : Bool :=
  !r.keysErased && Config.signatureOk key x.body x.sig && decide (floor ≤ x.version)

/-- R413: the boot ROM verifies the Ralfester firmware, which verifies the command processor's; a failed check stops the boot. -/
def execSecureBoot (ralf cp : Firmware) (s : State) : Out :=
  let r := s.ralf
  if r.booted || r.disabled then .refused .eventNotEnabled
  else if !r.verifies keyRalfester r.ralfFloor ralf then .next (s.modRalf fun r => { r with disabled := true })
  else
    let s1 := s.modRalf fun r => { r with ralfFloor := max r.ralfFloor ralf.version }
    if !r.verifies keyProcessor r.cpFloor cp then .next (s1.modRalf fun r => { r with disabled := true })
    else
      .next (s1.modRalf fun r =>
        { r with
          cpFloor := max r.cpFloor cp.version, booted := true
          measurements := [sha384 Config.bootRom, sha384 ralf.body, sha384 cp.body] })

/-! ### Power (R412) -/

/-- R412: the pool's new size acts at the next grant (R254). -/
def execPowerModeSelect (mode : PowerMode) (s : State) : Out := commanded s (.next (s.modRalf fun r => { r with mode := mode }))

/-- R412, R410: one thermal excursion per entry into step-down. -/
def execThermalStepDown (die : Nat) (s : State) : Out :=
  if Config.numDies ≤ die then .refused .eventNotEnabled
  else if s.ralf.stepDown then .next s
  else .next ((s.count (ctrThermal die)).modRalf fun r => { r with stepDown := true })

/-- R412. -/
def execThermalRecovery (s : State) : Out := .next (s.modRalf fun r => { r with stepDown := false })

/-! ### Counters (R410) -/

/-- R410. -/
def execLifetimeCounterRead (counter : Nat) (s : State) : Out :=
  .next (s.report (.counter counter (SMap.get 0 s.ralf.counters counter)))

/-- The counters go to the non-volatile store. -/
def State.saveCounters (s : State) : State := s.modRalf fun r => { r with savedCounters := r.counters }

/-- R410. -/
def execCounterWriteback (s : State) : Out := .next s.saveCounters
/-- R410. -/
def execOrderlyShutdown (s : State) : Out := .next s.saveCounters

/-- R410. -/
def execSoftErrorCorrected (array : ErrArray) (s : State) : Out := .next (s.count (ctrCorrected array))

/-- Arrays whose state belongs to no context (R411). -/
def ErrArray.shared : ErrArray → Bool
  | .l2 | .futureCache => true
  | _ => false

/-- R411: the owning context is halted, or the module. -/
def execUncorrectableSoftError (array : ErrArray) (ctx : Option Nat) (s : State) : Out :=
  let s1 := (s.count (ctrUncorrectable array)).report (.softError array ctx)
  match ctx with
  | none => .next s1.haltModule
  | some c =>
    if ErrArray.shared array || (s.ctx c).isNone then .refused .eventNotEnabled
    else .next (s1.haltWhere fun k => k == c)

/-! ### Alarms (R415) -/

/-- The policy of an alarm. -/
def Ralfester.policy (r : Ralfester) (a : Alarm) : BitVec 2 := SMap.get 0 r.policies (alarmIndex a)

/-- R415. -/
def execAlarmPolicyWrite (alarm : Alarm) (policy : BitVec 2) (s : State) : Out :=
  commanded s <|
  if policy = 3 || decide (policy < s.ralf.policy alarm) then .next (s.report .refusedPolicy)
  else .next (s.modRalf fun r => { r with policies := SMap.set 0 r.policies (alarmIndex alarm) policy })

/-- R415: the event is recorded; policy 2 erases the keys before the halt. -/
def execSecurityAlarm (alarm : Alarm) (s : State) : Out :=
  let p := s.ralf.policy alarm
  let s1 := (s.count (ctrAlarm alarm)).report (.alarm alarm p)
  if p = 0 then .next s1
  else .next (if p = 2 then (s1.modRalf fun r => { r with keysErased := true }).haltModule else s1.haltModule)

/-! ### Attestation (R414) -/

/-- The code of a power mode. -/
def PowerMode.code : PowerMode → Nat
  | .peak => 0 | .balanced => 1 | .cool => 2

/-- MODES of the report. -/
def Ralfester.modes (r : Ralfester) : Nat :=
  PowerMode.code r.mode + 4 * (r.policy .tamper).toNat + 16 * (r.policy .glitch).toNat + 64 * (r.policy .lid).toNat +
    256 * (r.policy .linkTamper).toNat

/-- The slots' images in slot order; an empty slot counts as 48 zero bytes. -/
def State.slotImages (s : State) : List Byte :=
  (List.range 8).flatMap fun n => match SMap.find s.microcode n with
    | some m => m.image
    | none => List.replicate 48 0

/-- Bytes [287:0] of the report, from byte 0. DESIGN CHOICE, log 23. -/
def State.attestation (s : State) (nonce : List Byte) : List Byte :=
  let r := s.ralf
  let m (i : Nat) : List Byte := fixLen 48 (r.measurements.getD i [])
  leBytes Config.serial 16 ++ leBytes r.modes 8 ++ leBytes r.ralfFloor 2 ++ leBytes r.cpFloor 2 ++ leBytes r.microFloor.toNat 2 ++
    [0, 0] ++ leBytes s.gtime.toNat 8 ++ leBytes (r.reports + 1) 8 ++ sha384 s.slotImages ++ m 2 ++ m 1 ++ m 0 ++ nonce

/-- R414; no report once the keys are erased (R415). -/
def execAttestationRequest (nonce : List Byte) (s : State) : Out :=
  if nonce.length ≠ 48 then .refused .eventNotEnabled
  else commanded s <|
    if s.ralf.keysErased then .next s
    else
    let body := s.attestation nonce
    .next ((s.report (.report body (fixLen 96 (Config.sign body)))).modRalf fun r => { r with reports := r.reports + 1 })

end Sys2Proof.Machine
end

