-- ==== Sys2Proof/Machine/Lane.lean ====
section
/-! DEFINITION. Lane and transfer instructions (R111 to R116). -/

namespace Sys2Proof.Machine

/-- A per-thread result in vector register D, `w` bits wide, in the acting threads. -/
def putLane (g : Tg) (f : RArgs) (act : Mask) (w : Nat) (x : Nat → Nat) : Tg :=
  let n := Spec.num f.d
  if w = 64 then g.setV64 n fun t => if act.has t then some (BitVec.ofNat 64 (x t)) else none
  else g.setV n fun t => if act.has t then some (BitVec.ofNat 32 (x t)) else none

/-- One result in all four bits of predicate D in the acting threads (R73). -/
def putPred (g : Tg) (f : RArgs) (act : Mask) (x : Nat → BitVec 4) : Tg :=
  g.setP (Spec.num f.d) fun t => if act.has t then some (x t, 15) else none

/-- The participants whose bit 0 of p[A] is 1 (R111). -/
def voteSet (g : Tg) (f : RArgs) : Mask :=
  Mask.of fun t => (g.acting f.h).has t && (g.pAt (Spec.num f.a) t).getLsbD 0

/-- R111. -/
def execVote (f : RArgs) (s : State) : Out :=
  onTg s fun g =>
    let act := g.acting f.h
    let z := voteSet g f
    let g1 := match f.x.toNat with
      | 0 => putPred g f act fun _ => allBits (z == act)
      | 1 => putPred g f act fun _ => allBits (z != 0)
      | 2 => putPred g f act fun _ => allBits (z == 0 || z == act)
      | 3 => putLane g f act 32 fun t => (maskWord z (t / 32)).toNat
      | 4 => putLane g f act 32 fun _ => z.threads.length
      | _ => putLane g f act 32 fun _ => z.lowest.getD 96
    done s (g1.advance (RArgs.words f))

/-- The source thread of shf in thread `t`, by the mode (R112). -/
def shfThread (mode b t : Nat) : Int :=
  match mode with
  | 0 => b
  | 1 => (t : Int) - b
  | 2 => t + b
  | _ => (t ^^^ b : Nat)

/-- R112. B is an index of 32 bits whatever the type: a vector register there need not be even, and a small immediate is its integer
(R56, R57, R95). DESIGN CHOICE, log 47. -/
def execShf (f : RArgs) (s : State) : Out :=
  onTg s fun g =>
    let w := f.ty.width
    let src (t : Nat) : Nat :=
      let j := shfThread f.x.toNat (opnd s g f.h .n32 32 f.b t) t
      if 0 ≤ j && decide (j ≤ 95) && g.mask.has j.toNat then j.toNat else t
    let row := Row.tab fun t => opnd s g f.h f.ty w f.a (src t)
    done s ((putLane g f (g.acting f.h) w fun t => Row.at row 0 t).advance (RArgs.words f))

/-- R113: a byte operation. -/
def execPrd (f : RArgs) (s : State) : Out :=
  onTg s fun g =>
    let g1 := g.setP (Spec.num f.d) fun t =>
      if g.mask.has t then
        some (prdOp f.x.toNat (g.pAt (Spec.num f.a) t) (g.pAt (Spec.num f.b) t), g.guardBits f.h.g f.h.n t)
      else none
    done s (g1.advance (RArgs.words f))

/-- R114. -/
def execPrmov (f : RArgs) (s : State) : Out :=
  onTg s fun g =>
    let act := g.acting f.h
    let g1 := match f.x.toNat with
      | 0 => putLane g f act 32 fun t => (g.pAt (Spec.num f.a) t).toNat
      | 1 => putPred g f act fun t => BitVec.ofNat 4 (opnd s g f.h .n32 32 f.a t)
      | _ => putPred g f act fun t =>
          allBits ((g.pAt (Spec.num f.a) t).getLsbD (opnd s g f.h .n32 32 f.b t % 4))
    done s (g1.advance (RArgs.words f))

/-- R115. -/
def execS2v (f : RArgs) (s : State) : Out :=
  onTg s fun g =>
    let w := f.ty.width
    done s ((putLane g f (g.acting f.h) w fun t => opnd s g f.h f.ty w f.a t).advance (RArgs.words f))

/-- R116: acts once for the TG. -/
def execV2s (f : RArgs) (s : State) : Out :=
  onTg s fun g =>
    match g.once f.h with
    | none => skip s g (RArgs.words f)
    | some t =>
      let w := f.ty.width
      let j := opnd s g f.h .n32 32 f.b t
      let j := if j < 96 && g.mask.has j then j else t
      let x := extend f.ty.isSInt w 64 (opnd s g f.h f.ty w f.a j)
      done s ((g.setS (Spec.num f.d) (BitVec.ofNat 64 x)).advance (RArgs.words f))

end Sys2Proof.Machine
end

