-- ==== Sys2Proof/Machine/Timing.lean ====
section
/-! DEFINITION. How long an instruction occupies its sub-scheduler (R117, R138, R145, R159, R393, R426), when a TG can issue, and the
passing of time (R294, R295, R304).
What the spec leaves open, every latency, is a free number of clk (DESIGN CHOICE, log 5). -/

namespace Sys2Proof.Machine

/-- Beats of a mask that hold a thread (R70). -/
def beatsOf (m : Mask) : Nat := ([0, 1, 2].filter fun b => maskWord m b != 0).length

/-- clk of a beat of classes 0x10 to 0x1C (R117), 0x20 to 0x26 (R138) and of sobol (R393); none for another instruction. -/
def arithClk (i : Instr) : Option Nat :=
  let wide (ty : Ty) (n w : Nat) : Nat := if ty.width = 64 then w else n
  match i with
  | .mul f | .mulhi f | .mad f => some (wide f.ty 2 8)
  | .madw f => some (if f.ty.width = 32 then 2 else 1)
  | .shf f => some (wide f.ty 2 4)
  | .lea _ => some 2
  | .vote _ | .prd _ | .prmov _ => some 1
  | .rcp _ | .rsq _ | .sqrt _ | .ex2 _ | .lg2 _ | .sobol _ => some 4
  | .sin _ | .cos _ => some 8
  | i =>
    match i.enc with
    | .r op _ f _ =>
      if 0x10 ≤ op.toNat && op.toNat ≤ 0x1C then some (wide f.ty 1 2)
      else if 0x20 ≤ op.toNat && op.toNat ≤ 0x26 then some 1
      else none
    | .i op _ f _ => if op = 0x19 then some (wide (iTy f) 1 2) else none
    | _ => none

/-- Parts of a beat by access size (R145). -/
def partsOf (z : Nat) : Nat := if z = 16 then 4 else if z = 8 then 2 else 1

/-- The bank cost of accesses of `z` bytes (thread, offset): per part, the most distinct words in one bank (R145). DESIGN CHOICE, log 32. -/
def bankClk (z : Nat) (accs : List (Nat × Nat)) : Nat :=
  let per := 32 / partsOf z
  ((List.range (96 / per)).map fun j =>
    let words := ((accs.filter fun a => a.1 / per == j).flatMap fun a => [a.2 / 4, a.2 / 4 + 1, a.2 / 4 + 2, a.2 / 4 + 3].filter
      fun w => decide (w * 4 < a.2 + z)).eraseDups
    ((List.range 32).map fun b => (words.filter fun w => w % 32 == b).length).foldl max 0).sum

/-- Whether a thread acts where guard bit 0 or guard bit 2 holds (R28). -/
def actsPacked (i : Instr) : Bool :=
  match i with
  | .hadd2 _ | .hmul2 _ | .hfma2 _ | .hmin2 _ | .hmax2 _ | .hcmp2 _ => true
  | .sel f => f.ty.isPacked
  | _ => false

/-- The bank cost of a sweep: in each iteration, that of the beats of each scratchpad operand, counted operand by operand (R61, R117, R138,
R145; DESIGN CHOICE, log 50). -/
def sweepBanks (g : Tg) (f : RArgs) (act : Mask) (cnt : Nat) (std sta stb : BitVec 16) : Nat :=
  let one (sp : Spec) (i : Nat) (step : BitVec 16) : Nat :=
    bankClk 4 (act.threads.flatMap fun t => (sweepOff g sp i step t).map fun o => (t, o))
  ((List.range cnt).map fun i => one f.d i std + one f.a i sta + one f.b i stb).sum

/-- clk of an instruction with an arithmetic cost of `n` clk per beat: once for a uniform form and for v2s (R117, R138). -/
def beatClk (g : Tg) (i : Instr) (n : Nat) : Nat :=
  match hdrOf i with
  | none => n
  | some h =>
    if h.u then n
    else match h.long, i with
      | .sweep cnt std sta stb, i =>
        let act := if actsPacked i then g.actingPacked h else g.acting h
        let banks := match i.enc with
          | .r _ _ f _ => sweepBanks g f act cnt.toNat std sta stb
          | _ => 0
        cnt.toNat * (n * beatsOf g.mask) + banks
      | _, .v2s _ => n
      | _, _ => n * beatsOf g.mask

/-- clk of issue of an instruction: of one that acts per thread, a beat each (R19, R295). -/
def instrClk (g : Tg) (i : Instr) : Nat :=
  let global (f : RArgs) (z : Nat) : Nat := beatsOf (g.acting f.h) * partsOf z
  let spad (f : RArgs) (z : Nat) : Nat := bankClk z ((g.acting f.h).threads.map fun t => (t, spAddr g f z t))
  match arithClk i with
  | some n => beatClk g i n
  | none =>
    match i with
    | .bra _ | .brx _ | .join _ | .exit _ | .bredCode _ | .fspawn _ | .fref _ | .fdrop _ | .fself _ | .fwait _ | .fpoll _ | .fput _
    | .fhold _ | .frel _ | .tacc _ | .trej _ => beatsOf g.mask
    | .ldGl f | .stGl f | .ldg f | .stg f => global f (accessSize f)
    | .ldSp f | .stSp f => spad f (accessSize f)
    | .qpush f | .qpop f => global f (accessSize f)
    | .atom f | .red f => if atomSp g f then spad f f.ty.bytes else global f f.ty.bytes
    | .redDet f => global f f.ty.bytes
    | .fldm f | .fstm f => global f 8
    | .bredAdd f | .bredGet f => global f 8
    | _ => 1

/-- clk that an instruction occupies its sub-scheduler at the least: one, also where every beat of an access is skipped (R159, R295; DESIGN
CHOICE, log 5). -/
def issueClk (g : Tg) (i : Instr) : Nat := max 1 (instrClk g i)

/-! ### Ready TGs (R294, R295) -/

/-- Whether a TG can issue once its sub-scheduler is free and its operands are there. -/
def State.canIssue (s : State) (g : Tg) : Bool :=
  g.resident && s.runs g.ctx && !g.held && g.wait != .mac && (g.ending != .none || g.faultInval.isSome || s.woken g.ctx g.wait)

/-- The TGs of a sub-scheduler that can issue. -/
def State.candidates (s : State) (core sub : Nat) : List (Nat × Tg) :=
  s.tgs.filter fun p => p.2.core == core && p.2.sub == sub && s.canIssue p.2

/-- The clk at which a sub-scheduler issues next: it is free, and some TG that can issue has its operands; none without such a TG. -/
def State.issueTime (s : State) (core sub : Nat) : Option Nat :=
  ((s.candidates core sub).map (·.2.readyAt)).min?.map fun t => max s.clk (max (SMap.get 0 (s.core core).busy sub) t)

/-- The TG that a sub-scheduler issues next: of those ready then, the one of the earliest effective deadline, then the one that became
resident first. -/
def State.pick (s : State) (core sub : Nat) : Option Nat :=
  match s.issueTime core sub with
  | none => none
  | some t =>
    earliest (((s.candidates core sub).filter fun p => decide (p.2.readyAt ≤ t)).map fun p => (s.effDeadline p.1, p.2.order, p.1))

/-- The clk at which the next TG of the module issues. -/
def State.firstIssue (s : State) : Option Nat :=
  ((s.tgs.filter fun p => s.canIssue p.2).filterMap fun p => s.issueTime p.2.core p.2.sub).min?

/-! ### Time -/

/-- As many of `n` clk as pass before the next bin's timer expires and before the next TG issues. -/
def State.slack (s : State) (n : Nat) : Nat := (s.nextDue.toList ++ s.firstIssue.toList).foldl (fun n d => min n (d - s.clk)) n

/-- A free number of clk passes, no more than until the next timer or issue. -/
def State.elapse (s : State) : State := s.advanceClk (s.slack (s.free 11))

/-- Time stands at the clk at which a sub-scheduler issues. -/
def State.toIssue (s : State) (core sub : Nat) : State := s.advanceClk ((s.issueTime core sub).getD s.clk - s.clk)

/-- R304: the timer of a filling bin expires; a bin whose timer is due earlier has fired before, and a TG that can issue before has issued
(DESIGN CHOICE, log 5: time stands at the timer's value at the least). -/
def execBinTimerExpiry (die bin : Nat) (s : State) : Out :=
  match SMap.find (s.die die).bins bin with
  | none => .refused .eventNotEnabled
  | some b =>
    if (s.nextDue.any fun d => decide (d < b.due)) || (decide (s.clk < b.due) && s.firstIssue.any fun t => decide (t < b.due)) then
      .refused .eventNotEnabled
    else .next ((s.advanceClk (b.due - s.clk)).fireBin die bin)

end Sys2Proof.Machine
end

