-- ==== Sys2Proof/Machine/Dispatch.lean ====
section
/-! DEFINITION. The meaning of an instruction: one arm per row of the opcode table. -/

namespace Sys2Proof.Machine

def exec (i : Instr) (s : State) : Host.Outcome State Fault Refusal :=
  match i with
  | .nop f => Sys2Proof.Machine.execNop f s
  | .bra f => Sys2Proof.Machine.execBra f s
  | .brx f => Sys2Proof.Machine.execBrx f s
  | .call f => Sys2Proof.Machine.execCall f s
  | .callx f => Sys2Proof.Machine.execCallx f s
  | .ret f => Sys2Proof.Machine.execRet f s
  | .join f => Sys2Proof.Machine.execJoin f s
  | .loop f => Sys2Proof.Machine.execLoop f s
  | .exit f => Sys2Proof.Machine.execExit f s
  | .add f => Sys2Proof.Machine.execAdd f s
  | .addc f => Sys2Proof.Machine.execAddc f s
  | .sub f => Sys2Proof.Machine.execSub f s
  | .subb f => Sys2Proof.Machine.execSubb f s
  | .mul f => Sys2Proof.Machine.execMul f s
  | .mulhi f => Sys2Proof.Machine.execMulhi f s
  | .mad f => Sys2Proof.Machine.execMad f s
  | .madw f => Sys2Proof.Machine.execMadw f s
  | .min f => Sys2Proof.Machine.execMin f s
  | .max f => Sys2Proof.Machine.execMax f s
  | .abs f => Sys2Proof.Machine.execAbs f s
  | .neg f => Sys2Proof.Machine.execNeg f s
  | .and f => Sys2Proof.Machine.execAnd f s
  | .or f => Sys2Proof.Machine.execOr f s
  | .xor f => Sys2Proof.Machine.execXor f s
  | .not f => Sys2Proof.Machine.execNot f s
  | .andn f => Sys2Proof.Machine.execAndn f s
  | .shl f => Sys2Proof.Machine.execShl f s
  | .shr f => Sys2Proof.Machine.execShr f s
  | .sar f => Sys2Proof.Machine.execSar f s
  | .rot f => Sys2Proof.Machine.execRot f s
  | .bfx f => Sys2Proof.Machine.execBfx f s
  | .bfi f => Sys2Proof.Machine.execBfi f s
  | .popc f => Sys2Proof.Machine.execPopc f s
  | .clz f => Sys2Proof.Machine.execClz f s
  | .ctz f => Sys2Proof.Machine.execCtz f s
  | .brev f => Sys2Proof.Machine.execBrev f s
  | .cmp f => Sys2Proof.Machine.execCmp f s
  | .sel f => Sys2Proof.Machine.execSel f s
  | .mov f => Sys2Proof.Machine.execMov f s
  | .movHi f => Sys2Proof.Machine.execMovHi f s
  | .movi f => Sys2Proof.Machine.execMovi f s
  | .movhi f => Sys2Proof.Machine.execMovhi f s
  | .lea f => Sys2Proof.Machine.execLea f s
  | .vote f => Sys2Proof.Machine.execVote f s
  | .shf f => Sys2Proof.Machine.execShf f s
  | .prd f => Sys2Proof.Machine.execPrd f s
  | .prmov f => Sys2Proof.Machine.execPrmov f s
  | .s2v f => Sys2Proof.Machine.execS2v f s
  | .v2s f => Sys2Proof.Machine.execV2s f s
  | .fadd f => Sys2Proof.Machine.execFadd f s
  | .fsub f => Sys2Proof.Machine.execFsub f s
  | .fmul f => Sys2Proof.Machine.execFmul f s
  | .fma f => Sys2Proof.Machine.execFma f s
  | .fmin f => Sys2Proof.Machine.execFmin f s
  | .fmax f => Sys2Proof.Machine.execFmax f s
  | .fcmp f => Sys2Proof.Machine.execFcmp f s
  | .frnd f => Sys2Proof.Machine.execFrnd f s
  | .fscale f => Sys2Proof.Machine.execFscale f s
  | .fclass f => Sys2Proof.Machine.execFclass f s
  | .cvt f => Sys2Proof.Machine.execCvt f s
  | .srnd f => Sys2Proof.Machine.execSrnd f s
  | .rcp f => Sys2Proof.Machine.execRcp f s
  | .sqrt f => Sys2Proof.Machine.execSqrt f s
  | .rsq f => Sys2Proof.Machine.execRsq f s
  | .ex2 f => Sys2Proof.Machine.execEx2 f s
  | .lg2 f => Sys2Proof.Machine.execLg2 f s
  | .sin f => Sys2Proof.Machine.execSin f s
  | .cos f => Sys2Proof.Machine.execCos f s
  | .hadd2 f => Sys2Proof.Machine.execHadd2 f s
  | .hmul2 f => Sys2Proof.Machine.execHmul2 f s
  | .hfma2 f => Sys2Proof.Machine.execHfma2 f s
  | .hmin2 f => Sys2Proof.Machine.execHmin2 f s
  | .hmax2 f => Sys2Proof.Machine.execHmax2 f s
  | .hcmp2 f => Sys2Proof.Machine.execHcmp2 f s
  | .dot2 f => Sys2Proof.Machine.execDot2 f s
  | .ldGl f => Sys2Proof.Machine.execLdGl f s
  | .stGl f => Sys2Proof.Machine.execStGl f s
  | .ldSp f => Sys2Proof.Machine.execLdSp f s
  | .stSp f => Sys2Proof.Machine.execStSp f s
  | .ldg f => Sys2Proof.Machine.execLdg f s
  | .stg f => Sys2Proof.Machine.execStg f s
  | .ldU f => Sys2Proof.Machine.execLdU f s
  | .stU f => Sys2Proof.Machine.execStU f s
  | .prf f => Sys2Proof.Machine.execPrf f s
  | .dsc f => Sys2Proof.Machine.execDsc f s
  | .wbk f => Sys2Proof.Machine.execWbk f s
  | .qpush f => Sys2Proof.Machine.execQpush f s
  | .qpop f => Sys2Proof.Machine.execQpop f s
  | .atom f => Sys2Proof.Machine.execAtom f s
  | .red f => Sys2Proof.Machine.execRed f s
  | .redDet f => Sys2Proof.Machine.execRedDet f s
  | .aflush f => Sys2Proof.Machine.execAflush f s
  | .bredClr f => Sys2Proof.Machine.execBredClr f s
  | .bredCode f => Sys2Proof.Machine.execBredCode f s
  | .bredAdd f => Sys2Proof.Machine.execBredAdd f s
  | .bredGet f => Sys2Proof.Machine.execBredGet f s
  | .fence f => Sys2Proof.Machine.execFence f s
  | .barInit f => Sys2Proof.Machine.execBarInit f s
  | .barArrive f => Sys2Proof.Machine.execBarArrive f s
  | .barExpect f => Sys2Proof.Machine.execBarExpect f s
  | .barWait f => Sys2Proof.Machine.execBarWait f s
  | .barTest f => Sys2Proof.Machine.execBarTest f s
  | .barInval f => Sys2Proof.Machine.execBarInval f s
  | .cpy f => Sys2Proof.Machine.execCpy f s
  | .cpyDesc f => Sys2Proof.Machine.execCpyDesc f s
  | .cpyFill f => Sys2Proof.Machine.execCpyFill f s
  | .cpyTopk f => Sys2Proof.Machine.execCpyTopk f s
  | .cpyExpand f => Sys2Proof.Machine.execCpyExpand f s
  | .cpySub f => Sys2Proof.Machine.execCpySub f s
  | .cpyUnsub f => Sys2Proof.Machine.execCpyUnsub f s
  | .cpyCancel f => Sys2Proof.Machine.execCpyCancel f s
  | .copyLanding op step => Sys2Proof.Machine.execCopyLanding op step s
  | .subscriptionPush op => Sys2Proof.Machine.execSubscriptionPush op s
  | .subscriptionPull op => Sys2Proof.Machine.execSubscriptionPull op s
  | .stgRsv f => Sys2Proof.Machine.execStgRsv f s
  | .stgRel f => Sys2Proof.Machine.execStgRel f s
  | .stgCb f => Sys2Proof.Machine.execStgCb f s
  | .rngAdvProd f => Sys2Proof.Machine.execRngAdvProd f s
  | .rngAdvCons f => Sys2Proof.Machine.execRngAdvCons f s
  | .rngTake f => Sys2Proof.Machine.execRngTake f s
  | .gang f => Sys2Proof.Machine.execGang f s
  | .mma f => Sys2Proof.Machine.execMma f s
  | .mmaBlk f => Sys2Proof.Machine.execMmaBlk f s
  | .mzero f => Sys2Proof.Machine.execMzero f s
  | .mld f => Sys2Proof.Machine.execMld f s
  | .mst f => Sys2Proof.Machine.execMst f s
  | .mmov f => Sys2Proof.Machine.execMmov f s
  | .mfenceOp f => Sys2Proof.Machine.execMfenceOp f s
  | .mwait f => Sys2Proof.Machine.execMwait f s
  | .tokenGrant crew gang => Sys2Proof.Machine.execTokenGrant crew gang s
  | .engineOpStart core op => Sys2Proof.Machine.execEngineOpStart core op s
  | .engineOpComplete core op => Sys2Proof.Machine.execEngineOpComplete core op s
  | .transferPerform crew gang => Sys2Proof.Machine.execTransferPerform crew gang s
  | .mlrSet f => Sys2Proof.Machine.execMlrSet f s
  | .mlrGet f => Sys2Proof.Machine.execMlrGet f s
  | .mlrInfo f => Sys2Proof.Machine.execMlrInfo f s
  | .mlrMul f => Sys2Proof.Machine.execMlrMul f s
  | .mlrMuld f => Sys2Proof.Machine.execMlrMuld f s
  | .mlrAdd f => Sys2Proof.Machine.execMlrAdd f s
  | .mlrScl f => Sys2Proof.Machine.execMlrScl f s
  | .mlrRcmp f => Sys2Proof.Machine.execMlrRcmp f s
  | .mlrTrunc f => Sys2Proof.Machine.execMlrTrunc f s
  | .mlrFact f => Sys2Proof.Machine.execMlrFact f s
  | .mlrDense f => Sys2Proof.Machine.execMlrDense f s
  | .recompressStage crew gang => Sys2Proof.Machine.execRecompressStage crew gang s
  | .fspawn f => Sys2Proof.Machine.execFspawn f s
  | .launch f => Sys2Proof.Machine.execLaunch f s
  | .binSet f => Sys2Proof.Machine.execBinSet f s
  | .fref f => Sys2Proof.Machine.execFref f s
  | .fdrop f => Sys2Proof.Machine.execFdrop f s
  | .fstm f => Sys2Proof.Machine.execFstm f s
  | .fldm f => Sys2Proof.Machine.execFldm f s
  | .fself f => Sys2Proof.Machine.execFself f s
  | .fwait f => Sys2Proof.Machine.execFwait f s
  | .fpoll f => Sys2Proof.Machine.execFpoll f s
  | .fput f => Sys2Proof.Machine.execFput f s
  | .yield f => Sys2Proof.Machine.execYield f s
  | .fhold f => Sys2Proof.Machine.execFhold f s
  | .frel f => Sys2Proof.Machine.execFrel f s
  | .binTimerExpiry die bin => Sys2Proof.Machine.execBinTimerExpiry die bin s
  | .trav f => Sys2Proof.Machine.execTrav f s
  | .tacc f => Sys2Proof.Machine.execTacc f s
  | .trej f => Sys2Proof.Machine.execTrej f s
  | .rast f => Sys2Proof.Machine.execRast f s
  | .filt f => Sys2Proof.Machine.execFilt f s
  | .blnd f => Sys2Proof.Machine.execBlnd f s
  | .sobol f => Sys2Proof.Machine.execSobol f s
  | .mcx f => Sys2Proof.Machine.execMcx f s
  | .macroStep tg thread => Sys2Proof.Machine.execMacroStep tg thread s
  | .trap f => Sys2Proof.Machine.execTrap f s
  | .rett f => Sys2Proof.Machine.execRett f s
  | .sysr f => Sys2Proof.Machine.execSysr f s
  | .sysw f => Sys2Proof.Machine.execSysw f s
  | .syswMemdef f => Sys2Proof.Machine.execSyswMemdef f s
  | .syswTvec f => Sys2Proof.Machine.execSyswTvec f s
  | .tlbInv f => Sys2Proof.Machine.execTlbInv f s
  | .mcload f => Sys2Proof.Machine.execMcload f s
  | .halt f => Sys2Proof.Machine.execHalt f s
  | .brkpt f => Sys2Proof.Machine.execBrkpt f s
  | .heldFaultPost die => Sys2Proof.Machine.execHeldFaultPost die s
  | .budgetExhausted tg => Sys2Proof.Machine.execBudgetExhausted tg s
  | .forcedStop tg => Sys2Proof.Machine.execForcedStop tg s
  | .crewPreempt crew => Sys2Proof.Machine.execCrewPreempt crew s
  | .crewPlace crew core => Sys2Proof.Machine.execCrewPlace crew core s
  | .carveChange core carve => Sys2Proof.Machine.execCarveChange core carve s
  | .launchStart launch => Sys2Proof.Machine.execLaunchStart launch s
  | .redDetContribution idx => Sys2Proof.Machine.execRedDetContribution idx s
  | .reductionFlush launch => Sys2Proof.Machine.execReductionFlush launch s
  | .launchComplete launch => Sys2Proof.Machine.execLaunchComplete launch s
  | .cmdLaunch ctx queue => Sys2Proof.Machine.execCmdLaunch ctx queue s
  | .cmdNop ctx queue => Sys2Proof.Machine.execCmdNop ctx queue s
  | .notify ctx queue value => Sys2Proof.Machine.execNotify ctx queue value s
  | .queueMap ctx queue => Sys2Proof.Machine.execQueueMap ctx queue s
  | .queueUnmap ctx queue => Sys2Proof.Machine.execQueueUnmap ctx queue s
  | .resume ctx => Sys2Proof.Machine.execResume ctx s
  | .flr function => Sys2Proof.Machine.execFlr function s
  | .hostReset => Sys2Proof.Machine.execHostReset s
  | .secureBoot ralf cp => Sys2Proof.Machine.execSecureBoot ralf cp s
  | .powerModeSelect mode => Sys2Proof.Machine.execPowerModeSelect mode s
  | .thermalStepDown die => Sys2Proof.Machine.execThermalStepDown die s
  | .thermalRecovery => Sys2Proof.Machine.execThermalRecovery s
  | .attestationRequest nonce => Sys2Proof.Machine.execAttestationRequest nonce s
  | .lifetimeCounterRead counter => Sys2Proof.Machine.execLifetimeCounterRead counter s
  | .counterWriteback => Sys2Proof.Machine.execCounterWriteback s
  | .alarmPolicyWrite alarm policy => Sys2Proof.Machine.execAlarmPolicyWrite alarm policy s
  | .securityAlarm alarm => Sys2Proof.Machine.execSecurityAlarm alarm s
  | .uncorrectableSoftError array ctx => Sys2Proof.Machine.execUncorrectableSoftError array ctx s
  | .linkDeliveryTimeout tg => Sys2Proof.Machine.execLinkDeliveryTimeout tg s
  | .hostFaultService die barrier contents => Sys2Proof.Machine.execHostFaultService die barrier contents s
  | .contextCreate c => Sys2Proof.Machine.execContextCreate c s
  | .homeSlicePerform tg idx => Sys2Proof.Machine.execHomeSlicePerform tg idx s
  | .aedunRemoteRequest loc op => Sys2Proof.Machine.execAedunRemoteRequest loc op s
  | .orderlyShutdown => Sys2Proof.Machine.execOrderlyShutdown s
  | .softErrorCorrected array => Sys2Proof.Machine.execSoftErrorCorrected array s

end Sys2Proof.Machine
end

