-- ==== Sys2Proof/Machine/Issue.lean ====
section
/-! DEFINITION. Which TG issues, what its program counter holds, and everything a core does around one instruction: waits that end,
reclamation, pre-emption, BUDGET and time (R66 to R68, R294 to R298, R309, R323, R328, R331, R333). -/

namespace Sys2Proof.Machine

/-! ### Which TG issues (R294, R295) -/

/-- Whether a TG may issue now: its sub-scheduler picks it, and no other sub-scheduler issues before and no bin's timer expires before
(R295, R304); or the TG is unplaced or saved and is to end (R328). -/
def State.mayIssue (s : State) (id : Nat) (g : Tg) : Bool :=
  if g.resident then
    s.pick g.core g.sub == some id && match s.issueTime g.core g.sub with
      | some t => (s.nextDue.toList ++ s.firstIssue.toList).all fun d => decide (t ≤ d)
      | none => false
  else g.ending != .none && g.wait != .mac

/-! ### Fetch (R66 to R68, R151) -/

/-- What the program counter gives. -/
inductive Fetched where
  | ok (i : Instr) (words : Nat)
  | illop (w : W64)
  | stop (st : Stop)
deriving DecidableEq, Repr

/-- Word `k` from the program counter on. -/
def State.fetchWord (s : State) (g : Tg) (k : Nat) : Except Stop W64 :=
  let va := g.pc + BitVec.ofNat 64 (8 * k)
  match s.checkGl g.core g.ctx [(g.mask.lowest.getD 0, va)] 8 .fetch with
  | some st => .error st
  | none => .ok (BitVec.ofNat 64 (leNat (s.bytes (s.locOf g.core g.ctx va.toNat) 8 0)))

/-- An instruction of an empty microcode slot traps NOMACRO before its long word is looked at (R67 step 2). -/
def State.emptySlot (s : State) (g : Tg) (w : W64) : Option Instr :=
  let r := RawWord.ofBits w
  if isMcOp r.op && (s.imageFor g (r.op.toNat % 8)).isNone then some (.mcx (.ofRaw r none)) else none

/-- The instruction at the program counter, read word by word: a trap or fault of a later word comes before the ILLOP that the first
word's own fields would give (R67). DESIGN CHOICE, log 44. -/
def State.fetch (s : State) (g : Tg) : Fetched :=
  match s.fetchWord g 0 with
  | .error st => .stop st
  | .ok w0 =>
    match s.emptySlot g w0 with
    | some i => .ok i 1
    | none =>
      match decode [w0] with
      | .ok i n => .ok i n
      | .illop => .illop w0
      | .more =>
        match s.fetchWord g 1 with
        | .error st => .stop st
        | .ok w1 =>
          match decode [w0, w1] with
          | .ok i n => .ok i n
          | .illop => .illop w0
          | .more =>
            match s.fetchWord g 2 with
            | .error st => .stop st
            | .ok w2 =>
              match decode [w0, w1, w2] with
              | .ok i n => .ok i n
              | _ => .illop w0

/-- The pages of `n` words at the program counter are used. -/
def State.touchCode (s : State) (g : Tg) (n : Nat) : State :=
  s.touchAll g.core g.ctx ((List.range n).map fun k => (g.pc + BitVec.ofNat 64 (8 * k)).toNat) false

/-! ### Points (R309, R331) -/

/-- An instruction that is a reclamation point before it issues (R309); frel is one after it. -/
def reclaimsAt (i : Instr) : Bool :=
  match i with
  | .fwait _ | .barWait _ | .yield _ | .trav _ | .rast _ | .filt _ | .blnd _ | .mcx _ => true
  | i => isSafe i

/-- Whether an instruction of the TG `g`, which left it as `g'`, is a pre-emption point: a wait; and outside a handler S = 1, yield and a
macro's issue. A held fault is none (R152, R326, R331). -/
def preemptPoint (i : Instr) (g g' : Tg) : Bool :=
  (!g.trap.tstat && (isSafe i || match i with | .yield _ => true | _ => false)) || match g'.wait with
    | .ready | .heldFault .. => false
    | .mac => !g'.trap.tstat
    | _ => true

/-! ### Readiness (R295) -/

/-- The registers that an instruction takes from memory, the future cache or a queue, by their first. -/
def memResults (i : Instr) : List Spec :=
  match i with
  | .ldGl f | .ldSp f | .ldg f | .ldU f | .bredGet f | .barArrive f | .bredCode f | .bredAdd f | .fldm f => [f.d]
  | .atom f => [f.d]
  | .qpush f => [f.d]
  | .qpop f | .barTest f | .fpoll f => [f.d, f.cs]
  | .barWait f | .fwait f => [f.d, f.cs]
  | _ => []

/-- The operands that an instruction reads or writes, its guard among them. -/
def operandsOf (i : Instr) : List Spec :=
  let guard : List Spec := ((hdrOf i).map fun h => Spec.p h.g).toList
  guard ++ match i.enc with
    | .r _ _ f _ => [f.d, f.a, f.b, f.cs]
    | .i _ _ f _ => [f.d, f.a]
    | _ => []

/-- Whether an operand may lie in a result: the same kind of register, at most four apart. -/
def nearSpec (a b : Spec) : Bool :=
  let close (m n : Nat) : Bool := decide (m < n + 4) && decide (n < m + 4)
  match a, b with
  | .v m, .v n => close m.toNat n.toNat
  | .s m, .s n => close m.toNat n.toNat
  | .p m, .p n => m == n
  | .f m, .f n => m == n
  | _, _ => false

/-- Whether an instruction that takes something from memory acted on a thread of the TG `g`; where none did, no write is pending (R157,
R184). -/
def Tg.actsIn (g : Tg) (i : Instr) : Bool :=
  match i with
  | .ldU f | .barArrive f | .barWait f | .barTest f => (g.once f.h).isSome
  | .atom f => (if f.ty.isPacked then g.actingPacked f.h else g.acting f.h) != 0
  | i => (hdrOf i).any fun h => g.acting h != 0

/-- Whether the instruction at the program counter of the TG, `g'` now, must wait for what an instruction of `g` gets from memory. -/
def State.dependsOn (s : State) (g g' : Tg) (i : Instr) : Bool :=
  !(memResults i).isEmpty && g.actsIn i && match s.fetch g' with
    | .ok j _ => (memResults i).any fun r => (operandsOf j).any (nearSpec r)
    | _ => false

/-- The clk at which a TG that was `g` is ready again after an instruction of `n` clk: a free latency later, and at least 1 clk, where its
next instruction needs what this one gets from memory (R157, R184, R295; DESIGN CHOICE, log 5). -/
def State.readyAfter (s : State) (g g' : Tg) (i : Instr) (n : Nat) : Nat :=
  s.clk + n + if s.dependsOn g g' i then 1 + s.free 20 else 0

/-- What follows an instruction of a TG that was `g` when it issued: BUDGET, a pre-emption point passed, the occupation of its
sub-scheduler for `n` clk, and when the TG is ready again. -/
def State.after (s : State) (id : Nat) (g : Tg) (i : Instr) (n : Nat) : State :=
  let s1 := match s.tg id with
    | none => s
    | some g' =>
      (s.modTg id fun x => { x with sinceSafe := if preemptPoint i g g' then 0 else x.sinceSafe }).passSafe id g i
  (s1.modTg id fun x => { x with readyAt := s1.readyAfter g x i n }).occupy g.core g.sub n

/-- The meaning of an instruction, with what follows it. -/
def State.runInstr (s : State) (id : Nat) (g : Tg) (i : Instr) : Out :=
  match exec i s with
  | .next s1 => .next (s1.after id g i (issueClk g i))
  | o => o

/-- An instruction that has been fetched: reclamation first, then a pre-emption that waits, then its meaning (R331). -/
def State.issueInstr (s : State) (id : Nat) (g : Tg) (i : Instr) : Out :=
  if reclaimsAt i && s.reclaimable g != 0 then .next (s.reclaim id)
  else if isSafe i && g.preempt && !g.trap.tstat then .next (s.setTg id { g with held := true, sinceSafe := 0 })
  else s.runInstr id g i

/-- A TG that is not parked: what is due before an instruction, then the instruction. -/
def State.issueReady (s : State) (id : Nat) (g : Tg) : Out :=
  match g.faultInval with
  | some (va, tid) =>
    let s1 := s.setTg id { g with faultInval := none }
    if g.mask = 0 then .next (s1.endAt id .addr va) else .next (s1.trapHere id .addr va tid)
  | none =>
    if g.mask = 0 then .next (s.settle id)
    else if g.budgetForced && !g.trap.tstat then .next (s.takeBudget id g.pc 1)
    else
      match s.fetch g with
      | .stop st => .next (s.stop id st)
      | .illop w => .next ((s.touchCode g 1).trapHere id .illop w (g.mask.lowest.getD 0))
      | .ok i n => (s.touchCode g n).issueInstr id g i

/-- A TG whose wait ended goes on with its instruction, or with the fill that faulted. -/
def State.issueTg (s : State) (id : Nat) (g : Tg) : Out :=
  match g.ending with
  | .launchFailed => .next (s.endQuiet id)
  | .addr va => .next (s.endAt id .addr va)
  | .none =>
    if g.wait = .ready then s.issueReady id g
    else if s.waitReclaims g ≠ 0 then .next (s.reclaimParked id)
    else
      let g1 := { g with wait := .ready }
      (s.setTg id g1).issueReady id g1

/-- A TG issues, once the late halves of its last access are performed (R157, R196). -/
def State.issue (s : State) (id : Nat) : Out :=
  match s.tg id with
  | none => .refused .eventNotEnabled
  | some g0 =>
    if !s.mayIssue id g0 then .refused .eventNotEnabled
    else
      let s1 := ({ s with cur := id }.finishLate id).toIssue g0.core g0.sub
      match s1.tg id with
      | some g => s1.issueTg id g
      | none => .refused .eventNotEnabled

end Sys2Proof.Machine
end

