-- ==== Sys2Proof/Machine/Sched.lean ====
section
/-! DEFINITION. Which move comes next (DESIGN CHOICE, log 2). A move that the agenda names is made first; else a timer of a TG that is due; else
one of the enabled moves, chosen by a free value, but in turn what must not wait for ever (R311); and where nothing can move, time passes.
Events from outside the module (the host, sensors, other modules) come from the agenda only. -/

namespace Sys2Proof.Machine

/-- Whether an instruction of the table is a step of another agent. -/
def isEvent (i : Instr) : Bool := i.enc == .event

/-- Whether an agent may make a step now. The step of a store, of which there are many, and of a transfer, which is long, are asked for
their condition alone. -/
def State.enabled (s : State) (i : Instr) : Bool :=
  match i with
  | .homeSlicePerform id k => (s.tg id).any fun g => g.stores[k]?.any fun p => !g.storeWaits k p
  | .transferPerform crew mask => (s.crew crew).isSome && (s.gang crew mask).any (·.mayTransfer)
  | i => match exec i s with
    | .refused _ => false
    | _ => true

/-- Timers that are due: BUDGET and the forced stop (R296, R333), and those of bins (R304). -/
def State.due (s : State) : List Instr :=
  let tgs := s.tgs.flatMap fun p => [Instr.budgetExhausted p.1, .forcedStop p.1]
  let bins := s.dies.flatMap fun d => (d.2.bins.filter fun b => decide (b.2.due ≤ s.clk)).map fun b => Instr.binTimerExpiry d.1 b.1
  (tgs ++ bins).filter s.enabled

/-- The step that reads the first unread byte of the first unit that has one. -/
def CopyOp.firstRead (o : CopyOp) (s : State) : Nat := (o.firstPlace s).1 * o.work.reads + (o.firstPlace s).2

/-- The step of a base-die controller that takes up the next tile of a subscription. -/
def CopyOp.tileSteps (id : Nat) (o : CopyOp) : List Instr :=
  match o.work with
  | .sub _ true .. => [.subscriptionPull id]
  | .sub _ false .. => [.subscriptionPush id]
  | _ => []

/-- Steps of the copy engines and base-die controllers: an operation reads its first unread byte, makes a freely chosen step, or
writes the first of the bytes on their way; a subscription takes up its next tile. -/
def State.copySteps (s : State) : List Instr :=
  s.copies.flatMap fun p =>
    let reads := p.2.work.units * p.2.work.reads
    let any := s.free (12 + 64 * p.1) % (reads + p.2.pend.length)
    p.2.tileSteps p.1 ++ [p.2.firstRead s, any, reads].map (Instr.copyLanding p.1)

/-- Steps of the token pool, the matrix engines and the load paths. -/
def State.gangSteps (s : State) : List Instr :=
  let grant := match earliest s.tokenRequests with
    | some (crew, mask) => [Instr.tokenGrant crew mask]
    | none => []
  grant ++ s.gangs.flatMap fun p =>
    let core := p.2.1.core.getD 0
    [.transferPerform p.1 p.2.2.mask, .recompressStage p.1 p.2.2.mask] ++
      p.2.2.ops.flatMap fun o => [.engineOpStart core o.id, .engineOpComplete core o.id]

/-- Steps of bins, faults and macros. -/
def State.unitSteps (s : State) : List Instr :=
  (s.dies.flatMap fun d => Instr.heldFaultPost d.1 :: d.2.bins.map fun b => .binTimerExpiry d.1 b.1) ++
    s.tgs.flatMap fun p =>
      (match p.2.mac with
        | some m => m.running.threads.map fun t => Instr.macroStep p.1 t
        | none => []) ++ (List.range p.2.stores.length).map fun k => .homeSlicePerform p.1 k

/-- A freely chosen entry of a list. -/
def State.choose {α : Type} (s : State) (site : Nat) (l : List α) : Option α := l[s.free site % l.length]?

/-- Placements of the crew that is to be placed first, and carve changes for the crews that wait. -/
def State.placeSteps (s : State) : List Instr :=
  let cores := List.range Config.numCores
  let place := match earliest s.placeable with
    | none => []
    | some (true, id) =>
      match s.launch id with
      | none => []
      | some l =>
        let opts := cores.flatMap fun k =>
          if (s.fits k l.desc.need).isNone then []
          else if l.desc.fixed then
            (((List.range (l.desc.ncrew / Config.numCores + 1)).map fun i => i * Config.numCores + k).find? fun c =>
              decide (c < l.desc.ncrew) && !l.placed.contains c).toList.map fun c => (c, k)
          else ((List.range (l.placed.length + 1)).find? fun c => !l.placed.contains c).toList.map fun c => (c, k)
        (s.choose 13 opts).toList.map fun p => Instr.crewPlace (id * 2 ^ 26 + p.1) p.2
    | some (false, id) =>
      match s.crew id with
      | none => []
      | some k =>
        match s.launch k.launch with
        | none => []
        | some l =>
          let opts := cores.filter fun c => coreAllowed c k.num (k.need s l).fixed k.die && (s.fits c (k.need s l)).isSome
          (s.choose 13 opts).toList.map fun c => Instr.crewPlace id c
  let carve := s.waitingCrews.flatMap fun w =>
    let opts := cores.filter fun k => w.ok k && (s.core k).carve != some w.need.carve
    (s.choose 14 opts).toList.map fun k => Instr.carveChange k w.need.carve
  place ++ carve

/-- Steps of the command processor on launches and queues, and of the home slices on contributions. -/
def State.cpSteps (s : State) : List Instr :=
  (s.crews.map fun p => Instr.crewPreempt p.1) ++
    (s.launches.flatMap fun p => [Instr.launchStart p.1, .reductionFlush p.1, .launchComplete p.1]) ++
    ((List.range s.contribs.length).map Instr.redDetContribution) ++
    s.contexts.flatMap fun c => c.2.queues.flatMap fun q =>
      let idle := match s.queueHead c.1 q.2 with
        | some h => !h.work q.2
        | none => true
      [Instr.cmdLaunch c.1 q.1, .cmdNop c.1 q.1, .queueMap c.1 q.1] ++
        (if idle || (Config.queueSlots ≤ s.slotsUsed.length && !s.toMap.isEmpty) then [.queueUnmap c.1 q.1] else [])

/-- The steps that other agents of the machine may make now. -/
def State.agentSteps (s : State) : List Instr :=
  (s.copySteps ++ s.gangSteps ++ s.unitSteps ++ s.placeSteps ++ s.cpSteps).filter s.enabled

/-- The moves that the machine itself may make now. -/
def State.moves (s : State) : List Move :=
  ((s.tgs.filter fun p => s.mayIssue p.1 p.2).map fun p => Move.issue p.1) ++ s.agentSteps.map Move.agent

/-- Whether a write of the host is one, and so a read of as many bytes: 1 to 64 bytes of one stack of HBM, or of host memory (R194, R205). -/
def hostMay (w : HostWrite) : Bool :=
  let e := w.loc + w.data.length - 1
  decide (0 < w.data.length) && decide (w.data.length ≤ 64) &&
    (hbmOk w.loc && hbmOk e || (decide (2 ^ 52 ≤ w.loc) && decide (e < 2 ^ 53)))

/-- Whether the host's accesses to a location go unanswered: memory of a module that a failed boot disabled (R413). -/
def State.deaf (s : State) (loc : Nat) : Bool := s.ralf.disabled && decide (loc < 2 ^ 52)

/-- The host reads memory, and the record shows what it read; an acquire is at sys scope (R194, R199). -/
def State.hostLoad (s : State) (loc n : Nat) (acq : Bool) : State :=
  let s1 := if acq then s.acquireAt .host [(.glob loc, n)] else s
  s1.record s1.srcLink (.memRead loc (s1.bytes loc n 0))

/-- One move. -/
def State.perform (s : State) (m : Move) : Out :=
  match m with
  | .issue id => s.issue id
  | .agent i => if isEvent i then exec i s.elapse else .refused .eventNotEnabled
  | .host w =>
    if !hostMay w then .refused .eventNotEnabled
    else if s.deaf w.loc then .next s
    else .next (s.elapse.store w.loc w.data)
  | .hostLoad loc n acq =>
    if !hostMay { loc := loc, data := List.replicate n 0 } then .refused .eventNotEnabled
    else if s.deaf loc then .next s
    else .next (s.elapse.hostLoad loc n acq)
  | .hostRead c q => .next (s.hostRead c q)

/-! ### Turns (R311) -/

/-- The bin whose timer expires first. -/
def State.firstBin (s : State) : Option Move :=
  s.dies.findSome? fun d => (d.2.bins.find? fun b => s.nextDue == some b.2.due).map fun b => .agent (.binTimerExpiry d.1 b.1)

/-- The moves that have their turn now: in even rounds the placement of a waiting crew, else the TG that issues first or the bin whose timer
expires before; in odd rounds one of the other agents after another. -/
def State.turn (s : State) (round : Nat) : Option Move :=
  let tg := (s.tgs.find? fun p => s.mayIssue p.1 p.2).map fun p => Move.issue p.1
  if round % 2 = 0 then ((((s.placeSteps.filter s.enabled).head?.map Move.agent).or tg).or s.firstBin)
  else s.agentSteps[round / 2 % s.agentSteps.length]?.map Move.agent

/-- A freely chosen enabled move; where nothing can move, time passes. -/
def State.moveFreely (s : State) : Out :=
  match s.choose 0 s.moves with
  | some m => s.perform m
  | none => .next (s.advanceClk (1 + s.free 11))

/-- What a step does before the bookkeeping of log 2: the agenda first, then timers that are due, and then a free choice; but after every so
many free choices, a number that Config leaves open, whatever has its turn (R311). -/
def State.move (s : State) : Out :=
  match s.agenda with
  | m :: r => { s with agenda := r }.perform m
  | [] =>
    match s.due with
    | i :: _ => exec i s
    | [] =>
      let n := Config.patience + 1
      let s1 := { s with waited := s.waited + 1 }
      match (if s1.waited % n = 0 then s1.turn (s1.waited / n) else none) with
      | some m => s1.perform m
      | none => s1.moveFreely

/-! ### The end of a step -/

/-- A resident TG that stands at a wait with threads to be reclaimed (R309, R331). -/
def State.toReclaim (s : State) : Option Nat :=
  (s.tgs.find? fun p => p.2.resident && s.waitReclaims p.2 != 0).map (·.1)

/-- Such threads go, TG by TG, before anything issues or is saved. -/
def State.reclaimWaits : Nat → State → State
  | 0, s => s
  | n + 1, s => match s.toReclaim with
    | some id => State.reclaimWaits n (s.reclaimParked id)
    | none => s

/-- A physical location of a fault queue or fault barrier in use that no HBM stack holds. DESIGN CHOICE, log 1. -/
def State.badFaultArea (s : State) : Option Nat :=
  s.dies.findSome? fun d =>
    d.2.faults.findSome? fun f =>
      let b := d.2.barLoc f.1
      let q := d.2.fqbase.toNat + 32 * (d.2.fqsize.toNat - 1)
      [b, q, d.2.fqbar.toNat].find? fun loc => !hbmOk loc

/-- The end of every step: pre-emption after a slice that has ended, reclamation at waits, the engine queues, the carve-wait flags (R144), and fresh free values. -/
def State.finish (s : State) : Out :=
  let s1 := (State.reclaimWaits (numThreads * s.tgs.length) s.endSlices).wakeQueues
  match s1.badFaultArea with
  | some loc => .fault (.noMemory loc)
  | none => .next s1.refreshCarve.next

end Sys2Proof.Machine
end

