-- ==== Sys2Proof/Machine/Step.lean ====
section
/-! DEFINITION. One step of the machine, and a state whose next step fetches and runs a given instruction (DESIGN CHOICE, log 10). -/

namespace Sys2Proof.Machine

/-- One step: a move, then the bookkeeping of log 2. -/
def step (s : State) : Host.Outcome State Fault Refusal :=
  match s.move with
  | .next s1 => s1.finish
  | .fault r => .fault r
  | .refused r => .refused r

/-- The launch descriptor of the placed program: one crew of one TG with k = 256, the largest scratchpad and staging region. -/
def demoDesc : Desc :=
  { entry := 0x10000, args := 0, stat := 0x20000, hlist := 0, dlrel := 0, budget := 0xFFFFFFFF, ncrew := 1, crewtg := 1, regs := 16
    carve := 10, modes := 0, nhandle := 0, scratch := 2560, nbar := 32, rankcap := 63, stage := 4096, nrsv := 32, gangs := 1
    slabs := 1024, talus := 0x100000, tstride := 0x10000, mtol := 0, rspb := 0x180000, rsstride := 0x10000, inldepth := 4
    inlb := 0x800000, redsp := 0x900000, redsz := 256, sparea := 0x1000000, expa := List.replicate 32 0 }

/-- The context of the placed program: privileged, trap vector 0x30000, future table at 0x40000. -/
def demoContext : Context :=
  { function := 0, system := true, memdef := memdefInit, seed := 0, ftbase := 0x40000, ftsize := 16, safemax := 8192
    faultmode := false, savebase := 0xA00000, ptroot := 0x200000, tvec := 0x30000, halted := false, accepted := 1, handles := []
    queues := [] }

/-- Page tables that map the first GiB of virtual addresses to the first GiB of HBM, and the words of the program. -/
def State.placeCode (s : State) (ws : List W64) : State :=
  let s1 := (s.write 0x200000 8 0x1001).write 0x1000 8 0xEF
  s1.setBytes 0x10000 (ws.flatMap wordBytes)

/-- `s` with an instruction placed where the next step fetches: a context, a launch, a crew and a TG that is ready at its first word,
and the agenda that makes it issue. It stands for what the host and the command processor do to bring a program to run (DESIGN CHOICE, log 10). -/
def State.withFetchWord (s : State) (nbits w : Nat) : State :=
  let ctx := SMap.fresh s.contexts
  let lid := SMap.fresh s.launches
  let key := lid * 2 ^ 26
  let d := demoDesc
  let l : Launch :=
    { ctx := ctx, desc := d, seq := 1, state := 3, cause := 0, trapn := 0, flags := 0, tstart := 0, tvec := 0x30000, failed := false
      waits := [], placed := [0], fut := none, timers := [], spilled := 0, order := 0 }
  let k : Crew :=
    { ctx := ctx, launch := lid, num := 0, spawned := false, core := some 0, saved := false, tgs := [key * 16], live := 1
      scratchSize := 256 * d.scratch, nbar := d.nbar, scratch := [], stageSize := 256 * d.stage, nrsv := d.nrsv, staging := []
      rings := [], gangs := [], slabs := d.slabs, gmax := d.gangs, k := 256, order := 0, die := none, preempt := false }
  let s1 := s.placeCode (tableWords (w % 2 ^ nbits))
  { s1 with
    halted := false
    resetting := s.resetting.filter (· != 0)
    contexts := SMap.put s1.contexts ctx demoContext
    launches := SMap.put s1.launches lid l
    crews := SMap.put s1.crews key k
    tgs := SMap.put s1.tgs (key * 16) (launchedTg lid l demoContext key 0 0 0 0)
    agenda := [.issue (key * 16)] }

end Sys2Proof.Machine
end

