-- ==== Sys2Proof/Safety.lean ====
section
/-! DEFINITION. The vocabulary of the claims: the TG that issues, what an instruction of it leaves unchanged, the value the
spec gives a register, and the invariants of the machine. -/

namespace Sys2Proof.Machine

/-! ### The TG that issues -/

/-- The TG `g` issues and has an active thread. -/
def State.Issues (s : State) (g : Tg) : Prop := s.tg s.cur = some g ∧ g.mask ≠ 0

/-- The instruction completes: the issuing TG is `g'`, R78 runs where its mask became zero, and every other field of the
machine (memory among them) is as it was in `s`. -/
def Completes (i : Instr) (s s' : State) (g' : Tg) : Prop := exec i s = .next ((s'.setTg s'.cur g').settle s'.cur)

/-- The instruction leaves the TG `g'` at its place, and everything else of the machine as it was. -/
def Becomes (i : Instr) (s : State) (g' : Tg) : Prop := exec i s = .next (s.setTg s.cur g')

/-- The instruction takes a trap with this cause, trap value and thread at its own address. -/
def Traps (i : Instr) (s : State) (c : Cause) (info : W64) (tid : Nat) : Prop :=
  exec i s = .next (s.trapHere s.cur c info tid)

/-- The TG past an instruction: the stochastic sequence counts where RM is 4 (R39), and the pc stands behind the words. -/
def Tg.past (g : Tg) (rm : BitVec 3) (words : Nat) : Tg := (g.bumpSr rm).advance words

/-! ### Registers -/

/-- The value of thread `t` in physical slot `p` of a vector register file. -/
def slotAt (v : SMap (Row W32)) (p t : Nat) : W32 := Row.at (SMap.get [] v p) 0 t

/-- `v` is the vector registers of `g` with vN written in the threads of `act`, and nothing else of them changed. -/
def WroteV (g : Tg) (v : SMap (Row W32)) (n : Nat) (act : Mask) (x : Nat → W32) : Prop :=
  ∀ p t, t < 96 → slotAt v p t = if p = g.slotOf n ∧ act.has t = true then x t else slotAt g.v p t

/-- As `WroteV`, for the pair vN:vN+1. -/
def WroteV64 (g : Tg) (v : SMap (Row W32)) (n : Nat) (act : Mask) (x : Nat → W64) : Prop :=
  ∀ p t, t < 96 → slotAt v p t =
    if p = g.slotOf (n + 1) ∧ act.has t = true then (x t).extractLsb' 32 32
    else if p = g.slotOf n ∧ act.has t = true then (x t).extractLsb' 0 32
    else slotAt g.v p t

/-- A result of `w` bits written to vN, in a pair where it has 64. -/
def WroteVec (w : Nat) (g : Tg) (v : SMap (Row W32)) (n : Nat) (act : Mask) (x : Nat → W64) : Prop :=
  if w = 64 then WroteV64 g v n act x else WroteV g v n act fun t => (x t).setWidth 32

/-- `p` is the predicates of `g` with pN written in the threads where `x` gives bits, and nothing else changed; p7 discards a
write (R55). -/
def WroteP (g : Tg) (p : SMap (Row (BitVec 4))) (n : Nat) (x : Nat → Option (BitVec 4)) : Prop :=
  if n = 7 then p = g.p
  else ∀ m t, t < 96 → Row.at (SMap.get [] p m) 0 t =
    if m = n then (x t).getD (g.pAt n t) else Row.at (SMap.get [] g.p m) 0 t

/-- As `WroteP` for the two predicates of a compare, CS written before D (R53). -/
def WrotePP (g : Tg) (p : SMap (Row (BitVec 4))) (d c : Nat) (x y : Nat → Option (BitVec 4)) : Prop :=
  ∃ q, WroteP g q c y ∧ WroteP { g with p := q } p d x

/-- What a register holds of an exact integer result of an instruction of integer type T: the low bits of its width, sign- or
zero-extended to 64 (R28, R96). -/
def regInt (ty : Ty) (x : Int) : W64 :=
  if ty.isSInt then (BitVec.ofInt ty.width x).signExtend 64 else (BitVec.ofInt ty.width x).setWidth 64

/-- As `regInt` for a result given as bits. -/
def regBits (ty : Ty) (x : BitVec ty.width) : W64 := if ty.isSInt then x.signExtend 64 else x.setWidth 64

/-- An operand of thread `t` as the bits of its type (R95, R118). -/
def bitsOf (s : State) (g : Tg) (h : Hdr) (ty : Ty) (sp : Spec) (t : Nat) : BitVec ty.width :=
  BitVec.ofNat ty.width (opnd s g h ty ty.width sp t)

/-- An operand of thread `t` as an integer: signed for an i type (R95). -/
def intOf (s : State) (g : Tg) (h : Hdr) (ty : Ty) (sp : Spec) (t : Nat) : Int :=
  if ty.isSInt then (bitsOf s g h ty sp t).toInt else (bitsOf s g h ty sp t).toNat

/-- The least and the greatest integer of a type. -/
def Ty.least (ty : Ty) : Int := if ty.isSInt then -(2 : Int) ^ (ty.width - 1) else 0
def Ty.greatest (ty : Ty) : Int := if ty.isSInt then (2 : Int) ^ (ty.width - 1) - 1 else (2 : Int) ^ ty.width - 1

/-- An integer brought into the range of its type, where `sat` asks for it (R99). -/
def saturated (ty : Ty) (sat : Bool) (x : Int) : Int := if sat then max (Ty.least ty) (min (Ty.greatest ty) x) else x

def Long.isSweep : Long → Bool
  | .sweep .. => true
  | _ => false

/-! ### Floating values (R118) -/

/-- An operand of thread `t` as an exact value of its format (R31, R118). -/
def fltOf (s : State) (g : Tg) (h : Hdr) (ty : Ty) (sp : Spec) (t : Nat) : Exact := fltVal ty (opnd s g h ty ty.width sp t)

/-- Element `k` of a packed operand of thread `t`, as its 16 bits. -/
def halfOf (s : State) (g : Tg) (f : RArgs) (sp : Spec) (t k : Nat) : Nat := half (opnd s g f.h f.ty f.ty.width sp t) k

/-- The exact value of an element of a packed operand. -/
def halfFlt (s : State) (g : Tg) (f : RArgs) (sp : Spec) (t k : Nat) : Exact := fltVal f.ty (halfOf s g f sp t k)

/-- An exact value rounded once to the type by the instruction's RM, .sat from X[0] (R36, R122): element `e` of R39. -/
def rounded (s : State) (g : Tg) (f : RArgs) (fm : Fmt) (x : Rnd → Exact) (e : Nat) : Nat :=
  fm.round (x (rndAt s g f.rm e)) (rndAt s g f.rm e) (f.x.getLsbD 0)

/-- The element index of thread `t`: 0 in a uniform form (R39). -/
def elemOf (f : RArgs) (t : Nat) : Nat := if f.h.u then 0 else t

/-- A packed register with two new elements, each kept where its guard bit is false (R28, R107, R135); with `all` both are new. -/
def packWord (all : Bool) (g : Tg) (f : RArgs) (t lo hi : Nat) : W64 :=
  let old : W32 := match f.d with
    | .v n => g.vAt n.toNat t
    | .s n => (g.sAt n.toNat).setWidth 32
    | _ => 0
  let bit (k : Nat) : Bool := all || (g.guardBits f.h.g f.h.n t).getLsbD k
  ((if bit 2 then BitVec.ofNat 16 hi else old.extractLsb' 16 16) ++
    (if bit 0 then BitVec.ofNat 16 lo else old.extractLsb' 0 16)).setWidth 64

/-! ### Memory accesses (R151, R157) -/

/-- A global access of `z` bytes at `a` that R151 lets a load make: aligned, a 57-bit address, a resident page that answers. -/
def Readable (s : State) (g : Tg) (a : W64) (z : Nat) : Prop :=
  a.toNat % z = 0 ∧ a.toNat < 2 ^ 57 ∧ ∃ e, s.translate g.core g.ctx a.toNat = .leaf e true ∧
    unanswered (s.linkLost g.core g.ctx) e.loc = false

/-- One that R151 lets a plain store make: the page is writable and no barrier page as well. -/
def Writable (s : State) (g : Tg) (a : W64) (z : Nat) : Prop :=
  a.toNat % z = 0 ∧ a.toNat < 2 ^ 57 ∧ ∃ e, s.translate g.core g.ctx a.toNat = .leaf e true ∧ e.w = true ∧ e.b = false ∧
    unanswered (s.linkLost g.core g.ctx) e.loc = false

/-- `p` is the first of a list that is bad. -/
def FirstBad {α : Type} (l : List α) (bad : α → Prop) (p : α) : Prop := ∃ pre post, l = pre ++ p :: post ∧ bad p ∧ ∀ q ∈ pre, ¬bad q

/-- The TG parks on a page that is not resident, reported for thread `t` and an agent: on the page's fault barrier, or with the fault
held; under FAULTMODE it takes PFAULT (R152, R330). -/
def parked (s : State) (g : Tg) (write : Bool) (va : W64) (t : Nat) (src : FaultSrc := .instr) : State :=
  if (s.ctx g.ctx).any (·.faultmode) then s.trapHere s.cur .pfault va t
  else
    let r := s.raise (dieOf g.core)
      { ctx := g.ctx, page := s.pageOf g.ctx va.toNat, va := va, src := src, kind := if write then 2 else 1, core := g.core
        dl := BitVec.ofNat 64 (s.effDeadline s.cur), time := s.gtime }
    r.1.modTg s.cur fun g' =>
      match r.2 with
      | some (i, ph) => { g' with wait := .fault (dieOf g.core) i ph va t false, sinceSafe := 0 }
      | none => { g' with wait := .heldFault (dieOf g.core) va t false }

/-- Global loads, or stores, of `z` bytes (thread, address) stop with the machine `s'`: the first step of R151 that fails, in its
first thread. -/
def GlStops (s : State) (g : Tg) (accs : List (Nat × W64)) (z : Nat) (write : Bool) (s' : State) (src : FaultSrc := .instr) : Prop :=
  let page (p : Nat × W64) : Trans := s.translate g.core g.ctx p.2.toNat
  let misaligned (p : Nat × W64) : Prop := p.2.toNat % z ≠ 0
  let wide (p : Nat × W64) : Prop := 2 ^ 57 ≤ p.2.toNat
  let gone (p : Nat × W64) : Prop := page p = .bad ∨ ∃ e r, page p = .leaf e r ∧ unanswered (s.linkLost g.core g.ctx) e.loc = true
  let barred (p : Nat × W64) : Prop := write = true ∧ ∃ e r, page p = .leaf e r ∧ (e.w = false ∨ e.b = true)
  let absent (p : Nat × W64) : Prop := ∃ e, page p = .leaf e false
  let none' (bad : Nat × W64 → Prop) : Prop := ∀ p ∈ accs, ¬bad p
  ∃ p, (FirstBad accs misaligned p ∧ s' = s.trapHere s.cur .align p.2 p.1) ∨
    (none' misaligned ∧ FirstBad accs wide p ∧ s' = s.trapHere s.cur .addr p.2 p.1) ∨
    (none' misaligned ∧ none' wide ∧ FirstBad accs gone p ∧ s' = s.trapHere s.cur .addr p.2 p.1) ∨
    (none' misaligned ∧ none' wide ∧ none' gone ∧ FirstBad accs barred p ∧ s' = s.trapHere s.cur .prot p.2 p.1) ∨
    (none' misaligned ∧ none' wide ∧ none' gone ∧ none' barred ∧ FirstBad accs absent p ∧ s' = parked s g write p.2 p.1 src)

/-- The same for scratchpad accesses (thread, offset) in the allocation of a crew. -/
def SpStops (s : State) (c : Crew) (accs : List (Nat × Nat)) (z : Nat) (write : Bool) (s' : State) : Prop :=
  let misaligned (p : Nat × Nat) : Prop := p.2 % z ≠ 0
  let beyond (p : Nat × Nat) : Prop := c.scratchSize < p.2 + z
  let inArena (p : Nat × Nat) : Prop := write = true ∧ c.scratchSize - 16 * c.nbar < p.2 + z
  let trap (k : Cause) (p : Nat × Nat) : State := s.trapHere s.cur k (BitVec.ofNat 64 p.2) p.1
  ∃ p, (FirstBad accs misaligned p ∧ s' = trap .align p) ∨
    ((∀ q ∈ accs, ¬misaligned q) ∧ FirstBad accs (fun q => beyond q ∨ inArena q) p ∧
      ((beyond p ∧ s' = trap .addr p) ∨ (¬beyond p ∧ s' = trap .arena p)))

/-- `v` is the vector registers of `g` with the words of a loaded value of `z` bytes in vD, vD+1, … of the acting threads, and nothing
else changed (R157). -/
def Loaded (g : Tg) (v : SMap (Row W32)) (f : RArgs) (z d : Nat) (x : Nat → Nat) : Prop :=
  (∀ j t, j < dataRegs z → t < 96 → (g.acting f.h).has t = true →
    slotAt v (g.slotOf (d + j)) t = (loadWords f.ty z (x t)).getD j 0) ∧
  (∀ p t, t < 96 → ((g.acting f.h).has t = false ∨ ∀ j, j < dataRegs z → p ≠ g.slotOf (d + j)) → slotAt v p t = slotAt g.v p t)

/-- The halves of 16 bytes that a load of vD leaves for before its TG's next instruction, with the registers that they write; with
policy last the discards come behind them all (R146, R147, R157; log 7). -/
def loadLate (s : State) (g : Tg) (f : RArgs) (z d : Nat) (accs : List (Nat × W64)) : List Half :=
  let loc (p : Nat × W64) : Nat := s.locOf g.core g.ctx p.2.toNat
  let off := 8 - (s.firstPart z).1
  (if (s.firstPart z).2 = z then []
    else accs.map fun p => .take (.glob (loc p + off)) (d + off / 4) p.1 (effOrd g f.pfx) (effScp g f.pfx false)) ++
  (if effPol g f.pfx = 3 ∧ (s.firstPart z).2 ≠ z then accs.map fun p => .drop (loc p) z else [])

/-- What a late half does: a load's reads its 8 bytes in the access's order, from the TG's own stores where it is global, and writes two
registers of its thread; a scratchpad store's writes its 8 bytes, and releases where its order says so; the end of a load with policy last
discards its bytes, the TG's stores to them performed first (R147, R157, R198). -/
def LateHalves : Prop :=
  (∀ (s : State) (g : Tg) (place : ObjRef) (reg tid ord scope : Nat), s.tg s.cur = some g → 64 ≤ g.win.k → tid < 96 →
    let s1 := s.readOrder ord scope [(place, 8)]
    let s' := s.performHalf s.cur (.take place reg tid ord scope)
    let bytes : List Byte := match place with
      | .glob loc => tgBytes (s1.curTg g) s1 loc 8 (16 * tid)
      | .arena _ off => (s1.crewOf g).spBytes off 8
      | _ => []
    s' = { s1 with tgs := s'.tgs } ∧ (∀ id, id ≠ s.cur → s'.tg id = s1.tg id) ∧
    ∃ v, s'.tg s.cur = some { s1.curTg g with v := v } ∧ ∀ p t, t < 96 → slotAt v p t =
      if t = tid ∧ p = g.slotOf reg then BitVec.ofNat 32 (leNat bytes)
      else if t = tid ∧ p = g.slotOf (reg + 1) then BitVec.ofNat 32 (leNat bytes / 2 ^ 32)
      else slotAt g.v p t) ∧
  (∀ (s : State) (g : Tg) (off : Nat) (data : List Byte) (ord scope : Nat), s.tg s.cur = some g →
    let p : ObjRef × Nat := (.arena g.crew off, data.length)
    s.performHalf s.cur (.put off data ord scope) =
      State.released (((s.modCrew g.crew fun c => c.setSp off data)).overwrite p) ord scope [p]) ∧
  (∀ (s : State) (g : Tg) (loc n : Nat), s.tg s.cur = some g →
    s.performHalf s.cur (.drop loc n) = (List.range n).foldl (fun s' i => s'.discard (loc + i)) (s.performTo s.cur [(loc, n)]))

/-- The machine before a global access reads: the order of the load is obeyed (R198, R201), and one with policy last has the TG's
stores to the bytes it discards performed (R147). -/
def readFrom (s : State) (g : Tg) (f : RArgs) (z : Nat) (accs : List (Nat × W64)) : State :=
  let locs := accs.map fun p => s.locOf g.core g.ctx p.2.toNat
  let part := s.firstPart z
  let s1 := s.readOrder (effOrd g f.pfx) (effScp g f.pfx false) (locs.map fun l => (.glob (l + part.1), part.2))
  if effPol g f.pfx = 3 then s1.performTo s.cur (locs.map fun l => (l, z)) else s1

/-- The machine after it: with policy last the bytes are discarded once all of them have been read (R147); the translation is used
(R149, R150). -/
def afterRead (s : State) (g : Tg) (f : RArgs) (z : Nat) (accs : List (Nat × W64)) : State :=
  let s1 := readFrom s g f z accs
  let s2 := if effPol g f.pfx = 3 ∧ (s.firstPart z).2 = z then accs.foldl (fun s' p =>
    (List.range z).foldl (fun s' i => s'.discard (s.locOf g.core g.ctx p.2.toNat + i)) s') s1 else s1
  s2.touchAll g.core g.ctx (accs.map fun p => p.2.toNat) false

/-- The value that the part of a load of `z` bytes at `a` reads for thread `t`: the TG's own unperformed stores, else memory (R196). -/
def loadedAt (s : State) (g : Tg) (f : RArgs) (z : Nat) (accs : List (Nat × W64)) (a : W64) (t : Nat) : Nat :=
  let s1 := readFrom s g f z accs
  let part := s.firstPart z
  leNat (tgBytes (s1.curTg g) s1 (s.locOf g.core g.ctx a.toNat + part.1) part.2 (16 * t))

/-- A store of these bytes for each access, on its way to its home slice after those before it (R13, R196); one of 16 bytes is two
stores of 8, one in order rel, ar or sc carries the scope of a release, and one in order sc its place in the single order; in host
memory and in another module that scope is sys (R157, R198, R201, R403). -/
def Stores (i : Instr) (s : State) (g : Tg) (f : RArgs) (z : Nat) (accs : List (Nat × W64)) (data : Nat → List Byte) : Prop :=
  let ord := effOrd g f.pfx
  let scp := effScp g f.pfx false
  let loc (p : Nat × W64) : Nat := s.locOf g.core g.ctx p.2.toNat
  let s1 := s.writeOrder ord scp (accs.map fun p => (.glob (loc p), z))
  let new := accs.flatMap fun p =>
    let sc := accScope scp (.glob (loc p), z)
    newStores s1.stamp (loc p) (if isRelease ord then sc else 0) (if ord = 5 then sc else 0) p.1 p.2 (data p.1)
  let g1 := s1.curTg g
  exec i s = .next ((s1.touchAll g.core g.ctx (accs.map fun p => p.2.toNat) true).setTg s1.cur
    ({ g1 with stores := g1.stores ++ new }.advance (RArgs.words f)))

/-- A global access that R151 lets an atomic make: as for a store, but a barrier page is allowed (R173, R183). -/
def Updatable (s : State) (g : Tg) (a : W64) (z : Nat) : Prop :=
  a.toNat % z = 0 ∧ a.toNat < 2 ^ 57 ∧ ∃ e, s.translate g.core g.ctx a.toNat = .leaf e true ∧ e.w = true ∧
    unanswered (s.linkLost g.core g.ctx) e.loc = false

/-- The machine at a barrier instruction whose checks pass: a global object's translation is used (R149, R175). -/
def barStart (s : State) (g : Tg) (f : RArgs) (write : Bool) : State :=
  if f.x.getLsbD 0 then s.touch g.core g.ctx (g.sAt (Spec.num f.a)).toNat write else s

/-- The threads that act in an atomic (R183). -/
def atomActing (g : Tg) (f : RArgs) : Mask := if f.ty.isPacked then g.actingPacked f.h else g.acting f.h

/-- The places that the acting threads of a global atomic update. -/
def atomPlaces (s : State) (g : Tg) (f : RArgs) : List (Nat × Nat) :=
  (atomActing g f).threads.map fun t => (s.locOf g.core g.ctx (glAddr g f f.ty.bytes t).toNat, f.ty.bytes)

/-- The machine a global atomic starts from: its order is obeyed, as a load's where the old value returns (`ret`), the TG's earlier stores to its words are performed (R196, R198,
R201), and the translation is used. -/
def atomStart (s : State) (g : Tg) (f : RArgs) (ret : Bool) : State :=
  ((s.atomOrder ret (effOrd g f.pfx) (effScp g f.pfx false) ((atomPlaces s g f).map fun p => (.glob p.1, p.2))).performTo s.cur
    (atomPlaces s g f)).touchAll g.core g.ctx ((atomActing g f).threads.map fun t => (glAddr g f f.ty.bytes t).toNat) true

/-- The (thread, location) pairs of a global atomic, in increasing thread order (R184). -/
def atomLocs (s : State) (g : Tg) (f : RArgs) (act : Mask) : List (Nat × Nat) :=
  act.threads.map fun t => (t, s.locOf g.core g.ctx (glAddr g f f.ty.bytes t).toNat)

/-- The machine after a global atomic ran to `r`: a release of everything before it where its order says so (R198). -/
def atomEnd (r : AtomRun) (s : State) (g : Tg) (f : RArgs) : State :=
  r.s.released (effOrd g f.pfx) (effScp g f.pfx false) ((atomPlaces s g f).map fun p => (.glob p.1, p.2))

/-- The descriptor of a bred is legal and its accesses to the words `ws` of ACC are allowed (R191, R192). -/
def BredReady (s : State) (g : Tg) (f : RArgs) (t0 : Nat) (ws : List Nat) (k : AccKind) (b : Bred) : Prop :=
  let a := g.sAt (Spec.num f.a)
  s.checkGl g.core g.ctx [(t0, a)] 64 .barrier = none ∧ b.loc = s.locOf g.core g.ctx a.toNat ∧
  b.acc = BitVec.ofNat 64 (leNat (((tgBytes g s b.loc 64 0).drop 16).take 8)) ∧
  leNat ((tgBytes g s b.loc 64 0).drop 24) = 0 ∧
  s.checkGl g.core g.ctx (ws.map fun t => (if t < 96 then t else t0, bredWord b.acc t)) 8 k = none

/-- The machine it then starts from: the relaxed reads of its descriptor and of the words `lds` of ACC are noted for a later acquire
fence, its pages are used, and the TG's stores to the words `ws` are performed (R192, R193, R198). -/
def bredStart (s : State) (g : Tg) (f : RArgs) (ws lds : List Nat) (k : AccKind) (b : Bred) : State :=
  let word (t : Nat) : ObjRef × Nat := (.glob (s.locOf g.core g.ctx (bredWord b.acc t).toNat), 8)
  ((s.readOrder 1 4 ((.glob b.loc, 64) :: lds.map word)).touchAll g.core g.ctx ((g.sAt (Spec.num f.a)).toNat :: ws.map fun t => (bredWord b.acc t).toNat) k.writes).performTo s.cur
    (ws.map fun t => (s.locOf g.core g.ctx (bredWord b.acc t).toNat, 8))

/-! ### Copies (R219) -/

/-- The machine after the copy engine took an operation from the TG: its issue is a release at scope tg, so that the operation reads
and writes after the TG's earlier stores (R195, R236), EXPB takes the declared bytes, the page of an object in global memory is used (R149), and the engine holds the
operation as an agent of that TG (R171, R218, R219); one of no bytes is done at once, and source slots without an element pass (R226). -/
def issued (s : State) (g : Tg) (f : RArgs) (o : ObjRef) (w : CopyWork) : State :=
  let va := copyObjVa g f
  let s2 := ((s.releaseAs s.cur 1).barUpdate o false fun x => x.expect w.declared).usedObj g.core g.ctx va
  let op : CopyOp :=
    { tg := s.cur, dl := BitVec.ofNat 64 (s.effDeadline s.cur), ctx := g.ctx, crew := g.crew, launch := g.launch, core := g.core
      rel := s.stamp, obj := o, objVa := va, work := w, got := [], parts := [], pend := [], done := 0, fault := none, dead := false }
  if w.declared = 0 then s2 else { s2 with copies := SMap.put s2.copies (SMap.fresh s2.copies) op }.passEmpty op

/-- The checks of steps 3 to 5 of R219 on a tile pass: its object is `o`, and its staging sides take `qs` and `qd` slots. -/
def TileReady (s : State) (g : Tg) (f : RArgs) (t : Nat) (x : CopyTile) (o : ObjRef) (qs qd : Nat) : Prop :=
  copyObj s g f t = .ok o ∧
  checkStage s g x.srcSp x.src x.srct (x.count * x.srct.bytes) (x.ss1 == 0 && x.ss2 == 0) t = .ok qs ∧
  checkStage s g x.dstSp x.dst x.dstt (x.count * x.dstt.bytes) (x.ds1 == 0 && x.ds2 == 0) t = .ok qd ∧
  checkScales s g x = true ∧ checkAccs s g (CopyWork.tile x).accs0 t = none

/-- A tile issued from `s0`: its staging sides claim their slots, source first, SRSEQ advances under sr, and the instruction
completes. -/
def TileIssued (i : Instr) (s s0 : State) (g : Tg) (f : RArgs) (x : CopyTile) (o : ObjRef) (qs qd : Nat) : Prop :=
  let c1 := if x.srcSp = 2 then claimSlots s0 g x.src.toNat false qs else (s0, 0)
  let c2 := if x.dstSp = 2 then claimSlots c1.1 g x.dst.toNat true qd else (c1.1, 0)
  let s' := issued c2.1 g f o (.tile { x with srcClaim := c1.2, dstClaim := c2.2, srcSlots := qs, dstSlots := qd })
  Completes i s s' ((if x.rm = 4 then (s'.curTg g).bumpSr 4 else s'.curTg g).advance (RArgs.words f))

/-! ### Instructions that act on threads (R51, R61, R69) -/

/-- The thread on which a uniform form acts that tests a guard bit per element, if one is true (R107, R136). -/
def eachOn (f : RArgs) (g : Tg) : Option Nat :=
  g.mask.lowest.filter fun t => (g.guardBits f.h.g f.h.n t).getLsbD 0 || (g.guardBits f.h.g f.h.n t).getLsbD 2

/-- An instruction of classes 0x10 to 0x2F whose result is data of `w` bits in D: per thread where U is 0, once on the
thread `on` where U is 1; it completes with every other register, and all the rest of the machine, as it
was. Sweeps have a statement of their own. -/
def GivesDataOn (i : Instr) (f : RArgs) (w : Nat) (act : Tg → Mask) (on : Tg → Option Nat) (x : State → Tg → Nat → W64) : Prop :=
  ∀ (s : State) (g : Tg), s.Issues g → Long.isSweep f.h.long = false →
    (f.h.u = false → ∀ n, f.d = .v n →
      ∃ v, WroteVec w g v n.toNat (act g) (x s g) ∧ Becomes i s (Tg.past { g with v := v } f.rm (RArgs.words f))) ∧
    (f.h.u = true → ∀ n, f.d = .s n →
      Completes i s s (match on g with
        | some t => (g.setS n.toNat (x s g t)).past f.rm (RArgs.words f)
        | none => g.past f.rm (RArgs.words f)))

/-- The same where a uniform form acts on the lowest-numbered active thread by its guard bit 0 (R51). -/
def GivesData (i : Instr) (f : RArgs) (w : Nat) (act : Tg → Mask) (x : State → Tg → Nat → W64) : Prop :=
  GivesDataOn i f w act (·.once f.h) x

/-- The same for an I-form instruction (R109). -/
def GivesDataI (i : Instr) (f : IArgs) (w : Nat) (x : State → Tg → Nat → W64) : Prop :=
  ∀ (s : State) (g : Tg), s.Issues g → Long.isSweep f.h.long = false →
    (f.h.u = false → ∀ n, f.d = .v n →
      ∃ v, WroteVec w g v n.toNat (g.acting f.h) (x s g) ∧ Becomes i s (Tg.past { g with v := v } 0 (IArgs.words f))) ∧
    (f.h.u = true → ∀ n, f.d = .s n →
      Completes i s s (match g.once f.h with
        | some t => (g.setS n.toNat (x s g t)).past 0 (IArgs.words f)
        | none => g.past 0 (IArgs.words f)))

/-- What a compare writes to a predicate of a thread: `x` on the bits of `m`, the other bits kept (R73). -/
def condBits (old x m : BitVec 4) : BitVec 4 := (old &&& ~~~m) ||| (x &&& m)

/-- A compare: the condition in predicate D and its complement in CS (R53, R106), on the bits `m` of each acting thread. Where U
is 1 the thread `on` decides, for every active thread (R51). -/
def GivesCond (i : Instr) (f : RArgs) (act : Tg → Mask) (on : Tg → Option Nat) (x m : State → Tg → Nat → BitVec 4) : Prop :=
  ∀ (s : State) (g : Tg), s.Issues g → Long.isSweep f.h.long = false → ∀ d c, f.d = .p d → f.cs = .p c →
    (f.h.u = false → act g ≠ 0 → ∃ p, WrotePP g p d.toNat c.toNat
        (fun t => if (act g).has t then some (condBits (g.pAt d.toNat t) (x s g t) (m s g t)) else none)
        (fun t => if (act g).has t then some (condBits (g.pAt c.toNat t) (~~~(x s g t)) (m s g t)) else none) ∧
      Becomes i s (Tg.past { g with p := p } f.rm (RArgs.words f))) ∧
    (f.h.u = false → act g = 0 → Becomes i s (g.past f.rm (RArgs.words f))) ∧
    (f.h.u = true → ∀ t, on g = some t → ∃ p, WrotePP g p d.toNat c.toNat
        (fun u => if g.mask.has u then some (condBits (g.pAt d.toNat u) (x s g t) (m s g t)) else none)
        (fun u => if g.mask.has u then some (condBits (g.pAt c.toNat u) (~~~(x s g t)) (m s g t)) else none) ∧
      Becomes i s (Tg.past { g with p := p } f.rm (RArgs.words f))) ∧
    (f.h.u = true → on g = none → Becomes i s (g.past f.rm (RArgs.words f)))

/-! ### Control (R84) -/

/-- The target of an I-form branch at `pc` (R84). -/
def IsTarget (f : IArgs) (pc target : W64) : Prop :=
  (f.h.long = .none ∧ target = pc + 8 * f.c.signExtend 64) ∨ ∃ v, f.h.long = .imm32 v ∧ target = pc + v.signExtend 64

/-- A code address that a register target may hold (R84). -/
def LegalTarget (x : W64) : Prop := x.extractLsb' 0 3 = 0 ∧ x.extractLsb' 57 7 = 0

/-- The stack with one more entry in the core (R74). -/
def Reconv.pushed (r : Reconv) (e : ReconvEntry) : Reconv := { r with core := e :: r.core, depth := r.depth + 1 }

/-- A push takes no memory access: the core has room and the depth its bound (R74). -/
def Reconv.Room (r : Reconv) : Prop := r.core.length < 32 ∧ r.depth < 65536

/-- The address of entry `i` of a TG's stack in memory (R74). -/
def memEntryVa (g : Tg) (i : Nat) : W64 := g.reconv.rspill + BitVec.ofNat 64 (32 * i)

/-- The instruction pushes an entry, and leaves its TG as `g'` else (R74, R75): into the core where that has room; where it holds 32 the
oldest one goes to memory, reported for thread `t` with SRC 5 where the page is not resident; and at RDEPTH 65,536 it traps ADDR with
nothing changed (TADDR 0: log 51). -/
def Pushes (i : Instr) (s : State) (g g' : Tg) (e : ReconvEntry) (t : Nat) : Prop :=
  (g.reconv.Room → Becomes i s { g' with reconv := g.reconv.pushed e }) ∧
  (65536 ≤ g.reconv.depth → Traps i s .addr 0 t) ∧
  (∀ core old, g.reconv.core = core ++ [old] → core.length = 31 → g.reconv.depth < 65536 →
    let va := memEntryVa g (g.reconv.depth - 32)
    (Writable s g va 32 → exec i s = .next ((s.touch g.core g.ctx va.toNat true).setTg s.cur { g' with
      reconv := { g.reconv with core := e :: core, depth := g.reconv.depth + 1 }
      stores := g.stores ++ [{ loc := s.locOf g.core g.ctx va.toNat, va := va, tid := t, pos := s.stamp
                               data := leBytes old.m.toNat 12 ++ leBytes old.p.toNat 12 ++ leBytes old.pc.toNat 8 }] })) ∧
    (∀ s', GlStops s g [(t, va)] 32 true s' .spill → exec i s = .next s'))

/-- The instruction pops the top entry, of which `core` is left in the core, and leaves its TG as `g'` else (R74, R75): where entries lie in
memory the newest of them comes back, as its bytes then stand, and the page is used. -/
def Pops (i : Instr) (s : State) (g g' : Tg) (core : List ReconvEntry) (t : Nat) : Prop :=
  (g.reconv.depth ≤ 32 → Becomes i s { g' with reconv := { g.reconv with core := core, depth := g.reconv.depth - 1 } }) ∧
  (32 < g.reconv.depth →
    let va := memEntryVa g (g.reconv.depth - 33)
    let bs := tgBytes g s (s.locOf g.core g.ctx va.toNat) 32 0
    let e : ReconvEntry :=
      { m := BitVec.ofNat 96 (leNat (bs.take 12)), p := BitVec.ofNat 96 (leNat ((bs.drop 12).take 12))
        pc := BitVec.ofNat 64 (leNat (bs.drop 24) / 8 * 8) }
    (Readable s g va 32 → exec i s = .next ((s.touch g.core g.ctx va.toNat false).setTg s.cur
      { g' with reconv := { g.reconv with core := core ++ [e], depth := g.reconv.depth - 1 } })) ∧
    (∀ s', GlStops s g [(t, va)] 32 false s' .spill → exec i s = .next s'))

/-- The TG after a call with window step `8 * wn` (R89). -/
def calledTg (g : Tg) (wn : Nat) (next target : W64) : Tg :=
  { g with
    s := SMap.set 0 g.s 60 (next ||| BitVec.ofNat 64 wn)
    win := { g.win with wbase := g.win.wbase + BitVec.ofNat 32 (8 * wn) }, pc := target }

/-! ### Sweeps (R61) -/

/-- The plain form of a sweep's instruction, with the vector register `r` in the place of a scratchpad operand. -/
def atReg (sp : Spec) (r : BitVec 6) : Spec :=
  match sp with
  | .s _ => .v r
  | sp => sp

/-- The words of a scratchpad operand in iteration `i`, put into the vector register `r` of their threads. -/
def Tg.fetched (g : Tg) (s : State) (sp : Spec) (i : Nat) (step : BitVec 16) (r : BitVec 6) : Tg :=
  match sp with
  | .s n => g.setV r.toNat fun t => some (BitVec.ofNat 32 (leNat ((s.crewOf g).spBytes (spOff g n i step t) 4)))
  | _ => g

/-- The instructions that have a SWEEP form: those with one guard bit per thread, and the packed ones with a bit per element. -/
def sweepable : List (RArgs → Instr) :=
  [.add, .sub, .mul, .mulhi, .mad, .min, .max, .abs, .neg, .and, .or, .xor, .not, .andn, .shl, .shr, .sar, .rot, .fadd, .fsub, .fmul,
   .fma, .fmin, .fmax, .dot2]
def sweepablePacked : List (RArgs → Instr) := [.hadd2, .hmul2, .hfma2, .hmin2, .hmax2]

/-! ### Gangs (R240, R241) -/

/-- The instructions that a gang performs at its col. -/
def gangInstrs (f : RArgs) : List Instr :=
  [.mma f, .mmaBlk f, .mzero f, .mld f, .mst f, .mmov f, .mfenceOp f, .mwait f, .mlrSet f, .mlrGet f, .mlrInfo f, .mlrMul f,
   .mlrMuld f, .mlrAdd f, .mlrScl f, .mlrRcmp f, .mlrTrunc f, .mlrFact f, .mlrDense f]

/-- `gg` is the gang of GMASK: formed, whole, and with no difference to report. -/
def InGang (s : State) (g : Tg) (gg : Gang) : Prop :=
  s.gang g.crew g.mode.gmask = some gg ∧ g.gangBad = false ∧ g.mode.gmask ≠ 0 ∧ gg.formed = true ∧ gg.dissolved = false

/-- The col that a TG finds: as the first arrival left it, or its own. -/
def colAt (g : Tg) (i : Instr) (words : Nat) (guard : Bool) (gg : Gang) : Col :=
  gg.col.getD { pc := g.pc, words := words, instr := i, guard := guard, arrived := [], request := none, token := false, stage := none,
                denied := none, trapping := none }

/-- The TG brings the instruction and guard result that the col collects, and has not arrived there; no mismatch is being trapped. -/
def Agrees (g : Tg) (i : Instr) (guard : Bool) (c : Col) : Prop :=
  c.trapping = none ∧ c.pc = g.pc ∧ c.instr = i ∧ c.guard = guard ∧ g.idx ∉ c.arrived

/-- Every TG that the mask lists has arrived, with this one. -/
def AllArrive (g : Tg) (mask : BitVec 16) (c : Col) : Prop := ∀ k, k < 16 → mask.getLsbD k = true → k = g.idx ∨ k ∈ c.arrived

/-- The machine once the TG stands at the col. -/
def atCol (s : State) (g : Tg) (mask : BitVec 16) (c : Col) : State :=
  (s.modGang g.crew mask fun x => { x with col := some { c with arrived := g.idx :: c.arrived } }).setTg s.cur { g with wait := .col mask }

/-- The TG arrives last with a true guard: in `s'`, where every listed TG's earlier stores are performed, `gg` is the gang and `lead`
the lowest-indexed listed TG. -/
def Meets (i : Instr) (f : RArgs) (s : State) (g : Tg) (s' : State) (gg : Gang) (lead : Tg) : Prop :=
  ∃ gg0, InGang s g gg0 ∧ g.once f.h ≠ none ∧
    let c := colAt g i (RArgs.words f) true gg0
    let s1 := atCol s g g.mode.gmask c
    Agrees g i true c ∧ AllArrive g g.mode.gmask c ∧
    s' = (s1.listed g.crew g.mode.gmask).foldl (fun s p => s.drain p.1) s1 ∧
    s'.gang g.crew g.mode.gmask = some gg ∧ gg.mask = g.mode.gmask ∧ ∃ id, (s'.listed g.crew g.mode.gmask).head? = some (id, lead)

/-- The gang performs it with the machine as in `s''`: the col completes, with a scalar written in every listed TG if any. -/
def Performed (i : Instr) (s : State) (g : Tg) (s'' : State) (w : Option (Nat × W64)) : Prop :=
  exec i s = .next (s''.completeCol g.crew g.mode.gmask w)

/-- It traps in every listed TG. -/
def GangTraps (i : Instr) (s : State) (g : Tg) (s' : State) (c : Cause) (info : W64) : Prop :=
  exec i s = .next (s'.trapCol g.crew g.mode.gmask c fun _ => info)

/-! ### Engine operations (R227, R233) -/

/-- An operation may access a byte: it is on chip, or on a resident page that allows the access and whose module answers. -/
def Answers (s : State) (o : CopyOp) (sp addr : Nat) (write : Bool) : Prop :=
  sp = 1 → ∃ e, s.translate o.core o.ctx addr = .leaf e true ∧ unanswered (s.lostBy o.tg) e.loc = false ∧
    (write = true → e.w = true ∧ e.b = false)

/-- Its page ends the operation: no leaf, a module that does not answer, or a write that the page forbids. -/
def Ends (s : State) (o : CopyOp) (sp addr : Nat) (write : Bool) : Prop :=
  sp = 1 ∧ (s.translate o.core o.ctx addr = .bad ∨ ∃ e r, s.translate o.core o.ctx addr = .leaf e r ∧
    (unanswered (s.lostBy o.tg) e.loc = true ∨ (write = true ∧ (e.w = false ∨ e.b = true))))

/-- Its page is not resident, and would answer else. -/
def Absent (s : State) (o : CopyOp) (sp addr : Nat) (write : Bool) : Prop :=
  sp = 1 ∧ ∃ e, s.translate o.core o.ctx addr = .leaf e false ∧ unanswered (s.lostBy o.tg) e.loc = false ∧
    (write = true → e.w = true ∧ e.b = false)

/-- A staging slot that the operation reads is full, or that it writes is free (R247). -/
def SlotReady (s : State) (o : CopyOp) (sp claim : Nat) (write : Bool) : Prop :=
  sp = 2 → ∀ p, o.work.side (!write) = some p →
    (if write then (s.ringOf o p.1).canFill claim else (s.ringOf o p.1).canRead claim) = true

/-! ### Futures (R305 to R317) -/

/-- A handle that passes the check of R312: null, or the handle of an entry in use. -/
def HandleOk (s : State) (g : Tg) (h : W64) : Prop := h = 0 ∨ ∃ loc e, s.lookup g.ctx h = .entry loc e

/-- The handles that the acting threads hold in an f register. -/
def heldHandle (g : Tg) (sp : Spec) (t : Nat) : W64 := (g.fAt (Spec.num sp) t).h

/-- The counted references of threads in an f register, which a write of it drops, lie in a table that can be reached (R306). -/
def DropsReach (s : State) (g : Tg) (ts : List Nat) (d : Nat) : Prop :=
  ∀ t ∈ ts, (g.fAt d t).counted = true → (g.fAt d t).h ≠ 0 → s.lookup g.ctx (g.fAt d t).h ≠ .noTable

/-- A handle of a thread whose table cannot be reached (R306). -/
def Unreached (s : State) (g : Tg) (p : Nat × W64) : Prop := p.2 ≠ 0 ∧ s.lookup g.ctx p.2 = .noTable

/-- An instruction that must reach the tables of some handles traps ADDR for the first whose table it cannot, with the entry's address. -/
def ReachTraps (i : Instr) (s : State) (g : Tg) (hs : List (Nat × W64)) : Prop :=
  ∀ p c, FirstBad hs (Unreached s g) p → s.ctx g.ctx = some c → Traps i s .addr (c.entryVa (hIndex p.2)) p.1

/-- The counted handles that an inline frame's threads hold again in f[D] when it is popped, and drop there (R303). -/
def popHandles (fr : InlineFrame) : List (Nat × W64) :=
  (fr.children.map fun p => (p.1, Row.at (SMap.get [] fr.fregs fr.d) fNull p.1)).filterMap fun p =>
    if p.2.counted then some (p.1, p.2.h) else none

/-- The handles that threads release when they go: the own entry, then the counted ones of f0 to f7 (R307, R308). -/
def goHandles (g : Tg) (ts : List Nat) : List (Nat × W64) :=
  ts.flatMap fun t => (t, (g.taskAt t).own) :: ((List.range 8).filter fun r => (g.fAt r t).counted).map fun r => (t, (g.fAt r t).h)

/-- The entry of a handle, and none for another handle. -/
def State.entryOf (s : State) (ctx : Nat) (h : W64) : Option Entry :=
  match s.lookup ctx h with
  | .entry _ e => some e
  | _ => none

/-- How an instruction that adds to counts ends (R315): it completes, or takes FCOUNT behind itself for the threads that failed. -/
def CountEnds (i : Instr) (s : State) (g : Tg) (words : Nat) (s' : State) (failed : List (Nat × W64)) : Prop :=
  (failed = [] → Completes i s s' ((s'.curTg g).advance words)) ∧
  (∀ t h l, failed = (t, h) :: l →
    let g' := (s'.curTg g).advance words
    let g1 := { g' with task := { g'.task with ffail := Mask.of fun u => failed.any fun p => p.1 == u } }
    exec i s = .next ((s'.setTg s.cur g1).enter s.cur .fcount g1.pc (BitVec.ofNat 64 (hIndex h)) t))

/-- fspawn runs the threads `q` as an inline call from `s'`, where its TG is `g` (R81, R303): at INLDEPTH it traps SPAWNFULL with the depth of
the lowest of them, `q0`; where the window cannot move by 56 it traps as a call does; else, where the frame at INLBASE + 12,288 · INLCNT can
be written and the entries are found, the frame holds what the pop restores, the threads are those of `q` with their payloads and own handles
in a window 56 registers on, and the TG goes on at the entry. Only bytes of the frame are stored; what they are is free (log 3). -/
def InlineCalls (i : Instr) (s s' : State) (g : Tg) (x : SpawnArgs) (q : Mask) (q0 t0 words : Nat) (pay : Nat → W64) : Prop :=
  let n := g.frames.length
  let frame := g.task.inlbase + BitVec.ofNat 64 (12288 * n)
  let blocks := rangeBlocks frame.toNat 12288
  let top := g.win.wbase.toNat + 56 + 64
  let last := min 65536 (g.win.wtlim.toNat + g.win.k)
  let low := g.mask.lowest.getD 0
  let need := BitVec.ofNat 32 (top - g.win.wlo.toNat - g.win.k)
  (g.task.inldepth.toNat ≤ n → exec i s = .next (s'.trapHere s'.cur .spawnfull (BitVec.ofNat 64 (g.taskAt q0).depth) q0)) ∧
  (n < g.task.inldepth.toNat → last < top → exec i s = .next ((s'.setTg s'.cur g).trapHere s'.cur .addr 0 low)) ∧
  (n < g.task.inldepth.toNat → top ≤ last → g.win.wlo.toNat + g.win.k < top →
    exec i s = .next ((s'.setTg s'.cur { g with win := { g.win with wneed := need } }).trapHere s'.cur .wovf (need.setWidth 64) low)) ∧
  (n < g.task.inldepth.toNat → top ≤ last → top ≤ g.win.wlo.toNat + g.win.k →
    (∀ v ∈ blocks ++ [frame.toNat + 12287], s'.checkGl g.core g.ctx [(t0, BitVec.ofNat 64 v)] 1 .store = none) →
    ∀ s1 hs, s'.inlineEntries g q.threads = .ok (s1, hs) →
      let s2 := s1.touchAll g.core g.ctx blocks true
      let g2 := s2.curTg g
      let win := { g2.win with wbase := g2.win.wbase + 56 }
      let own (t : Nat) : W64 := (SMap.find hs t).getD 0
      ∃ g3 fr st, exec i s = .next (s2.setTg s2.cur g3) ∧
        g3 = { g2 with
          frames := fr :: g2.frames, win := win, mask := q, pc := x.entry, stores := g2.stores ++ st, f := g3.f, threads := g3.threads, v := g3.v } ∧
        WroteV64 { g2 with win := win } g3.v 0 q pay ∧
        (∀ t, t < 96 → q.has t = true → g3.fAt 0 t = { h := own t, counted := false } ∧ (∀ r, 0 < r → r < 8 → g3.fAt r t = fNull) ∧
          g3.taskAt t = { own := own t, depth := (g2.taskAt t).depth + 1, srec := .none, hold := false }) ∧
        (∀ t, t < 96 → q.has t = false → (∀ r, r < 8 → g3.fAt r t = g2.fAt r t) ∧ g3.taskAt t = g2.taskAt t) ∧
        (fr.mask = g2.mask ∧ fr.q = q ∧ fr.ret = (g.advance words).pc ∧ fr.wbase = g2.win.wbase ∧ fr.rdepth = g2.reconv.depth ∧
          fr.spdone = g2.task.spdone ∧ fr.d = x.d ∧ fr.children = hs) ∧
        (∀ r t, r < 8 → t < 96 → Row.at (SMap.get [] fr.fregs r) fNull t = g2.fAt r t) ∧
        st.map (fun p => (p.loc, p.data.length)) = blocks.map fun v => (s'.locOf g.core g.ctx v, blockLen frame.toNat 12288 v))

/-! ### Macros (R350 to R353) -/

/-- A macro in progress in the threads `ts`. -/
def running (i : Instr) (words : Nat) (ts : Mask) (mc : Option Microcode) : MacRun :=
  { instr := i, words := words, mc := mc, running := ts, slice := false, faults := [], pass := ts, progress := false }

/-- A macro begins in the threads `ts`; where none of them steps it completes at once, with rc and no callback, and its end takes
1 clk (R393). -/
def Starts (i : Instr) (s : State) (g : Tg) (words : Nat) (ts : Mask) (mc : Option Microcode) (rc : W64) : Prop :=
  (ts ≠ 0 → g.stopPending = false → Becomes i s { g with mac := some (running i words ts mc), wait := .mac }) ∧
  (ts = 0 → macCallback g (running i words ts mc) = false → (isSafe i = true → g.budgetDue = false ∨ g.trap.tstat = true) →
    exec i s = .next (((s.setTg s.cur { g with mac := some (running i words ts mc), wait := .mac }).setTg s.cur
      (({ ({ g with wait := .ready, mac := none } : Tg).setS 58 rc with mcOld := g.mcOld.filter fun p => p.1 != g.pc }).advance words)).occupy
        g.core g.sub 1))

/-! ### Trap causes and system registers (R323, R336) -/

/-- R323: the trap causes, their codes, and which are terminal. -/
def causeTable : List (Cause × Nat × Bool) :=
  [(.illop, 0x01, true), (.nomacro, 0x02, false), (.wovf, 0x03, false), (.wunf, 0x04, false), (.align, 0x06, true),
   (.addr, 0x07, true), (.pfault, 0x08, false), (.prot, 0x09, true), (.rankovf, 0x0A, false), (.slabq, 0x0B, false),
   (.budget, 0x0C, false), (.fcount, 0x0D, false), (.spawnfull, 0x0E, false), (.barbusy, 0x0F, false), (.arena, 0x10, true),
   (.stg, 0x11, false), (.gang, 0x12, false), (.priv, 0x13, true), (.user, 0x14, false), (.brkpt, 0x15, false)]

/-- The value of each system register that can be read (R336, R341). -/
def sysRegs (s : State) (g : Tg) (c : Context) (d : Die) : List (Nat × W64) :=
  let word (m : Mask) (k : Nat) : W64 := (m.extractLsb' (32 * k) 32).setWidth 64
  let flag (b : Bool) : W64 := if b then 1 else 0
  [(0x00, g.trap.tpc), (0x01, g.trap.tcause.setWidth 64), (0x02, g.trap.taddr), (0x03, g.trap.ttid.setWidth 64), (0x04, word g.trap.tam 0),
   (0x05, word g.trap.tam 1), (0x06, word g.trap.tam 2), (0x07, g.trap.twbase.setWidth 64), (0x08, g.trap.tvec), (0x09, flag g.trap.tstat),
   (0x10, g.win.wbase.setWidth 64), (0x11, g.win.wlo.setWidth 64), (0x12, g.win.wneed.setWidth 64), (0x13, g.win.wspill),
   (0x14, g.win.wspill + 384 * g.win.wlo.setWidth 64), (0x15, g.reconv.rspill), (0x16, BitVec.ofNat 64 g.reconv.depth),
   (0x17, word g.xmask 0), (0x18, word g.xmask 1), (0x19, word g.xmask 2), (0x1A, g.mode.memdef), (0x1B, c.seed),
   (0x1C, g.mode.srseq.setWidth 64), (0x1D, g.mode.gmask.setWidth 64), (0x1E, g.mode.rankcap.setWidth 64)] ++
  [(0x1F, g.mode.mtol.setWidth 64), (0x20, flag g.mode.rmode), (0x21, g.task.tgdl), (0x22, g.task.tgbud.setWidth 64),
   (0x23, word g.task.spdone 0), (0x24, word g.task.spdone 1), (0x25, word g.task.spdone 2), (0x26, BitVec.ofNat 64 g.frames.length),
   (0x27, g.task.inlbase), (0x28, g.task.inldepth.setWidth 64), (0x29, word g.task.ffail 0), (0x2A, word g.task.ffail 1),
   (0x2B, word g.task.ffail 2), (0x2C, BitVec.ofNat 64 (saveSize s g g.liveSlots)), (0x2D, BitVec.ofNat 64 (saveSize s g g.win.k)),
   (0x2E, g.win.wtlim.setWidth 64), (0x30, c.ftbase), (0x31, c.ftsize), (0x32, c.safemax), (0x33, flag c.faultmode), (0x34, flag c.system),
   (0x35, c.savebase), (0x40, c.ptroot), (0x41, d.fqbase), (0x42, d.fqsize), (0x43, d.fqhead), (0x44, d.fqtail), (0x45, d.fqbar),
   (0x46, d.fbbase)]

/-- What a write of `x` makes of each writable register: of the TG, of its context, and of the die (R336, R337). -/
def tgWrites (g : Tg) (x : W64) : List (Nat × Tg) :=
  let w : W32 := x.setWidth 32
  let tam (k : Nat) : Mask := (g.trap.tam &&& ~~~((BitVec.allOnes 32).setWidth 96 <<< (32 * k))) ||| (w.setWidth 96 <<< (32 * k))
  [(0x00, { g with trap := { g.trap with tpc := x } }), (0x04, { g with trap := { g.trap with tam := tam 0 } }),
   (0x05, { g with trap := { g.trap with tam := tam 1 } }), (0x06, { g with trap := { g.trap with tam := tam 2 } }),
   (0x07, { g with trap := { g.trap with twbase := w } }), (0x10, { g with win := { g.win with wbase := w } }),
   (0x11, { g with win := { g.win with wlo := w } }), (0x13, { g with win := { g.win with wspill := x } }),
   (0x15, { g with reconv := { g.reconv with rspill := x } }), (0x1C, { g with mode := { g.mode with srseq := w } }),
   (0x1E, { g with mode := { g.mode with rankcap := x.extractLsb' 0 6 } }), (0x1F, { g with mode := { g.mode with mtol := w } }),
   (0x20, { g with mode := { g.mode with rmode := x.getLsbD 0 } }), (0x21, { g with task := { g.task with tgdl := x } }),
   (0x22, { g with task := { g.task with tgbud := w } })]

def ctxWrites (x : W64) : List (Nat × (Context → Context)) :=
  [(0x1B, fun c => { c with seed := x }), (0x30, fun c => { c with ftbase := x }), (0x31, fun c => { c with ftsize := x }),
   (0x32, fun c => { c with safemax := x }), (0x33, fun c => { c with faultmode := x.getLsbD 0 }),
   (0x35, fun c => { c with savebase := x }), (0x40, fun c => { c with ptroot := x })]

/-- The TG that moves FQHEAD serves the queue (R299; DEDUCED, log 34). -/
def dieWrites (launch : Nat) (x : W64) : List (Nat × (Die → Die)) :=
  [(0x41, fun d => { d with fqbase := x }), (0x42, fun d => { d with fqsize := x }), (0x43, fun d => { d with fqhead := x, server := some launch }),
   (0x45, fun d => { d with fqbar := x }), (0x46, fun d => { d with fbbase := x })]

/-- The values that a register takes (R74, R271, R306, R333, R336). -/
def SysValue (n : Nat) (x : W64) : Prop :=
  (n ∈ [0x04, 0x05, 0x06, 0x07, 0x10, 0x11, 0x1C, 0x1F, 0x22] → x.toNat < 2 ^ 32) ∧ (n = 0x15 → x.toNat % 32 = 0) ∧
  (n = 0x1E → x.toNat ≤ 63) ∧ (n = 0x20 ∨ n = 0x33 → x.toNat ≤ 1) ∧ (n = 0x31 → ∃ k, k ≤ 20 ∧ x.toNat = 2 ^ k) ∧
  (n = 0x32 → 1024 ≤ x.toNat ∧ x.toNat ≤ 65535) ∧ (n = 0x35 → x.toNat % 256 = 0) ∧ (n = 0x40 → x.toNat % 2 ^ 21 = 0)

/-- The registers that only a system context writes (R336). -/
def systemOnly : List Nat := [0x21, 0x22, 0x30, 0x31, 0x32, 0x33, 0x35, 0x40, 0x41, 0x42, 0x43, 0x45, 0x46]

end Sys2Proof.Machine
end

