-- ==== Sys2Proof/Certificates/Slice0/Obligations.lean ====
section
/-! DEFINITION. The statements for the provers. -/

open Sys2Proof Sys2Proof.Machine

/-! ### Encoding -/

/-- Decoding what an instruction encodes to gives the instruction back, for every operand value its encoding admits (R49 to R62). -/
def Obligations.DecodeOfEncodeIsIdentity : Prop :=
  ∀ (i : Instr) (ws : List W64), i.wf = true → encode i = some ws → decode ws = .ok i ws.length

/-- What decodes is the encoding of what it decodes to, and is well-formed: no bit of a word is dropped (R49, R67). -/
def Obligations.EncodeOfDecodeIsIdentity : Prop :=
  ∀ (ws : List W64) (i : Instr) (n : Nat), decode ws = .ok i n → i.wf = true ∧ encode i = some (ws.take n)

/-! ### Control instructions -/

/-- R86: nop moves the pc past its words and changes nothing else, whatever its guard; its words unguarded, guarded by p0 and as a
pure safe point. -/
def Obligations.NopHasNoEffect : Prop :=
  let h : Hdr := { g := 7, n := false, u := false, safe := false, long := .none }
  let r : RArgs := { pfx := none, h := h, d := .v 0, a := .v 0, b := .v 0, cs := .v 0, x := 0, rm := 0, ty := .n8 }
  (∀ (f : RArgs) (s : State) (g : Tg), s.tg s.cur = some g → Becomes (.nop f) s (g.advance (RArgs.words f))) ∧
  decode [0x00E0000000000000] = .ok (.nop r) 1 ∧ decode [0] = .ok (.nop { r with h := { h with g := 0 } }) 1 ∧
  decode [0x00E4000000000000] = .ok (.nop { r with h := { h with safe := true } }) 1

/-- R87 with R76: no thread takes the branch, all take it, or the TG diverges, with the fall-through first; the entry is pushed as R74 and
R75 say, also with 32 entries in the core and at the greatest depth (TADDR 0 there: DESIGN CHOICE, log 51). -/
def Obligations.BraBranchesOrDiverges : Prop :=
  ∀ (f : IArgs) (s : State) (g : Tg) (target : W64) (t0 : Nat), s.Issues g → IsTarget f g.pc target → g.mask.lowest = some t0 →
    let t := g.acting f.h
    let next := (g.advance (IArgs.words f)).pc
    (t = 0 → Becomes (.bra f) s { g with pc := next }) ∧
    (t = g.mask → Becomes (.bra f) s { g with pc := target }) ∧
    (t ≠ 0 → t ≠ g.mask →
      (∀ e r, g.reconv.core = e :: r → e.pc = target →
        Becomes (.bra f) s { g with
          mask := g.mask &&& ~~~t, pc := next
          reconv := { g.reconv with core := { e with p := e.p ||| t, m := e.m ||| g.mask } :: r } }) ∧
      ((∀ e, g.reconv.core.head? = some e → e.pc ≠ target) →
        Pushes (.bra f) s g { g with mask := g.mask &&& ~~~t, pc := next } { m := g.mask, p := t, pc := target } t0))

/-- R88 with R76: where every target is legal, the group of the lowest active thread goes to its target and the rest wait at the brx, in the
top entry where that resumes at this brx, else in one that is pushed as R74 and R75 say (TADDR 0 at the greatest depth: DESIGN CHOICE,
log 51). -/
def Obligations.BrxRunsOneTargetGroup : Prop :=
  ∀ (f : RArgs) (s : State) (g : Tg) (t0 : Nat), s.Issues g → g.mask.lowest = some t0 →
    (∀ t, (g.acting f.h).has t = true → t < 96 → LegalTarget (brxTarget g f t)) →
    ∀ grp : Mask, (∀ t, t < 96 → grp.has t = (g.mask.has t && decide (brxTarget g f t = brxTarget g f t0))) →
    (grp = g.mask → Becomes (.brx f) s { g with pc := brxTarget g f t0 }) ∧
    (grp ≠ g.mask →
      let rest := g.mask &&& ~~~grp
      (∀ e r, g.reconv.core = e :: r → e.pc = g.pc →
        Becomes (.brx f) s { g with
          mask := grp, pc := brxTarget g f t0
          reconv := { g.reconv with core := { e with p := e.p ||| rest, m := e.m ||| g.mask } :: r } }) ∧
      ((∀ e, g.reconv.core.head? = some e → e.pc ≠ g.pc) →
        Pushes (.brx f) s g { g with mask := grp, pc := brxTarget g f t0 } { m := g.mask, p := rest, pc := g.pc } t0))

/-- R89, R90 with R81: lr takes the link, the window moves, and the pc goes to the target; callx checks its target first. -/
def Obligations.CallMovesTheWindow : Prop :=
  ∀ (s : State) (g : Tg), s.Issues g →
    (∀ (f : IArgs) (target : W64), IsTarget f g.pc target → g.once f.h ≠ none →
      g.win.wbase.toNat + 8 * f.b.toNat + 64 ≤ min 65536 (g.win.wtlim.toNat + g.win.k) →
      g.win.wbase.toNat + 8 * f.b.toNat + 64 ≤ g.win.wlo.toNat + g.win.k →
      Becomes (.call f) s (calledTg g f.b.toNat (g.advance (IArgs.words f)).pc target)) ∧
    (∀ (f : RArgs) (n : BitVec 6), f.a = .s n → g.once f.h ≠ none → LegalTarget (g.sAt n.toNat) →
      g.win.wbase.toNat + 8 * f.x.toNat + 64 ≤ min 65536 (g.win.wtlim.toNat + g.win.k) →
      g.win.wbase.toNat + 8 * f.x.toNat + 64 ≤ g.win.wlo.toNat + g.win.k →
      Becomes (.callx f) s (calledTg g f.x.toNat (g.advance (RArgs.words f)).pc (g.sAt n.toNat)))

/-- R81, R84: a call or callx past the talus traps ADDR (TADDR 0: DESIGN CHOICE, log 51); one past the resident registers traps WOVF with
WNEED the exact difference. A register target of callx, or of an acting thread of brx, traps ALIGN for its bits [2:0], and where no target
has those, ADDR for its bits [63:57]. -/
def Obligations.CallWindowTraps : Prop :=
  ∀ (s : State) (g : Tg) (t : Nat), s.Issues g →
    let windows (i : Instr) (n : Nat) : Prop :=
      let top := g.win.wbase.toNat + n + 64
      (min 65536 (g.win.wtlim.toNat + g.win.k) < top → exec i s = .next ((s.setTg s.cur g).trapHere s.cur .addr 0 t)) ∧
      (top ≤ min 65536 (g.win.wtlim.toNat + g.win.k) → g.win.wlo.toNat + g.win.k < top →
        let need := BitVec.ofNat 32 (top - g.win.wlo.toNat - g.win.k)
        exec i s = .next ((s.setTg s.cur { g with win := { g.win with wneed := need } }).trapHere s.cur .wovf (need.setWidth 64) t))
    let low (x : W64) : Prop := x.extractLsb' 0 3 ≠ 0
    let high (x : W64) : Prop := x.extractLsb' 57 7 ≠ 0
    (∀ f : IArgs, g.once f.h = some t → windows (.call f) (8 * f.b.toNat)) ∧
    (∀ (f : RArgs) (n : BitVec 6), f.a = .s n → g.once f.h = some t →
      let x := g.sAt n.toNat
      (LegalTarget x → windows (.callx f) (8 * f.x.toNat)) ∧
      (low x → Traps (.callx f) s .align x t) ∧ (¬low x → high x → Traps (.callx f) s .addr x t)) ∧
    (∀ f : RArgs,
      let ts := (g.acting f.h).threads.map fun u => (u, brxTarget g f u)
      (∀ p, FirstBad ts (fun p => low p.2) p → Traps (.brx f) s .align p.2 p.1) ∧
      (∀ p, (∀ q ∈ ts, ¬low q.2) → FirstBad ts (fun p => high p.2) p → Traps (.brx f) s .addr p.2 p.1))

/-- R91 with R81: ret returns through the link and lowers the window by its step; below WLO it traps WUNF
with WNEED the exact difference (modulo 2^32 where it has more bits: DESIGN CHOICE, log 46). -/
def Obligations.RetReturnsThroughTheLink : Prop :=
  ∀ (f : RArgs) (s : State) (g : Tg) (n : BitVec 6) (t : Nat), s.Issues g → f.a = .s n → g.once f.h = some t →
    let link := g.sAt n.toNat
    let step := 8 * (link.toNat % 8)
    (link.extractLsb' 57 7 = 0 → (step = 0 ∨ g.win.wlo.toNat + step ≤ g.win.wbase.toNat) →
      Becomes (.ret f) s { g with
        win := { g.win with wbase := g.win.wbase - BitVec.ofNat 32 step }, pc := link &&& ~~~7#64 }) ∧
    (link.extractLsb' 57 7 = 0 → step ≠ 0 → g.win.wbase.toNat < g.win.wlo.toNat + step →
      let need := BitVec.ofNat 32 (g.win.wlo.toNat + step - g.win.wbase.toNat)
      exec (.ret f) s = .next ((s.setTg s.cur { g with win := { g.win with wneed := need } }).trapHere s.cur .wunf
        (need.setWidth 64) t)) ∧
    (link.extractLsb' 57 7 ≠ 0 → Traps (.ret f) s .addr (link &&& ~~~7#64) t)

/-- R77: join has no effect on an empty stack; parked threads run first; when everyone has reached the join, the entry is
popped as R74 and R75 say, with an entry that lies in memory brought back. -/
def Obligations.JoinResumesOrPops : Prop :=
  ∀ (f : RArgs) (s : State) (g : Tg) (t0 : Nat), s.Issues g → g.mask.lowest = some t0 →
    let next := (g.advance (RArgs.words f)).pc
    (g.reconv.core = [] → Becomes (.join f) s { g with pc := next }) ∧
    (∀ e r, g.reconv.core = e :: r →
      (e.p &&& ~~~g.xmask ≠ 0 → e.pc ≠ g.pc →
        Becomes (.join f) s { g with
          mask := e.p &&& ~~~g.xmask, pc := e.pc, reconv := { g.reconv with core := { e with p := 0, pc := g.pc } :: r } }) ∧
      ((e.p &&& ~~~g.xmask = 0 ∨ e.pc = g.pc) →
        Pops (.join f) s g { g with mask := (e.m &&& ~~~g.xmask) ||| g.mask, pc := next } r t0))

/-- R93: loop decrements its counter and branches while it is nonzero, so a counter of 0 branches. -/
def Obligations.LoopCountsDown : Prop :=
  ∀ (f : IArgs) (s : State) (g : Tg) (n : BitVec 6) (target : W64), s.Issues g → f.d = .s n → IsTarget f g.pc target →
    g.once f.h ≠ none →
    (n.toNat < 61 → Becomes (.loop f) s { g with
      s := SMap.set 0 g.s n.toNat (g.sAt n.toNat - 1)
      pc := if g.sAt n.toNat = 1 then (g.advance (IArgs.words f)).pc else target }) ∧
    Completes (.loop f) s s { g.setS n.toNat (g.sAt n.toNat - 1) with
      pc := if (g.setS n.toNat (g.sAt n.toNat - 1)).sAt n.toNat = 0 then (g.advance (IArgs.words f)).pc else target }

/-- R85: a false guard gives call, callx, ret and loop no effect beyond the pc. -/
def Obligations.FalseGuardSkipsTgWideControl : Prop :=
  ∀ (s : State) (g : Tg), s.Issues g →
    (∀ f : IArgs, g.once f.h = none →
      Becomes (.call f) s (g.advance (IArgs.words f)) ∧ Becomes (.loop f) s (g.advance (IArgs.words f))) ∧
    (∀ f : RArgs, g.once f.h = none →
      Becomes (.callx f) s (g.advance (RArgs.words f)) ∧ Becomes (.ret f) s (g.advance (RArgs.words f)))

/-- R94 with R78, R303 and R309: the threads that exit leave the mask and join XMASK, except in an inline frame; their f registers
become null; the vector, scalar and predicate registers, the f registers of the other threads and the stack are kept. Where active
threads are left, the TG goes on. Where none is, outside inline frames, the TG goes on with the threads parked in the top entry, or
with those that wait at its join, and retires where the stack is empty. Where a reference or an own entry lies in a table that cannot
be reached, exit traps ADDR (R306; that it looks before any thread goes is a DESIGN CHOICE, log 15). At the depth of an inline frame it pops
the frame (R303), which traps so too for a reference that f[D] then drops (DESIGN CHOICE, log 15). -/
def Obligations.ExitRetiresItsThreads : Prop :=
  ∀ (f : RArgs) (s : State) (g : Tg), s.Issues g →
    let act := g.acting f.h
    let s1 := (s.setTg s.cur (g.advance (RArgs.words f))).removeThreads s.cur act
    ReachTraps (.exit f) s g (goHandles g act.threads) ∧
    ∃ g', s1.tg s.cur = some g' ∧
      g'.mask = g.mask &&& ~~~act ∧ g'.xmask = (if g.frames = [] then g.xmask ||| act else g.xmask) ∧
      g'.pc = (g.advance (RArgs.words f)).pc ∧ g'.v = g.v ∧ g'.s = g.s ∧ g'.p = g.p ∧ g'.reconv = g.reconv ∧
      (∀ r t, r < 8 → t < 96 → g'.fAt r t = if act.has t then fNull else g.fAt r t) ∧
      ((∀ p ∈ goHandles g act.threads, ¬Unreached s g p) →
       (act ≠ g.mask → exec (.exit f) s = .next s1) ∧
       (act = g.mask → g.frames = [] →
        (g.reconv.core = [] → exec (.exit f) s = .next (s1.retire s.cur)) ∧
        (∀ e r, g.reconv.core = e :: r →
          let parked := e.p &&& ~~~g'.xmask
          let waiting := e.m &&& ~~~g'.xmask
          (parked ≠ 0 → exec (.exit f) s = .next (s1.setTg s.cur
            { g' with mask := parked, pc := e.pc, reconv := { g'.reconv with core := { e with p := 0 } :: r } })) ∧
          (parked = 0 → waiting ≠ 0 → exec (.exit f) s = .next (s1.setTg s.cur { g' with mask := waiting, pc := e.pc })))) ∧
       (∀ fr l, act = g.mask → g.frames = fr :: l → g.reconv.depth = fr.rdepth → fr.mask &&& ~~~g'.xmask ≠ 0 →
        let va := g'.task.inlbase + BitVec.ofNat 64 (12288 * l.length)
        Readable s1 g' va 1 → Readable s1 g' (va + 12287) 1 →
        ReachTraps (.exit f) s g (popHandles fr) ∧
        ((∀ p ∈ popHandles fr, ¬Unreached s g p) → exec (.exit f) s = .next (s1.popFrame s.cur fr) ∧
          ∃ g2, (s1.popFrame s.cur fr).tg s.cur = some g2 ∧
            g2.mask = fr.mask &&& ~~~g'.xmask ∧ g2.pc = fr.ret ∧ g2.win.wbase = fr.wbase ∧ g2.frames = l ∧ g2.task.spdone = 0 ∧
            g2.xmask = g'.xmask ∧ g2.s = g'.s ∧ g2.p = g'.p ∧ g2.reconv = g'.reconv ∧
            (∀ r t, r < 8 → r ≠ fr.d → t < 96 → g2.fAt r t = Row.at (SMap.get [] fr.fregs r) fNull t))))

/-! ### Integer instructions -/

/-- R99: the exact value of the table, saturated where X[0] asks for it, wrapped to the width of T. -/
def Obligations.IntegerArithmetic : Prop :=
  ∀ f : RArgs, f.ty.isInt = true →
    let a (s : State) (g : Tg) (t : Nat) : Int := intOf s g f.h f.ty f.a t
    let b (s : State) (g : Tg) (t : Nat) : Int := intOf s g f.h f.ty f.b t
    let c (s : State) (g : Tg) (t : Nat) : Int := intOf s g f.h f.ty f.cs t
    let gives (i : Instr) (x : State → Tg → Nat → Int) : Prop :=
      GivesData i f f.ty.width (·.acting f.h) fun s g t => regInt f.ty (x s g t)
    let sat (x : Int) : Int := saturated f.ty (f.x.getLsbD 0) x
    gives (.add f) (fun s g t => sat (a s g t + b s g t)) ∧
    gives (.sub f) (fun s g t => sat (a s g t - b s g t)) ∧
    gives (.mul f) (fun s g t => a s g t * b s g t) ∧
    gives (.mulhi f) (fun s g t => a s g t * b s g t / 2 ^ f.ty.width) ∧
    gives (.mad f) (fun s g t => a s g t * b s g t + c s g t) ∧
    gives (.min f) (fun s g t => min (a s g t) (b s g t)) ∧
    gives (.max f) (fun s g t => max (a s g t) (b s g t)) ∧
    gives (.abs f) (fun s g t => sat (a s g t).natAbs) ∧
    gives (.neg f) (fun s g t => sat (-(a s g t)))

/-- R102: bit by bit on the w bits of the operands. -/
def Obligations.BitwiseLogic : Prop :=
  ∀ f : RArgs, f.ty.isInt = true →
    let a (s : State) (g : Tg) (t : Nat) := bitsOf s g f.h f.ty f.a t
    let b (s : State) (g : Tg) (t : Nat) := bitsOf s g f.h f.ty f.b t
    let gives (i : Instr) (x : State → Tg → Nat → BitVec f.ty.width) : Prop :=
      GivesData i f f.ty.width (·.acting f.h) fun s g t => regBits f.ty (x s g t)
    gives (.and f) (fun s g t => a s g t &&& b s g t) ∧
    gives (.or f) (fun s g t => a s g t ||| b s g t) ∧
    gives (.xor f) (fun s g t => a s g t ^^^ b s g t) ∧
    gives (.not f) (fun s g t => ~~~(a s g t)) ∧
    gives (.andn f) (fun s g t => a s g t &&& ~~~(b s g t))

/-- R103: shifts by an amount read unsigned, from the width on all zeros or all signs; the rotation is by the amount modulo the
width. -/
def Obligations.ShiftsAndRotation : Prop :=
  ∀ f : RArgs, f.ty.isInt = true →
    let a (s : State) (g : Tg) (t : Nat) := bitsOf s g f.h f.ty f.a t
    let n (s : State) (g : Tg) (t : Nat) : Nat := (bitsOf s g f.h f.ty f.b t).toNat
    let gives (i : Instr) (x : State → Tg → Nat → BitVec f.ty.width) : Prop :=
      GivesData i f f.ty.width (·.acting f.h) fun s g t => regBits f.ty (x s g t)
    gives (.shl f) (fun s g t => a s g t <<< n s g t) ∧
    gives (.shr f) (fun s g t => a s g t >>> n s g t) ∧
    gives (.sar f) (fun s g t => (a s g t).sshiftRight (n s g t)) ∧
    gives (.rot f) (fun s g t => (a s g t).rotateLeft (n s g t))

/-- R104: bit fields by position and length; a length of 0 or a position from the width on gives 0, or the base. -/
def Obligations.BitFields : Prop :=
  ∀ f : RArgs, f.ty.isInt = true →
    let w := f.ty.width
    let a (s : State) (g : Tg) (t : Nat) := bitsOf s g f.h f.ty f.a t
    let b (s : State) (g : Tg) (t : Nat) := (bitsOf s g f.h f.ty f.b t).toNat
    let c (s : State) (g : Tg) (t : Nat) := bitsOf s g f.h f.ty f.cs t
    let gives (i : Instr) (x : State → Tg → Nat → BitVec w) : Prop :=
      GivesData i f w (·.acting f.h) fun s g t => regBits f.ty (x s g t)
    let pos (b : Nat) : Nat := b % 256
    let len (b : Nat) : Nat := min (b / 256 % 256) (w - pos b)
    let none (b : Nat) : Bool := b / 256 % 256 == 0 || decide (w ≤ pos b)
    gives (.bfx f) (fun s g t =>
      let b := b s g t
      if none b then 0
      else if f.ty.isSInt then (a s g t <<< (w - pos b - len b)).sshiftRight (w - len b)
      else (a s g t >>> pos b) &&& (BitVec.allOnes w >>> (w - len b))) ∧
    gives (.bfi f) (fun s g t =>
      let b := b s g t
      let field := (BitVec.allOnes w >>> (w - len b)) <<< pos b
      if none b then c s g t else (c s g t &&& ~~~field) ||| ((a s g t <<< pos b) &&& field))

/-- R105: the counts and the reversal, zero-extended whatever the type. -/
def Obligations.BitCounts : Prop :=
  ∀ f : RArgs, f.ty.isInt = true →
    let w := f.ty.width
    let a (s : State) (g : Tg) (t : Nat) := bitsOf s g f.h f.ty f.a t
    let gives (i : Instr) (x : State → Tg → Nat → W64) : Prop := GivesData i f w (·.acting f.h) x
    let count (p : Nat → Bool) : W64 := BitVec.ofNat 64 ((List.range w).countP p)
    gives (.popc f) (fun s g t => count fun i => (a s g t).getLsbD i) ∧
    gives (.clz f) (fun s g t => count fun i => decide ((a s g t).toNat < 2 ^ (w - (i + 1)))) ∧
    gives (.ctz f) (fun s g t => count fun i => decide ((a s g t).toNat % 2 ^ (i + 1) = 0)) ∧
    gives (.brev f) (fun s g t => (a s g t).reverse.setWidth 64)

/-- R100, R101: the sum or difference with a carry from a predicate, and the carry out in all four bits of predicate CS, of each acting
thread or, in a uniform form, of every active thread; the exact product and sum at twice the width. -/
def Obligations.CarryChainsAndWideProducts : Prop :=
  (∀ (f : RArgs) (c : BitVec 3) (s : State) (g : Tg), f.ty.isInt = true → s.Issues g → Long.isSweep f.h.long = false → f.cs = .p c →
    let w := f.ty.width
    let a (t : Nat) : Nat := (bitsOf s g f.h f.ty f.a t).toNat
    let b (t : Nat) : Nat := (bitsOf s g f.h f.ty f.b t).toNat
    let ci (t : Nat) : Nat := if (g.pAt (f.x.toNat % 8) t).getLsbD 0 = f.x.getLsbD 3 then 0 else 1
    let gives (i : Instr) (x : Nat → BitVec w) (co : Nat → Bool) : Prop :=
      (∀ d : BitVec 6, f.h.u = false → f.d = .v d →
        ∃ v p, WroteVec w g v d.toNat (g.acting f.h) (fun t => regBits f.ty (x t)) ∧
          WroteP g p c.toNat (fun t => if (g.acting f.h).has t then some (allBits (co t)) else none) ∧
          Becomes i s (Tg.past { g with v := v, p := p } f.rm (RArgs.words f))) ∧
      (∀ d : BitVec 6, f.h.u = true → f.d = .s d →
        (∀ t, g.once f.h = some t → ∃ p, WroteP g p c.toNat (fun u => if g.mask.has u then some (allBits (co t)) else none) ∧
          Completes i s s (Tg.past { g.setS d.toNat (regBits f.ty (x t)) with p := p } f.rm (RArgs.words f))) ∧
        (g.once f.h = none → Becomes i s (g.past f.rm (RArgs.words f))))
    gives (.addc f) (fun t => BitVec.ofNat w (a t + b t + ci t)) (fun t => decide (2 ^ w ≤ a t + b t + ci t)) ∧
    gives (.subb f) (fun t => BitVec.ofInt w (a t - b t - ci t)) (fun t => decide (a t < b t + ci t))) ∧
  (∀ f : RArgs, f.ty.isInt = true → f.ty.width ≠ 64 →
    GivesData (.madw f) f (2 * f.ty.width) (·.acting f.h) fun s g t =>
      regInt (Ty.double f.ty) (intOf s g f.h f.ty f.a t * intOf s g f.h f.ty f.b t + intOf s g f.h (Ty.double f.ty) f.cs t))

/-- R106, R124, R127, R136 with R73: the condition in predicate D, the complement in CS; 32-bit and 64-bit compares on all four
bits of an acting thread, hcmp2 on the two bits of each element whose guard bit is true, also in its uniform form (DEDUCED,
log 48). -/
def Obligations.ComparesWriteConditionAndComplement : Prop :=
  ∀ f : RArgs,
    (f.ty.isInt = true → GivesCond (.cmp f) f (·.acting f.h) (·.once f.h)
      (fun s g t => allBits (cmpInt f.x.toNat (intOf s g f.h f.ty f.a t) (intOf s g f.h f.ty f.b t))) fun _ _ _ => 15) ∧
    GivesCond (.fcmp f) f (·.acting f.h) (·.once f.h)
      (fun s g t => allBits (cmpFlt f.x.toNat (fltOf s g f.h f.ty f.a t) (fltOf s g f.h f.ty f.b t))) (fun _ _ _ => 15) ∧
    GivesCond (.fclass f) f (·.acting f.h) (·.once f.h)
      (fun s g t => allBits (2 ^ classBit f.ty (opnd s g f.h f.ty f.ty.width f.a t) &&& opnd s g f.h .n32 32 f.b t != 0))
      (fun _ _ _ => 15) ∧
    GivesCond (.hcmp2 f) f (·.actingPacked f.h) (eachOn f)
      (fun s g t => packedBits (cmpFlt f.x.toNat (halfFlt s g f f.a t 0) (halfFlt s g f f.b t 0))
        (cmpFlt f.x.toNat (halfFlt s g f f.a t 1) (halfFlt s g f f.b t 1)))
      (fun _ g t => packedBits ((g.guardBits f.h.g f.h.n t).getLsbD 0) ((g.guardBits f.h.g f.h.n t).getLsbD 2))

/-- R107 to R110: moves, selection, constants and addresses copy or form bits exactly. A mov between f registers moves each acting
thread's reference: D takes it, what D held is dropped, A becomes null; that it completes also where the table of the handle in D cannot
be reached is the model's choice (R306 against R97: DESIGN CHOICE, log 15). -/
def Obligations.MovesAndConstants : Prop :=
  (∀ f : RArgs, f.ty.isPacked = false →
    GivesData (.sel f) f f.ty.width (·.acting f.h) fun s g t =>
      regBits f.ty (if (opnd s g f.h .n8 8 f.cs t).testBit 0 then BitVec.ofNat _ (opnd s g f.h f.ty f.ty.width f.a t)
        else BitVec.ofNat _ (opnd s g f.h f.ty f.ty.width f.b t))) ∧
  (∀ f : RArgs, f.ty.isPacked = true →
    GivesDataOn (.sel f) f f.ty.width (·.actingPacked f.h) (eachOn f) fun s g t =>
      let pick (k : Nat) : Nat := if (opnd s g f.h .n8 8 f.cs t).testBit (2 * k) then halfOf s g f f.a t k else halfOf s g f f.b t k
      packWord false g f t (pick 0) (pick 1)) ∧
  (∀ f : RArgs, (∀ r, f.a ≠ .f r) →
    GivesData (.mov f) f f.ty.width (·.acting f.h) fun s g t =>
      regBits f.ty (BitVec.ofNat _ (opnd s g f.h f.ty f.ty.width f.a t))) ∧
  (∀ (f : RArgs) (a : BitVec 3) (s : State) (g : Tg), s.Issues g → f.a = .f a →
    (∀ d : BitVec 6, f.d = .v d → ∃ v, WroteV64 g v d.toNat (g.acting f.h) (fun t => (g.fAt a.toNat t).h) ∧
      Becomes (.mov f) s ({ g with v := v }.advance (RArgs.words f))) ∧
    (∀ d : BitVec 3, f.d = .f d →
      (a = d → Becomes (.mov f) s (g.advance (RArgs.words f))) ∧
      (a ≠ d →
        let s1 := (g.acting f.h).threads.foldl (fun s' t =>
          (s'.putF s.cur d.toNat t (g.fAt a.toNat t)).modTg s.cur fun g' => g'.setF a.toNat t fNull) s
        Completes (.mov f) s s1 ((s1.curTg g).advance (RArgs.words f))))) ∧
  (∀ f : RArgs, f.a = .limm →
    GivesData (.movHi f) f 64 (·.acting f.h) fun _ g t =>
      Hdr.imm f.h ++ match f.d with
        | .v n => g.vAt n.toNat t
        | .s n => (g.sAt n.toNat).extractLsb' 0 32
        | _ => 0) ∧
  (∀ f : IArgs, (iTy f).isInt = true →
    GivesDataI (.movi f) f (iTy f).width fun _ _ _ => regInt (iTy f) (if (iTy f).isSInt then f.c.toInt else f.c.toNat)) ∧
  (∀ f : IArgs, (iTy f).isInt = true →
    GivesDataI (.movhi f) f (iTy f).width fun _ g t =>
      let old : W64 := match f.d with
        | .v n => if (iTy f).width = 64 then g.v64 n.toNat t else (g.vAt n.toNat t).setWidth 64
        | .s n => g.sAt n.toNat
        | _ => 0
      regBits (iTy f) ((old.extractLsb' 32 32 ++ f.c ++ old.extractLsb' 0 12).setWidth _)) ∧
  (∀ f : RArgs, f.ty.isInt = true →
    GivesData (.lea f) f 64 (·.acting f.h) fun s g t =>
      BitVec.ofInt 64 (opnd s g f.h .n64 64 f.a t + intOf s g f.h f.ty f.b t * (2 ^ f.x.toNat : Nat)))

/-! ### Lane and transfer instructions -/

/-- R111: a vote over the acting threads, whose set with the bit is `z`. -/
def Obligations.VoteReducesOverTheGroup : Prop :=
  ∀ (f : RArgs) (a : BitVec 3) (s : State) (g : Tg) (z : Mask), s.Issues g → f.a = .p a →
    (∀ t, t < 96 → z.has t = ((g.acting f.h).has t && (g.pAt a.toNat t).getLsbD 0)) →
    let act := g.acting f.h
    let all : Prop := ∀ t, t < 96 → act.has t = true → z.has t = true
    let some' : Prop := ∃ t, t < 96 ∧ z.has t = true
    (∀ d : BitVec 3, f.d = .p d → ∀ r : Bool,
      (f.x = 0 → (r = true ↔ all)) → (f.x = 1 → (r = true ↔ some')) → (f.x = 2 → (r = true ↔ ¬some' ∨ all)) → f.x.toNat < 3 →
      ∃ p, WroteP g p d.toNat (fun t => if act.has t then some (allBits r) else none) ∧
        Becomes (.vote f) s ({ g with p := p }.advance (RArgs.words f))) ∧
    (∀ d : BitVec 6, f.d = .v d →
      (f.x = 3 → ∃ v, WroteV g v d.toNat act (fun t => z.extractLsb' (32 * (t / 32)) 32) ∧
        Becomes (.vote f) s ({ g with v := v }.advance (RArgs.words f))) ∧
      (f.x = 4 → ∃ v, WroteV g v d.toNat act (fun _ => BitVec.ofNat 32 ((List.range 96).countP z.has)) ∧
        Becomes (.vote f) s ({ g with v := v }.advance (RArgs.words f))) ∧
      (f.x = 5 → ∃ v, WroteV g v d.toNat act (fun _ => BitVec.ofNat 32 ((List.range 96).find? z.has |>.getD 96)) ∧
        Becomes (.vote f) s ({ g with v := v }.advance (RArgs.words f))))

/-- R112: every acting thread takes the value of its source thread where that is active, else its own; all reads
precede all writes. That B is a 32-bit index for every type is a DESIGN CHOICE, log 47. -/
def Obligations.ShfMovesBetweenThreads : Prop :=
  ∀ (f : RArgs) (d : BitVec 6) (s : State) (g : Tg), s.Issues g → f.d = .v d → f.x.toNat < 4 →
    let b (t : Nat) : Nat := opnd s g f.h .n32 32 f.b t
    let src (t : Nat) : Int :=
      if f.x = 0 then b t else if f.x = 1 then (t : Int) - b t else if f.x = 2 then (t : Int) + b t else (t ^^^ b t : Nat)
    let from' (t : Nat) : Nat := if 0 ≤ src t ∧ src t ≤ 95 ∧ g.mask.has (src t).toNat = true then (src t).toNat else t
    ∃ v, WroteVec f.ty.width g v d.toNat (g.acting f.h)
        (fun t => BitVec.ofNat 64 (opnd s g f.h f.ty f.ty.width f.a (from' t))) ∧
      Becomes (.shf f) s ({ g with v := v }.advance (RArgs.words f))

/-- R113, R114: a byte operation on predicates, bit by bit under the guard bits; predicate bits to a register, a register's low bits to a
predicate, and one bit spread to all four. -/
def Obligations.PredicatesCombineAndMove : Prop :=
  (∀ (f : RArgs) (d a b : BitVec 3) (s : State) (g : Tg), s.Issues g → f.d = .p d → f.a = .p a → f.b = .p b → f.x.toNat < 8 →
    let fn (x y : BitVec 4) : BitVec 4 :=
      [x &&& y, x ||| y, x ^^^ y, x &&& ~~~y, x ||| ~~~y, ~~~(x &&& y), ~~~(x ||| y), ~~~(x ^^^ y)].getD f.x.toNat 0
    ∃ p, WroteP g p d.toNat (fun t => if g.mask.has t then
        some (condBits (g.pAt d.toNat t) (fn (g.pAt a.toNat t) (g.pAt b.toNat t)) (g.guardBits f.h.g f.h.n t)) else none) ∧
      Becomes (.prd f) s ({ g with p := p }.advance (RArgs.words f))) ∧
  (∀ (f : RArgs) (s : State) (g : Tg), s.Issues g →
    (∀ (d : BitVec 6) (a : BitVec 3), f.x = 0 → f.d = .v d → f.a = .p a →
      ∃ v, WroteV g v d.toNat (g.acting f.h) (fun t => (g.pAt a.toNat t).setWidth 32) ∧
        Becomes (.prmov f) s ({ g with v := v }.advance (RArgs.words f))) ∧
    (∀ d : BitVec 3, f.x = 1 → f.d = .p d →
      ∃ p, WroteP g p d.toNat (fun t => if (g.acting f.h).has t then some (BitVec.ofNat 4 (opnd s g f.h .n32 32 f.a t)) else none) ∧
        Becomes (.prmov f) s ({ g with p := p }.advance (RArgs.words f))) ∧
    (∀ d a : BitVec 3, f.x = 2 → f.d = .p d → f.a = .p a →
      ∃ p, WroteP g p d.toNat (fun t => if (g.acting f.h).has t then
          some (allBits ((g.pAt a.toNat t).getLsbD (opnd s g f.h .n32 32 f.b t % 4))) else none) ∧
        Becomes (.prmov f) s ({ g with p := p }.advance (RArgs.words f))))

/-- R115, R116: a scalar to every acting thread, and one thread's value to a scalar; v2s takes the lowest active thread where
its index names none. -/
def Obligations.TransfersBetweenScalarAndVector : Prop :=
  ∀ (f : RArgs) (s : State) (g : Tg), s.Issues g →
    (∀ d : BitVec 6, f.d = .v d →
      ∃ v, WroteVec f.ty.width g v d.toNat (g.acting f.h) (fun t => BitVec.ofNat 64 (opnd s g f.h f.ty f.ty.width f.a t)) ∧
        Becomes (.s2v f) s ({ g with v := v }.advance (RArgs.words f))) ∧
    (∀ (d : BitVec 6) (low : Nat), f.d = .s d → g.once f.h = some low →
      let b := opnd s g f.h .n32 32 f.b low
      let j := if b < 96 ∧ g.mask.has b = true then b else low
      Completes (.v2s f) s s ((g.setS d.toNat (regBits f.ty (BitVec.ofNat _ (opnd s g f.h f.ty f.ty.width f.a j)))).advance
        (RArgs.words f))) ∧
    (g.once f.h = none → Becomes (.v2s f) s (g.advance (RArgs.words f)))

/-! ### Floating instructions -/

/-- R122, R125, R126, R132: the exact value of the operation, rounded once to the type. -/
def Obligations.FloatArithmeticRoundsOnce : Prop :=
  ∀ f : RArgs,
    let a (s : State) (g : Tg) (t : Nat) : Exact := fltOf s g f.h f.ty f.a t
    let b (s : State) (g : Tg) (t : Nat) : Exact := fltOf s g f.h f.ty f.b t
    let c (s : State) (g : Tg) (t : Nat) : Exact := fltOf s g f.h f.ty f.cs t
    let gives (i : Instr) (x : State → Tg → Nat → Rnd → Exact) : Prop :=
      GivesData i f f.ty.width (·.acting f.h) fun s g t =>
        BitVec.ofNat 64 (rounded s g f (Ty.fmt f.ty) (x s g t) (elemOf f t))
    gives (.fadd f) (fun s g t m => Exact.sum m [a s g t, b s g t]) ∧
    gives (.fsub f) (fun s g t m => Exact.sum m [a s g t, (b s g t).neg]) ∧
    gives (.fmul f) (fun s g t _ => (a s g t).mul (b s g t)) ∧
    gives (.fma f) (fun s g t m => Exact.sum m [(a s g t).mul (b s g t), c s g t]) ∧
    gives (.rcp f) (fun s g t _ => (Exact.ofInt 1).div (a s g t)) ∧
    gives (.sqrt f) (fun s g t _ => (a s g t).sqrt) ∧
    gives (.fscale f) (fun s g t _ => (a s g t).scale (BitVec.ofNat 32 (opnd s g f.h .i32 32 f.b t)).toInt) ∧
    GivesData (.frnd f) f f.ty.width (·.acting f.h) fun s g t =>
      let m := rndAt s g f.rm (elemOf f t)
      BitVec.ofNat 64 ((Ty.fmt f.ty).round (match a s g t with
        | .fin neg n d => Exact.ofFrac (roundInt (.fin neg n d) m) 1 neg
        | x => x) .rne false)

/-- R123, R135: fmin and fmax return an operand bit for bit, or the canonical NaN. -/
def Obligations.MinAndMaxReturnAnOperand : Prop :=
  ∀ f : RArgs,
    let isNan (ty : Ty) (x : Nat) : Bool := (fltVal ty x).isNan
    let below (ty : Ty) (x y : Nat) : Bool := ltSigned (fltVal ty x) (fltVal ty y)
    let sel (isMax : Bool) (a b : Nat) : Nat :=
      let nan := (Ty.fmt f.ty).nan
      if isNan f.ty a ∧ isNan f.ty b then nan
      else if isNan f.ty a then (if f.x.getLsbD 0 then nan else b)
      else if isNan f.ty b then (if f.x.getLsbD 0 then nan else a)
      else if isMax then (if below f.ty a b then b else a)
      else if below f.ty b a then b else a
    let bits (isMax : Bool) (s : State) (g : Tg) (t : Nat) : W64 := BitVec.ofNat 64
      (sel isMax (opnd s g f.h f.ty f.ty.width f.a t) (opnd s g f.h f.ty f.ty.width f.b t))
    let pair (isMax : Bool) (s : State) (g : Tg) (t : Nat) : W64 :=
      packWord f.h.u g f t (sel isMax (halfOf s g f f.a t 0) (halfOf s g f f.b t 0)) (sel isMax (halfOf s g f f.a t 1) (halfOf s g f f.b t 1))
    GivesData (.fmin f) f f.ty.width (·.acting f.h) (bits false) ∧
    GivesData (.fmax f) f f.ty.width (·.acting f.h) (bits true) ∧
    (f.ty.isPacked = true → GivesData (.hmin2 f) f 32 (·.actingPacked f.h) (pair false)) ∧
    (f.ty.isPacked = true → GivesData (.hmax2 f) f 32 (·.actingPacked f.h) (pair true))

/-- R135, R137: each element of a packed operation is rounded separately with its own element index and written under its own
guard bit; dot2 rounds the exact sum of two products and an FP32 addend once. -/
def Obligations.PackedArithmetic : Prop :=
  ∀ f : RArgs, f.ty.isPacked = true →
    let gives (i : Instr) (x : State → Tg → Nat → Nat → Rnd → Exact) : Prop :=
      GivesData i f 32 (·.actingPacked f.h) fun s g t =>
        packWord f.h.u g f t (rounded s g f (Ty.fmt f.ty) (x s g t 0) (2 * elemOf f t))
          (rounded s g f (Ty.fmt f.ty) (x s g t 1) (2 * elemOf f t + 1))
    gives (.hadd2 f) (fun s g t k m => Exact.sum m [halfFlt s g f f.a t k, halfFlt s g f f.b t k]) ∧
    gives (.hmul2 f) (fun s g t k _ => (halfFlt s g f f.a t k).mul (halfFlt s g f f.b t k)) ∧
    gives (.hfma2 f) (fun s g t k m =>
      Exact.sum m [(halfFlt s g f f.a t k).mul (halfFlt s g f f.b t k), halfFlt s g f f.cs t k]) ∧
    GivesData (.dot2 f) f 32 (·.acting f.h) fun s g t =>
      BitVec.ofNat 64 (rounded s g f fmtF32 (fun m => Exact.sum m
        [(halfFlt s g f f.a t 0).mul (halfFlt s g f f.b t 0), (halfFlt s g f f.a t 1).mul (halfFlt s g f f.b t 1),
          fltOf s g f.h .f32 f.cs t]) (elemOf f t))

/-- R127 to R131: the class word, the conversions by the widths of the two types, and the rounding to a narrower format kept in
FP32. R129: a conversion from 32 or 64 bits to a narrower type inserts its element and keeps the other bits of D, of each
acting thread or, in a uniform form, of the scalar register. That SRSEQ advances under rm = sr also where cvt only widens is a
DESIGN CHOICE, log 41. -/
def Obligations.ClassAndConversions : Prop :=
  (∀ f : RArgs, (∀ p, f.d ≠ .p p) →
    GivesData (.fclass f) f 32 (·.acting f.h) fun s g t =>
      BitVec.ofNat 64 (2 ^ classBit f.ty (opnd s g f.h f.ty f.ty.width f.a t))) ∧
  (∀ f : RArgs,
    let rm (s : State) (g : Tg) (t : Nat) : Rnd := rndAt s g f.rm (elemOf f t)
    let conv (s : State) (g : Tg) (t : Nat) (x : Nat) : Nat := cvtElem (srcTy f) f.ty (cvtSat f) (rm s g t) x
    let src (s : State) (g : Tg) (t : Nat) : Nat := opnd s g f.h (srcTy f) (srcTy f).width f.a t
    let gives (x : State → Tg → Nat → W64) : Prop := GivesData (.cvt f) f f.ty.width (·.acting f.h) x
    (f.ty.isPacked = true → srcTy f = .f32 → gives fun s g t =>
      let el (sp : Spec) (k : Nat) : BitVec 16 := BitVec.ofNat 16
        (cvtElem .f32 f.ty (cvtSat f) (rndAt s g f.rm (2 * elemOf f t + k)) (opnd s g f.h .f32 32 sp t))
      (el f.b 1 ++ el f.a 0).setWidth 64) ∧
    (f.ty.isPacked = false → 32 ≤ (srcTy f).width → 32 ≤ f.ty.width → gives fun s g t =>
      regBits f.ty (BitVec.ofNat _ (conv s g t (src s g t)))) ∧
    (f.ty.isPacked = false → (srcTy f).width ≤ 16 → (∃ n, f.a = .v n) ∨ (∃ n, f.a = .s n) → gives fun s g t =>
      regBits f.ty (BitVec.ofNat _ (conv s g t
        (opnd s g f.h .n32 32 f.a t / 2 ^ ((srcTy f).width * cvtK f) % 2 ^ (srcTy f).width))))) ∧
  (∀ f : RArgs,
    GivesData (.srnd f) f 32 (·.acting f.h) fun s g t =>
      (toF32 (fltVal f.ty ((Ty.fmt f.ty).round (fltOf s g f.h .f32 f.a t) (rndAt s g f.rm (elemOf f t))
        (effSat f.ty (cvtSat f))))).setWidth 64) ∧
  (∀ (f : RArgs) (d : BitVec 6) (s : State) (g : Tg) (t : Nat), s.Issues g → Long.isSweep f.h.long = false → f.h.u = false →
    f.d = .v d → f.ty.isPacked = false → 32 ≤ (srcTy f).width → f.ty.width ≤ 16 → f.ty.width * (cvtK f + 1) ≤ 32 → t < 96 →
    ∃ g', Becomes (.cvt f) s g' ∧
      (∀ p, p ≠ g.slotOf d.toNat → slotAt g'.v p t = slotAt g.v p t) ∧
      ∀ j, j < 32 → (g'.vAt d.toNat t).getLsbD j =
        if (g.acting f.h).has t = true ∧ f.ty.width * cvtK f ≤ j ∧ j < f.ty.width * (cvtK f + 1) then
          (cvtElem (srcTy f) f.ty (cvtSat f) (rndAt s g f.rm (elemOf f t)) (opnd s g f.h (srcTy f) (srcTy f).width f.a t)).testBit
            (j - f.ty.width * cvtK f)
        else (g.vAt d.toNat t).getLsbD j) ∧
  (∀ (f : RArgs) (d : BitVec 6) (s : State) (g : Tg), s.Issues g → Long.isSweep f.h.long = false → f.h.u = true →
    f.d = .s d → f.ty.isPacked = false → 32 ≤ (srcTy f).width → f.ty.width ≤ 16 → f.ty.width * (cvtK f + 1) ≤ 32 →
    (∀ t, g.once f.h = some t → ∃ x : W64, Completes (.cvt f) s s ((g.setS d.toNat x).past f.rm (RArgs.words f)) ∧
      ∀ j, j < 64 → x.getLsbD j = if f.ty.width * cvtK f ≤ j ∧ j < f.ty.width * (cvtK f + 1) then
          (cvtElem (srcTy f) f.ty (cvtSat f) (rndAt s g f.rm 0) (opnd s g f.h (srcTy f) (srcTy f).width f.a t)).testBit
            (j - f.ty.width * cvtK f)
        else (g.sAt d.toNat).getLsbD j) ∧
    (g.once f.h = none → Becomes (.cvt f) s (g.past f.rm (RArgs.words f))))

/-- R133, R134: a special function of the operand's bits alone, with the listed results for zeros, infinities and NaN. -/
def Obligations.SpecialFunctions : Prop :=
  (∀ f : RArgs,
    let gives (i : Instr) (fn : Nat) : Prop := GivesData i f f.ty.width (·.acting f.h) fun s g t =>
      BitVec.ofNat 64 (specialAt fn f.ty (opnd s g f.h f.ty f.ty.width f.a t))
    gives (.rsq f) 0 ∧ gives (.ex2 f) 1 ∧ gives (.lg2 f) 2 ∧ gives (.sin f) 3 ∧ gives (.cos f) 4) ∧
  (∀ (fn : Nat) (ty : Ty), fn < 5 → ty = .f32 ∨ ty = .f16 ∨ ty = .bf16 →
    let enc (x : Exact) : Nat := (Ty.fmt ty).round x .rne false
    let pInf := enc (.inf false)
    let nInf := enc (.inf true)
    let one := enc (.ofInt 1)
    let pZero := enc (.zero false)
    let nZero := enc (.zero true)
    let nan := (Ty.fmt ty).nan
    (∀ x, (fltVal ty x).isNan = true → specialAt fn ty x = nan) ∧
    specialAt fn ty pZero = [pInf, one, nInf, pZero, one].getD fn 0 ∧
    specialAt fn ty nZero = [nInf, one, nInf, nZero, one].getD fn 0 ∧
    specialAt fn ty pInf = [pZero, pInf, pInf, nan, nan].getD fn 0 ∧
    specialAt fn ty nInf = [nan, pZero, nan, nan, nan].getD fn 0)

/-! ### Memory -/

/-- R151, R157, R158: a global load whose acting threads may all read completes with the loaded words in its
destination registers, and every other register kept; of 16 bytes one half, freely chosen, is read then and the other is left for
before the TG's next instruction, unless the policy is last. One that acts on no thread has no effect. That it is performed at issue,
after what its order asks for, and when its halves are, is DEDUCED, log 7. -/
def Obligations.GlobalLoads : Prop :=
  ∀ (f : RArgs) (s : State) (g : Tg), s.Issues g → 64 ≤ g.win.k →
    let z := accessSize f
    (∀ d : BitVec 6, f.d = .v d →
      let accs := (g.acting f.h).threads.map fun t => (t, glAddr g f z t)
      (∀ t, t < 96 → (g.acting f.h).has t = true → Readable s g (glAddr g f z t) z) → g.acting f.h ≠ 0 →
      let part := s.firstPart z
      (z ≠ 16 → part = (0, z)) ∧ (z = 16 → part = (0, 8) ∨ part = (8, 8)) ∧
      ∃ g', (∃ v, Loaded g v f part.2 (d.toNat + part.1 / 4) (fun t => loadedAt s g f z accs (glAddr g f z t) t) ∧
          g' = { (readFrom s g f z accs).curTg g with v := v, late := loadLate s g f z d.toNat accs }.advance (RArgs.words f)) ∧
        exec (.ldGl f) s = .next ((afterRead s g f z accs).setTg s.cur g') ∧
        exec (.ldg f) s = .next ((afterRead s g f z accs).setTg s.cur g')) ∧
    (g.acting f.h = 0 → Becomes (.ldGl f) s (g.advance (RArgs.words f)) ∧ Becomes (.ldg f) s (g.advance (RArgs.words f))) ∧
    (∀ (d : BitVec 6) (t : Nat), f.d = .s d → g.once f.h = some t → d.toNat < 61 → Readable s g (uAddr g f) z →
      let accs := [(t, uAddr g f)]
      let x := loadedAt s g f z accs (uAddr g f) t
      exec (.ldU f) s = .next ((afterRead s g f z accs).setTg s.cur
        ({ ((readFrom s g f z accs).curTg g).setS d.toNat (regBits f.ty (BitVec.ofNat _ x)) with
           late := loadLate s g f z 0 accs }.advance (RArgs.words f)))) ∧
    (g.once f.h = none → Becomes (.ldU f) s (g.advance (RArgs.words f)))

/-- R151, R157, R158: a global store whose acting threads may all write sends the low bytes of its data registers to memory in
increasing thread order, and changes no register. How a store waits in its TG, and how its order holds, is DEDUCED, log 7. -/
def Obligations.GlobalStores : Prop :=
  ∀ (f : RArgs) (s : State) (g : Tg), s.Issues g →
    let z := accessSize f
    let accs := (g.acting f.h).threads.map fun t => (t, glAddr g f z t)
    let next := g.advance (RArgs.words f)
    ((∀ t, t < 96 → (g.acting f.h).has t = true → Writable s g (glAddr g f z t) z) → g.acting f.h ≠ 0 →
      Stores (.stGl f) s g f z accs (dataBytes g (Spec.num f.cs) z) ∧ Stores (.stg f) s g f z accs (dataBytes g (Spec.num f.cs) z)) ∧
    (g.acting f.h = 0 → Becomes (.stGl f) s next ∧ Becomes (.stg f) s next) ∧
    (∀ t, g.once f.h = some t → Writable s g (uAddr g f) z →
      Stores (.stU f) s g f z [(t, uAddr g f)] fun _ => leBytes (g.sAt (Spec.num f.cs)).toNat z) ∧
    (g.once f.h = none → Becomes (.stU f) s next)

/-- R151, R155, R157: scratchpad loads and stores within the crew's allocation; a store outside the barrier arena changes the
bytes of its acting threads, the higher-numbered thread's where two overlap, and no other byte. Of 16 bytes one half is performed then
and the other before the TG's next instruction, as the late halves of global loads are (R157). Both obey the access's order, as log 7
holds it (DEDUCED). -/
def Obligations.ScratchpadLoadsAndStores : Prop :=
  LateHalves ∧
  ∀ (f : RArgs) (s : State) (g : Tg) (c : Crew), s.Issues g → s.crew g.crew = some c → 64 ≤ g.win.k →
    let z := accessSize f
    let act := g.acting f.h
    let off (t : Nat) : Nat := spAddr g f z t
    let part := s.firstPart z
    (z ≠ 16 → part = (0, z)) ∧ (z = 16 → part = (0, 8) ∨ part = (8, 8)) ∧
    (∀ d : BitVec 6, f.d = .v d → act ≠ 0 →
      (∀ t, t < 96 → act.has t = true → off t % z = 0 ∧ off t + z ≤ c.scratchSize) →
      let ord := effOrd g f.pfx
      let scp := effScp g f.pfx true
      let s1 := s.readOrder ord scp (act.threads.map fun t => (.arena g.crew (off t + part.1), part.2))
      let late : List Half := if z = 16 then act.threads.map fun t =>
        .take (.arena g.crew (off t + (8 - part.1))) (d.toNat + (8 - part.1) / 4) t ord scp else []
      ∃ v, Loaded g v f part.2 (d.toNat + part.1 / 4) (fun t => leNat (c.spBytes (off t + part.1) part.2)) ∧
        exec (.ldSp f) s = .next (s1.setTg s.cur ({ s1.curTg g with v := v, late := late }.advance (RArgs.words f)))) ∧
    (act ≠ 0 →
      (∀ t, t < 96 → act.has t = true → off t % z = 0 ∧ off t + z ≤ c.scratchSize - 16 * c.nbar) →
      let ord := effOrd g f.pfx
      let scp := effScp g f.pfx true
      let at' (t : Nat) : Nat := off t + part.1
      let data (t : Nat) : List Byte := dataBytes g (Spec.num f.cs) z t
      let places := act.threads.map fun t => (ObjRef.arena g.crew (at' t), part.2)
      let late : List Half := if z = 16 then act.threads.map fun t =>
        .put (off t + (8 - part.1)) (((data t).drop (8 - part.1)).take 8) ord scp else []
      ∃ m, (let s1 := (s.writeOrder ord scp places).modCrew g.crew fun c => { c with scratch := m };
          let s2 := (places.foldl State.overwrite s1).released ord scp places;
          exec (.stSp f) s = .next (s2.setTg s.cur ({ s2.curTg g with late := late }.advance (RArgs.words f)))) ∧
        (∀ o, (∀ t, t < 96 → act.has t = true → o < at' t ∨ at' t + part.2 ≤ o) →
          SMap.get memDefault m o = SMap.get memDefault c.scratch o) ∧
        (∀ t j, t < 96 → act.has t = true → j < part.2 →
          (∀ u, t < u → u < 96 → act.has u = true → at' t + j < at' u ∨ at' u + part.2 ≤ at' t + j) →
          SMap.get memDefault m (at' t + j) = (data t).getD (part.1 + j) 0)) ∧
    (act = 0 → Becomes (.ldSp f) s (g.advance (RArgs.words f)) ∧ Becomes (.stSp f) s (g.advance (RArgs.words f)))

/-- R151, R152: a plain load or store stops by the first step of R151 that one of its accesses fails, for the lowest-numbered thread
that fails it: ALIGN, then ADDR (in the scratchpad ADDR, or for a store ARENA), ADDR for a page that is not there, PROT for a store,
and the recoverable fault of a page that is not resident, on which the TG
parks (or takes PFAULT under FAULTMODE; which fault barrier is assigned is DEDUCED, log 14). Nothing of the instruction is performed. -/
def Obligations.MisalignedAccessesTrap : Prop :=
  ∀ (f : RArgs) (s : State) (g : Tg), s.Issues g →
    let z := accessSize f
    let act := (g.acting f.h).threads
    (∀ s', GlStops s g (act.map fun t => (t, glAddr g f z t)) z false s' →
      exec (.ldGl f) s = .next s' ∧ exec (.ldg f) s = .next s') ∧
    (∀ s', GlStops s g (act.map fun t => (t, glAddr g f z t)) z true s' →
      exec (.stGl f) s = .next s' ∧ exec (.stg f) s = .next s') ∧
    (∀ t s', g.once f.h = some t →
      (GlStops s g [(t, uAddr g f)] z false s' → exec (.ldU f) s = .next s') ∧
      (GlStops s g [(t, uAddr g f)] z true s' → exec (.stU f) s = .next s')) ∧
    (∀ c : Crew, s.crew g.crew = some c → ∀ s',
      (SpStops s c (act.map fun t => (t, spAddr g f z t)) z false s' → exec (.ldSp f) s = .next s') ∧
      (SpStops s c (act.map fun t => (t, spAddr g f z t)) z true s' → exec (.stSp f) s = .next s'))

/-- R160: prf changes no value; dsc and wbk on a range of 0 bytes, or under a false guard, have no effect; on a legal range they
follow the TG's own stores to it, use its resident pages (R149), and keep every register and the last write of every byte. dsc changes
what discarded bytes may read as only in the range; wbk leaves no older
value in the backing memory of the range. Each is ordered as a store to each byte, so after a release fence it is a release (R193). How a
discarded byte is held is DEDUCED, log 33, and how a release is, log 7; that they are performed at issue, dsc as a write and wbk as a read
of its pages, and that dsc checks a page that is not resident too, is a DESIGN CHOICE, log 52. -/
def Obligations.RangeOperationsKeepTheLastWrites : Prop :=
  ∀ (f : RArgs) (s : State) (g : Tg), s.Issues g →
    let next := g.advance (RArgs.words f)
    let n := (g.sAt (Spec.num f.cs)).toNat % 2 ^ 32
    let a := (uAddr g f).toNat
    let legal (dsc : Bool) : Prop := a + n ≤ 2 ^ 57 ∧ ∀ v ∈ rangeBlocks a n, ∃ e r, s.translate g.core g.ctx v = .leaf e r ∧
      (dsc = true → e.w = true ∧ e.b = false)
    let parts := residentParts s g a n
    let start (dsc : Bool) : State := (s.performTo s.cur parts).touchAll g.core g.ctx (residentBlocks s g a n) dsc
    let places : List (ObjRef × Nat) := parts.map fun r => (.glob r.1, r.2)
    let ends (i : Instr) (s2 : State) : Prop :=
      let e := s2.released 1 1 places
      exec i s = .next (e.setTg s.cur ((e.curTg g).advance (RArgs.words f)))
    Becomes (.prf f) s next ∧
    (g.once f.h = none ∨ n = 0 → Becomes (.dsc f) s next ∧ Becomes (.wbk f) s next) ∧
    (g.once f.h ≠ none → n ≠ 0 →
      (legal true → let s1 := start true; ∃ d, ends (.dsc f) { places.foldl State.overwrite s1 with disc := d } ∧
        ∀ l, (∀ r ∈ parts, l < r.1 ∨ r.1 + r.2 ≤ l) → SMap.find d l = SMap.find s1.disc l) ∧
      (legal false → let s1 := start false; ∃ o, ends (.wbk f) { s1 with older := o } ∧
        ∀ l, SMap.find o l = if (∃ r ∈ parts, r.1 ≤ l ∧ l < r.1 + r.2) then none else SMap.find s1.older l))

/-! ### Barriers, atomics and reductions -/

/-- R170, R175 to R181: the barrier instructions update the object that A names and complete; bar.wait parks where the phase is
still its operand (a wait at FQBAR marks the launch as the server of the fault queue: DEDUCED, log 34). What an arrival releases and
a wait acquires is held as log 7 says (DEDUCED). That bar.wait and bar.test use the object's page without marking it written is the
model's choice (DESIGN CHOICE, log 53). -/
def Obligations.BarrierInstructions : Prop :=
  (∀ x : Obj, x.settle =
    if x.expa ≤ x.arrived ∧ x.expb ≤ x.landed ∧ ¬(x.expa = 0 ∧ x.expb = 0) then
      { x with
        status := if x.expa < x.arrived ∨ x.expb < x.landed then x.status ||| 2 else x.status
        arrived := 0, landed := 0, expb := 0, phase := x.phase + 1 }
    else x) ∧
  (∀ (f : RArgs) (s : State) (g : Tg) (t : Nat) (o : ObjRef), s.Issues g → g.once f.h = some t → barTarget s g f t = .ok o →
    let b := opnd32 s g f.h f.b
    let w := barStart s g f true
    let r := barStart s g f false
    let scope := objScopeAt f o
    (s.parkedOn o = false → Completes (.barInit f) s ((w.setObj o
      { expa := BitVec.ofNat 16 b, arrived := 0, expb := 0, landed := 0, phase := (w.obj o).phase
        status := if (w.obj o).arrived ≠ 0 ∨ (w.obj o).expb ≠ 0 ∨ (w.obj o).landed ≠ 0 then 4 else 0 }).forgetPhase o (w.obj o).phase)
      (g.advance (RArgs.words f))) ∧
    (s.parkedOn o = true → exec (.barInit f) s = trapOnce s g .barbusy (barInfo s g f)) ∧
    (let e := w.flushShare s.cur;
      let u := (e.arrived o scope (e.obj o).phase).barUpdate o false fun x =>
        (if x.arrived = 0xFFFF then { x with status := x.status ||| 2 } else { x with arrived := x.arrived + 1 }).settle;
      Completes (.barArrive f) s u (((u.curTg g).setS (Spec.num f.d) ((e.obj o).phase.setWidth 64)).advance (RArgs.words f))) ∧
    Completes (.barExpect f) s (w.barUpdate o false fun x => x.expect b)
      (((w.barUpdate o false fun x => x.expect b).curTg g).advance (RArgs.words f)) ∧
    (let word := BitVec.ofNat 64 ((r.obj o).status.toNat % 8 * 2 ^ 16 + (r.obj o).phase.toNat);
      let moved := r.observed o scope (r.obj o).phase;
      ((r.obj o).phase = BitVec.ofNat 16 b →
        exec (.barWait f) s = .next ((r.serves o g.launch).setTg s.cur { g with wait := .obj o (r.obj o).phase })) ∧
      ((r.obj o).phase ≠ BitVec.ofNat 16 b → Completes (.barWait f) s moved
        ((if f.x.getLsbD 3 then (moved.curTg g).setS (Spec.num f.d) word else moved.curTg g).advance (RArgs.words f))) ∧
      (∀ d : BitVec 3, f.d = .p d →
        let same := decide ((r.obj o).phase = BitVec.ofNat 16 b)
        let e := if same then r else moved
        ∃ p, WroteP g p d.toNat (fun u => if g.mask.has u then some (allBits (!same)) else none) ∧
          Completes (.barTest f) s e (({ e.curTg g with p := p }.setS (Spec.num f.cs) word).advance (RArgs.words f)))) ∧
    (let u := (w.forgetPhase o (w.obj o).phase).barUpdate o true fun x =>
        { x with status := x.status ||| 4, arrived := 0, expb := 0, landed := 0, phase := x.phase + 1 };
      Completes (.barInval f) s u ((u.curTg g).advance (RArgs.words f)))) ∧
  (∀ (f : RArgs) (s : State) (g : Tg), s.Issues g → g.once f.h = none →
    ∀ i ∈ [Instr.barInit f, .barArrive f, .barExpect f, .barWait f, .barTest f, .barInval f],
      Becomes i s (g.advance (RArgs.words f)))

/-- R182, R183: the new value of an atomic: of integers, signed for i types; of floats by fadd under rne, fmin and fmax; of packed
types element by element, where the element's guard bit is true. That exch gives the operand's own bits also for a NaN that is not
canonical is the model's choice (DESIGN CHOICE, log 55). -/
def Obligations.AtomicNewValues : Prop :=
  (∀ ty ∈ [Ty.n32, .i32, .n64, .i64], ∀ old b c : BitVec ty.width,
    let new (x : Nat) : Nat := atomElem x ty old.toNat b.toNat c.toNat
    let less (x y : BitVec ty.width) : Bool := if ty.isSInt then x.slt y else x.ult y
    new 0 = (old + b).toNat ∧ new 1 = (if less b old then b else old).toNat ∧ new 2 = (if less old b then b else old).toNat ∧
    new 3 = (old &&& b).toNat ∧ new 4 = (old ||| b).toNat ∧ new 5 = (old ^^^ b).toNat ∧ new 6 = b.toNat ∧
    new 7 = (if old = b then c else old).toNat ∧ new 8 = (if b ≤ old then 0 else old + 1).toNat ∧
    new 9 = (if old = 0 ∨ b < old then b else old - 1).toNat) ∧
  (∀ ty ∈ [Ty.f32, .f16, .bf16], ∀ old b c : Nat,
    let new (x : Nat) : Nat := atomElem x ty old b c
    let nan (x : Nat) : Bool := (fltVal ty x).isNan
    let below (x y : Nat) : Bool := ltSigned (fltVal ty x) (fltVal ty y)
    let pick (other : Bool) : Nat := if nan old ∧ nan b then (Ty.fmt ty).nan else if nan old then b else if nan b then old
      else if other then b else old
    new 0 = (Ty.fmt ty).round (Exact.sum .rne [fltVal ty old, fltVal ty b]) .rne false ∧
    new 1 = pick (below b old) ∧ new 2 = pick (below old b) ∧ new 6 = b) ∧
  (∀ p ∈ [(Ty.f16x2, Ty.f16), (.bf16x2, .bf16)], ∀ (x old b c : Nat) (guard : BitVec 4),
    let el (k : Nat) : List (Nat × List Byte) :=
      if guard.getLsbD (2 * k) then [(2 * k, leBytes (atomElem x p.2 (half old k) (half b k) (half c k)) 2)] else []
    atomWrites x p.1 guard old b c = el 0 ++ el 1)

/-- R183, R184: atom and red serve their threads in increasing order, each in one step that reads the old value and writes the
new one (of a packed type the elements that act); atom returns the old
values, red writes no register. The access's order is held as log 7 says (DEDUCED). -/
def Obligations.AtomicsServeThreadsInOrder : Prop :=
  (∀ (g : Tg) (f : RArgs) (x : Nat) (r : AtomRun) (t loc : Nat),
    let z := f.ty.bytes
    let b (k : Nat) : Nat := atomData g f k t % 2 ^ (8 * z)
    (f.ty.isPacked = false →
      (let old := leNat (r.s.bytes loc z (16 * t));
        atomGl g f x z r (t, loc) =
          { s := r.s.setBytes loc (leBytes (atomElem x f.ty (old % 2 ^ (8 * z)) (b 0) (b 1)) z), old := r.old ++ [(t, old)] }) ∧
      (let old := leNat ((r.s.crewOf g).spBytes loc z);
        atomSpad g f x z r (t, loc) =
          { s := r.s.modCrew g.crew fun c => c.setSp loc (leBytes (atomElem x f.ty (old % 2 ^ (8 * z)) (b 0) (b 1)) z)
            old := r.old ++ [(t, old)] })) ∧
    (f.ty.isPacked = true →
      let ws (old : Nat) : List (Nat × List Byte) :=
        atomWrites x f.ty (g.guardBits f.h.g f.h.n t) old (atomData g f 0 t) (atomData g f 1 t)
      (let old := leNat (r.s.bytes loc z (16 * t));
        atomGl g f x z r (t, loc) =
          { s := (ws old).foldl (fun s w => s.setBytes (loc + w.1) w.2) r.s, old := r.old ++ [(t, old)] }) ∧
      (let old := leNat ((r.s.crewOf g).spBytes loc z);
        atomSpad g f x z r (t, loc) =
          { s := r.s.modCrew g.crew fun c => (ws old).foldl (fun c w => c.setSp (loc + w.1) w.2) c
            old := r.old ++ [(t, old)] }))) ∧
  (∀ (f : RArgs) (s : State) (g : Tg), s.Issues g → atomIllegal g f = false →
    let act := atomActing g f
    let z := f.ty.bytes
    (act = 0 → Becomes (.atom f) s (g.advance (RArgs.words f)) ∧ Becomes (.red f) s (g.advance (RArgs.words f))) ∧
    (act ≠ 0 → atomSp g f = false → (∀ t, t < 96 → act.has t = true → Updatable s g (glAddr g f z t) z) →
      let r (ret : Bool) : AtomRun := (atomLocs s g f act).foldl (atomGl g f f.x.toNat z) { s := atomStart s g f ret, old := [] }
      let e (ret : Bool) : State := atomEnd (r ret) s g f
      Completes (.atom f) s (e true) ((putOld ((e true).curTg g) f (r true).old).advance (RArgs.words f)) ∧
      Completes (.red f) s (e false) (((e false).curTg g).advance (RArgs.words f))) ∧
    (act ≠ 0 → atomSp g f = true →
      (∀ t, t < 96 → act.has t = true → spAddr g f z t % z = 0 ∧
        spAddr g f z t + z ≤ (s.crewOf g).scratchSize - 16 * (s.crewOf g).nbar) →
      let ord := effOrd g f.pfx
      let scp := effScp g f.pfx true
      let places := act.threads.map fun t => (ObjRef.arena g.crew (spAddr g f z t), z)
      let r (ret : Bool) : AtomRun := (act.threads.map fun t => (t, spAddr g f z t)).foldl (atomSpad g f f.x.toNat z)
        { s := if ret then s.readOrder ord scp places else s.redOrder ord scp places, old := [] }
      let e (ret : Bool) : State := (r ret).s.released ord scp places
      Completes (.atom f) s (e true) ((putOld ((e true).curTg g) f (r true).old).advance (RArgs.words f)) ∧
      Completes (.red f) s (e false) (((e false).curTg g).advance (RArgs.words f)))) ∧
  (∀ (f : RArgs) (s : State) (g : Tg), s.Issues g → atomIllegal g f = true →
    exec (.atom f) s = illop s g (.atom f) ∧ exec (.red f) s = illop s g (.red f))

/-- R185, R186, R188, R190: red.det adds to the TG's share without a change of memory where the determinism mode is on, after one flush of
the whole share where an entry clashes or too few are free for the new ones, and acts as red.add in order rlx where it is off (that an
entry's address is its location at issue is a DESIGN CHOICE, log 59); aflush empties the share, and its contributions carry a dev-scope
release of the TG's earlier stores, which is held as log 7 says (DEDUCED). -/
def Obligations.DeterministicReduction : Prop :=
  (∀ (f : RArgs) (s : State) (g : Tg), s.Issues g →
    let act := g.acting f.h
    let z := f.ty.bytes
    let locs := atomLocs s g f act
    let s1 := s.touchAll g.core g.ctx (act.threads.map fun t => (glAddr g f z t).toNat) true
    (act = 0 → Becomes (.redDet f) s (g.advance (RArgs.words f))) ∧
    (act ≠ 0 → (∀ t, t < 96 → act.has t = true → Updatable s g (glAddr g f z t) z) →
      (s.detMode g.launch = true →
        let new := locs.filter fun p => !g.share.any fun e => e.loc == p.2 && e.thread == p.1
        let clash : Prop := ∃ e ∈ g.share, ∃ p ∈ locs, ShareEntry.clash e p.2 f.ty = true
        let added (share : List ShareEntry) : List ShareEntry := locs.foldl (fun sh p =>
          shareAdd f.ty sh p.1 (glAddr g f z p.1) p.2 (BitVec.ofNat 64 (atomData g f 0 p.1))) share
        (¬clash → g.share.length + new.length ≤ 256 →
          Completes (.redDet f) s s1 ({ g with share := added g.share }.advance (RArgs.words f))) ∧
        (clash ∨ 256 < g.share.length + new.length →
          let s2 := s1.flushShare s.cur
          (s2.curTg g).share = [] ∧
          Completes (.redDet f) s s2 ({ s2.curTg g with share := added [] }.advance (RArgs.words f)))) ∧
      (s.detMode g.launch = false →
        let places := locs.map fun p => (ObjRef.glob p.2, z)
        let scp := effScp g f.pfx false
        let s0 := ((s.redOrder 1 scp places).performTo s.cur (locs.map fun p => (p.2, z))).touchAll g.core g.ctx
          (act.threads.map fun t => (glAddr g f z t).toNat) true
        let e := (locs.foldl (atomGl g f 0 z) { s := s0, old := [] }).s.released 1 scp places
        Completes (.redDet f) s e ((e.curTg g).advance (RArgs.words f))))) ∧
  (∀ (f : RArgs) (s : State) (g : Tg), s.Issues g →
    (g.once f.h = none → Becomes (.aflush f) s (g.advance (RArgs.words f))) ∧
    (g.once f.h ≠ none →
      let s1 := (s.releaseAs s.cur 4).flushShareAs s.cur (some s.stamp)
      Completes (.aflush f) s s1 ((s1.curTg g).advance (RArgs.words f)) ∧
      (∃ cs, s1.contribs = s.contribs ++ cs ∧ ∀ c ∈ cs, c.rel = some s.stamp) ∧
      ∃ st lost, s1.tg s.cur = some { g with stores := st, share := [], flushSeq := g.flushSeq + 1, faultInval := lost } ∧
        (g.linkLost = false → lost = g.faultInval) ∧
        st.map (fun q => (q.loc, q.data)) = g.stores.map (fun q => (q.loc, q.data)) ∧
        ((∀ p ∈ g.fences, p.2 ≤ 5) → ∀ q ∈ st, markedBy s.stamp q = true)))

/-- R191 to R193: the four steps of a block reduction on a legal descriptor, and fence. A NaN or an infinity under a code that is not
0xFF adds a free value, a sum is kept modulo 2^64 in its word (DESIGN CHOICE, log 42), and bred.code and bred.add with no acting thread
make no arrival (DESIGN CHOICE, log 54). A release fence makes each later write of the TG a release, at the fence's scope, of what precedes
the fence, and an acquire fence has what precedes the releases that the TG has read performed (R198, as log 7
holds them). -/
def Obligations.BlockReductionAndFence : Prop :=
  (∀ (f : RArgs) (s : State) (g : Tg) (t0 : Nat) (b : Bred), s.Issues g →
    let next (s' : State) : Tg := (s'.curTg g).advance (RArgs.words f)
    let act := (g.acting f.h).threads
    let words (s1 : State) (ws : List Nat) : List (ObjRef × Nat) := ws.map fun t => (.glob (b.wordLoc s1 g t), 8)
    let arrived (s2 : State) (ws : List (ObjRef × Nat)) (i : Instr) : Prop :=
      let s' := s2.released 1 4 ws
      let phase := (s'.obj (.glob b.loc)).phase
      let scope := accScope (if f.x.getLsbD 2 then 5 else 4) (.glob b.loc, 16)
      let u := (s'.arrived (.glob b.loc) scope phase).barUpdate (.glob b.loc) false Obj.arrive
      Completes i s u (((u.curTg g).setS (Spec.num f.d) (phase.setWidth 64)).advance (RArgs.words f))
    (g.once f.h = some t0 → BredReady s g f t0 (List.range 97) .rmw b →
      let s1 := bredStart s g f (List.range 97) [] .rmw b
      let places := words s1 (List.range 97)
      let s2 := (places.foldl State.overwrite ((List.range 97).foldl (fun s t => s.write (b.wordLoc s1 g t) 8 0) s1)).released 1 4 places
      Completes (.bredClr f) s s2 (next s2)) ∧
    (act.head? = some t0 → BredReady s g f t0 [96] .rmw b →
      let s1 := bredStart s g f [96] [] .rmw b
      let loc := b.wordLoc s1 g 96
      let code (j : Nat) : Nat := max (leNat (s1.bytes loc 8 0) / 2 ^ (8 * j) % 256)
        (bredCodeOf ((act.filter fun t => t / 32 == j).map fun t => f32 (g.vAt (Spec.num f.b) t)))
      arrived ((List.range 3).foldl (fun s j => s.setByte (loc + j) (BitVec.ofNat 8 (code j))) s1) (words s1 [96]) (.bredCode f)) ∧
    (act.head? = some t0 → BredReady s g f t0 (act ++ [96]) .rmw b →
      let s1 := bredStart s g f (act ++ [96]) [96] .rmw b
      let code (t : Nat) : Nat := leNat (s1.bytes (b.wordLoc s1 g 96) 8 0) / 2 ^ (8 * (t / 32)) % 256
      arrived (act.foldl (fun s' t =>
        let loc := b.wordLoc s1 g t
        let x := f32 (g.vAt (Spec.num f.b) t)
        s'.write loc 8 (wrapInt (leNat (s'.bytes loc 8 (8 * t)) +
          (if code t = 255 then 0 else if x.isFinite then bredInt x (code t) else bredTerm s' t x (code t))) 64)) s1)
        (words s1 act) (.bredAdd f)) ∧
    (∀ d : BitVec 6, f.d = .v d → act.head? = some t0 → BredReady s g f t0 (act ++ [96]) .load b →
      let s1 := bredStart s g f (act ++ [96]) (act ++ [96]) .load b
      let code (t : Nat) : Nat := leNat (s1.bytes (b.wordLoc s1 g 96) 8 0) / 2 ^ (8 * (t / 32)) % 256
      ∃ v, WroteV g v d.toNat (g.acting f.h)
          (fun t => bredResult (BitVec.ofNat 64 (leNat (s1.bytes (b.wordLoc s1 g t) 8 (8 * t)))).toInt (code t)) ∧
        Completes (.bredGet f) s s1 ({ s1.curTg g with v := v }.advance (RArgs.words f))) ∧
    (g.acting f.h = 0 → ∀ i ∈ [Instr.bredCode f, .bredAdd f, .bredGet f], Becomes i s (g.advance (RArgs.words f))) ∧
    (g.once f.h = none → Becomes (.bredClr f) s (g.advance (RArgs.words f)))) ∧
  (∀ (f : RArgs) (s : State) (g : Tg), s.Issues g →
    (g.once f.h = none → Becomes (.fence f) s (g.advance (RArgs.words f))) ∧
    (g.once f.h ≠ none →
      let s1 := s.fence f.x.toNat (fenceScope f)
      Completes (.fence f) s s1 ((s1.curTg g).advance (RArgs.words f))) ∧
    (g.once f.h ≠ none → f.x = 3 → (g.stores ≠ [] ∨ g.reads ≠ []) →
      exec (.fence f) s = .next ({ s with stamp := s.stamp + 1 }.setTg s.cur
        ({ g with fences := (s.stamp + 1, fenceScope f) :: g.fences }.advance (RArgs.words f))))) ∧
  (∀ (f : RArgs) (s : State) (g : Tg), s.Issues g → f.x = 3 → g.stores = [] → g.reads = [] →
    Becomes (.fence f) s (g.advance (RArgs.words f))) ∧
  (∀ (g : Tg) (x pos at' scope : Nat), x < at' → at' ≤ pos → (at', scope) ∈ g.fences → scope ≤ g.relScope x pos 0) ∧
  (∀ (s : State) (g : Tg) (scope : Nat), s.Issues g →
    let read := s.releases.filter fun r => r.tg ≠ s.cur ∧ r.id ∈ g.seen ∧ s.inclusive r.tg r.scope (.tg s.cur) scope = true
    s.fence 2 scope = s.obey (read.map (·.id)))

/-- R161 to R163: qpush and qpop on a valid queue serve their threads in increasing order in one step; a push fails where the queue
is full, a pop where it is empty. The descriptor's page and those of the records are used (R149), and the
access's order is obeyed, as log 7 holds it (DEDUCED): a push may release with TAIL and its records, a pop is no release (R198). -/
def Obligations.QueuesServeThreadsInOrder : Prop :=
  (∀ (g : Tg) (z t : Nat) (data : Nat → List Byte) (r : QRun),
    let loc (i : W64) : Nat := r.s.locOf g.core g.ctx (r.q.base.toNat + i.toNat % r.q.cap * r.q.size)
    let held := (r.q.tail - r.q.head).toNat
    qServe g true z data r t = (if held < r.q.cap then
      { r with s := r.s.store (loc r.q.tail) (data t), q := { r.q with tail := r.q.tail + 1 }, ok := r.ok ++ [(t, 0)] }
      else { r with fail := r.fail ++ [t] }) ∧
    qServe g false z data r t = (if 0 < held then
      { r with q := { r.q with head := r.q.head + 1 }, ok := r.ok ++ [(t, leNat (r.s.bytes (loc r.q.head) z (16 * t)))] }
      else { r with fail := r.fail ++ [t] })) ∧
  (∀ (f : RArgs) (s : State) (g : Tg) (push : Bool), s.Issues g →
    let i : Instr := if push then .qpush f else .qpop f
    let z := accessSize f
    let a := uAddr g f
    let act := (g.acting f.h).threads
    let loc := s.locOf g.core g.ctx a.toNat
    let q := QDesc.ofBytes (tgBytes g s loc 32 0)
    (act = [] → Becomes i s (g.advance (RArgs.words f))) ∧
    (act ≠ [] → Updatable s g a 32 → QDesc.valid s g q z = true →
      let ord := effOrd g f.pfx
      let scp := effScp g f.pfx false
      let s1 := (if push then s.redOrder ord scp [(.glob loc, 32)]
        else s.readOrder ord scp (recordPlaces s g q q.head z (min act.length q.held))).performTo s.cur ((loc, 32) :: q.parts s g)
      let r := act.foldl (qServe g push z (dataBytes g (Spec.num f.cs) z)) { s := s1, q := q, ok := [], fail := [] }
      let s2 := (r.s.setBytes (loc + 16) (leBytes r.q.head.toNat 8 ++ leBytes r.q.tail.toNat 8)).touchAll g.core g.ctx [a.toNat] true
      let s2' := s2.touchAll g.core g.ctx (ringPages q r.q push) push
      let s3 := if push then s2'.released ord scp ((.glob (loc + 24), 8) :: recordPlaces s g q q.tail z r.ok.length)
        else s2'.wrotePlain [(.glob (loc + 16), 8)]
      let g1 := if push then s3.curTg g else putWords (s3.curTg g) (Spec.num f.d) f.ty z r.ok
      Completes i s s3 ((g1.setP (Spec.num (if push then f.d else f.cs)) fun t =>
        if SMap.has r.ok t then some (15, 15) else if r.fail.contains t then some (0, 15) else none).advance (RArgs.words f))) ∧
    (∀ t0 l, act = t0 :: l → Updatable s g a 32 → QDesc.valid s g q z = false → Traps i s .addr a t0))

/-! ### Copies and staging -/

/-- R219, R222 to R224, R229 to R235, R247: a copy whose checks pass claims its staging slots, adds its declared bytes to its object,
goes to the engine and completes, with the page of a global object used (R149); of cpy.topk only the scree
of the positions that are not selected is checked (DEDUCED, log 13); unsub and cancel end
what they name; a false guard has no effect. That SRSEQ advances on RM = sr alone is a DESIGN CHOICE, log 41. -/
def Obligations.CopiesAreHandedToTheEngine : Prop :=
  ∀ (f : RArgs) (s : State) (g : Tg), s.Issues g →
    let nt := touchDesc s g f
    (g.once f.h = none →
      ∀ i ∈ [Instr.cpy f, .cpyDesc f, .cpyFill f, .cpyTopk f, .cpyExpand f, .cpySub f, .cpyUnsub f, .cpyCancel f],
        Becomes i s (g.advance (RArgs.words f))) ∧
    (∀ t o, g.once f.h = some t →
      (∀ src dst qs qd, copyOperand g f.a (f.x.toNat / 4) = some src → copyOperand g f.d (f.x.toNat % 4) = some dst →
        let x := oneD src dst (f.x.toNat / 4) (f.x.toNat % 4) (opnd32 s g f.h f.b) f.ty
        opnd32 s g f.h f.b * f.ty.bytes ≤ 2 ^ 31 → TileReady s g f t x o qs qd → TileIssued (.cpy f) s s g f x o qs qd) ∧
      (∀ bs x qs qd, readDesc s g f 64 t = .ok bs → parseTile bs g.mode.srseq (seedOf s g) = some x →
        TileReady nt g f t x o qs qd → TileIssued (.cpyDesc f) s nt g f x o qs qd) ∧
      (∀ dst q,
        let sp := f.x.toNat % 4
        let n := opnd32 s g f.h f.b
        let bytes := n * f.ty.bytes
        let work (c : Nat) : CopyWork :=
          .fill dst sp n f.ty.bytes (BitVec.ofNat 64 (opnd s g f.h (nTy f.ty.width) f.ty.width f.a t)) c q
        copyOperand g f.d sp = some dst → bytes ≤ 2 ^ 31 → copyObj s g f t = .ok o →
        checkStage s g sp dst f.ty bytes true t = .ok q → checkAccs s g (work 0).accs0 t = none →
        let c := if sp = 2 then claimSlots s g dst.toNat true q else (s, 0)
        let s' := issued c.1 g f o (work c.2)
        Completes (.cpyFill f) s s' ((s'.curTg g).advance (RArgs.words f))) ∧
      (∀ bs w, readDesc s g f 32 t = .ok bs → copyObj s g f t = .ok o → checkAccs s g (w.accs (chosenNow s g w)) t = none →
        let s' := issued nt g f o w
        (parseSparse f.ty false bs = some w → Completes (.cpyTopk f) s s' ((s'.curTg g).advance (RArgs.words f))) ∧
        (parseSparse f.ty true bs = some w → Completes (.cpyExpand f) s s' ((s'.curTg g).advance (RArgs.words f)))) ∧
      (∀ bs n r, readDesc s g f 32 t = .ok bs → ringNum g f.d = some n → n < (s.crewOf g).nrsv → s.ring g.crew n = some r →
        r.freeing = false → r.sub = none → copyObj s g f t = .ok o →
        let word (i n : Nat) : Nat := leNat ((bs.drop i).take n)
        let bytes := word 16 4 * r.slotSize
        word 20 12 = 0 → word 16 4 ≠ 0 → word 8 8 % 256 = 0 → word 0 8 % 256 = 0 → bytes ≤ 2 ^ 31 → bytes ≠ 0 →
        let c := claimSlots nt g n (!f.x.getLsbD 0) (word 16 4)
        let s1 := issued c.1 g f o
          (.sub n (f.x.getLsbD 0) (BitVec.ofNat 64 (word 0 8)) (BitVec.ofNat 64 (word 8 8)) (word 16 4) 0 r.slotSize c.2)
        let s' := s1.updRing g.crew n fun r =>
          { r with sub := some (SMap.fresh ((c.1.releaseAs s.cur 1).barUpdate o false fun x => x.expect bytes).copies) }
        Completes (.cpySub f) s s' ((s'.curTg g).advance (RArgs.words f))) ∧
      (∀ n, ringNum g f.d = some n → n < (s.crewOf g).nrsv →
        Completes (.cpyUnsub f) s (s.unsub g.crew n) (((s.unsub g.crew n).curTg g).advance (RArgs.words f))) ∧
      (copyObj s g f t = .ok o →
        let s' := (s.copies.filter fun p => p.2.ctx == g.ctx && p.2.obj == o).foldl (fun s p => s.endCopy p.1) s
        Completes (.cpyCancel f) s s' ((s'.curTg g).advance (RArgs.words f))))

/-- R222 to R225: what a tile means, element by element. An element outside the extents is read as +0; one of another type than its
source is converted from the exact value of its source, scaled by its code under SMODE 1 to 3, and rounded once, under rm = sr with its
own index; one of the same type keeps its bits. -/
def Obligations.TileElementsConvert : Prop :=
  (∀ (t : CopyTile) (lin x : Nat), t.value lin x =
    if t.inside lin = false then .zero false else if t.srct.isInt then Exact.ofInt (intVal t.srct x) else decodeTy t.srct x) ∧
  (∀ (t : CopyTile) (lin x c : Nat), t.srct = t.dstt → t.convert lin x c = if t.inside lin then x else 0) ∧
  (∀ (t : CopyTile) (lin x c : Nat), t.srct ≠ t.dstt →
    let rnd := Rnd.ofCode t.rm (if t.rm = 4 then srbits t.seed t.seq lin else 0)
    let out (v : Exact) : Nat := (Ty.fmt t.dstt).round v rnd (effSat t.dstt t.sat)
    (t.smode = 0 → t.convert lin x c = out (t.value lin x)) ∧
    (t.smode ≠ 0 → t.dstt = .e4m3 ∨ t.dstt = .e5m2 →
      t.convert lin x c = if c = 255 then (Ty.fmt t.dstt).nan else out ((t.value lin x).scale (127 - (c : Int)))) ∧
    (t.smode ≠ 0 → t.dstt ≠ .e4m3 → t.dstt ≠ .e5m2 →
      t.convert lin x c = if c = 255 then (Ty.fmt t.dstt).nan else out ((t.value lin x).scale ((c : Int) - 127)))) ∧
  (∀ (t : CopyTile) (els xs : List Nat) (have' : SMap Byte),
    (t.smode = 1 → t.code els xs have' = t.scl.toNat % 256) ∧
    (t.smode = 2 → t.code els xs have' = mxScale ((els.zip xs).map fun p => t.value p.1 p.2) t.dstt) ∧
    (t.smode = 3 → t.code els xs have' = (SMap.get 0 have' (t.unitLen * t.srct.bytes)).toNat)) ∧
  (∀ (t : CopyTile) (j0 j1 j2 : Nat), t.trans = false → j0 < t.t0 → j1 < t.t1 → j2 < t.t2 →
    let lin := j0 + t.t0 * j1 + t.t0 * t.t1 * j2
    t.srcIdx lin = (j0, j1, j2) ∧ t.inside lin = (decide (j0 < t.e0) && decide (j1 < t.e1) && decide (j2 < t.e2)) ∧
    (t.srcSp = 1 → t.srcAddr lin =
      wrapInt (t.src.toNat + ((j0 * t.srct.bytes : Nat) : Int) + (j1 : Int) * t.ss1 + (j2 : Int) * t.ss2) 64) ∧
    (t.dstSp = 1 → t.dstAddr lin =
      wrapInt (t.dst.toNat + ((j0 * t.dstt.bytes : Nat) : Int) + (j1 : Int) * t.ds1 + (j2 : Int) * t.ds2) 64)) ∧
  (∀ (t : CopyTile) (j0 j1 j2 : Nat), t.trans = true → j0 < t.t1 → j1 < t.t0 → j2 < t.t2 →
    t.srcIdx (j0 + t.t1 * j1 + t.t0 * t.t1 * j2) = (j1, j0, j2))

/-- R244 to R250: reservations, releases, codebooks and ring counters, which rng.take gives in 16 bits each. -/
def Obligations.StagingInstructions : Prop :=
  ∀ (f : RArgs) (s : State) (g : Tg), s.Issues g →
    let next := g.advance (RArgs.words f)
    (g.once f.h = none →
      ∀ i ∈ [Instr.stgRsv f, .stgRel f, .stgCb f, .rngAdvProd f, .rngAdvCons f, .rngTake f], Becomes i s next) ∧
    (∀ t n, g.once f.h = some t → ringNum g f.a = some n → n < (s.crewOf g).nrsv →
      (let r : Ring :=
        { req := g.sAt (Spec.num f.b), pc := 0, cc := 0, pcl := 0, ccl := 0, freeing := false, sub := none, pdone := []
          cdone := [], pend := [], cend := [] };
        (rsvOk s g n r = true →
          Completes (.stgRsv f) s (s.modCrew g.crew fun c => { c with rings := SMap.put c.rings n r }) next) ∧
        (rsvOk s g n r = false → Traps (.stgRsv f) s .stg (BitVec.ofNat 64 n) t)) ∧
      (∀ r, s.ring g.crew n = some r →
        (r.freeing = true → Becomes (.stgRel f) s next) ∧
        (r.freeing = false →
          let s1 := (s.unsub g.crew n).updRing g.crew n fun r => { r with freeing := true }
          Completes (.stgRel f) s s1 ((s1.curTg g).advance (RArgs.words f))) ∧
        (let c (n : Nat) : BitVec 16 := BitVec.ofNat 16 n;
          Completes (.rngTake f) s s ((g.setS (Spec.num f.d) (c r.ccl ++ c r.pcl ++ c r.cc ++ c r.pc)).advance (RArgs.words f))) ∧
        (let m := (opnd64 s g f.h f.b).toNat;
          (r.freeing = false → r.pcl = r.pc → (r.pc - r.cc) + m ≤ r.nslot →
            Completes (.rngAdvProd f) s (s.updRing g.crew n fun r =>
              { r with pc := r.pc + m, pcl := r.pcl + m }) next) ∧
          (r.freeing = false → r.ccl = r.cc → m ≤ (r.pc - r.cc) →
            Completes (.rngAdvCons f) s (s.updRing g.crew n fun r =>
              { r with cc := r.cc + m, ccl := r.ccl + m }) next) ∧
          (r.nslot < (r.pc - r.cc) + m → Traps (.rngAdvProd f) s .stg (BitVec.ofNat 64 n) t) ∧
          ((r.pc - r.cc) < m → Traps (.rngAdvCons f) s .stg (BitVec.ofNat 64 n) t)))) ∧
    (∀ t, g.once f.h = some t →
      let n := Spec.num f.d
      let va := memBase g f.a + BitVec.ofInt 64 (disp f)
      let entries (bs : List Byte) := (List.range 16).map fun i => BitVec.ofNat 16 (leNat ((bs.drop (2 * i)).take 2))
      let loaded (s : State) (bs : List Byte) : State := s.modCore g.core fun x =>
        { x with codebooks := SMap.put x.codebooks n { entries := entries bs, crew := some g.crew } }
      s.cbTaken g.core g.crew n = false → s.cbBusy g.core n = false →
      (f.x.getLsbD 0 = true → Readable s g va 32 →
        Completes (.stgCb f) s (loaded (s.touch g.core g.ctx va.toNat false) (tgBytes g s (s.locOf g.core g.ctx va.toNat) 32 0)) next) ∧
      (f.x.getLsbD 0 = false → va.toNat % 32 = 0 → va.toNat % 2 ^ 32 + 32 ≤ (s.crewOf g).scratchSize →
        Completes (.stgCb f) s (loaded s ((s.crewOf g).spBytes (va.toNat % 2 ^ 32) 32)) next))

/-! ### Sweeps -/

/-- R61: a sweep of one iteration reads and writes scratchpad words as its plain form reads and writes vector registers; add.n32 over
any number of iterations, on operands that do not overlap a destination; and a check that fails in the first iteration. Which of a
thread's operands that fail is reported is the model's choice (DESIGN CHOICE, log 50). -/
def Obligations.SweepsStreamTheScratchpad : Prop :=
  (∀ (mk : RArgs → Instr) (f : RArgs) (s : State) (g : Tg) (act : Mask) (std sta stb : BitVec 16) (ra rb rd : BitVec 6),
    (mk ∈ sweepable ∧ act = g.acting f.h) ∨ (mk ∈ sweepablePacked ∧ act = g.actingPacked f.h) → s.Issues g →
    f.h.long = .sweep 1 std sta stb → f.h.u = false → f.pfx = none → f.ty.width = 32 →
    64 ≤ g.win.k → ra ≠ rb → ra ≠ rd → rb ≠ rd →
    (∀ r ∈ [ra, rb, rd], f.d ≠ .v r ∧ f.a ≠ .v r ∧ f.b ≠ .v r ∧ f.cs ≠ .v r) →
    let plain : RArgs := { f with h := { f.h with long := .none }, d := atReg f.d rd, a := atReg f.a ra, b := atReg f.b rb }
    let g1 := ((g.fetched s f.a 0 sta ra).fetched s f.b 0 stb rb).fetched s f.d 0 std rd
    (sweepCheck s g f act 0 std sta stb = none →
      (∀ n, f.d = .s n →
        ∃ v, Becomes (mk plain) (s.setTg s.cur g1) (Tg.past { g1 with v := v } f.rm 1) ∧
          Completes (mk f) s (s.modCrew g.crew fun c => act.threads.foldl (fun c t =>
            c.setSp (spOff g n 0 std t) (leBytes (slotAt v (g.slotOf rd.toNat) t).toNat 4)) c) (g.past f.rm 2)) ∧
      (∀ n, f.d = .v n →
        ∃ v v', Becomes (mk plain) (s.setTg s.cur g1) (Tg.past { g1 with v := v } f.rm 1) ∧
          WroteV g v' n.toNat act (slotAt v (g.slotOf n.toNat)) ∧ Becomes (mk f) s (Tg.past { g with v := v' } f.rm 2))) ∧
    (∀ c info t, sweepCheck s g f act 0 std sta stb = some (.trap c info t) →
      exec (mk f) s = .next ((s.setTg s.cur g).trapHere s.cur c info t))) ∧
  (∀ (f : RArgs) (s : State) (g : Tg) (cnt : BitVec 12) (std sta stb : BitVec 16) (nd na nb : BitVec 6) (c : Crew), s.Issues g →
    f.h.long = .sweep cnt std sta stb → f.h.u = false → f.pfx = none → f.ty = .n32 → f.x = 0 → f.rm = 0 →
    f.d = .s nd → f.a = .s na → f.b = .s nb → s.crew g.crew = some c →
    let act := (g.acting f.h).threads
    let dst (i t : Nat) : Nat := spOff g nd i std t
    let word (c : Crew) (o : Nat) : Nat := leNat (c.spBytes o 4)
    (∀ i, i < cnt.toNat → sweepCheck s g f (g.acting f.h) i std sta stb = none) →
    (∀ i j t u, i < cnt.toNat → j < cnt.toNat → t ∈ act → u ∈ act →
      (j < i → ∀ o ∈ [spOff g na i sta t, spOff g nb i stb t], o + 4 ≤ dst j u ∨ dst j u + 4 ≤ o) ∧
      ((i, t) ≠ (j, u) → dst i t + 4 ≤ dst j u ∨ dst j u + 4 ≤ dst i t)) →
    ∃ upd : Crew → Crew, Completes (.add f) s (s.modCrew g.crew upd) (g.advance 2) ∧
      let c' := upd c
      (∀ i t, i < cnt.toNat → t ∈ act → word c' (dst i t) = (word c (spOff g na i sta t) + word c (spOff g nb i stb t)) % 2 ^ 32) ∧
      (∀ o, (∀ i t, i < cnt.toNat → t ∈ act → o < dst i t ∨ dst i t + 4 ≤ o) → c'.spBytes o 1 = c.spBytes o 1))

/-! ### Gangs and matrix registers -/

/-- R240, R241: a TG at a gang instruction arrives at the col and parks; the last arrival completes it in every listed TG, with no effect
where the guard is false; a difference makes those that have arrived trap GANG and the others at their next gang instruction, and the
col resets once each of them has (DEDUCED, log 31); gang itself forms the gang. A gang instruction with S = 1 that completes takes a
pending BUDGET (R324). -/
def Obligations.GangInstructionsMeetAtTheCol : Prop :=
  (∀ (f : RArgs) (s : State) (g : Tg) (i : Instr), s.Issues g → i ∈ gangInstrs f →
    let m := g.mode.gmask
    (∀ gg, InGang s g gg →
      let c := colAt g i (RArgs.words f) (g.once f.h).isSome gg
      (Agrees g i (g.once f.h).isSome c →
        (¬AllArrive g m c → exec i s = .next (atCol s g m c)) ∧
        (AllArrive g m c → g.once f.h = none → exec i s = .next ((atCol s g m c).completeCol g.crew m none))) ∧
      (c.trapping ≠ none → exec i s = .next (s.setTg s.cur { g with wait := .col m })) ∧
      (c.trapping = none → (c.pc ≠ g.pc ∨ c.instr ≠ i ∨ c.guard ≠ (g.once f.h).isSome) →
        let here (p : Nat × Tg) : Bool := c.arrived.contains p.2.idx || p.1 == s.cur
        let rest := (s.listed g.crew m).filter fun p => !here p
        let s1 := rest.foldl (fun s p => s.modTg p.1 fun g => { g with gangBad := true }) s
        let s2 := if rest.isEmpty then s1.resetCol g.crew m
          else s1.modGang g.crew m fun x => { x with col := some { c with arrived := [], trapping := some (rest.map (·.2.idx)) } }
        exec i s = .next (s2.trapAll (((s.listed g.crew m).filter here).map (·.1)) .gang gmaskInfo))) ∧
    ((s.gang g.crew m = none ∨ g.gangBad = true ∨ m = 0 ∨ ∀ gg, s.gang g.crew m = some gg → gg.formed = false ∨ gg.dissolved = true) →
      exec i s = .next (((s.setTg s.cur { g with gangBad := false }).tookGang g.crew g.idx).trapHere s.cur .gang (m.setWidth 64)
        (g.mask.lowest.getD 0)))) ∧
  (∀ (s : State) (crew idx : Nat) (m : BitVec 16) (k : Crew) (gg : Gang) (c : Col) (l : List Nat), s.crew crew = some k →
    k.gangs = [(m.toNat, gg)] → gg.mask = m → gg.col = some c → c.trapping = some l → idx ∈ l → gg.formed = true →
    ((∃ j ∈ l, j ≠ idx) → ∃ gg' c', (s.tookGang crew idx).gang crew m = some gg' ∧ gg'.col = some c' ∧
      c'.trapping = some (l.filter (· != idx))) ∧
    ((∀ j ∈ l, j = idx) → ∃ gg', (s.tookGang crew idx).gang crew m = some gg' ∧ gg'.col = none)) ∧
  (∀ (s : State) (crew : Nat) (m : BitVec 16) (gg : Gang) (c : Col) (w : Option (Nat × W64)), SMap.sorted s.tgs = true →
    s.gang crew m = some gg → gg.col = some c → (∀ p ∈ s.listed crew m, p.2.mask ≠ 0) →
    (isSafe c.instr = true → ∀ p ∈ s.listed crew m, p.2.budgetDue = false ∨ p.2.trap.tstat = true) →
    let s' := s.completeCol crew m w
    (∀ p ∈ s.listed crew m, s'.tg p.1 =
      some { (w.elim p.2 fun q => p.2.setS q.1 q.2).advance c.words with wait := .ready }) ∧
    (∀ id, id ∉ (s.listed crew m).map (·.1) → s'.tg id = s.tg id) ∧
    s'.gang crew m = some { gg with col := none, colObj := gg.colObj.bump } ∧ s'.mem = s.mem) ∧
  (∀ (s : State) (id : Nat) (g : Tg) (c : Col), s.tg id = some g → g.mask ≠ 0 → isSafe c.instr = true → g.budgetDue = true →
    g.trap.tstat = false →
    s.pastCol id g c none = (s.setTg id { g.advance c.words with wait := .ready }).takeBudget id (g.advance c.words).pc 0) ∧
  (∀ (f : RArgs) (s : State) (g : Tg), s.Issues g → g.gangBad = false →
    let m := gangMask g f
    let s0 := if SMap.has (s.crewOf g).gangs m.toNat then s
      else s.modCrew g.crew fun c => { c with gangs := SMap.put c.gangs m.toNat (.fresh m) }
    gangOk (s.crewOf g) g m = true →
    (∀ gg, s0.gang g.crew m = some gg →
      let c := colAt g (.gang f) (RArgs.words f) (g.once f.h).isSome gg
      let s1 := atCol s0 g m c
      Agrees g (.gang f) (g.once f.h).isSome c →
        (¬AllArrive g m c → exec (.gang f) s = .next s1) ∧
        (AllArrive g m c →
          (gg.formed = true → exec (.gang f) s = .next (s1.completeCol g.crew m none)) ∧
          (gg.formed = false → g.once f.h ≠ none →
            let s2 := s1.modGang g.crew m fun x => { x with formed := true }
            exec (.gang f) s = .next (((s2.listed g.crew m).foldl (fun (s : State) (p : Nat × Tg) =>
              s.modTg p.1 fun g => { g with mode := { g.mode with gmask := m } }) s2).completeCol g.crew m none)) ∧
          (gg.formed = false → g.once f.h = none →
            exec (.gang f) s = .next ((s1.completeCol g.crew m none).modCrew g.crew fun c =>
              { c with gangs := SMap.del c.gangs m.toNat }))))) ∧
  (∀ (f : RArgs) (s : State) (g : Tg), s.Issues g → g.gangBad = true ∨ gangOk (s.crewOf g) g (gangMask g f) = false →
    exec (.gang f) s = .next (((s.setTg s.cur { g with gangBad := false }).tookGang g.crew g.idx).trapHere s.cur .gang
      (g.mode.gmask.setWidth 64) (g.mask.lowest.getD 0)))

/-- R239, R259, R260, R266, R270, R276, R277: what the last arrival of a transfer instruction, mlr.info,
mfence.op and mwait does, and what joins the load path. The scalar that an ALIGN reports and the col of a waiting mwait are DEDUCED,
log 31, and what becomes undefined is DEDUCED, log 16: the target of a transfer that writes a register which an operation uses, and what
one reads or stores of such a register (R203, R261). -/
def Obligations.TransfersJoinTheLoadPath : Prop :=
  (∀ (f : RArgs) (s : State) (g : Tg) (s' : State) (gg : Gang) (lead : Tg), s.Issues g →
    let d := Spec.num f.d
    let gl := f.x.getLsbD 0
    let writes (i : Instr) (w : XferWork) (read : Option Nat) (form : MForm) : Prop :=
      (gg.occWith d form ≤ (s'.crewOf lead).slabs → Performed i s g (issueXfer s' gg lead w (some d) read (some form)) none) ∧
      ((s'.crewOf lead).slabs < gg.occWith d form → GangTraps i s g s' .slabq (BitVec.ofNat 64 (gg.occWith d form)))
    let bad (i : Instr) : Prop := exec i s = .next (s'.trapCol g.crew g.mode.gmask .gang gmaskInfo)
    (Meets (.mzero f) f s g s' gg lead → writes (.mzero f) (.mzero d f.ty gl) none (if gl then .empty else .dense f.ty)) ∧
    (let base := memBase lead f.a
     let pitch := pitchOf lead f.cs f.ty.bytes
     let at' := base + BitVec.ofInt 64 (disp f)
     (Meets (.mld f) f s g s' gg lead → xferCheck s' lead [base, pitch] (denseAccs gl false at' pitch f.ty.bytes) = none →
        writes (.mld f) (.mld d f.ty at' pitch gl) none (.dense f.ty)) ∧
     (Meets (.mst f) f s g s' gg lead → xferCheck s' lead [base, pitch] (denseAccs gl true at' pitch f.ty.bytes) = none →
        ((gg.formOf d).denseLike = true →
          Performed (.mst f) s g (issueXfer s' gg lead (.mst d f.ty at' pitch gl f.rm) none (some d) none) none) ∧
        ((gg.formOf d).denseLike = false → bad (.mst f))) ∧
     (∀ a ∈ [base, pitch], a.toNat % 16 ≠ 0 → Meets (.mld f) f s g s' gg lead → ∃ b ∈ [base, pitch], b.toNat % 16 ≠ 0 ∧
        GangTraps (.mld f) s g s' .align b)) ∧
    (Meets (.mmov f) f s g s' gg lead →
      (gg.formOf (Spec.num f.a)).denseLike = true → (gg.formOf d).isWork = false →
        writes (.mmov f) (.mmov d (Spec.num f.a) f.ty f.rm) (some (Spec.num f.a))
          (if gg.formOf (Spec.num f.a) = .empty then .empty else .dense f.ty)) ∧
    (Meets (.mmov f) f s g s' gg lead → (gg.formOf (Spec.num f.a)).denseLike = false ∨ (gg.formOf d).isWork = true → bad (.mmov f)) ∧
    (let u := lead.sAt (Spec.num f.a)
     let v := lead.sAt (Spec.num f.b)
     let r := opnd32 s' lead f.h f.cs
     (Meets (.mlrSet f) f s g s' gg lead →
       xferCheck s' lead [u, v] (factAccs gl false u f.ty.bytes r ++ factAccs gl false v f.ty.bytes r) = none →
       (r ≤ min lead.mode.rankcap.toNat 32 → writes (.mlrSet f) (.set d f.ty u v r gl) none (.fact (f.ty == .bf16) r)) ∧
       (min lead.mode.rankcap.toNat 32 < r → GangTraps (.mlrSet f) s g s' .rankovf (BitVec.ofNat 64 r))) ∧
     (Meets (.mlrGet f) f s g s' gg lead → ∀ k, (gg.formOf d).factRank = some k →
       xferCheck s' lead [u, v] (factAccs gl true u f.ty.bytes k ++ factAccs gl true v f.ty.bytes k) = none →
       Performed (.mlrGet f) s g (issueXfer s' gg lead (.get d f.ty u v k gl) none (some d) none) none)) ∧
    (Meets (.mlrInfo f) f s g s' gg lead →
      let fm := gg.formOf (Spec.num f.a)
      ∃ x : W64, Performed (.mlrInfo f) s g s' (some (d, x)) ∧ x.extractLsb' 0 4 = BitVec.ofNat 4 fm.code ∧ x.extractLsb' 4 4 = 0 ∧
        x.extractLsb' 8 8 = BitVec.ofNat 8 fm.rank ∧ x.extractLsb' 16 16 = BitVec.ofNat 16 fm.slabs ∧
        x.extractLsb' 32 16 = BitVec.ofNat 16 gg.occ ∧ x.extractLsb' 48 16 = BitVec.ofNat 16 (s'.crewOf lead).slabs) ∧
    (Meets (.mfenceOp f) f s g s' gg lead →
      (gg.xfers = [] → Performed (.mfenceOp f) s g (s'.modGang lead.crew gg.mask fun x => { x with unfenced := [] }) none) ∧
      (gg.xfers ≠ [] → exec (.mfenceOp f) s = .next s')) ∧
    (Meets (.mwait f) f s g s' gg lead →
      let ns : List Nat := if f.x.getLsbD 2 then [0, 1, 2, 3] else [f.x.toNat % 4]
      ((∀ n ∈ ns, (gg.streams.getD n (.fresh 0)).expb = 0) →
        Performed (.mwait f) s g (s'.modGang lead.crew gg.mask fun x =>
          { x with hazards := x.hazards.filter fun h => !ns.contains h.stream }) none) ∧
      ((∃ n ∈ ns, (gg.streams.getD n (.fresh 0)).expb ≠ 0) → exec (.mwait f) s = .next s'))) ∧
  (∀ (s : State) (gg : Gang) (lead : Tg) (w : XferWork) (write read : Option Nat) (form : Option MForm),
    s.gang lead.crew gg.mask = some gg → gg.hazards = [] →
    ∃ x gg', (issueXfer s gg lead w write read form).gang lead.crew gg.mask = some gg' ∧ x.work = w ∧ x.poison = false ∧
      gg'.xfers = gg.xfers ++ [x] ∧ gg'.val = gg.val ∧ gg'.ops = gg.ops ∧
      x.vals = none ∧ x.moved = [] ∧ (∀ m, read = some m → x.src = gg.formOf m) ∧
      (∀ m fm, write = some m → form = some fm → ∀ n, gg'.formOf n = if n = m then fm else gg.formOf n) ∧
      (write = none → gg'.form = gg.form)) ∧
  (∀ (s : State) (gg : Gang) (lead : Tg) (w : XferWork) (write read : Option Nat) (form : Option MForm),
    s.gang lead.crew gg.mask = some gg → (∃ h ∈ gg.hazards, ∃ m, (write = some m ∨ read = some m) ∧ h.uses m = true) →
    ∃ x gg', (issueXfer s gg lead w write read form).gang lead.crew gg.mask = some gg' ∧ gg'.xfers = gg.xfers ++ [x] ∧
      x.work = w ∧ x.poison = true)

/-- R254 to R256, R263, R269 to R273, R278 to R283: an engine instruction whose checks pass at the col asks for a token; the token
issues its operation, and the col completes, where the histogram of R410 counts what it waited (that it counts there, and once, is
DEDUCED, log 36). mlr.rcmp and mlr.fact go on to their stages. R44, R255, R263: an element of the result of mma and of a partial tile of
mma.blk is the group sum of the exact products of a row of A and a column of B; with every product 0 the accumulator stays as it is
(DESIGN CHOICE, log 43). An operation reads its registers in the forms of issue order: a value of another form, which a hazard can leave,
reads as undefined contents (R274; DESIGN CHOICE, log 3). -/
def Obligations.EngineInstructionsAskThenIssue : Prop :=
  (∀ (f : RArgs) (s : State) (g : Tg) (s' : State) (gg : Gang) (lead : Tg), s.Issues g →
    let d := Spec.num f.d
    let a := Spec.num f.a
    let b := Spec.num f.b
    let stream := f.x.toNat % 4
    let kmax := min lead.mode.rankcap.toNat 32
    let asks (i : Instr) : Prop := exec i s = .next (requestToken s' lead.crew gg.mask)
    let issues (i : Instr) (w : EngineWork) (ovf : Bool) (reads : List Nat) (form : MForm) : Prop :=
      (gg.occWith d form ≤ (s'.crewOf lead).slabs → asks i ∧ colPlan i s' gg lead = some (.ok
        { stream := stream, work := w, ovf := ovf, reads := reads, write := some d, form := some form })) ∧
      ((s'.crewOf lead).slabs < gg.occWith d form → GangTraps i s g s' .slabq (BitVec.ofNat 64 (gg.occWith d form)))
    let ranked (i : Instr) (w : EngineWork) (reads : List Nat) (k : Nat) : Prop :=
      (k ≤ kmax → issues i w false reads (.fact (f.ty == .bf16) k)) ∧
      (kmax < k → lead.mode.rmode = true → issues i w true reads (.dense .f32)) ∧
      (kmax < k → lead.mode.rmode = false → GangTraps i s g s' .rankovf (BitVec.ofNat 64 k))
    let free : Prop := (gg.formOf d).isWork = false
    (Meets (.mma f) f s g s' gg lead → ∀ p q, matArg lead f.a = some p → matArg lead f.b = some q →
      p.formOk gg (srcTy f) = true → q.formOk gg (srcTy f) = true → (gg.formOf d = .empty ∨ gg.formOf d = .dense .f32) →
      (stepsOk s' lead (srcTy f) false p q = .ok () →
        issues (.mma f) (.mma d p q (srcTy f) (f.x.getLsbD 2)) false (d :: (p.regNo.toList ++ q.regNo.toList)) (.dense .f32)) ∧
      (∀ n, stepsOk s' lead (srcTy f) false p q = .error n → GangTraps (.mma f) s g s' .stg (BitVec.ofNat 64 n))) ∧
    (Meets (.mmaBlk f) f s g s' gg lead → ∀ o p q, ringNum lead f.d = some o → matArg lead f.a = some p → matArg lead f.b = some q →
      stepsOk s' lead (srcTy f) true p q = .ok () → outRingOk s' lead o = true →
      asks (.mmaBlk f) ∧ colPlan (.mmaBlk f) s' gg lead = some (.ok
        { stream := stream, work := .mmaBlk (.ring o 0) p q (srcTy f), ovf := false, reads := [], write := none, form := none })) ∧
    (free → ∀ ra rb, (gg.formOf a).factRank = some ra → (gg.formOf b).factRank = some rb →
      (Meets (.mlrMul f) f s g s' gg lead → ranked (.mlrMul f) (.mul f.ty d a b) [a, b] (min ra rb)) ∧
      (Meets (.mlrAdd f) f s g s' gg lead → ranked (.mlrAdd f) (.add f.ty d a b) [a, b] (ra + rb))) ∧
    (free → Meets (.mlrMuld f) f s g s' gg lead →
      let first := f.x.getLsbD 2
      ∀ r, (gg.formOf (if first then a else b)).factRank = some r → (gg.formOf (if first then b else a)).denseLike = true →
        ranked (.mlrMuld f) (.muld f.ty d a b first) [a, b] r) ∧
    (free → ∀ r, (gg.formOf a).factRank = some r →
      (Meets (.mlrScl f) f s g s' gg lead →
        ranked (.mlrScl f) (.scl f.ty d a (BitVec.ofNat 32 (opnd s' lead f.h .f32 32 f.b 0))) [a] r) ∧
      (Meets (.mlrTrunc f) f s g s' gg lead →
        issues (.mlrTrunc f) (.trunc f.ty d a (opnd32 s' lead f.h f.b)) false [a] (.fact (f.ty == .bf16) (min (opnd32 s' lead f.h f.b) r))) ∧
      (Meets (.mlrDense f) f s g s' gg lead → issues (.mlrDense f) (.dense d a) false [a] (.dense .f32))) ∧
    (∀ isFact : Bool, let i : Instr := if isFact then .mlrFact f else .mlrRcmp f
      Meets i f s g s' gg lead →
      let c := (lead.sAt b).toNat
      (c = 0 → ∀ r, (rcmpArgs f isFact).srcRank gg = some r →
        let form : MForm := if r = 0 then .fact (f.ty == .bf16) 0 else .work isFact r 0
        (gg.occWith d form ≤ (s'.crewOf lead).slabs → asks i) ∧
        ((s'.crewOf lead).slabs < gg.occWith d form → GangTraps i s g s' .slabq (BitVec.ofNat 64 (gg.occWith d form)))) ∧
      (c ≠ 0 → ∀ r, gg.formOf d = .work isFact r c → c ≤ 9 → asks i))) ∧
  (∀ (s : State) (crew : Nat) (m : BitVec 16) (k : Crew) (gg : Gang) (col : Col) (id : Nat) (lead : Tg) (plan : OpPlan),
    earliest s.tokenRequests = some (crew, m) → s.ralf.tokens < s.ralf.pool → s.crew crew = some k → SMap.find k.gangs m.toNat = some gg →
    gg.col = some col → (s.listed crew m).head? = some (id, lead) → colStages col.instr = none →
    let since : Nat := (col.request.map fun r : Nat × Nat => r.2).getD s.clk
    let s0 : State := { s with ralf := { s.ralf with tokens := s.ralf.tokens + 1 } }
    let s1 : State := s0.modGang crew m fun g =>
      { g with col := g.col.map fun k => { k with token := true, denied := some (s.clk - since) } }
    (∀ g1, s1.gang crew m = some g1 → colPlan col.instr s1 g1 lead = some (.ok plan)) →
    (s1.engineLoad (k.core.getD 0) < 16 →
      let s2 := s1.modGang crew m fun g => { g with col := g.col.map fun k => { k with token := false } }
      let p := plan.work.claim s2 crew
      exec (.tokenGrant crew m) s =
        .next ((issueOp p.1 crew m plan.stream p.2 plan.ovf plan.reads plan.write plan.form).completeCol crew m none)) ∧
    (16 ≤ s1.engineLoad (k.core.getD 0) → exec (.tokenGrant crew m) s = .next s1)) ∧
  (∀ (s : State) (crew : Nat) (m : BitVec 16) (gg : Gang) (c : Col) (n : Nat) (w : Option (Nat × W64)), s.gang crew m = some gg →
    gg.col = some c → c.denied = some n →
    s.completeCol crew m w = ((s.count (ctrDenial n)).modGang crew m fun g =>
      { g with col := some { c with denied := none } }).completeCol crew m w) ∧
  (∀ (s : State) (crew core : Nat) (gg : Gang) (o : EngineOp) (d : Nat) (a b : MOperand) (src : Ty) (tb : Bool) (i j : Nat),
    let gf := gg.inForms s o.forms
    let rows := a.vectors s crew core gf false false
    let cols (tb : Bool) := b.vectors s crew core gf true tb
    let products (tb : Bool) : List Exact := List.zipWith Exact.mul (rows.getD i []) ((cols tb).getD j [])
    i < 64 → j < 64 → rows.length = 64 →
    (o.work = .mma d a b src tb → (cols tb).length = 64 → (MVal.acc (gf.valOf d)).length = 4096 →
      ∃ e, o.compute s crew core gg = .dense .f32 e ∧
        e.getD (64 * i + j) 0 = groupSum ((MVal.acc (gf.valOf d)).getD (64 * i + j) 0) (products tb)) ∧
    (∀ out, o.work = .mmaBlk out a b src → (cols false).length = 64 →
      ∃ e, o.compute s crew core gg = .dense .f32 e ∧ e.getD (64 * i + j) 0 = groupSum 0 (products false))) ∧
  (∀ (acc : W32) (p : List Exact), groupSum acc [] = acc ∧
    (p ≠ [] → groupSum acc p = groupSum (groupStep acc (p.take 32)) (p.drop 32)) ∧
    ((.nan ∈ p ∨ (.inf false ∈ p ∧ .inf true ∈ p)) → groupStep acc p = 0x7FC00000) ∧
    (∀ neg, .nan ∉ p → .inf neg ∈ p → .inf (!neg) ∉ p → groupStep acc p = toF32 (Exact.sum .rne [f32 acc, .inf neg])) ∧
    ((∀ x ∈ p, ∃ neg, x = .zero neg) → groupStep acc p = acc) ∧
    (∀ e : Int, (∀ x ∈ p, x.isFinite = true) → (∃ neg n d, .fin neg n d ∈ p ∧ floorLog2 n d = e) →
      (∀ neg n d, .fin neg n d ∈ p → floorLog2 n d ≤ e) →
      let cut (x : Exact) : Int := match x with
        | .fin neg n d =>
          let q : Nat := n * 2 ^ (48 - e).toNat / (d * 2 ^ (e - 48).toNat)
          if neg then -(q : Int) else q
        | _ => 0
      groupStep acc p = toF32 (Exact.sum .rne [f32 acc, (Exact.ofInt (p.map cut).sum).scale (e - 48)]))) ∧
  (∀ (s : State) (crew : Nat) (m : BitVec 16) (gg : Gang) (stream : Nat) (w : EngineWork) (ovf : Bool) (reads : List Nat)
      (write : Option Nat) (form : Option MForm), stream < 4 → gg.streams.length = 4 →
    s.gang crew m = some gg → (∀ h ∈ gg.hazards, h.stream = stream) → gg.unfenced = [] → gg.xfers = [] →
    ∃ o gg', (issueOp s crew m stream w ovf reads write form).gang crew m = some gg' ∧ o.work = w ∧ o.stream = stream ∧
      o.overDense = ovf ∧ o.started = false ∧ o.poison = false ∧ gg'.ops = gg.ops ++ [o] ∧ gg'.val = gg.val ∧
      gg'.streams.getD stream (.fresh 0) = (gg.streams.getD stream (.fresh 0)).expect 1 ∧
      o.forms = reads.map (fun m => (m, gg.formOf m)) ∧
      (∀ d fm, write = some d → form = some fm → ∀ n, gg'.formOf n = if n = d then fm else gg.formOf n)) ∧
  (∀ (s : State) (gg : Gang) (m : Nat) (f : MForm),
    ((gg.valOf m).fits f = true → gg.inForms s [(m, f)] = gg) ∧
    ((gg.valOf m).fits f = false → gg.inForms s [(m, f)] = gg.setVal m (undefVal s m f)))

/-! ### Tasks -/

/-- R306 to R308, R312, R314, R315: fref, fdrop, fself, fstm and fldm serve their threads in increasing order, and what adding and
dropping a reference do to an entry. fstm's relaxed exchange and fldm's load are noted for fences, as log 7 holds them (DEDUCED). A
reference to drop whose table cannot be reached traps before anything is done (that fself looks
at it then is a DESIGN CHOICE, log 15). -/
def Obligations.FutureReferencesAreCounted : Prop :=
  (∀ (f : RArgs) (s : State) (g : Tg), s.Issues g →
    let act := (g.acting f.h).threads
    let words := RArgs.words f
    let d := Spec.num f.d
    ((∀ t ∈ act, HandleOk s g (heldHandle g f.a t)) →
      (DropsReach s g act d → let r := act.foldl (fun (r : State × List (Nat × W64)) t =>
          let h := heldHandle g f.a t
          if h = 0 then (r.1.putF s.cur d t fNull, r.2)
          else match r.1.addRef g.ctx h with
            | some s1 => (s1.putF s.cur d t { h := h, counted := true }, r.2)
            | none => (r.1, r.2 ++ [(t, h)])) (s, []);
        CountEnds (.fref f) s g words r.1 r.2) ∧
      (let s1 := act.foldl (fun s' t => s'.putF s.cur (Spec.num f.a) t fNull) s;
        Completes (.fdrop f) s s1 ((s1.curTg g).advance words))) ∧
    (∀ t0 l, act = t0 :: l → heldHandle g f.a t0 ≠ 0 → s.lookup g.ctx (heldHandle g f.a t0) = .stale →
      Traps (.fref f) s .addr 0 t0 ∧ Traps (.fdrop f) s .addr 0 t0) ∧
    (DropsReach s g act d →
      let s1 := act.foldl (fun s' t => s'.putF s.cur d t { h := (g.taskAt t).own, counted := false }) s
      Completes (.fself f) s s1 ((s1.curTg g).advance words)) ∧
    (∀ t0 l c, act = t0 :: l → s.ctx g.ctx = some c → (g.fAt d t0).counted = true → (g.fAt d t0).h ≠ 0 →
      s.lookup g.ctx (g.fAt d t0).h = .noTable → Traps (.fself f) s .addr (c.entryVa ((g.fAt d t0).h.toNat % 2 ^ 20)) t0)) ∧
  (∀ (f : RArgs) (s : State) (g : Tg), s.Issues g →
    let act := (g.acting f.h).threads
    let words := RArgs.words f
    let d := Spec.num f.d
    let loc (t : Nat) : Nat := s.locOf g.core g.ctx (glAddr g f 8 t).toNat
    let places := act.map fun t => (ObjRef.glob (loc t), 8)
    let start (write : Bool) : State :=
      ((s.readOrder 1 4 places).performTo s.cur (act.map fun t => (loc t, 8))).touchAll g.core g.ctx (act.map fun t => (glAddr g f 8 t).toNat) write
    (act = [] → Becomes (.fstm f) s (g.advance words) ∧ Becomes (.fldm f) s (g.advance words)) ∧
    (act ≠ [] → (∀ t ∈ act, Updatable s g (glAddr g f 8 t) 8 ∧ HandleOk s g (heldHandle g f.cs t)) →
      (∀ t ∈ act, let old := BitVec.ofNat 64 (leNat ((start true).bytes (loc t) 8 (8 * t)))
        old ≠ 0 → (start true).lookup g.ctx old ≠ .noTable) →
      let r := act.foldl (fun r t => fstmOne g r (loc t) (heldHandle g f.cs t) t) (start true, [])
      CountEnds (.fstm f) s g words (r.1.released 1 4 places) r.2) ∧
    (act ≠ [] → (∀ t ∈ act, Readable s g (glAddr g f 8 t) 8) → DropsReach s g act d →
      let s1 := start false
      let cell (t : Nat) : W64 := BitVec.ofNat 64 (leNat (s1.bytes (loc t) 8 (8 * t)))
      (∀ t ∈ act, cell t ≠ 0 → s1.lookup g.ctx (cell t) ≠ .noTable) →
      let r := act.foldl (fun (r : State × List (Nat × W64)) t =>
        match r.1.lookup g.ctx (cell t) with
        | .entry .. => match r.1.addRef g.ctx (cell t) with
          | some s2 => (s2.putF s.cur d t { h := cell t, counted := true }, r.2)
          | none => (r.1, r.2 ++ [(t, cell t)])
        | _ => (r.1.putF s.cur d t fNull, r.2)) (s1, [])
      CountEnds (.fldm f) s g words r.1 r.2)) ∧
  (∀ (g : Tg) (r : State × List (Nat × W64)) (loc t : Nat) (h : W64),
    let old (s : State) : W64 := BitVec.ofNat 64 (leNat (s.bytes loc 8 (8 * t)))
    (h = 0 → fstmOne g r loc h t = ((r.1.write loc 8 0).dropRef g.ctx (old r.1), r.2)) ∧
    (h ≠ 0 → r.1.addRef g.ctx h = none → fstmOne g r loc h t = (r.1, r.2 ++ [(t, h)])) ∧
    (∀ s1, h ≠ 0 → r.1.addRef g.ctx h = some s1 →
      fstmOne g r loc h t = ((s1.write loc 8 h.toNat).dropRef g.ctx (old s1), r.2))) ∧
  (∀ (s : State) (ctx loc : Nat) (h : W64) (e : Entry), s.lookup ctx h = .entry loc e →
    let put (e : Entry) : State := (s.usedEntry ctx (hIndex h) true).writeEntry loc e
    (s.addRef ctx h = if e.count < 65535 then some (put { e with count := e.count + 1 }) else none) ∧
    (1 < e.count → s.dropRef ctx h = put { e with count := e.count - 1 }) ∧
    (e.count = 1 → e.state = 2 → s.dropRef ctx h = put { e with count := 0, doom := true }) ∧
    (e.count = 1 → e.state = 3 ∨ e.state = 5 → s.dropRef ctx h = (put { e with count := 0, state := 0 }).bumpPools)) ∧
  (∀ (s : State) (ctx : Nat) (c : Context) (h : W64), s.ctx ctx = some c →
    (h.extractLsb' 52 12 ≠ 0 ∨ c.ftsize.toNat ≤ h.toNat % 2 ^ 20 → s.lookup ctx h = .stale) ∧
    (∀ loc, h.extractLsb' 52 12 = 0 → h.toNat % 2 ^ 20 < c.ftsize.toNat → s.entryLoc ctx (h.toNat % 2 ^ 20) = some loc →
      (((s.readEntry loc).id ≠ h.toNat / 2 ^ 20 % 2 ^ 32 ∨ (s.readEntry loc).state = 0) → s.lookup ctx h = .stale) ∧
      ((s.readEntry loc).id = h.toNat / 2 ^ 20 % 2 ^ 32 → (s.readEntry loc).state ≠ 0 →
        s.lookup ctx h = .entry loc (s.readEntry loc))))

/-- R289, R290, R301 to R303, R305, R306, R313, R320, R321: fspawn places its threads in increasing order, and where no record is available
parks or, in the inline mode, runs the threads left as an inline call; bin.set sets a timer, launch
hands its descriptor to the command processor; and how one thread is placed and a descriptor accepted. That SPDONE marks each thread as it
is placed is DEDUCED, log 20; that a new entry keeps its PHASE, what the bytes of a
frame are and TADDR 0 of the window check's ADDR are DESIGN CHOICES, logs 38, 3 and 51; how a bin fires is log 19. -/
def Obligations.SpawnLaunchAndBins : Prop :=
  (∀ (f : RArgs) (s : State) (g : Tg), s.Issues g →
    let act := g.acting f.h
    let words := RArgs.words f
    let entry := entryAddr g f
    (act = 0 → Becomes (.fspawn f) s (g.advance words)) ∧
    (g.once f.h = none → Becomes (.binSet f) s (g.advance words) ∧ Becomes (.launch f) s (g.advance words)) ∧
    (∀ t0 regs timer, act.lowest = some t0 → checkEntry s g entry t0 = .ok (regs, timer) →
      (∀ t, t < 96 → act.has t = true → (g.taskAt t).depth ≠ 15) → DropsReach s g (act &&& ~~~g.task.spdone).threads (Spec.num f.d) →
      let own := ((s.launch g.launch).map fun l => SMap.find l.timers entry.toNat).join
      let x : SpawnArgs := { d := Spec.num f.d, entry := entry, regs := regs, timer := own.getD timer }
      let s1 := (s.drain s.cur).touch g.core g.ctx (entry - 8).toNat false
      let r := s1.spawnAll s.cur x (fun t => valueOf g f.b t) (act &&& ~~~g.task.spdone).threads
      let g2 := r.1.curTg g
      (r.2 = none → Completes (.fspawn f) s r.1 ({ g2 with task := { g2.task with spdone := 0 } }.advance words)) ∧
      (r.2 = some .park → exec (.fspawn f) s = .next (r.1.parkPool s.cur)) ∧
      (∀ va t, r.2 = some (.noTable va t) → exec (.fspawn f) s = .next (r.1.trapHere r.1.cur .addr va t)) ∧
      (r.2 = some .noRecord → (∀ l, r.1.launch g.launch = some l → l.desc.modes.getLsbD 3 = false) →
        exec (.fspawn f) s = .next (r.1.parkPool s.cur)) ∧
      (∀ l q0, r.2 = some .noRecord → r.1.launch g.launch = some l → l.desc.modes.getLsbD 3 = true →
        (act &&& ~~~g2.task.spdone).lowest = some q0 →
        InlineCalls (.fspawn f) s r.1 g2 x (act &&& ~~~g2.task.spdone) q0 t0 words fun t => valueOf g f.b t)) ∧
    (∀ t0 regs timer t l, act.lowest = some t0 → checkEntry s g entry t0 = .ok (regs, timer) →
      act.threads.filter (fun t => (g.taskAt t).depth == 15) = t :: l → Traps (.fspawn f) s .spawnfull 15 t) ∧
    (∀ t0 p, g.once f.h = some t0 → checkEntry s g entry t0 = .ok p →
      let s1 := (s.touch g.core g.ctx (entry - 8).toNat false).modLaunch g.launch fun l => { l with
        timers := match f.b with
          | .s n => SMap.put l.timers entry.toNat (min (max (g.sAt n.toNat).toNat 64) 65535)
          | _ => SMap.del l.timers entry.toNat }
      Completes (.binSet f) s s1 (g.advance words)) ∧
    (∀ t0, g.once f.h = some t0 →
      let va := g.sAt (Spec.num f.a)
      let s1 := s.drain s.cur
      (va.toNat % 256 ≠ 0 → Traps (.launch f) s .align va t0) ∧
      (va.toNat % 256 = 0 → f.x.getLsbD 0 = false →
        let s2 := s1.acceptLaunch g.ctx va none
        Completes (.launch f) s s2 ((s2.curTg g).advance words)) ∧
      (∀ s2 h, va.toNat % 256 = 0 → f.x.getLsbD 0 = true → DropsReach s g [t0] (Spec.num f.d) →
        s1.allocEntry g.ctx 2 0 (hIndex (g.taskAt t0).own) g.task.tgdl false true = .ok (s2, h) →
        let s3 := (s2.putF s.cur (Spec.num f.d) t0 { h := h, counted := true }).acceptLaunch g.ctx va (some h)
        Completes (.launch f) s s3 ((s3.curTg g).advance words)))) ∧
  (∀ (s : State) (id : Nat) (g : Tg) (x : SpawnArgs) (pay : W64) (t i loc : Nat) (e : Entry), s.tg id = some g →
    let die := dieOf g.core
    let k := g.taskAt t
    let s1 := s.modDie die fun d => { d with unreserved := d.unreserved + 1 }
    (s.die die).unreserved < 65521 → s1.findFree g.ctx = .found i loc e →
    let h := mkHandle i (nextId e.id)
    let s2 := (((s1.forgetPlace (.fut g.ctx i)).overwrite (.glob loc, 32)).setEntry g.ctx i loc
      { result := 0, count := 1, state := 1, depth := k.depth + 1, doom := false, inl := false, lch := false, parent := hIndex k.own
        phase := e.phase, dl := g.task.tgdl, id := nextId e.id }).putF id x.d t { h := h, counted := true }
    let child : BinThread := { handle := h, payload := pay, depth := k.depth + 1, srec := .unreserved, dl := g.task.tgdl }
    let marked (s : State) : State := s.modTg id fun g => { g with task := { g.task with spdone := g.task.spdone ||| BitVec.ofNat 96 (2 ^ t) } }
    let mine (p : Nat × Bin) : Bool := p.2.launch == g.launch && p.2.entry == x.entry
    ((∀ p ∈ (s2.die die).bins, mine p = false) → (s2.die die).bins.length < 512 →
      s.spawnOne id x pay t = .ok (marked (s2.modDie die fun d =>
        { d with bins := SMap.put d.bins (SMap.lowFree (s2.die die).bins)
                   { launch := g.launch, entry := x.entry, regs := x.regs, due := s2.clk + x.timer, threads := [child] } }))) ∧
    (∀ b bin, (s2.die die).bins.find? mine = some (b, bin) →
      let s3 := s2.modDie die fun d => { d with bins := SMap.put d.bins b { bin with threads := bin.threads ++ [child] } }
      (bin.threads.length < 95 → s.spawnOne id x pay t = .ok (marked s3)) ∧
      (bin.threads.length = 95 → s.spawnOne id x pay t = .ok (marked (s3.fireBin die b)))) ∧
    ((∀ p ∈ (s2.die die).bins, mine p = false) → 512 ≤ (s2.die die).bins.length → s.spawnOne id x pay t = .error .park)) ∧
  (∀ (s : State) (ctx : Nat) (bs : List Byte) (c : Context) (fut : Option W64), s.ctx ctx = some c →
    let d := Desc.ofBytes bs
    (Desc.legal bs d = false → fut = none →
      (s.acceptDesc ctx bs fut).launches = s.launches ∧
      s.acceptDesc ctx bs fut = ({ s.modCtx ctx fun c => { c with accepted := c.accepted + 1 } with stamp := s.stamp + 1 }.cpWrite ctx d.stat
        (leBytes (c.accepted + 1) 8 ++ [6, 0, 0, 0] ++ leBytes 0 4 ++ leBytes s.gtime.toNat 8 ++ leBytes s.gtime.toNat 8))) ∧
    (Desc.legal bs d = true → d.nhandle = 0 → ∃ l, (s.acceptDesc ctx bs fut).launch s.stamp = some l ∧
      l.ctx = ctx ∧ l.desc = d ∧ l.state = 2 ∧ l.cause = 0 ∧ l.trapn = 0 ∧ l.flags = 0 ∧ l.tstart = s.gtime ∧ l.tvec = c.tvec ∧
      l.seq = BitVec.ofNat 64 (c.accepted + 1) ∧ l.waits = [] ∧ l.placed = [] ∧ l.fut = fut))

/-- R309, R312, R316 to R319: fwait, fpoll and fput on live handles, yield, fhold and frel. The entries' pages are used (R149); a DONE
result is acquired and a put releases at dev scope (R198), which is held as log 7 says (DEDUCED). TADDR 0 of the null handle is the
model's choice (DESIGN CHOICE, log 15). -/
def Obligations.FuturesAreWaitedForPolledAndPut : Prop :=
  (∀ (f : RArgs) (s : State) (g : Tg) (d : BitVec 6) (c : BitVec 3), s.Issues g → f.d = .v d → f.cs = .p c →
    let act := g.acting f.h
    let next (g : Tg) : Tg := g.advance (RArgs.words f)
    let entry (t : Nat) : Option Entry := s.entryOf g.ctx (heldHandle g f.a t)
    let live : Prop := ∀ t, t < 96 → act.has t = true → heldHandle g f.a t ≠ 0 ∧ (entry t).isSome = true
    let res (t : Nat) : W64 := ((entry t).map Entry.result).getD 0
    let fin (t : Nat) : Bool := (entry t).any fun e => e.state == 3 || e.state == 5
    let hs := act.threads.map fun t => (t, heldHandle g f.a t)
    let used := s.readEntries g hs
    let taken := used.takeResults g (entriesOf s g hs)
    (live → (∀ t, t < 96 → act.has t = true → fin t = true) →
      ∃ v, WroteV64 g v d.toNat act res ∧
        (f.x.getLsbD 0 = false → Completes (.fwait f) s taken (next { taken.curTg g with v := v })) ∧
        (f.x.getLsbD 0 = true →
          ∃ p, WroteP g p c.toNat (fun t => if act.has t then some (allBits ((entry t).any fun e => e.state == 3)) else none) ∧
            Completes (.fwait f) s taken (next { taken.curTg g with v := v, p := p }))) ∧
    (live → (∃ t, t < 96 ∧ act.has t = true ∧ fin t = false) →
      ∃ es, (∀ x, x ∈ es ↔ ∃ t e, t < 96 ∧ act.has t = true ∧ entry t = some e ∧ fin t = false ∧
          x = (hIndex (heldHandle g f.a t), e.phase)) ∧
        exec (.fwait f) s = .next (used.setTg s.cur { g with wait := .futs es })) ∧
    (live → ∃ v p, WroteV64 g v d.toNat (Mask.of fun t => act.has t && fin t) res ∧
      WroteP g p c.toNat (fun t => if act.has t then some (allBits (fin t)) else none) ∧
      Completes (.fpoll f) s taken (next { taken.curTg g with v := v, p := p })) ∧
    (∀ t0 l, act.threads = t0 :: l → (∀ t, t < 96 → act.has t = true → HandleOk s g (heldHandle g f.a t)) → heldHandle g f.a t0 = 0 →
      Traps (.fwait f) s .addr 0 t0 ∧ Traps (.fpoll f) s .addr 0 t0)) ∧
  (∀ (f : RArgs) (s : State) (g : Tg), s.Issues g →
    let act := (g.acting f.h).threads
    let words := RArgs.words f
    (act = [] → Becomes (.fput f) s (g.advance words)) ∧
    (act ≠ [] → (∀ t ∈ act, (g.taskAt t).own ≠ 0 → s.lookup g.ctx (g.taskAt t).own ≠ .noTable) →
      let s0 := act.foldl (fun s' t =>
        if (g.taskAt t).own = 0 then s' else s'.putResult g.ctx (g.taskAt t).own (valueOf g f.a t)) s
      let s1 := s0.releaseAll 4 (putPlaces s g.ctx ((act.map fun t => (g.taskAt t).own).filter (· != 0)))
      Completes (.fput f) s s1 ((s1.curTg g).advance words)) ∧
    Becomes (.fhold f) s ((g.setHold (g.acting f.h) true).advance words) ∧
    (let g1 := (g.setHold (g.acting f.h) false).advance words;
     (s.setTg s.cur g1).reclaimable g1 = 0 → Becomes (.frel f) s g1) ∧
    (g.once f.h = none → Becomes (.yield f) s (g.advance words)) ∧
    (∀ l, g.once f.h ≠ none → s.launch g.launch = some l →
      let dl := match f.a with
        | .s n => s.gtime + g.sAt n.toNat
        | _ => g.task.tgdl
      let bud : W32 := match f.b with
        | .s n => (g.sAt n.toNat).setWidth 32
        | _ => l.desc.budget
      Completes (.yield f) s (s.newSlice s.cur)
        ({ g with
          task := { g.task with tgdl := dl, tgbud := bud }, sliceEnd := true
          budget := false, budgetTaken := false, budgetForced := false }.advance words))) ∧
  (∀ (s : State) (ctx loc : Nat) (h x : W64) (e : Entry), s.lookup ctx h = .entry loc e →
    let put (e : Entry) : State := (s.usedEntry ctx (hIndex h) true).writeEntry loc e
    (e.state = 2 → e.doom = false → s.putResult ctx h x = put { e with result := x, state := 3, phase := e.phase + 1 }) ∧
    (e.state = 2 → e.doom = true → s.putResult ctx h x = put { e with result := x }) ∧
    (e.state ≠ 2 → s.putResult ctx h x = s)) ∧
  (∀ (g : Tg) (ts : Mask) (b : Bool) (t : Nat), t < 96 →
    ((g.setHold ts b).taskAt t).hold = (if ts.has t then b else (g.taskAt t).hold) ∧ ((g.setHold ts b).taskAt t).own = (g.taskAt t).own)

/-! ### Macro-instructions -/

/-- R350 to R353, R357, R366, R370, R375, R376, R384, R387, R389: a macro begins in its threads, or completes at once with rc where none of
them steps; a microcode macro needs an image that takes it
(DESIGN CHOICE, log 17); sobol is a function of its operands; tacc and trej decide the register candidate of each of their threads, and
trap ADDR where an old handle of a cell lies in a table that cannot be reached (R306, R315; that they look before anything is done is a
DESIGN CHOICE, log 15). -/
def Obligations.MacrosStartAndComplete : Prop :=
  (∀ (f : RArgs) (s : State) (g : Tg), s.Issues g →
    let words := RArgs.words f
    let act := g.acting f.h
    let rc : W64 := BitVec.ofNat 64 (((List.range 64).filter fun c => act.threads.any fun t => g.reason t == c).map fun c => 2 ^ c).sum
    let starts (i : Instr) (steps : Nat → Bool) : Prop := ∀ ts : Mask, (∀ t, t < 96 → ts.has t = (act.has t && steps t)) →
      Starts i s g words ts none rc
    ((g.sAt 40).toNat % 64 = 0 → (g.sAt 41).toNat % 16 = 0 → (g.sAt 59).toNat % 16 = 0 →
      (∀ t, t < 96 → (Ctl.of (g.vAt 49 t)).legal = true) →
      starts (.trav f) fun t => let r := g.reason t
        r == 0 || r == 6 || r == 7 || (r == 3 && f.x.getLsbD 0 && !(g.vAt 49 t).getLsbD 25)) ∧
    ((g.sAt (Spec.num f.a)).toNat % 32 = 0 → (∀ t, t < 96 → filtLegal g t = true) →
      starts (.filt f) fun t => g.reason t == 0 || g.reason t == 7 || g.reason t == 6) ∧
    (let d := g.sAt (Spec.num f.a);
      d.toNat % 16 = 0 → d.extractLsb' 34 30 = 0 →
      (∀ t, t < 96 → (g.vAt 60 t).extractLsb' 12 4 = 0 ∧ (g.vAt 60 t).extractLsb' 24 8 = 0) →
      starts (.blnd f) fun t => g.reason t == 0 || g.reason t == 7) ∧
    (g.once f.h = none → Becomes (.rast f) s (g.advance words)) ∧
    (g.once f.h ≠ none → (g.sAt 48).toNat % 16 = 0 → (g.sAt 53).toNat % 16 = 0 → rastLegal g = true →
      let r := (g.sAt 55).toNat % 256
      (r = 0 ∨ r = 5 ∨ r = 7 ∨ r = 8 → g.stopPending = false →
        Becomes (.rast f) s { g with mac := some (running (.rast f) words 1 none), wait := .mac }) ∧
      (r ≠ 0 → r ≠ 5 → r ≠ 7 → r ≠ 8 → Becomes (.rast f) s (g.advance words)))) ∧
  (∀ (f : McArgs) (s : State) (g : Tg), s.Issues g →
    let low := g.mask.lowest.getD 0
    (s.imageFor g f.slot.toNat = none → Traps (.mcx f) s .nomacro (f.slot.setWidth 64) low) ∧
    (∀ c, s.imageFor g f.slot.toNat = some c → c.fndef.getLsbD f.fn.toNat = true → f.u = false → mcLongOk c f = true →
      (c.fnpriv.getLsbD f.fn.toNat = true → s.privileged g = true) →
      let h : Hdr := { g := f.g, n := f.n, u := f.u, safe := f.safe, long := (f.long.bind Long.ofBits).getD .none }
      let ts := mcStepping g (running (.mcx f) (McArgs.words f) 0 (some c)) h
      let legal := Config.mcLegal c.image ((encode (.mcx f)).getD [])
      (legal = true → ts ≠ 0 → g.stopPending = false →
        Becomes (.mcx f) s { g with mac := some (running (.mcx f) (McArgs.words f) ts (some c)), wait := .mac }) ∧
      (legal = false → Traps (.mcx f) s .illop (firstWord (.mcx f)) low))) ∧
  (∀ f : RArgs, f.ty = .n32 ∨ f.ty = .f32 →
    let seed (s : State) (g : Tg) : W64 := ((s.ctx g.ctx).map Context.seed).getD 0
    let x (s : State) (g : Tg) (t : Nat) : W32 := sobolAt (BitVec.ofNat 32 (opnd s g f.h .n32 32 f.a t))
      (BitVec.ofNat 32 (opnd s g f.h .n32 32 f.b t)) (BitVec.ofNat 32 (opnd s g f.h .n32 32 f.cs t)) (seed s g)
    GivesData (.sobol f) f 32 (·.acting f.h) fun s g t =>
      if f.ty = .f32 then (toF32 (Exact.ofDyadic false ((x s g t).toNat / 256) (-24))).setWidth 64 else (x s g t).setWidth 64) ∧
  (∀ (f : RArgs) (s : State) (g : Tg) (accept : Bool), s.Issues g →
    let i : Instr := if accept then .tacc f else .trej f
    let ctl (t : Nat) : Ctl := Ctl.of (g.vAt 49 t)
    let ts := (g.acting f.h).threads.filter fun t => (ctl t).rv
    let recs := if accept then ts.flatMap fun t => (ctl t).inMemory.map fun q => (t, recVa g t q) else []
    let gone (t : Nat) : List Nat := (List.range 8).filter fun q =>
      (ctl t).inRegs q || ((ctl t).qmask.getLsbD q && accept && beyond (slotT s g t (ctl t) q) (g.vAt 61 t))
    let cells := ts.flatMap fun t => (gone t).map fun q => (t, cellVa g t q)
    (∀ p ∈ recs, Readable s g p.2 16) → (∀ p ∈ cells, Updatable s g p.2 8) →
    let olds := cells.map fun p => (p.1, BitVec.ofNat 64 (macNat s g p.2 8))
    ReachTraps i s g olds ∧
    ((∀ p ∈ olds, ¬Unreached s g p) →
    let s1 := (s.touchAll g.core g.ctx (recs.map fun p => p.2.toNat) false).touchAll g.core g.ctx (cells.map fun p => p.2.toNat) true
    let s2 := ts.foldl (fun s t => (gone t).foldl (fun s q => s.clearCell s.cur (cellVa g t q)) s) s1
    let g2 := ts.foldl (fun g t => g.decided accept t (gone t)) (s2.curTg g)
    Completes i s s2 (g2.advance (RArgs.words f))))

/-! ### Traps and system instructions -/

/-- R82, R323, R325, R327, R328, R340: the codes and classes of the causes; what a trap entry saves and where it goes; the end of the
TG inside a handler or without one; trap, brkpt and rett. That the counter of terminal traps
counts at the entry, whether or not a handler runs, is DEDUCED, log 36. -/
def Obligations.TrapEntryAndReturn : Prop :=
  (∀ c : Cause, (c, c.code, c.terminal) ∈ causeTable) ∧
  (∀ (s : State) (id : Nat) (g : Tg) (c : Cause) (ret info : W64) (tid : Nat), s.tg id = some g →
    let s0 := if c.terminal then s.count (ctrTrap c.code) else s
    (g.trap.tstat = false → g.trap.tvec ≠ 0 →
      s.enter id c ret info tid = s0.setTg id
        { g with
          trap := { g.trap with
            tpc := ret, tcause := BitVec.ofNat 9 (if c.terminal then c.code + 256 else c.code), taddr := info
            ttid := BitVec.ofNat 7 tid, tam := g.mask, twbase := g.win.wbase, tstat := true }
          mask := if c = .wovf ∨ c = .wunf then BitVec.allOnes 96 else g.mask
          pc := g.trap.tvec + 64 * BitVec.ofNat 64 c.code
          wait := .ready }) ∧
    (g.trap.tstat = true ∨ (g.trap.tvec = 0 ∧ c ≠ .budget) → s.enter id c ret info tid = s0.endTg id c) ∧
    (g.trap.tstat = false → g.trap.tvec = 0 → c = .budget → s.enter id c ret info tid = s.newSlice id) ∧
    (s.endTg id c).tg id = none ∧
    (∀ l, s.launch g.launch = some l → ∃ l', (s.endTg id c).launch g.launch = some l' ∧ l'.failed = true ∧
      l'.trapn = l.trapn + 1 ∧ l'.cause = (if l.cause = 0 then BitVec.ofNat 8 c.code else l.cause)) ∧
    (∀ j x, (s.endTg id c).tg j = some x → x.launch = g.launch → x.ending ≠ .none)) ∧
  (∀ (s : State) (id : Nat) (g : Tg) (ret info : W64), s.tg id = some g →
    let s0 := s.modTg id fun g => { g with budget := false, budgetTaken := true, budgetForced := false }
    (g.trap.tstat = true ∨ g.trap.tvec ≠ 0 → s.takeBudget id ret info = s0.enter id .budget ret info (g.mask.lowest.getD 0)) ∧
    (g.trap.tstat = false → g.trap.tvec = 0 → s.takeBudget id ret info =
      ((s0.newSlice id).modTg id fun g => { g with sinceSafe := 0 }).reclaim id)) ∧
  (∀ (f : IArgs) (s : State) (g : Tg), s.Issues g →
    (g.once f.h = none → Becomes (.trap f) s (g.advance (IArgs.words f))) ∧
    (∀ t, g.once f.h = some t → exec (.trap f) s =
      .next (s.enter s.cur .user (g.pc + 8 * BitVec.ofNat 64 (IArgs.words f)) ((f.c.extractLsb' 0 8).setWidth 64) t))) ∧
  (∀ (f : RArgs) (s : State) (g : Tg), s.Issues g →
    (g.once f.h = none → Becomes (.brkpt f) s (g.advance (RArgs.words f))) ∧
    (∀ t, g.once f.h = some t →
      exec (.brkpt f) s = .next (s.enter s.cur .brkpt (g.pc + 8 * BitVec.ofNat 64 (RArgs.words f)) 0 t)) ∧
    (g.trap.tstat = false → Traps (.rett f) s .illop (firstWord (.rett f)) (g.mask.lowest.getD 0)) ∧
    (g.trap.tstat = true → g.trap.tcause.getLsbD 8 = true →
      exec (.rett f) s = .next (s.endTgCode s.cur (g.trap.tcause.toNat % 256))) ∧
    (g.trap.tstat = true → g.trap.tcause.getLsbD 8 = false → g.trap.tpc.toNat % 8 ≠ 0 →
      exec (.rett f) s = .next (s.endTg s.cur .align)) ∧
    (g.trap.tstat = true → g.trap.tcause.getLsbD 8 = false → g.trap.tpc.toNat % 8 = 0 → 2 ^ 57 ≤ g.trap.tpc.toNat →
      exec (.rett f) s = .next (s.endTg s.cur .addr)) ∧
    (g.trap.tstat = true → g.trap.tcause.getLsbD 8 = false → g.trap.tpc.toNat % 8 = 0 → g.trap.tpc.toNat < 2 ^ 57 →
      Completes (.rett f) s s
        { g with
          win := { g.win with wbase := g.trap.twbase }, mask := g.trap.tam &&& ~~~g.xmask
          trap := { g.trap with tstat := false }, pc := g.trap.tpc }))

/-- R64, R150, R336 to R339, R341 to R344: sysr and sysw of every register, tlb.inv, mcload and halt; a false guard has no effect, and
outside a system context what is privileged traps PRIV whatever the guard. The model's choices among it: that a write of FQHEAD names
the launch that serves the queue (DEDUCED, log 34), the length and reserved bits of an image (log 29), the order of mcload's checks
(header, signature, version), how its acquire loads are ordered, and ILLOP for a slot of 8 and more (DEDUCED, log 7, 30). -/
def Obligations.SystemRegistersAndPrivilege : Prop :=
  (∀ (f : RArgs) (s : State) (g : Tg), s.Issues g →
    let low := g.mask.lowest.getD 0
    let x := g.sAt (Spec.num f.a)
    let next (g : Tg) : Tg := g.advance (RArgs.words f)
    (g.once f.h = none → Becomes (.sysr f) s (next g) ∧ Becomes (.syswMemdef f) s (next g) ∧ Becomes (.syswTvec f) s (next g) ∧
      (srn f ∉ systemOnly ∨ s.privileged g = true → Becomes (.sysw f) s (next g)) ∧
      (s.privileged g = true → Becomes (.tlbInv f) s (next g) ∧ Becomes (.mcload f) s (next g) ∧ Becomes (.halt f) s (next g))) ∧
    (s.privileged g = false →
      (srn f ∈ systemOnly → Traps (.sysw f) s .priv (firstWord (.sysw f)) low) ∧
      Traps (.tlbInv f) s .priv (firstWord (.tlbInv f)) low ∧ Traps (.mcload f) s .priv (firstWord (.mcload f)) low ∧
      Traps (.halt f) s .priv (firstWord (.halt f)) low) ∧
    (g.once f.h ≠ none →
      (∀ (d : BitVec 6) (c : Context), f.d = .s d → s.ctx g.ctx = some c → ∀ p ∈ sysRegs s g c (s.die (dieOf g.core)), srn f = p.1 →
        Completes (.sysr f) s s (next (g.setS d.toNat p.2))) ∧
      (srn f ∉ systemOnly ∨ s.privileged g = true →
        (SysValue (srn f) x →
          (∀ p ∈ tgWrites g x, srn f = p.1 → Completes (.sysw f) s s (next p.2)) ∧
          (∀ p ∈ ctxWrites x, srn f = p.1 → Completes (.sysw f) s (s.modCtx g.ctx p.2) (next g)) ∧
          (∀ p ∈ dieWrites g.launch x, srn f = p.1 → Completes (.sysw f) s (s.modDie (dieOf g.core) p.2) (next g))) ∧
        (¬SysValue (srn f) x → Traps (.sysw f) s .illop (firstWord (.sysw f)) low)) ∧
      (let legal : Prop := x.toNat < 2 ^ 11 ∧ (x.toNat / 256 = 1 ∨ x.toNat / 256 = 5) ∧ 1 ≤ x.toNat / 32 % 8 ∧ x.toNat / 32 % 8 ≤ 5 ∧
          (x.toNat / 8 % 4 = 1 ∨ x.toNat / 8 % 4 = 2) ∧ 1 ≤ x.toNat % 8 ∧ x.toNat % 8 ≤ 4;
        (legal → Completes (.syswMemdef f) s (s.modCtx g.ctx fun c => { c with memdef := x })
          (next { g with mode := { g.mode with memdef := x } })) ∧
        (¬legal → Traps (.syswMemdef f) s .illop (firstWord (.syswMemdef f)) low)) ∧
      (x.toNat % 2048 = 0 →
        let s1 := s.modLaunch g.launch fun l => { l with tvec := x }
        Completes (.syswTvec f) s (if s.privileged g then s1.modCtx g.ctx fun c => { c with tvec := x } else s1)
          (next { g with trap := { g.trap with tvec := x } })) ∧
      (x.toNat % 2048 ≠ 0 → Traps (.syswTvec f) s .illop (firstWord (.syswTvec f)) low))) ∧
  (∀ (f : RArgs) (s : State) (g : Tg), s.Issues g → s.privileged g = true → g.once f.h ≠ none →
    let all := f.x.getLsbD 1
    let a := (g.sAt (Spec.num f.a)).toNat
    let n := (valueOf g f.b 0).toNat
    let covered (e : TlbEntry) : Prop := all = true ∨
      (e.ctx = g.ctx ∧ (f.x.getLsbD 0 = true ∨ f.b = .imm 0 ∨ (e.base < a + n ∧ a < e.base + e.size)))
    let s1 := ((s.tgs.filter fun p => all || p.2.ctx == g.ctx).map (·.1)).foldl (fun s id => (s.finishLate id).drain id) s
    ∃ s', Completes (.tlbInv f) s s' ((s1.curTg g).advance (RArgs.words f)) ∧ s'.mem = s1.mem ∧ s'.tgs = s1.tgs ∧
      (∀ c, c < Config.numCores → ∀ e, e ∈ (s'.core c).tlb ↔ e ∈ (s.core c).tlb ∧ ¬covered e) ∧
      (∀ d, d < Config.numDies → ∀ e, e ∈ (s'.die d).tlb ↔ e ∈ (s.die d).tlb ∧ ¬covered e)) ∧
  (∀ (f : RArgs) (s : State) (g : Tg) (t : Nat) (d : BitVec 6) (slot : Nat), s.Issues g → s.privileged g = true → g.once f.h = some t →
    f.d = .s d → (∀ n, f.b = .s n → (g.sAt n.toNat).toNat = slot) → ((∀ n, f.b ≠ .s n) → Spec.num f.b = slot) →
    let va := g.sAt (Spec.num f.a)
    let ends (s' : State) (st : Nat) : Prop :=
      Completes (.mcload f) s s' (((s'.curTg g).setS d.toNat (BitVec.ofNat 64 st)).advance (RArgs.words f))
    let bytes (s' : State) (n : Nat) : List Byte := imageBytes s' (s'.curTg g) va.toNat n
    (8 ≤ slot → Traps (.mcload f) s .illop (firstWord (.mcload f)) (g.mask.lowest.getD 0)) ∧
    (slot < 8 → f.x.getLsbD 0 = true → ends { s with microcode := SMap.del s.microcode slot } 0) ∧
    (slot < 8 → f.x.getLsbD 0 = false → va.toNat % 64 ≠ 0 → Traps (.mcload f) s .align va t) ∧
    (slot < 8 → f.x.getLsbD 0 = false → Readable s g va 64 →
      let s0 := s.readImage g va.toNat 64
      let field (lo k : Nat) : Nat := leNat (((bytes s0 64).drop lo).take k)
      let len := field 0 8
      let legal : Prop := len % 8 = 0 ∧ 8 ≤ len ∧ len ≤ 65536 ∧ field 48 16 = 0
      (s.ralf.keysErased = true → ends s0 1) ∧ (s.ralf.keysErased = false → ¬legal → ends s0 3) ∧
      (s.ralf.keysErased = false → legal → (∀ v ∈ rangeBlocks va.toNat (64 + len + 96), Readable s g (BitVec.ofNat 64 v) 1) →
        let s1 := s0.readImage g va.toNat (64 + len + 96)
        let img := bytes s1 (64 + len + 96)
        let word (lo : Nat) : W64 := BitVec.ofNat 64 (leNat ((img.drop lo).take 8))
        let signed : Prop := Config.signatureOk 2 (img.take (64 + len)) (img.drop (64 + len)) = true
        (¬signed → ends s1 1) ∧
        (signed → word 8 < s.ralf.microFloor → ends s1 2) ∧
        (signed → ¬word 8 < s.ralf.microFloor →
          let m : Microcode := { ver := word 8, fndef := word 16, fnpriv := word 24, longi := word 32, longk := word 40, image := img }
          ends { s1 with microcode := SMap.put s1.microcode slot m } 0)))) ∧
  (∀ (f : RArgs) (s : State) (g : Tg), s.Issues g → s.privileged g = true → g.once f.h ≠ none →
    let whole := f.x.getLsbD 0
    let s0 := s.setTg s.cur (g.advance (RArgs.words f))
    let stopped (c : Nat) : Bool := whole || c == g.ctx
    ∃ s', exec (.halt f) s = .next s' ∧ s'.mem = s.mem ∧ s'.halted = (s.halted || whole) ∧
      (∀ c x, s.ctx c = some x → s'.ctx c = some (if stopped c then { x with halted := true } else x)) ∧
      (∀ id x, s0.tg id = some x → s'.tg id =
        some (if stopped x.ctx && x.resident then { x with preempt := true, held := true, forced := true } else x)))

/-! ### Steps of the other agents -/

/-- R13, R144, R152, R170, R171, R188, R189, R194, R196, R204, R227, R233, R236, R247, R251 to R253, R258, R260, R266, R274, R276, R283,
R290, R292, R293, R296, R297, R299, R304, R333, R334, R352 to R356, R386: each unit's step runs where the spec lets the unit make it,
with the effect given. The model's choices among it: which move comes next and which core or slot a placement takes (DESIGN CHOICE, log 2),
the clock at a timer's value (log 5), releases through a completion and what a plain write hands on (DEDUCED, log 7), the byte-wise engine
and load path (DEDUCED, log 13), the record and barrier of a held fault (log 14), the form of work between stages (log 16), the stop at
SAFEMAX (log 18), launches and bins as they end (log 19), and which crew is displaced and when a carve changes (log 27). -/
def Obligations.UnitEventsComplete : Prop :=
  (∀ (s : State) (op : Nat) (o : CopyOp), SMap.find s.copies op = some o → o.dead = false → o.fault = none → s.mayBegin op o = true →
    let put (s : State) (o' : CopyOp) : State := { s with copies := SMap.put s.copies op o' }
    (∀ u i sp addr c, u < o.work.units → i < o.work.reads → Ivs.has o.got u = false → SMap.has (o.partOf u) i = false →
      o.source s u i (o.partOf u) = .byte sp addr c → SlotReady s o sp c false →
      (∀ ring pull base st nt next size claim, o.work = .sub ring pull base st nt next size claim → u / size < next) →
      let run := exec (.copyLanding op (u * o.work.reads + i)) s
      let s0 := s.copyBefore o sp addr
      let part := SMap.put (o.partOf u) i (s0.copyByte o sp addr)
      let o' := { o with parts := SMap.put o.parts u part }
      let s1 := (put s0 o').copyTouch o sp addr false
      let r := o'.results s1 u part
      let o2 := { o' with got := Ivs.add o.got u, parts := SMap.del o'.parts u, pend := o.pend ++ r.1 }
      let slot (x : State) (p : CopyOp) : State := if sp = 2 then x.finishClaims p true [c] else x
      (Answers s o sp addr false → o'.unitRead s1 u = false → run = .next (slot s1 o')) ∧
      (Answers s o sp addr false → o'.unitRead s1 u = true → run = .next (slot (s1.finishUnit op o' u) o2) ∧
        s1.finishUnit op o' u = if r.2 then
          ((put s1 o2).usesObj o).barUpdate o.obj false fun x => { x with status := x.status ||| 1 }.settle else put s1 o2) ∧
      (Ends s o sp addr false → run = .next (s.endCopy op)) ∧
      (Absent s o sp addr false → run = .next (s.copyFault op o false addr))) ∧
    (∀ k b, o.pend[k]? = some b → SlotReady s o b.sp b.claim true →
      let run := exec (.copyLanding op (o.work.units * o.work.reads + k)) s
      let o' := { o with pend := o.pend.eraseIdx k, done := o.done + 1 }
      let s0 := s.copyBefore o b.sp b.addr
      let s1 := put (s0.copyWrite o b) o'
      let counted (s : State) : State := (s.usesObj o).countedIn o.tg o.rel o.obj
      (Answers s o b.sp b.addr true → run = .next (s.landByte op o k b) ∧
        (b.sp = 1 → let loc := s0.locOf o.core o.ctx b.addr
          s0.copyWrite o b = ((s0.store loc [b.val]).wroteFor o.tg o.rel (.glob loc, 1)).touch o.core o.ctx b.addr true) ∧
        (b.sp = 0 → let p : ObjRef × Nat := (.arena o.crew b.addr, 1)
          s0 = s ∧ s.copyWrite o b = ((s.modCrew o.crew fun c => c.setSp b.addr [b.val]).overwrite p).wroteFor o.tg o.rel p) ∧
        (o.work.side true = none → o.work.side false = none →
          (o'.left ≠ 0 → s.landByte op o k b = (counted s1).barUpdate o.obj false fun x => x.land 1) ∧
          (o'.left = 0 → s.landByte op o k b =
            ((counted { s1 with copies := SMap.del s1.copies op }).barUpdate o.obj false fun x => x.land 1).reapCrew o.crew))) ∧
      (Ends s o b.sp b.addr true → run = .next (s.endCopy op)) ∧
      (Absent s o b.sp b.addr true → run = .next (s.copyFault op o true b.addr)))) ∧
  (∀ (s : State) (op i : Nat) (o : CopyOp), SMap.find s.copies op = some o →
    (o.dead = true → exec (.copyLanding op i) s = .next (s.endCopy op)) ∧
    (o.work.side true = none → o.work.side false = none → o.left ≠ 0 → s.endCopy op =
      ((({ s with copies := SMap.del s.copies op }.usesObj o).countedIn o.tg o.rel o.obj).barUpdate o.obj false fun x =>
        { x with status := x.status ||| 1 }.land o.left).reapCrew o.crew) ∧
    (∀ q p, SMap.find s.copies q = some p → o.dead = false → o.started = false → p.started = false → p.core = o.core →
      (∀ ring pull base st nt next size claim, o.work ≠ .sub ring pull base st nt next size claim ∧
        p.work ≠ .sub ring pull base st nt next size claim) →
      s.canBegin q p = true → s.copyDeadline q < s.copyDeadline op → exec (.copyLanding op i) s = .refused .eventNotEnabled)) ∧
  (∀ (s : State) (op : Nat) (o : CopyOp) (ring : Nat) (pull : Bool) (base st : W64) (nt next size claim : Nat),
    SMap.find s.copies op = some o → o.dead = false → o.fault = none → o.work = .sub ring pull base st nt next size claim → next < nt →
    (let r := s.ringOf o ring; if pull then r.canRead (claim + next) else r.canFill (claim + next)) = true →
    let va := base + BitVec.ofNat 64 next * st
    let o' := { o with work := .sub ring pull base st nt (next + 1) size claim }
    let run := exec (if pull then .subscriptionPull op else .subscriptionPush op) s
    (va.toNat + size ≤ 2 ^ 57 →
      (∀ v ∈ rangeBlocks va.toNat size, ∃ e, s.translate o.core o.ctx v = .leaf e true ∧ e.loc < 2 ^ 52 ∧
        (pull = true → e.w = true ∧ e.b = false)) →
      run = .next { s with copies := SMap.put s.copies op o' }) ∧
    (2 ^ 57 < va.toNat + size → run = .next (s.endSub op)) ∧
    (va.toNat + size ≤ 2 ^ 57 →
      (∀ v ∈ rangeBlocks va.toNat size, ∃ e r, s.translate o.core o.ctx v = .leaf e r ∧ (2 ^ 52 ≤ e.loc ∨ pull = true ∧ e.w = false)) →
      run = .next (s.endSub op))) ∧
  (∀ (s : State) (core op crew : Nat) (mask : BitVec 16) (gg : Gang), s.gang crew mask = some gg →
    earliest (s.startable core) = some (op, crew, mask) → s.engineRuns core = false →
    exec (.engineOpStart core op) s = .next (s.modGang crew mask fun x => { x with ops := x.ops.map fun o =>
      if o.id = op then { o with started := true, result := some (o.compute s crew core gg) } else o })) ∧
  (∀ (s : State) (core op crew : Nat) (gg : Gang) (o : EngineOp), s.runningOp core op = some (crew, gg, o) →
    let s1 := (landOp s crew gg o).modGang crew gg.mask fun x => { x with ops := x.ops.filter fun p => p.id != op }
    let s2 := { s1 with ralf := { s1.ralf with tokens := s1.ralf.tokens - 1 } }
    exec (.engineOpComplete core op) s =
      .next ((((s2.barUpdate (.stream crew gg.mask o.stream) false fun x => x.land 1).wakeCol crew gg.mask).wakeQueue core).reapCrew crew) ∧
    (∀ ty d a b v, o.work = .mul ty d a b ∨ o.work = .add ty d a b → o.poison = false → o.result = some v →
      landOp s crew gg o = s.modGang crew gg.mask fun x => x.setVal d v) ∧
    (∀ d a b ty tb v, o.work = .mma d (.reg a) (.reg b) ty tb → o.poison = false → o.result = some v →
      landOp s crew gg o = s.modGang crew gg.mask fun x => x.setVal d v)) ∧
  (∀ (s : State) (crew : Nat) (mask : BitVec 16) (c : Crew) (gg : Gang) (x : Transfer) (rest : List Transfer), s.crew crew = some c →
    s.gang crew mask = some gg → gg.xfers = x :: rest → x.dead = none → x.fault = none →
    let core := c.core.getD 0
    let o := (crew, core, x.ctx)
    let now := x.choice s
    let vas := (now.filter fun b => b.acc.sp == 1).map (·.acc.addr)
    let last : Prop := x.left.length = now.length
    let goesOn (x' : Transfer) (g : Gang) : Gang := { g with xfers := x' :: g.xfers.drop 1 }
    let popped (g : Gang) : Gang := { g with xfers := g.xfers.drop 1 }
    (∀ b ∈ now, b.acc.sp = 1 → ∃ e, s.translate core x.ctx b.acc.addr = .leaf e true ∧ e.loc < 2 ^ 53 ∧
      (b.acc.wr = true → e.w = true ∧ e.b = false)) →
    exec (.transferPerform crew mask) s = .next (((performXfer s crew core gg x).wakeCol crew mask).reapCrew crew) ∧
    (x.left ≠ [] → now ≠ []) ∧ (∀ b ∈ now, b ∈ x.work.bytes ∧ SMap.has x.moved b.num = false) ∧
    (s.inReset x.ctx = true → performXfer s crew core gg x = s.modGang crew gg.mask popped) ∧
    (s.inReset x.ctx = false →
      (∀ d, x.work.target = some d →
        let x' := { x with moved := now.foldl (fun m b => SMap.put m b.num (readXByte s o b)) x.moved }
        (¬last → performXfer s crew core gg x = (s.modGang crew gg.mask (goesOn x')).touchAll core x.ctx vas false) ∧
        (last → x.poison = false → performXfer s crew core gg x =
          (s.modGang crew gg.mask fun g => (popped g).setVal d (x.work.result (x.gang s gg) x'.elems)).touchAll core x.ctx vas false)) ∧
      (x.work.target = none →
        let vals := x.values s gg
        let x' := { x with vals := some vals, moved := now.foldl (fun m b => SMap.put m b.num 0) x.moved }
        (x.poison = false → x.vals = none → vals = x.work.stored (x.gang s gg)) ∧ (∀ v, x.vals = some v → vals = v) ∧
        performXfer s crew core gg x =
          ((now.foldl (writeXByte o vals) s).modGang crew gg.mask fun g => if last then popped g else goesOn x' g).touchAll
            core x.ctx vas true))) ∧
  (∀ (s : State) (crew n : Nat) (mask : BitVec 16) (gg : Gang) (p : Nat × Tg) (col : Col) (x : Interruptible), s.gang crew mask = some gg →
    (s.listed crew mask).head? = some p → gg.col = some col → colStages col.instr = some x →
    n = col.stage.getD (p.2.sAt x.sreg).toNat → col.token = true → gg.ops = [] → gg.xfers = [] →
    (col.stage = none → s.engineLoad (((s.crew crew).bind (·.core)).getD 0) < 16) →
    (∀ r w, x.stage (gg.stageSource s x n) p.2 n = .work r w →
      let s1 := s.modGang crew mask fun g =>
        { (g.setForm x.d (.work x.isFact r (n + 1))).setVal x.d (.work w) with col := some { col with stage := some (n + 1) } }
      ((∀ q ∈ s1.listed crew mask, q.2.preempt = false ∧ (q.2.budgetDue = false ∨ q.2.trap.tstat = true)) →
        exec (.recompressStage crew mask) s = .next s1) ∧
      (∀ q ∈ s1.listed crew mask, q.2.preempt = true ∨ (q.2.budgetDue = true ∧ q.2.trap.tstat = false) →
        exec (.recompressStage crew mask) s = .next (s1.stopStages crew mask x.sreg (n + 1)))) ∧
    (∀ fm v, x.stage (gg.stageSource s x n) p.2 n = .done fm v → gg.occWith x.d fm ≤ (s.crewOf p.2).slabs →
      exec (.recompressStage crew mask) s =
        .next ((s.modGang crew mask fun g => (g.setForm x.d fm).setVal x.d v).completeCol crew mask (some (x.sreg, 0)))) ∧
    (∀ k, x.stage (gg.stageSource s x n) p.2 n = .rankovf k → exec (.recompressStage crew mask) s =
      .next ((s.setAllS crew mask x.sreg 9).trapCol crew mask .rankovf fun _ => BitVec.ofNat 64 k))) ∧
  (∀ (s : State) (die bin : Nat) (b : Bin), SMap.find (s.die die).bins bin = some b → (∀ d, s.nextDue = some d → b.due ≤ d) →
    (∀ t, s.firstIssue = some t → b.due ≤ max s.clk t) →
    let s0 := s.advanceClk (b.due - s.clk)
    exec (.binTimerExpiry die bin) s = .next (s0.fireBin die bin) ∧ s0.clk = max s.clk b.due ∧
    (∀ l c, s0.launch b.launch = some l → s0.ctx l.ctx = some c → l.failed = false →
      let s1 := (s0.modDie die fun d => { d with bins := SMap.del d.bins bin }).modDie die fun d => { d with pool := d.pool.bump }
      let s2 := b.threads.foldl (fun s t => s.runEntry l.ctx t.handle) s1
      let slot := freeSlot (s2.die die) die
      let key := s2.spawnKey
      (s0.fireBin die bin).mem = s2.mem ∧ (s0.fireBin die bin).tg (key * 16) = some (firedTg b.launch l c b key die slot s0.stamp) ∧
      (s0.fireBin die bin).crew key = some { noCrew with
        ctx := l.ctx, launch := b.launch, num := 0, spawned := true, tgs := [key * 16], live := 1, k := 16 * b.regs, order := l.order
        die := some die } ∧
      ∀ m, slot = some m → m ∈ ((s0.fireBin die bin).die die).slots)) ∧
  (∀ (s : State) (id t : Nat) (g0 : Tg) (m : MacRun), s.tg id = some g0 → g0.mac = some m → g0.wait = .mac → g0.resident = true →
    let g := { g0 with sinceSafe := if g0.trap.tstat then g0.sinceSafe else 0 }
    let s0 := { s with cur := id }.modTg id fun g => { g with sinceSafe := if g.trap.tstat then g.sinceSafe else 0 }
    s0.macTurn id g = true → m.mayStep t = true → m.running.has t = true → s0.reclaimable g = 0 →
    (g.stopPending = true → exec (.macroStep id t) s = .next ((s0.macSlice id t m).endIfStopped id) ∧
      (inPasses m.instr = false → s0.macSlice id t m =
        ((s0.modTg id fun g => g.putReason m t rSlice 0).macLeave id t).modMac id fun m => { m with slice := true })) ∧
    (g.stopPending = false →
      (∀ e, stepOf m s0 id g t = .error e → exec (.macroStep id t) s = .next (s0.macStop id t m e) ∧
        (∀ c info tid, e.st = .trap c info tid → s0.macStop id t m e = s0.macTrap id c info tid) ∧
        (∀ w u va tid, e.st = .fault w u va tid →
          (faultCallback m = true → s0.macStop id t m e =
            ((s0.modTg id fun g => g.putReason m t rFaultCb e.kind).macLeave id t).endIfStopped id) ∧
          (faultCallback m = false → s0.macStop id t m e =
            (((s0.modTg id fun g => g.putReason m t rRun 0).macFault id tid w va).macLeave id t).endIfStopped id))) ∧
      (∀ s1 r, stepOf m s0 id g t = .ok (s1, r) → exec (.macroStep id t) s = .next (s1.macAfter id t r m) ∧
        (inPasses m.instr = false → s1.macAfter id t r m = (if r = rRun then s1 else s1.macLeave id t).endIfStopped id)))) ∧
  (∀ (s : State) (die : Nat) (h : FaultInfo) (l : List FaultInfo), (s.die die).heldFaults = h :: l → (s.die die).canPost = true →
    let d := s.die die
    let i := SMap.lowFree d.faults
    let bar := d.fbbase.toNat + 16 * i
    let record := leBytes h.va.toNat 8 ++ leBytes h.ctx 2 ++ leBytes h.core 2 ++ leBytes h.kind.toNat 1 ++ leBytes h.src.code 1 ++
      leBytes i 2 ++ leBytes h.time.toNat 8 ++ leBytes h.dl.toNat 8
    let s1 := ((s.updObj (.glob bar) fun o => { Obj.fresh 1 with phase := o.phase }).setBytes
      (d.fqbase.toNat + 32 * (d.fqtail.toNat % d.fqsize.toNat)) record).updObj (.glob d.fqbar.toNat) fun o => o.land 32
    let ph := (s1.obj (.glob bar)).phase
    ∃ s', exec (.heldFaultPost die) s = .next s' ∧ s'.mem = s1.mem ∧ (s'.die die).fqtail = d.fqtail + 1 ∧
      SMap.find (s'.die die).faults i = some (h.ctx, h.page, h.time.toNat) ∧
      (s'.die die).heldFaults = d.heldFaults.filter (fun k => !(k.ctx == h.ctx && k.page == h.page)) ∧
      ∀ id g va tid fill, s.tg id = some g → g.ctx = h.ctx → g.wait = .heldFault die va tid fill → s.pageOf g.ctx va.toNat = h.page →
        g.mac = none → s'.tg id = some { g with wait := .fault die i ph va tid fill, sinceSafe := 0 }) ∧
  (∀ (s : State) (id : Nat) (g : Tg), s.tg id = some g →
    (g.task.tgbud = 0 → g.budget = false → g.budgetTaken = false →
      exec (.budgetExhausted id) s = .next (s.modTg id fun g => { g with budget := true })) ∧
    (∀ c, s.ctx g.ctx = some c → g.resident = true → g.wait = .ready → g.held = false → c.safemax.toNat ≤ g.sinceSafe →
      g.preempt = true ∨ (g.budgetDue = true ∧ g.trap.tstat = false) →
      exec (.forcedStop id) s = .next (s.modTg id fun x => { x with
        forced := x.preempt, held := x.preempt, budgetForced := x.budgetForced || (g.budgetDue && !g.trap.tstat), sinceSafe := 0 })) ∧
    (∀ k p, g.stores[k]? = some p → (∀ q ∈ g.stores.take k, overlaps q.loc q.data.length p.loc p.data.length = false) →
      let s1 := ((s.store p.loc p.data).modTg id fun g => { g with stores := g.stores.eraseIdx k }).prune
      exec (.homeSlicePerform id k) s = .next (s1.markRelease id k p.pos p.rel [(.glob p.loc, p.data.length)] none) ∧
      (k = 0 → g.reads = [] → exec (.homeSlicePerform id k) s = .next s1))) ∧
  (∀ (s : State) (crew : Nat) (c : Crew), s.crew crew = some c → c.core ≠ none →
    (c.preempt = false → s.displaced crew c = true → ∃ s', exec (.crewPreempt crew) s = .next s' ∧
      s'.crew crew = some { c with preempt := true } ∧
      ∀ id g, s.tg id = some g → s'.tg id = some (if g.crew = crew then { g with preempt := true } else g)) ∧
    (c.preempt = true → s.unsavable crew c = false →
      (∀ id ∈ c.tgs, ∀ g, s.tg id = some g → s.reclaimNow g ≠ 0 →
        exec (.crewPreempt crew) s = .next (c.tgs.foldl State.reclaimStopped s)) ∧
      ((∀ id ∈ c.tgs, ∀ g, s.tg id = some g → s.reclaimNow g = 0) → ∃ s', exec (.crewPreempt crew) s = .next s' ∧
        let s0 := c.tgs.foldl State.finishLate s
        (∀ k, s0.crew crew = some k → s'.crew crew = some { k with core := none, saved := true, preempt := false }) ∧
        ∀ id g, s0.tg id = some g → s'.tg id = some (if g.crew = crew then g.saved s0 id else g)))) ∧
  (∀ (s : State) (core num lid : Nat) (l : Launch) (c : Context) (subs : List Nat), earliest s.placeable = some (true, lid) →
    s.launch lid = some l → s.ctx l.ctx = some c → s.fits core l.desc.need = some subs → num < l.desc.ncrew → num ∉ l.placed →
    core < 192 → (l.desc.fixed = true → core = num % 192) →
    let d := l.desc
    let key := lid * 2 ^ 26 + num
    exec (.crewPlace key core) s = .next (s.placeNew lid l c num core subs) ∧
    (∀ i, i < d.crewtg → (s.placeNew lid l c num core subs).tg (key * 16 + i) =
      some (launchedTg lid l c key (num * d.crewtg + i) core (subs.getD i 0) (s.stamp + i))) ∧
    (∃ k, (s.placeNew lid l c num core subs).crew key = some k ∧ k.core = some core ∧ k.live = d.crewtg ∧ k.scratch = newScratch d ∧
      k.staging = [] ∧ k.rings = [] ∧ k.gangs = [] ∧ k.launch = lid ∧ k.num = num) ∧
    (∃ l', (s.placeNew lid l c num core subs).launch lid = some l' ∧ l'.placed = num :: l.placed ∧
      l'.state = if l.placed.length + 1 = d.ncrew then 3 else 2)) ∧
  (∀ (s : State) (core key : Nat) (k : Crew) (l : Launch) (c : Context) (subs : List Nat), earliest s.placeable = some (false, key) →
    s.crew key = some k → s.launch k.launch = some l → s.ctx l.ctx = some c → s.fits core (k.need s l) = some subs → core < 192 →
    ((k.need s l).fixed = true → core = k.num % 192) → (k.die = none ∨ k.die = some (core / 48)) →
    exec (.crewPlace key core) s = .next (s.placeOld key k l c core subs) ∧
    (s.placeOld key k l c core subs).crew key = some { k with core := some core, saved := false, preempt := false } ∧
    (k.tgs.Nodup → ∀ (i id : Nat) (g : Tg), (k.liveTgs s)[i]? = some (id, g) → ∃ g1 : Tg,
      (∀ m, g.slot = some m → k.saved = false → g1 = g.inSlot l c m) ∧ (g.slot = none ∨ k.saved = true → g1 = g) ∧
      (s.placeOld key k l c core subs).tg id = some { g1 with
        core := core, sub := subs.getD i 0, resident := true, order := s.stamp + i, preempt := false, held := false, forced := false
        sinceSafe := 0, wait := g1.wait.restored })) ∧
  (∀ (s : State) (core carve : Nat), core < 192 → carve % 64 = 0 → 128 ≤ carve → carve ≤ 640 →
    (∀ p ∈ s.crews, p.2.core ≠ some core) → (∀ p ∈ s.copies, p.2.core ≠ core) →
    exec (.carveChange core carve) s = .next (s.modCore core fun c => { c with carve := some carve })) ∧
  (∀ (s : State) (id : Nat) (l : Launch) (c : Context), s.launch id = some l → s.ctx l.ctx = some c → c.function ∉ s.resetting →
    (l.state = 1 → (∀ w ∈ l.waits, s.launch w = none) →
      exec (.launchStart id) s = .next (s.updLaunch id fun x => { x with state := 2, waits := [] })) ∧
    (l.state = 3 → l.failed = false → s.launchLives id = false → (∀ k ∈ s.contribs, k.launch ≠ id) →
      let mine := (s.held.filter fun k => k.launch == id).foldr insContrib []
      let s1 := mine.foldl State.applyContrib { s with held := s.held.filter fun k => k.launch != id }
      exec (.reductionFlush id) s = .next (s1.updLaunch id fun x => { x with state := 4, spilled := 0 })) ∧
    (l.failed = true ∨ l.state = 4 → s.launchLives id = false → (∀ p ∈ s.crews, p.2.launch ≠ id) → (∀ p ∈ s.copies, p.2.launch ≠ id) →
      let l' := { l with state := if l.failed then 6 else 5 }
      let s1 := (s.modLaunch id fun x => { x with state := if l.failed then 6 else 5 }).cpWrite l.ctx l.desc.stat (l'.status s.gtime)
      let s2 := s1.endLaunchFuture l' s.gtime
      exec (.launchComplete id) s = .next { s2 with
        launches := (SMap.del s2.launches id).map fun p => (p.1, { p.2 with waits := p.2.waits.filter (· != id) }) }) ∧
    (∀ i k, s.contribs[i]? = some k → k.launch = id →
      let s1 := { s with contribs := s.contribs.eraseIdx i }
      (l.failed = true → exec (.redDetContribution i) s = .next s1) ∧
      (l.failed = false → k.loc < 2 ^ 53 → (s.held.filter fun h => !h.spilled && homeSlice h.loc == homeSlice k.loc).length < 8192 →
        exec (.redDetContribution i) s = .next { s1 with held := s.held ++ [k] }) ∧
      (l.failed = false → 2 ^ 53 ≤ k.loc → exec (.redDetContribution i) s = .next ((s1.applyContrib k).loseDet id))))

/-- R2, R149, R153, R176, R179, R201, R205, R286 to R289, R338, R344, R404 to R415: what the host, the command processor, the Ralfester controller and another module
do completes where the spec lets them do it. The model's choices among it: a function's reset as it ends (log 21), what a disabled or
halted module does with a command (DESIGN CHOICE, log 22), records and the layout of a report (log 23), undelivered requests (log 25),
when a queue is mapped and where a notify lands (DESIGN CHOICE, log 28), and the replies to another module (DESIGN CHOICE, log 37). -/
def Obligations.HostEventsComplete : Prop :=
  (∀ (s : State) (ctx qn : Nat) (q : Queue) (h : QHead) (k a : Nat), s.queue ctx qn = some q → s.accepts ctx = true → q.slot ≠ none →
    let put (s : State) (off n x : Nat) : State := (s.write (h.loc + off) n x).walked ctx q.desc.toNat true
    let s1 := s.cpAcquire ctx q.desc 64
    let s2 := s1.cpAcquire ctx (h.ring + BitVec.ofNat 64 (16 * (h.head % h.cap))) 16
    s1.queueHead ctx q = some h → h.err = 0 → h.head < max q.notify.toNat h.notify →
    (h.ok = false → exec (.cmdLaunch ctx qn) s = .next (put s1 22 2 1) ∧ exec (.cmdNop ctx qn) s = .next (put s1 22 2 1)) ∧
    (h.ok = true → s2.commandAt ctx h h.head = some (k, a) →
      (k = 1 → exec (.cmdLaunch ctx qn) s =
        .next ((put s2 24 8 (h.head + 1)).acceptLaunch ctx (BitVec.ofNat 64 a) none)) ∧
      (k = 2 → a = 0 → exec (.cmdNop ctx qn) s = .next (put s2 24 8 (h.head + 1))) ∧
      (k ≠ 1 → ¬(k = 2 ∧ a = 0) → exec (.cmdLaunch ctx qn) s = .next (put s2 22 2 2) ∧ exec (.cmdNop ctx qn) s = .next (put s2 22 2 2)))) ∧
  (∀ (s : State) (ctx n : Nat) (va : W64) (l : List (Nat × Nat)), s.cpRange ctx va n = some l →
    let s1 := s.acquireAt .commandProcessor (l.map fun p => (.glob p.1, p.2))
    s.cpAcquire ctx va n = (rangeBlocks va.toNat n).foldl (fun s v => s.walked ctx v false) s1 ∧
    s.cpBytes ctx va n = some (l.flatMap fun p => s.bytes p.1 p.2 0)) ∧
  (∀ (s : State) (ctx n i : Nat) (h : QHead) (a : Nat),
    let s1 := s.cpAcquire ctx (h.ring + BitVec.ofNat 64 (16 * (i % h.cap))) 16
    let s2 := s1.cpAcquire ctx (BitVec.ofNat 64 a) 256
    s1.commandAt ctx h i = some (1, a) → (s2.descBytes ctx (BitVec.ofNat 64 a)).isSome = true → s.scanCommands ctx h (n + 1) i = s2) ∧
  (∀ (s : State) (ctx qn : Nat) (q : Queue) (v : W64), s.queue ctx qn = some q →
    let put (s : State) (h : QHead) (off n x : Nat) : State := (s.write (h.loc + off) n x).walked ctx q.desc.toNat true
    (s.inReset ctx = true ∨ s.ralf.disabled = true → exec (.notify ctx qn v) s = .next s) ∧
    (s.inReset ctx = false → s.ralf.disabled = false → q.slot ≠ none →
      exec (.notify ctx qn v) s = .next (s.modQueue ctx qn fun q => { q with notify := v })) ∧
    (∀ h, s.inReset ctx = false → s.ralf.disabled = false → q.slot = none → s.queueHead ctx q = some h →
      exec (.notify ctx qn v) s = .next (put s h 40 8 (max h.notify v.toNat))) ∧
    (let s1 := s.scanQueues
     ∀ h d, s1.queueHead ctx q = some h → (d, ctx, qn) ∈ s1.toMap → s.slotsUsed.length < 128 →
      (s1.toMap.length + s.slotsUsed.length ≤ 128 ∨ ∀ p ∈ s1.toMap, ∀ p' ∈ s1.toMap, p'.2 = (ctx, qn) → p'.1 ≤ p.1) →
      ∃ m, m < 128 ∧ m ∉ s.slotsUsed ∧
        exec (.queueMap ctx qn) s = .next ((put s1 h 20 2 m).modQueue ctx qn fun q => { q with slot := some m, notify := 0 })) ∧
    (∀ h, q.slot ≠ none → s.queueHead ctx q = some h →
      exec (.queueUnmap ctx qn) s = .next ((put (put s h 40 8 (max h.notify q.notify.toNat)) h 20 2 0xFFFF).modQueue ctx qn fun q => { q with slot := none, notify := 0 }))) ∧
  (∀ (s : State) (src : BitVec 16) (e : HostEvent) (r : HostRecord) (l : List HostRecord),
    s.record src e = { s with events := insRecord { time := s.gtime, source := src, event := e } s.events } ∧
    (l.Pairwise (fun a b => HostRecord.before a b = true) → (insRecord r l).Pairwise fun a b => HostRecord.before a b = true) ∧
    ∀ x, x ∈ insRecord r l ↔ x = r ∨ x ∈ l) ∧
  (∀ (s : State) (i : Instr), s.ralf.disabled = true →
    ((∃ c, i = .contextCreate c) ∨ (∃ n, i = .resume n) ∨ i = .hostReset ∨ (∃ n, i = .flr n) ∨ (∃ m, i = .powerModeSelect m) ∨
      (∃ al p, i = .alarmPolicyWrite al p) ∨ (∃ n, i = .attestationRequest n ∧ n.length = 48) →
      exec i s = .next (s.record 0x0101 .turnedAway)) ∧
    ((∃ loc op, i = .aedunRemoteRequest loc op) ∨
      (∃ die bar bs f, i = .hostFaultService die bar bs ∧ SMap.find (s.die die).faults bar = some f) →
      exec i s = .next s) ∧
    ∀ ctx qn, s.hostRead ctx qn = s) ∧
  (∀ (s : State) (c : ContextSpec), c.id < 2 ^ 16 → c.function ≤ 16 → SysValue 0x31 c.ftsize → SysValue 0x35 c.savebase →
    SysValue 0x40 c.ptroot → c.tvec.toNat % 2048 = 0 → s.ctx c.id = none → c.function ∉ s.resetting → s.ralf.disabled = false →
    ∃ s' x, exec (.contextCreate c) s = .next s' ∧ s'.ctx c.id = some x ∧ (∀ j, j ≠ c.id → s'.ctx j = s.ctx j) ∧
      x.function = c.function ∧ x.system = c.system ∧ x.tvec = c.tvec ∧ x.memdef = 0x189 ∧ x.seed = c.seed ∧ x.ftbase = c.ftbase ∧
      x.ftsize = c.ftsize ∧ x.safemax = 8192 ∧ x.faultmode = c.faultmode ∧ x.savebase = c.savebase ∧ x.ptroot = c.ptroot ∧
      x.halted = false ∧ x.accepted = 0 ∧ x.handles = [] ∧ x.queues.map (fun q => q.2.desc) = c.queues) ∧
  (∀ (s : State) (ctx : Nat) (c : Context), s.ctx ctx = some c → c.halted = true → s.halted = false → s.ralf.disabled = false →
    (∀ p ∈ s.crews, p.2.ctx = ctx → p.2.core = none) →
    exec (.resume ctx) s = .next (s.modCtx ctx fun c => { c with halted := false })) ∧
  (∀ s : State, s.ralf.disabled = false → exec .hostReset s = .next { s with halted := false }) ∧
  (∀ (s : State) (fn : Nat), fn ≤ 16 → s.ralf.disabled = false →
    let mine (c : Nat) : Prop := ∃ x, s.ctx c = some x ∧ x.function = fn
    let s1 := s.flrStop fn
    (fn ∉ s.resetting → exec (.flr fn) s = .next s1) ∧
    (fn ∈ s.resetting → exec (.flr fn) s = .next (if s1.flrQuiet fn then s1.flrScrub fn else s1)) ∧
    fn ∈ s1.resetting ∧ (∀ c qn q, mine c → s1.queue c qn = some q → q.slot = none) ∧
    (∀ id g, s.tg id = some g → mine g.ctx → g.wait ≠ .mac → s1.tg id = none) ∧
    (∀ op o, SMap.find s.copies op = some o → mine o.ctx → SMap.find s1.copies op = none) ∧
    (∀ ctx x, s.ctx ctx = some x → (s.flrScrub fn).ctx ctx = some (if x.function = fn then { x with queues := [], handles := [] } else x)) ∧
    (∀ l x, (s.flrScrub fn).launch l = some x → ¬mine x.ctx) ∧ (∀ k x, (s.flrScrub fn).crew k = some x → ¬mine x.ctx) ∧
    (∃ src, (src = 0x0300 ∨ src = 0x0301) ∧ (s.flrScrub fn).events = (s.record src (.flrDone fn)).events) ∧
    fn ∉ (s.flrScrub fn).resetting) ∧
  (∀ (s : State) (die bar ctx page time : Nat) (bs : List Byte), SMap.find (s.die die).faults bar = some (ctx, page, time) →
    let o : ObjRef := .glob ((s.die die).fbbase.toNat + 16 * bar)
    let s1 := s.makeResident ctx page bs
    let waits (g : Tg) (va : W64) (tid : Nat) : Prop := g.mac = none ∧ ∃ ph fill, g.wait = .fault die bar ph va tid fill
    (s.ralf.disabled = false → exec (.hostFaultService die bar (some bs)) s = .next (s1.barUpdate o false Obj.arrive) ∧
      exec (.hostFaultService die bar none) s = .next (s.barUpdate o true Obj.inval)) ∧
    (∀ e r, s.walk ctx page = .leaf e r →
      let s0 := if bs = [] then s else s.store e.loc (bs.take e.size)
      s1.mem = (s0.setByte e.leaf (s0.last e.leaf ||| 0x20)).mem ∧
      ∀ c, (∀ t ∈ (s1.core c).tlb, t.ctx = ctx → e.base + e.size ≤ t.base ∨ t.base + t.size ≤ e.base) ∧
        ∀ t ∈ (s1.die c).tlb, t.ctx = ctx → e.base + e.size ≤ t.base ∨ t.base + t.size ≤ e.base) ∧
    (s.faultBarAt ((s.die die).fbbase.toNat + 16 * bar) = some (die, bar) →
      (∀ id g va tid, s.tg id = some g → waits g va tid →
        (s.barUpdate o true Obj.inval).tg id = some { g with wait := .ready, faultInval := some (va, tid) } ∧
        ((Obj.arrive (s.obj o)).phase ≠ (s.obj o).phase → (s.barUpdate o false Obj.arrive).tg id = some { g with wait := .ready })) ∧
      ((Obj.arrive (s.obj o)).phase ≠ (s.obj o).phase →
        SMap.find ((s.barUpdate o false Obj.arrive).die die).faults bar = none))) ∧
  (∀ (s : State) (loc : Nat) (op : RemoteOp), s.ralf.disabled = false → 0 < RemoteOp.bytes op → RemoteOp.bytes op ≤ 16 →
    loc % RemoteOp.bytes op = 0 → hbmOk loc = true → hbmOk (loc + RemoteOp.bytes op - 1) = true →
    let o : ObjRef := .glob loc
    let reply (s : State) (bs : List Byte) : State := s.record s.srcPort (.linkReply bs)
    let sc (ord : Nat) : State := if ord = 5 then s.scAfter (.other 0) 5 else s
    let read (ord : Nat) (p : ObjRef × Nat) : State :=
      if ord = 2 ∨ ord = 4 ∨ ord = 5 then (sc ord).acquireAt (.other 0) [p] else sc ord
    ∃ s', exec (.aedunRemoteRequest loc op) s = .next s' ∧
      (∀ n ord, op = .load n ord → s' = reply (read ord (o, n)) ((read ord (o, n)).bytes loc n 0)) ∧
      (∀ d ord, op = .store d ord → s' = (sc ord).store loc d) ∧
      (∀ x ty b1 b2 ord ret, op = .rmw x ty b1 b2 ord ret → let s1 := if ret then read ord (o, ty.bytes) else sc ord
        let old := s1.bytes loc ty.bytes 0
        let s2 := (atomWrites x.toNat ty 15 (leNat old) b1.toNat b2.toNat).foldl (fun s w => s.setBytes (loc + w.1) w.2) s1
        s' = if ret then reply s2 old else s2) ∧
      (∀ ph, op = .barWait ph ∧ (s.obj o).phase ≠ ph ∨ op = .barTest ph →
        s' = reply (if (s.obj o).phase = ph then s else s.acquireAt (.other 0) [phasePlace o]) (leBytes (s.obj o).word.toNat 8)) ∧
      (∀ ph, op = .barWait ph → (s.obj o).phase = ph →
        s' = { s with remoteWaits := loc :: s.remoteWaits } ∧ s'.parkedOn o = true ∧
          ∀ f : Obj → Obj, (f (s.obj o)).phase ≠ ph → (s'.updObj o f).remoteWaits = s.remoteWaits.filter (· != loc) ∧
            { time := s.gtime, source := s.srcPort, event := HostEvent.linkWake loc : HostRecord } ∈ (s'.updObj o f).events) ∧
      (∀ n, op = .barInit n → (s.parkedOn o = true → s' = reply s [1]) ∧
        (s.parkedOn o = false → s' = reply ((s.updObj o fun x => x.init n).forgetPhase o (s.obj o).phase) [0])) ∧
      (op = .barArrive → s' = reply (s.barUpdate o false Obj.arrive) (leBytes (s.obj o).phase.toNat 2)) ∧
      (∀ n, op = .barExpect n → s' = s.barUpdate o false fun o => o.expect n.toNat) ∧
      (op = .barInval → s' = (s.forgetPhase o (s.obj o).phase).barUpdate o true Obj.inval)) ∧
  (∀ (s : State) (id : Nat) (g : Tg), s.tg id = some g →
    let run := exec (.linkDeliveryTimeout id) s
    let sent (c : Contrib) : Bool := c.owner == id && decide (2 ^ 53 ≤ c.loc)
    ((∀ p ∈ g.stores, p.loc < 2 ^ 53) → (∀ c ∈ s.contribs, sent c = false) → run = .next (s.modTg id fun g => { g with linkLost := true })) ∧
    (∀ va tid, (∃ p, g.stores.find? (fun p => decide (2 ^ 53 ≤ p.loc)) = some p ∧ va = p.va ∧ tid = p.tid) ∨
        ((∀ p ∈ g.stores, p.loc < 2 ^ 53) ∧ ∃ c, s.contribs.find? sent = some c ∧ va = c.va ∧ tid = c.tid) →
      ∃ s' g', run = .next s' ∧ s'.mem = s.mem ∧ s'.tg id = some g' ∧ s'.contribs = s.contribs.filter (fun c => !sent c) ∧
      g'.linkLost = true ∧ g'.faultInval = some (va, tid) ∧ g'.stores = g.stores.filter (fun p => decide (p.loc < 2 ^ 53)) ∧
      g'.wait = (match g.wait with
        | .col _ => .ready
        | w => w))) ∧
  (∀ (s : State) (r c : Firmware), s.ralf.booted = false → s.ralf.disabled = false →
    let good (key floor : Nat) (x : Firmware) : Prop := s.ralf.keysErased = false ∧ Config.signatureOk key x.body x.sig = true ∧ floor ≤ x.version
    let off (s : State) : State := { s with ralf := { s.ralf with disabled := true } }
    let s1 := { s with ralf := { s.ralf with ralfFloor := max s.ralf.ralfFloor r.version } }
    (¬good 0 s.ralf.ralfFloor r → exec (.secureBoot r c) s = .next (off s)) ∧
    (good 0 s.ralf.ralfFloor r → ¬good 1 s.ralf.cpFloor c → exec (.secureBoot r c) s = .next (off s1)) ∧
    (good 0 s.ralf.ralfFloor r → good 1 s.ralf.cpFloor c → exec (.secureBoot r c) s = .next { s1 with ralf := { s1.ralf with
      cpFloor := max s.ralf.cpFloor c.version, booted := true
      measurements := [sha384 Config.bootRom, sha384 r.body, sha384 c.body] } })) ∧
  (∀ s : State,
    let ralf (r : Ralfester) : State := { s with ralf := r }
    let saved := ralf { s.ralf with savedCounters := s.ralf.counters }
    (∀ m, s.ralf.disabled = false → exec (.powerModeSelect m) s = .next (ralf { s.ralf with mode := m }) ∧
      (ralf { s.ralf with mode := m }).ralf.pool =
        (let n := match m with | .peak => 192 | .balanced => 128 | .cool => 80; if s.ralf.stepDown then min n 80 else n)) ∧
    (∀ d, d < 4 → s.ralf.stepDown = true → exec (.thermalStepDown d) s = .next s) ∧
    (∀ d, d < 4 → s.ralf.stepDown = false →
      let s1 := s.count (ctrThermal d)
      exec (.thermalStepDown d) s = .next { s1 with ralf := { s1.ralf with stepDown := true } }) ∧
    exec .thermalRecovery s = .next (ralf { s.ralf with stepDown := false }) ∧
    (∀ n, exec (.lifetimeCounterRead n) s = .next (s.record 0x0101 (.counter n (SMap.get 0 s.ralf.counters n)))) ∧
    exec .counterWriteback s = .next saved ∧ exec .orderlyShutdown s = .next saved ∧
    (∀ a, exec (.softErrorCorrected a) s = .next (s.count (ctrCorrected a))) ∧
    (∀ a, exec (.uncorrectableSoftError a none) s =
      .next ((s.count (ctrUncorrectable a)).record 0x0101 (.softError a none)).haltModule) ∧
    (∀ a c, a ≠ .l2 → a ≠ .futureCache → s.ctx c ≠ none → exec (.uncorrectableSoftError a (some c)) s =
      .next (((s.count (ctrUncorrectable a)).record 0x0101 (.softError a (some c))).haltWhere fun k => k == c)) ∧
    (∀ al p, s.ralf.disabled = false →
      (p = 3 ∨ p < SMap.get 0 s.ralf.policies (alarmIndex al) →
        exec (.alarmPolicyWrite al p) s = .next (s.record 0x0101 .refusedPolicy)) ∧
      (p ≠ 3 → ¬p < SMap.get 0 s.ralf.policies (alarmIndex al) →
        exec (.alarmPolicyWrite al p) s =
          .next (ralf { s.ralf with policies := SMap.set 0 s.ralf.policies (alarmIndex al) p }))) ∧
    (∀ al,
      let p := SMap.get 0 s.ralf.policies (alarmIndex al)
      let s1 := (s.count (ctrAlarm al)).record 0x0101 (.alarm al p)
      (p = 0 → exec (.securityAlarm al) s = .next s1) ∧ (p = 1 ∨ p = 3 → exec (.securityAlarm al) s = .next s1.haltModule) ∧
      (p = 2 → exec (.securityAlarm al) s = .next { s1 with ralf := { s1.ralf with keysErased := true } }.haltModule)) ∧
    (∀ nonce : List Byte, nonce.length = 48 → s.ralf.disabled = false →
      let body := s.attestation nonce
      (s.ralf.keysErased = true → exec (.attestationRequest nonce) s = .next s) ∧
      (s.ralf.keysErased = false →
        let sig := (List.range 96).map fun i => (Config.sign body).getD i 0
        let s1 := s.record 0x0101 (.report body sig)
        exec (.attestationRequest nonce) s = .next { s1 with ralf := { s1.ralf with reports := s1.ralf.reports + 1 } }) ∧
      body.length = 288 ∧ body.drop 240 = nonce ∧ leNat ((body.drop 32).take 8) = s.gtime.toNat))

/-! ### The whole machine -/

/-- R49 to R62, R339: words that the spec writes out decode to the instructions that it writes them for (a check of single words). -/
def Obligations.WordsDecode : Prop :=
  let h : Hdr := { g := 7, n := false, u := false, safe := false, long := .none }
  let r : RArgs := { pfx := none, h := h, d := .v 0, a := .v 0, b := .v 0, cs := .v 0, x := 0, rm := 0, ty := .n8 }
  decode [0x28E0001A0C200002] = .ok (.shl { r with d := .v 1, a := .special .tid, b := .imm 2, ty := .n32 }) 1 ∧
  decode [0x2EE0090020491402] = .ok (.cmp { r with d := .p 0, a := .v 2, b := .v 4, cs := .p 1, x := 4, ty := .n32 }) 1 ∧
  decode [0x3200002040000002] = .ok (.mov { r with h := { h with g := 0 }, d := .v 2, a := .v 4, ty := .n32 }) 1 ∧
  decode [0x3230002040000002] = .ok (.mov { r with h := { h with g := 1, n := true }, d := .v 2, a := .v 4, ty := .n32 }) 1 ∧
  decode [0x41E030A54550A008, 0x8040000001800180] =
    .ok (.fma { r with h := { h with long := .sweep 64 0 384 384 }, d := .v 10, a := .s 20, b := .s 21, cs := .v 10, ty := .f32 }) 2 ∧
  decode [0x41E030A54550A008] = .more ∧
  decode [0xE4E0078000012000] = .ok (.sysr { r with d := .s 56, cs := .v 0x12 }) 1 ∧
  decode [0xE4E0100790010000] = .ok (.sysw { r with a := .s 57, cs := .v 0x10 }) 1 ∧
  decode [0xE2E0000000000000] = .ok (.rett r) 1 ∧
  decode [0xE0E0000000000005] = .ok (.trap { h := h, d := .v 0, a := .v 0, b := 0, c := 5 }) 1 ∧
  decode [0xE6E0000545500000] = .ok (.tlbInv { r with a := .s 20, b := .s 21 }) 1 ∧
  decode [0xECE0000000000000] = .ok (.brkpt r) 1

/-- R49, R66 to R68, R295, R297, R319, R331: when the bytes at the pc of the TG whose turn it is decode to an instruction, the step runs exactly that
instruction: the late halves of the TG's last access and the pages of its words come before it, and after it what the core does at the
end of an instruction (State.after: a pending BUDGET, the clk that the sub-scheduler is occupied, and when the TG is ready again) and of a
step (State.finish: R297 applied to the crew of a TG whose slice has ended, R319, reclamation at waits, the engine queues, the carve-wait
flags of R144 and fresh free values). The TG is the one that its sub-scheduler picks, and no bin's timer and no other sub-scheduler comes before it. Which move
comes next is log 2, and the time an issue takes log 5 (DESIGN CHOICE). -/
def Obligations.StepRunsTheDecodedInstruction : Prop :=
  ∀ (s : State) (id : Nat) (g0 g : Tg) (rest : List Move) (i : Instr) (ws : List W64),
    s.agenda = .issue id :: rest → s.tg id = some g0 → g0.resident = true → s.pick g0.core g0.sub = some id →
    (∀ t d, s.issueTime g0.core g0.sub = some t → s.nextDue = some d ∨ s.firstIssue = some d → t ≤ d) →
    let s1 := ({ s with agenda := rest, cur := id }.finishLate id).toIssue g0.core g0.sub
    s1.tg id = some g → g.wait = .ready → g.ending = .none → g.faultInval = none → g.mask ≠ 0 → g.budgetForced = false →
    decode ws = .ok i ws.length →
    (∀ k w, ws[k]? = some w →
      let va := g.pc + BitVec.ofNat 64 (8 * k)
      s1.checkGl g.core g.ctx [(g.mask.lowest.getD 0, va)] 8 .fetch = none ∧
      BitVec.ofNat 64 (leNat (s1.bytes (s1.locOf g.core g.ctx va.toNat) 8 0)) = w) →
    (∀ f, i = .mcx f → s1.imageFor g f.slot.toNat ≠ none) →
    let s2 := s1.touchCode g ws.length
    (reclaimsAt i = true → s2.reclaimable g = 0) → (isSafe i = true → g.preempt = false) →
    step s = (match exec i s2 with
      | .next s3 => (s3.after id g i (issueClk g i)).finish
      | .fault e => .fault e
      | .refused e => .refused e) ∧
    (∀ s4 : State, (∀ p ∈ s4.tgs, p.2.sliceEnd = false) → (∀ p ∈ s4.tgs, p.2.resident = true → s4.waitReclaims p.2 = 0) →
      s4.wakeQueues.badFaultArea = none → s4.finish = .next s4.wakeQueues.refreshCarve.next) ∧
    (∀ (s4 : State) (j : Nat) (x : Tg) (c : Crew), (s4.tgs.filter fun p => p.2.sliceEnd) = [(j, x)] → s4.tg j = some x →
      s4.crew x.crew = some c →
      let s5 := s4.modTg j fun x => { x with sliceEnd := false }
      let now := (s5.setPreempt x.crew false).displaced x.crew { c with preempt := false }
      (c.core = none → s4.endSlices = s5) ∧
      (c.core ≠ none → s4.endSlices.crew x.crew = some { c with preempt := now } ∧ ∀ k y, s5.tg k = some y → s4.endSlices.tg k =
        some (if k = j then { y with preempt := now, held := now && !y.trap.tstat, forced := y.forced && now }
          else if y.crew = x.crew then { y with preempt := now, held := y.held && now, forced := y.forced && now }
          else y)))

/-- R7, R55, R66, R302: after reset no context, launch, crew or TG exists, clk is 0, every microcode slot and unit is empty, and every
record, bin and spawn slot of a die is free, its pool barrier 0; memory lists nothing, which is its canonical form. -/
def Obligations.ResetState : Prop :=
  State.reset.clk = 0 ∧ Memory.wf State.reset.mem = true ∧ State.reset.mem = [] ∧ State.reset.halted = false ∧
  (∀ n, State.reset.ctx n = none ∧ State.reset.launch n = none ∧ State.reset.crew n = none ∧ State.reset.tg n = none ∧
    SMap.find State.reset.microcode n = none ∧ SMap.find State.reset.copies n = none) ∧
  State.reset.contribs = [] ∧ State.reset.held = [] ∧ State.reset.ralf.tokens = 0 ∧
  ∀ d, (State.reset.die d).pool = Obj.fresh 0 ∧ (State.reset.die d).unreserved = 0 ∧ (State.reset.die d).reserved = 0 ∧
    (State.reset.die d).bins = [] ∧ (State.reset.die d).slots = [] ∧ (State.reset.die d).faults = []

/-- Every step keeps memory in its canonical form: locations strictly rising, and none listed that holds what an unlisted one reads
as. -/
def Obligations.StepKeepsMemoryCanonical : Prop :=
  ∀ s s' : State, Memory.wf s.mem = true → step s = .next s' → Memory.wf s'.mem = true

/-- R147, R149, R195: a read after a write gives what was written, and a write leaves every other byte alone; a discard lets its byte
read as the last write or as a value memory may still hold; a use of a translation changes nothing but the ACC and DIRTY bits of
its leaf. -/
def Obligations.MemoryReadAfterWrite : Prop :=
  (∀ (s : State) (loc a salt : Nat) (bs : List Byte),
    (s.setBytes loc bs).byte a salt = if loc ≤ a ∧ a < loc + bs.length then bs.getD (a - loc) 0 else s.byte a salt) ∧
  (∀ (s : State) (loc n x : Nat), x < 2 ^ (8 * n) → (s.write loc n x).read loc n = x) ∧
  (∀ (s : State) (loc a salt : Nat), (s.discard loc).last a = s.last a ∧ (a ≠ loc → (s.discard loc).byte a salt = s.byte a salt) ∧
    ((s.discard loc).byte loc salt = s.byte loc salt ∨
      (s.discard loc).byte loc salt ∈ s.last loc :: (SMap.find s.older loc).getD [])) ∧
  (∀ (s : State) (core ctx va a : Nat) (write : Bool),
    (s.touch core ctx va write).last a = s.last a ∨
      ∃ e, s.translate core ctx va = .leaf e true ∧ a = e.leaf ∧
        (s.touch core ctx va write).last a = s.last a ||| (if write then 0xC0 else 0x40))
end

