-- ==== Sys2Proof/Laws/Maps.lean ====
section
/-! SUPPORT. What the operations on keyed collections do: reads after writes, and the canonical form of a map with a default. -/

namespace Sys2Proof.Machine

variable {α : Type}

theorem SMap.find_ins_self (m : SMap α) (k : Nat) (a : α) (h : SMap.find m k = none) :
    SMap.find (SMap.ins k a m) k = some a := by
  induction m with
  | nil => simp [SMap.ins, SMap.find]
  | cons p r ih =>
    obtain ⟨k', a'⟩ := p
    simp only [SMap.find] at h
    split at h
    · exact absurd h (by simp)
    · rename_i hne
      simp only [SMap.ins]
      split
      · simp [SMap.find]
      · simp [SMap.find, hne, ih h]

theorem SMap.find_ins_ne (m : SMap α) (k j : Nat) (a : α) (h : j ≠ k) : SMap.find (SMap.ins k a m) j = SMap.find m j := by
  induction m with
  | nil => simp [SMap.ins, SMap.find, Ne.symm h]
  | cons p r ih =>
    obtain ⟨k', a'⟩ := p
    simp only [SMap.ins]
    split
    · simp [SMap.find, Ne.symm h]
    · simp [SMap.find, ih]

theorem SMap.find_del_self (m : SMap α) (k : Nat) : SMap.find (SMap.del m k) k = none := by
  induction m with
  | nil => rfl
  | cons p r ih =>
    obtain ⟨k', a'⟩ := p
    unfold SMap.del at ih ⊢
    by_cases hk : k' = k <;> simp [hk, SMap.find, ih]

theorem SMap.find_del_ne (m : SMap α) (k j : Nat) (h : j ≠ k) : SMap.find (SMap.del m k) j = SMap.find m j := by
  induction m with
  | nil => rfl
  | cons p r ih =>
    obtain ⟨k', a'⟩ := p
    unfold SMap.del at ih ⊢
    by_cases hk : k' = k
    · subst hk; simp [SMap.find, Ne.symm h, ih]
    · simp [hk, SMap.find, ih]

/-- A read of the key that was written. -/
theorem SMap.find_put_self (m : SMap α) (k : Nat) (a : α) : SMap.find (SMap.put m k a) k = some a :=
  SMap.find_ins_self _ _ _ (SMap.find_del_self m k)

/-- A read of another key. -/
theorem SMap.find_put_ne (m : SMap α) (k j : Nat) (a : α) (h : j ≠ k) : SMap.find (SMap.put m k a) j = SMap.find m j := by
  rw [SMap.put, SMap.find_ins_ne _ _ _ _ h, SMap.find_del_ne _ _ _ h]

theorem SMap.find_adjust (m : SMap α) (k j : Nat) (f : α → α) :
    SMap.find (SMap.adjust m k f) j = if j = k then (SMap.find m k).map f else SMap.find m j := by
  induction m with
  | nil => simp [SMap.adjust, SMap.find]
  | cons p r ih =>
    obtain ⟨k', a'⟩ := p
    unfold SMap.adjust at ih ⊢
    by_cases h1 : k' = j <;> by_cases h2 : k' = k <;> by_cases h3 : j = k <;> simp_all [SMap.find]

variable [DecidableEq α]

omit [DecidableEq α] in
/-- A change of every entry of a map. -/
theorem SMap.find_map (m : SMap α) (f : Nat → α → α) (j : Nat) :
    SMap.find (m.map fun p => (p.1, f p.1 p.2)) j = (SMap.find m j).map (f j) := by
  induction m with
  | nil => rfl
  | cons p r ih =>
    obtain ⟨k, a⟩ := p
    simp only [List.map_cons, SMap.find]
    split
    · rename_i h; subst h; rfl
    · exact ih

theorem SMap.get_set_self (d : α) (m : SMap α) (k : Nat) (a : α) : SMap.get d (SMap.set d m k a) k = a := by
  unfold SMap.get SMap.set
  split
  · rename_i h; simp [SMap.find_del_self, h]
  · simp [SMap.find_put_self]

theorem SMap.get_set_ne (d : α) (m : SMap α) (k j : Nat) (a : α) (h : j ≠ k) :
    SMap.get d (SMap.set d m k a) j = SMap.get d m j := by
  unfold SMap.get SMap.set
  split
  · rw [SMap.find_del_ne _ _ _ h]
  · rw [SMap.find_put_ne _ _ _ _ h]

/-! ### The canonical form -/

omit [DecidableEq α] in
/-- Keys rise strictly exactly when the list is pairwise rising. -/
theorem SMap.sorted_iff (m : SMap α) : SMap.sorted m = true ↔ m.Pairwise fun p q => p.1 < q.1 := by
  induction m with
  | nil => simp [SMap.sorted]
  | cons p r ih =>
    cases r with
    | nil => simp [SMap.sorted]
    | cons q r =>
      simp only [SMap.sorted, Bool.and_eq_true, decide_eq_true_eq, ih, List.pairwise_cons, List.mem_cons, forall_eq_or_imp]
      refine ⟨fun ⟨h, hq, hr⟩ => ⟨⟨h, fun x hx => Nat.lt_trans h (hq x hx)⟩, hq, hr⟩, fun ⟨⟨h, _⟩, hq, hr⟩ => ⟨h, hq, hr⟩⟩

omit [DecidableEq α] in
theorem SMap.sorted_del (m : SMap α) (k : Nat) (h : SMap.sorted m = true) : SMap.sorted (SMap.del m k) = true := by
  rw [SMap.sorted_iff] at *
  exact h.filter _

omit [DecidableEq α] in
theorem SMap.mem_ins (m : SMap α) (k : Nat) (a : α) (p : Nat × α) : p ∈ SMap.ins k a m ↔ p = (k, a) ∨ p ∈ m := by
  induction m with
  | nil => simp [SMap.ins]
  | cons q r ih =>
    obtain ⟨k', a'⟩ := q
    simp only [SMap.ins]
    split
    · simp
    · simp only [List.mem_cons, ih, or_left_comm]

omit [DecidableEq α] in
theorem SMap.sorted_ins (m : SMap α) (k : Nat) (a : α) (h : SMap.sorted m = true) (hk : ∀ p ∈ m, p.1 ≠ k) :
    SMap.sorted (SMap.ins k a m) = true := by
  rw [SMap.sorted_iff] at *
  induction m with
  | nil => simp [SMap.ins]
  | cons q r ih =>
    obtain ⟨k', a'⟩ := q
    rw [List.pairwise_cons] at h
    simp only [SMap.ins]
    split
    · rename_i hlt
      refine List.pairwise_cons.2 ⟨fun p hp => ?_, List.pairwise_cons.2 h⟩
      rcases List.mem_cons.1 hp with rfl | hp
      · exact hlt
      · exact Nat.lt_trans hlt (h.1 p hp)
    · rename_i hge
      have hne : k' ≠ k := hk (k', a') (by simp)
      refine List.pairwise_cons.2 ⟨fun p hp => ?_, ih h.2 fun p hp => hk p (by simp [hp])⟩
      rcases (SMap.mem_ins r k a p).1 hp with rfl | hp
      · simp only; omega
      · exact h.1 p hp

omit [DecidableEq α] in
/-- A write of a key keeps the keys strictly rising. -/
theorem SMap.sorted_put (m : SMap α) (k : Nat) (a : α) (h : SMap.sorted m = true) : SMap.sorted (SMap.put m k a) = true :=
  SMap.sorted_ins _ _ _ (SMap.sorted_del m k h) fun p hp => by simpa using (List.mem_filter.1 hp).2

/-- A write keeps the canonical form. -/
theorem SMap.wf_set (d : α) (m : SMap α) (k : Nat) (a : α) (h : SMap.wf d m = true) : SMap.wf d (SMap.set d m k a) = true := by
  simp only [SMap.wf, Bool.and_eq_true, List.all_eq_true, decide_eq_true_eq] at h ⊢
  unfold SMap.set
  split
  · exact ⟨SMap.sorted_del m k h.1, fun p hp => h.2 p (List.mem_filter.1 hp).1⟩
  · rename_i hne
    refine ⟨SMap.sorted_put m k a h.1, fun p hp => ?_⟩
    rcases (SMap.mem_ins _ _ _ _).1 hp with rfl | hp
    · exact hne
    · exact h.2 p (List.mem_filter.1 hp).1

end Sys2Proof.Machine
end

