-- ==== Sys2Proof/Laws/State.lean ====
section
/-! SUPPORT. One lemma per field per update of State and of Tg, all true by unfolding the update, and the reads of a record after it
was written. -/

namespace Sys2Proof.Machine

/-! ### Updates of State: the fields they leave -/

@[simp] theorem State.setTg_agenda (s : State) (id : Nat) (g : Tg) : (s.setTg id g).agenda = s.agenda := rfl
@[simp] theorem State.setTg_cur (s : State) (id : Nat) (g : Tg) : (s.setTg id g).cur = s.cur := rfl
@[simp] theorem State.setTg_tick (s : State) (id : Nat) (g : Tg) : (s.setTg id g).tick = s.tick := rfl
@[simp] theorem State.setTg_stamp (s : State) (id : Nat) (g : Tg) : (s.setTg id g).stamp = s.stamp := rfl
@[simp] theorem State.setTg_mem (s : State) (id : Nat) (g : Tg) : (s.setTg id g).mem = s.mem := rfl
@[simp] theorem State.setTg_older (s : State) (id : Nat) (g : Tg) : (s.setTg id g).older = s.older := rfl
@[simp] theorem State.setTg_disc (s : State) (id : Nat) (g : Tg) : (s.setTg id g).disc = s.disc := rfl
@[simp] theorem State.setTg_releases (s : State) (id : Nat) (g : Tg) : (s.setTg id g).releases = s.releases := rfl
@[simp] theorem State.setTg_entries (s : State) (id : Nat) (g : Tg) : (s.setTg id g).entries = s.entries := rfl
@[simp] theorem State.setTg_clk (s : State) (id : Nat) (g : Tg) : (s.setTg id g).clk = s.clk := rfl
@[simp] theorem State.setTg_waited (s : State) (id : Nat) (g : Tg) : (s.setTg id g).waited = s.waited := rfl
@[simp] theorem State.setTg_remoteWaits (s : State) (id : Nat) (g : Tg) : (s.setTg id g).remoteWaits = s.remoteWaits := rfl
@[simp] theorem State.setTg_gbase (s : State) (id : Nat) (g : Tg) : (s.setTg id g).gbase = s.gbase := rfl
@[simp] theorem State.setTg_contexts (s : State) (id : Nat) (g : Tg) : (s.setTg id g).contexts = s.contexts := rfl
@[simp] theorem State.setTg_launches (s : State) (id : Nat) (g : Tg) : (s.setTg id g).launches = s.launches := rfl
@[simp] theorem State.setTg_crews (s : State) (id : Nat) (g : Tg) : (s.setTg id g).crews = s.crews := rfl
@[simp] theorem State.setTg_tgs (s : State) (id : Nat) (g : Tg) : (s.setTg id g).tgs = SMap.put s.tgs id g := rfl
@[simp] theorem State.setTg_cores (s : State) (id : Nat) (g : Tg) : (s.setTg id g).cores = s.cores := rfl
@[simp] theorem State.setTg_dies (s : State) (id : Nat) (g : Tg) : (s.setTg id g).dies = s.dies := rfl
@[simp] theorem State.setTg_copies (s : State) (id : Nat) (g : Tg) : (s.setTg id g).copies = s.copies := rfl
@[simp] theorem State.setTg_contribs (s : State) (id : Nat) (g : Tg) : (s.setTg id g).contribs = s.contribs := rfl
@[simp] theorem State.setTg_held (s : State) (id : Nat) (g : Tg) : (s.setTg id g).held = s.held := rfl
@[simp] theorem State.setTg_microcode (s : State) (id : Nat) (g : Tg) : (s.setTg id g).microcode = s.microcode := rfl
@[simp] theorem State.setTg_halted (s : State) (id : Nat) (g : Tg) : (s.setTg id g).halted = s.halted := rfl
@[simp] theorem State.setTg_resetting (s : State) (id : Nat) (g : Tg) : (s.setTg id g).resetting = s.resetting := rfl
@[simp] theorem State.setTg_ralf (s : State) (id : Nat) (g : Tg) : (s.setTg id g).ralf = s.ralf := rfl
@[simp] theorem State.setTg_events (s : State) (id : Nat) (g : Tg) : (s.setTg id g).events = s.events := rfl

@[simp] theorem State.modTg_agenda (s : State) (id : Nat) (f : Tg → Tg) : (s.modTg id f).agenda = s.agenda := rfl
@[simp] theorem State.modTg_cur (s : State) (id : Nat) (f : Tg → Tg) : (s.modTg id f).cur = s.cur := rfl
@[simp] theorem State.modTg_tick (s : State) (id : Nat) (f : Tg → Tg) : (s.modTg id f).tick = s.tick := rfl
@[simp] theorem State.modTg_stamp (s : State) (id : Nat) (f : Tg → Tg) : (s.modTg id f).stamp = s.stamp := rfl
@[simp] theorem State.modTg_mem (s : State) (id : Nat) (f : Tg → Tg) : (s.modTg id f).mem = s.mem := rfl
@[simp] theorem State.modTg_older (s : State) (id : Nat) (f : Tg → Tg) : (s.modTg id f).older = s.older := rfl
@[simp] theorem State.modTg_disc (s : State) (id : Nat) (f : Tg → Tg) : (s.modTg id f).disc = s.disc := rfl
@[simp] theorem State.modTg_releases (s : State) (id : Nat) (f : Tg → Tg) : (s.modTg id f).releases = s.releases := rfl
@[simp] theorem State.modTg_entries (s : State) (id : Nat) (f : Tg → Tg) : (s.modTg id f).entries = s.entries := rfl
@[simp] theorem State.modTg_clk (s : State) (id : Nat) (f : Tg → Tg) : (s.modTg id f).clk = s.clk := rfl
@[simp] theorem State.modTg_waited (s : State) (id : Nat) (f : Tg → Tg) : (s.modTg id f).waited = s.waited := rfl
@[simp] theorem State.modTg_remoteWaits (s : State) (id : Nat) (f : Tg → Tg) : (s.modTg id f).remoteWaits = s.remoteWaits := rfl
@[simp] theorem State.modTg_gbase (s : State) (id : Nat) (f : Tg → Tg) : (s.modTg id f).gbase = s.gbase := rfl
@[simp] theorem State.modTg_contexts (s : State) (id : Nat) (f : Tg → Tg) : (s.modTg id f).contexts = s.contexts := rfl
@[simp] theorem State.modTg_launches (s : State) (id : Nat) (f : Tg → Tg) : (s.modTg id f).launches = s.launches := rfl
@[simp] theorem State.modTg_crews (s : State) (id : Nat) (f : Tg → Tg) : (s.modTg id f).crews = s.crews := rfl
@[simp] theorem State.modTg_tgs (s : State) (id : Nat) (f : Tg → Tg) : (s.modTg id f).tgs = SMap.adjust s.tgs id f := rfl
@[simp] theorem State.modTg_cores (s : State) (id : Nat) (f : Tg → Tg) : (s.modTg id f).cores = s.cores := rfl
@[simp] theorem State.modTg_dies (s : State) (id : Nat) (f : Tg → Tg) : (s.modTg id f).dies = s.dies := rfl
@[simp] theorem State.modTg_copies (s : State) (id : Nat) (f : Tg → Tg) : (s.modTg id f).copies = s.copies := rfl
@[simp] theorem State.modTg_contribs (s : State) (id : Nat) (f : Tg → Tg) : (s.modTg id f).contribs = s.contribs := rfl
@[simp] theorem State.modTg_held (s : State) (id : Nat) (f : Tg → Tg) : (s.modTg id f).held = s.held := rfl
@[simp] theorem State.modTg_microcode (s : State) (id : Nat) (f : Tg → Tg) : (s.modTg id f).microcode = s.microcode := rfl
@[simp] theorem State.modTg_halted (s : State) (id : Nat) (f : Tg → Tg) : (s.modTg id f).halted = s.halted := rfl
@[simp] theorem State.modTg_resetting (s : State) (id : Nat) (f : Tg → Tg) : (s.modTg id f).resetting = s.resetting := rfl
@[simp] theorem State.modTg_ralf (s : State) (id : Nat) (f : Tg → Tg) : (s.modTg id f).ralf = s.ralf := rfl
@[simp] theorem State.modTg_events (s : State) (id : Nat) (f : Tg → Tg) : (s.modTg id f).events = s.events := rfl

@[simp] theorem State.modCrew_agenda (s : State) (c : Nat) (f : Crew → Crew) : (s.modCrew c f).agenda = s.agenda := rfl
@[simp] theorem State.modCrew_cur (s : State) (c : Nat) (f : Crew → Crew) : (s.modCrew c f).cur = s.cur := rfl
@[simp] theorem State.modCrew_tick (s : State) (c : Nat) (f : Crew → Crew) : (s.modCrew c f).tick = s.tick := rfl
@[simp] theorem State.modCrew_stamp (s : State) (c : Nat) (f : Crew → Crew) : (s.modCrew c f).stamp = s.stamp := rfl
@[simp] theorem State.modCrew_mem (s : State) (c : Nat) (f : Crew → Crew) : (s.modCrew c f).mem = s.mem := rfl
@[simp] theorem State.modCrew_older (s : State) (c : Nat) (f : Crew → Crew) : (s.modCrew c f).older = s.older := rfl
@[simp] theorem State.modCrew_disc (s : State) (c : Nat) (f : Crew → Crew) : (s.modCrew c f).disc = s.disc := rfl
@[simp] theorem State.modCrew_releases (s : State) (c : Nat) (f : Crew → Crew) : (s.modCrew c f).releases = s.releases := rfl
@[simp] theorem State.modCrew_entries (s : State) (c : Nat) (f : Crew → Crew) : (s.modCrew c f).entries = s.entries := rfl
@[simp] theorem State.modCrew_clk (s : State) (c : Nat) (f : Crew → Crew) : (s.modCrew c f).clk = s.clk := rfl
@[simp] theorem State.modCrew_waited (s : State) (c : Nat) (f : Crew → Crew) : (s.modCrew c f).waited = s.waited := rfl
@[simp] theorem State.modCrew_remoteWaits (s : State) (c : Nat) (f : Crew → Crew) : (s.modCrew c f).remoteWaits = s.remoteWaits := rfl
@[simp] theorem State.modCrew_gbase (s : State) (c : Nat) (f : Crew → Crew) : (s.modCrew c f).gbase = s.gbase := rfl
@[simp] theorem State.modCrew_contexts (s : State) (c : Nat) (f : Crew → Crew) : (s.modCrew c f).contexts = s.contexts := rfl
@[simp] theorem State.modCrew_launches (s : State) (c : Nat) (f : Crew → Crew) : (s.modCrew c f).launches = s.launches := rfl
@[simp] theorem State.modCrew_crews (s : State) (c : Nat) (f : Crew → Crew) : (s.modCrew c f).crews = SMap.adjust s.crews c f := rfl
@[simp] theorem State.modCrew_tgs (s : State) (c : Nat) (f : Crew → Crew) : (s.modCrew c f).tgs = s.tgs := rfl
@[simp] theorem State.modCrew_cores (s : State) (c : Nat) (f : Crew → Crew) : (s.modCrew c f).cores = s.cores := rfl
@[simp] theorem State.modCrew_dies (s : State) (c : Nat) (f : Crew → Crew) : (s.modCrew c f).dies = s.dies := rfl
@[simp] theorem State.modCrew_copies (s : State) (c : Nat) (f : Crew → Crew) : (s.modCrew c f).copies = s.copies := rfl
@[simp] theorem State.modCrew_contribs (s : State) (c : Nat) (f : Crew → Crew) : (s.modCrew c f).contribs = s.contribs := rfl
@[simp] theorem State.modCrew_held (s : State) (c : Nat) (f : Crew → Crew) : (s.modCrew c f).held = s.held := rfl
@[simp] theorem State.modCrew_microcode (s : State) (c : Nat) (f : Crew → Crew) : (s.modCrew c f).microcode = s.microcode := rfl
@[simp] theorem State.modCrew_halted (s : State) (c : Nat) (f : Crew → Crew) : (s.modCrew c f).halted = s.halted := rfl
@[simp] theorem State.modCrew_resetting (s : State) (c : Nat) (f : Crew → Crew) : (s.modCrew c f).resetting = s.resetting := rfl
@[simp] theorem State.modCrew_ralf (s : State) (c : Nat) (f : Crew → Crew) : (s.modCrew c f).ralf = s.ralf := rfl
@[simp] theorem State.modCrew_events (s : State) (c : Nat) (f : Crew → Crew) : (s.modCrew c f).events = s.events := rfl

@[simp] theorem State.modLaunch_agenda (s : State) (l : Nat) (f : Launch → Launch) : (s.modLaunch l f).agenda = s.agenda := rfl
@[simp] theorem State.modLaunch_cur (s : State) (l : Nat) (f : Launch → Launch) : (s.modLaunch l f).cur = s.cur := rfl
@[simp] theorem State.modLaunch_tick (s : State) (l : Nat) (f : Launch → Launch) : (s.modLaunch l f).tick = s.tick := rfl
@[simp] theorem State.modLaunch_stamp (s : State) (l : Nat) (f : Launch → Launch) : (s.modLaunch l f).stamp = s.stamp := rfl
@[simp] theorem State.modLaunch_mem (s : State) (l : Nat) (f : Launch → Launch) : (s.modLaunch l f).mem = s.mem := rfl
@[simp] theorem State.modLaunch_older (s : State) (l : Nat) (f : Launch → Launch) : (s.modLaunch l f).older = s.older := rfl
@[simp] theorem State.modLaunch_disc (s : State) (l : Nat) (f : Launch → Launch) : (s.modLaunch l f).disc = s.disc := rfl
@[simp] theorem State.modLaunch_releases (s : State) (l : Nat) (f : Launch → Launch) : (s.modLaunch l f).releases = s.releases := rfl
@[simp] theorem State.modLaunch_entries (s : State) (l : Nat) (f : Launch → Launch) : (s.modLaunch l f).entries = s.entries := rfl
@[simp] theorem State.modLaunch_clk (s : State) (l : Nat) (f : Launch → Launch) : (s.modLaunch l f).clk = s.clk := rfl
@[simp] theorem State.modLaunch_waited (s : State) (l : Nat) (f : Launch → Launch) : (s.modLaunch l f).waited = s.waited := rfl
@[simp] theorem State.modLaunch_remoteWaits (s : State) (l : Nat) (f : Launch → Launch) : (s.modLaunch l f).remoteWaits = s.remoteWaits := rfl
@[simp] theorem State.modLaunch_gbase (s : State) (l : Nat) (f : Launch → Launch) : (s.modLaunch l f).gbase = s.gbase := rfl
@[simp] theorem State.modLaunch_contexts (s : State) (l : Nat) (f : Launch → Launch) : (s.modLaunch l f).contexts = s.contexts := rfl
@[simp] theorem State.modLaunch_launches (s : State) (l : Nat) (f : Launch → Launch) : (s.modLaunch l f).launches = SMap.adjust s.launches l f := rfl
@[simp] theorem State.modLaunch_crews (s : State) (l : Nat) (f : Launch → Launch) : (s.modLaunch l f).crews = s.crews := rfl
@[simp] theorem State.modLaunch_tgs (s : State) (l : Nat) (f : Launch → Launch) : (s.modLaunch l f).tgs = s.tgs := rfl
@[simp] theorem State.modLaunch_cores (s : State) (l : Nat) (f : Launch → Launch) : (s.modLaunch l f).cores = s.cores := rfl
@[simp] theorem State.modLaunch_dies (s : State) (l : Nat) (f : Launch → Launch) : (s.modLaunch l f).dies = s.dies := rfl
@[simp] theorem State.modLaunch_copies (s : State) (l : Nat) (f : Launch → Launch) : (s.modLaunch l f).copies = s.copies := rfl
@[simp] theorem State.modLaunch_contribs (s : State) (l : Nat) (f : Launch → Launch) : (s.modLaunch l f).contribs = s.contribs := rfl
@[simp] theorem State.modLaunch_held (s : State) (l : Nat) (f : Launch → Launch) : (s.modLaunch l f).held = s.held := rfl
@[simp] theorem State.modLaunch_microcode (s : State) (l : Nat) (f : Launch → Launch) : (s.modLaunch l f).microcode = s.microcode := rfl
@[simp] theorem State.modLaunch_halted (s : State) (l : Nat) (f : Launch → Launch) : (s.modLaunch l f).halted = s.halted := rfl
@[simp] theorem State.modLaunch_resetting (s : State) (l : Nat) (f : Launch → Launch) : (s.modLaunch l f).resetting = s.resetting := rfl
@[simp] theorem State.modLaunch_ralf (s : State) (l : Nat) (f : Launch → Launch) : (s.modLaunch l f).ralf = s.ralf := rfl
@[simp] theorem State.modLaunch_events (s : State) (l : Nat) (f : Launch → Launch) : (s.modLaunch l f).events = s.events := rfl

@[simp] theorem State.modCtx_agenda (s : State) (c : Nat) (f : Context → Context) : (s.modCtx c f).agenda = s.agenda := rfl
@[simp] theorem State.modCtx_cur (s : State) (c : Nat) (f : Context → Context) : (s.modCtx c f).cur = s.cur := rfl
@[simp] theorem State.modCtx_tick (s : State) (c : Nat) (f : Context → Context) : (s.modCtx c f).tick = s.tick := rfl
@[simp] theorem State.modCtx_stamp (s : State) (c : Nat) (f : Context → Context) : (s.modCtx c f).stamp = s.stamp := rfl
@[simp] theorem State.modCtx_mem (s : State) (c : Nat) (f : Context → Context) : (s.modCtx c f).mem = s.mem := rfl
@[simp] theorem State.modCtx_older (s : State) (c : Nat) (f : Context → Context) : (s.modCtx c f).older = s.older := rfl
@[simp] theorem State.modCtx_disc (s : State) (c : Nat) (f : Context → Context) : (s.modCtx c f).disc = s.disc := rfl
@[simp] theorem State.modCtx_releases (s : State) (c : Nat) (f : Context → Context) : (s.modCtx c f).releases = s.releases := rfl
@[simp] theorem State.modCtx_entries (s : State) (c : Nat) (f : Context → Context) : (s.modCtx c f).entries = s.entries := rfl
@[simp] theorem State.modCtx_clk (s : State) (c : Nat) (f : Context → Context) : (s.modCtx c f).clk = s.clk := rfl
@[simp] theorem State.modCtx_waited (s : State) (c : Nat) (f : Context → Context) : (s.modCtx c f).waited = s.waited := rfl
@[simp] theorem State.modCtx_remoteWaits (s : State) (c : Nat) (f : Context → Context) : (s.modCtx c f).remoteWaits = s.remoteWaits := rfl
@[simp] theorem State.modCtx_gbase (s : State) (c : Nat) (f : Context → Context) : (s.modCtx c f).gbase = s.gbase := rfl
@[simp] theorem State.modCtx_contexts (s : State) (c : Nat) (f : Context → Context) : (s.modCtx c f).contexts = SMap.adjust s.contexts c f := rfl
@[simp] theorem State.modCtx_launches (s : State) (c : Nat) (f : Context → Context) : (s.modCtx c f).launches = s.launches := rfl
@[simp] theorem State.modCtx_crews (s : State) (c : Nat) (f : Context → Context) : (s.modCtx c f).crews = s.crews := rfl
@[simp] theorem State.modCtx_tgs (s : State) (c : Nat) (f : Context → Context) : (s.modCtx c f).tgs = s.tgs := rfl
@[simp] theorem State.modCtx_cores (s : State) (c : Nat) (f : Context → Context) : (s.modCtx c f).cores = s.cores := rfl
@[simp] theorem State.modCtx_dies (s : State) (c : Nat) (f : Context → Context) : (s.modCtx c f).dies = s.dies := rfl
@[simp] theorem State.modCtx_copies (s : State) (c : Nat) (f : Context → Context) : (s.modCtx c f).copies = s.copies := rfl
@[simp] theorem State.modCtx_contribs (s : State) (c : Nat) (f : Context → Context) : (s.modCtx c f).contribs = s.contribs := rfl
@[simp] theorem State.modCtx_held (s : State) (c : Nat) (f : Context → Context) : (s.modCtx c f).held = s.held := rfl
@[simp] theorem State.modCtx_microcode (s : State) (c : Nat) (f : Context → Context) : (s.modCtx c f).microcode = s.microcode := rfl
@[simp] theorem State.modCtx_halted (s : State) (c : Nat) (f : Context → Context) : (s.modCtx c f).halted = s.halted := rfl
@[simp] theorem State.modCtx_resetting (s : State) (c : Nat) (f : Context → Context) : (s.modCtx c f).resetting = s.resetting := rfl
@[simp] theorem State.modCtx_ralf (s : State) (c : Nat) (f : Context → Context) : (s.modCtx c f).ralf = s.ralf := rfl
@[simp] theorem State.modCtx_events (s : State) (c : Nat) (f : Context → Context) : (s.modCtx c f).events = s.events := rfl

@[simp] theorem State.modCore_agenda (s : State) (c : Nat) (f : CoreState → CoreState) : (s.modCore c f).agenda = s.agenda := rfl
@[simp] theorem State.modCore_cur (s : State) (c : Nat) (f : CoreState → CoreState) : (s.modCore c f).cur = s.cur := rfl
@[simp] theorem State.modCore_tick (s : State) (c : Nat) (f : CoreState → CoreState) : (s.modCore c f).tick = s.tick := rfl
@[simp] theorem State.modCore_stamp (s : State) (c : Nat) (f : CoreState → CoreState) : (s.modCore c f).stamp = s.stamp := rfl
@[simp] theorem State.modCore_mem (s : State) (c : Nat) (f : CoreState → CoreState) : (s.modCore c f).mem = s.mem := rfl
@[simp] theorem State.modCore_older (s : State) (c : Nat) (f : CoreState → CoreState) : (s.modCore c f).older = s.older := rfl
@[simp] theorem State.modCore_disc (s : State) (c : Nat) (f : CoreState → CoreState) : (s.modCore c f).disc = s.disc := rfl
@[simp] theorem State.modCore_releases (s : State) (c : Nat) (f : CoreState → CoreState) : (s.modCore c f).releases = s.releases := rfl
@[simp] theorem State.modCore_entries (s : State) (c : Nat) (f : CoreState → CoreState) : (s.modCore c f).entries = s.entries := rfl
@[simp] theorem State.modCore_clk (s : State) (c : Nat) (f : CoreState → CoreState) : (s.modCore c f).clk = s.clk := rfl
@[simp] theorem State.modCore_waited (s : State) (c : Nat) (f : CoreState → CoreState) : (s.modCore c f).waited = s.waited := rfl
@[simp] theorem State.modCore_remoteWaits (s : State) (c : Nat) (f : CoreState → CoreState) : (s.modCore c f).remoteWaits = s.remoteWaits := rfl
@[simp] theorem State.modCore_gbase (s : State) (c : Nat) (f : CoreState → CoreState) : (s.modCore c f).gbase = s.gbase := rfl
@[simp] theorem State.modCore_contexts (s : State) (c : Nat) (f : CoreState → CoreState) : (s.modCore c f).contexts = s.contexts := rfl
@[simp] theorem State.modCore_launches (s : State) (c : Nat) (f : CoreState → CoreState) : (s.modCore c f).launches = s.launches := rfl
@[simp] theorem State.modCore_crews (s : State) (c : Nat) (f : CoreState → CoreState) : (s.modCore c f).crews = s.crews := rfl
@[simp] theorem State.modCore_tgs (s : State) (c : Nat) (f : CoreState → CoreState) : (s.modCore c f).tgs = s.tgs := rfl
@[simp] theorem State.modCore_cores (s : State) (c : Nat) (f : CoreState → CoreState) : (s.modCore c f).cores = SMap.set CoreState.reset s.cores c (f (s.core c)) := rfl
@[simp] theorem State.modCore_dies (s : State) (c : Nat) (f : CoreState → CoreState) : (s.modCore c f).dies = s.dies := rfl
@[simp] theorem State.modCore_copies (s : State) (c : Nat) (f : CoreState → CoreState) : (s.modCore c f).copies = s.copies := rfl
@[simp] theorem State.modCore_contribs (s : State) (c : Nat) (f : CoreState → CoreState) : (s.modCore c f).contribs = s.contribs := rfl
@[simp] theorem State.modCore_held (s : State) (c : Nat) (f : CoreState → CoreState) : (s.modCore c f).held = s.held := rfl
@[simp] theorem State.modCore_microcode (s : State) (c : Nat) (f : CoreState → CoreState) : (s.modCore c f).microcode = s.microcode := rfl
@[simp] theorem State.modCore_halted (s : State) (c : Nat) (f : CoreState → CoreState) : (s.modCore c f).halted = s.halted := rfl
@[simp] theorem State.modCore_resetting (s : State) (c : Nat) (f : CoreState → CoreState) : (s.modCore c f).resetting = s.resetting := rfl
@[simp] theorem State.modCore_ralf (s : State) (c : Nat) (f : CoreState → CoreState) : (s.modCore c f).ralf = s.ralf := rfl
@[simp] theorem State.modCore_events (s : State) (c : Nat) (f : CoreState → CoreState) : (s.modCore c f).events = s.events := rfl

@[simp] theorem State.modDie_agenda (s : State) (d : Nat) (f : Die → Die) : (s.modDie d f).agenda = s.agenda := rfl
@[simp] theorem State.modDie_cur (s : State) (d : Nat) (f : Die → Die) : (s.modDie d f).cur = s.cur := rfl
@[simp] theorem State.modDie_tick (s : State) (d : Nat) (f : Die → Die) : (s.modDie d f).tick = s.tick := rfl
@[simp] theorem State.modDie_stamp (s : State) (d : Nat) (f : Die → Die) : (s.modDie d f).stamp = s.stamp := rfl
@[simp] theorem State.modDie_mem (s : State) (d : Nat) (f : Die → Die) : (s.modDie d f).mem = s.mem := rfl
@[simp] theorem State.modDie_older (s : State) (d : Nat) (f : Die → Die) : (s.modDie d f).older = s.older := rfl
@[simp] theorem State.modDie_disc (s : State) (d : Nat) (f : Die → Die) : (s.modDie d f).disc = s.disc := rfl
@[simp] theorem State.modDie_releases (s : State) (d : Nat) (f : Die → Die) : (s.modDie d f).releases = s.releases := rfl
@[simp] theorem State.modDie_entries (s : State) (d : Nat) (f : Die → Die) : (s.modDie d f).entries = s.entries := rfl
@[simp] theorem State.modDie_clk (s : State) (d : Nat) (f : Die → Die) : (s.modDie d f).clk = s.clk := rfl
@[simp] theorem State.modDie_waited (s : State) (d : Nat) (f : Die → Die) : (s.modDie d f).waited = s.waited := rfl
@[simp] theorem State.modDie_remoteWaits (s : State) (d : Nat) (f : Die → Die) : (s.modDie d f).remoteWaits = s.remoteWaits := rfl
@[simp] theorem State.modDie_gbase (s : State) (d : Nat) (f : Die → Die) : (s.modDie d f).gbase = s.gbase := rfl
@[simp] theorem State.modDie_contexts (s : State) (d : Nat) (f : Die → Die) : (s.modDie d f).contexts = s.contexts := rfl
@[simp] theorem State.modDie_launches (s : State) (d : Nat) (f : Die → Die) : (s.modDie d f).launches = s.launches := rfl
@[simp] theorem State.modDie_crews (s : State) (d : Nat) (f : Die → Die) : (s.modDie d f).crews = s.crews := rfl
@[simp] theorem State.modDie_tgs (s : State) (d : Nat) (f : Die → Die) : (s.modDie d f).tgs = s.tgs := rfl
@[simp] theorem State.modDie_cores (s : State) (d : Nat) (f : Die → Die) : (s.modDie d f).cores = s.cores := rfl
@[simp] theorem State.modDie_dies (s : State) (d : Nat) (f : Die → Die) : (s.modDie d f).dies = SMap.set Die.reset s.dies d (f (s.die d)) := rfl
@[simp] theorem State.modDie_copies (s : State) (d : Nat) (f : Die → Die) : (s.modDie d f).copies = s.copies := rfl
@[simp] theorem State.modDie_contribs (s : State) (d : Nat) (f : Die → Die) : (s.modDie d f).contribs = s.contribs := rfl
@[simp] theorem State.modDie_held (s : State) (d : Nat) (f : Die → Die) : (s.modDie d f).held = s.held := rfl
@[simp] theorem State.modDie_microcode (s : State) (d : Nat) (f : Die → Die) : (s.modDie d f).microcode = s.microcode := rfl
@[simp] theorem State.modDie_halted (s : State) (d : Nat) (f : Die → Die) : (s.modDie d f).halted = s.halted := rfl
@[simp] theorem State.modDie_resetting (s : State) (d : Nat) (f : Die → Die) : (s.modDie d f).resetting = s.resetting := rfl
@[simp] theorem State.modDie_ralf (s : State) (d : Nat) (f : Die → Die) : (s.modDie d f).ralf = s.ralf := rfl
@[simp] theorem State.modDie_events (s : State) (d : Nat) (f : Die → Die) : (s.modDie d f).events = s.events := rfl

@[simp] theorem State.count_agenda (s : State) (i : Nat) : (s.count i).agenda = s.agenda := rfl
@[simp] theorem State.count_cur (s : State) (i : Nat) : (s.count i).cur = s.cur := rfl
@[simp] theorem State.count_tick (s : State) (i : Nat) : (s.count i).tick = s.tick := rfl
@[simp] theorem State.count_stamp (s : State) (i : Nat) : (s.count i).stamp = s.stamp := rfl
@[simp] theorem State.count_mem (s : State) (i : Nat) : (s.count i).mem = s.mem := rfl
@[simp] theorem State.count_older (s : State) (i : Nat) : (s.count i).older = s.older := rfl
@[simp] theorem State.count_disc (s : State) (i : Nat) : (s.count i).disc = s.disc := rfl
@[simp] theorem State.count_releases (s : State) (i : Nat) : (s.count i).releases = s.releases := rfl
@[simp] theorem State.count_entries (s : State) (i : Nat) : (s.count i).entries = s.entries := rfl
@[simp] theorem State.count_clk (s : State) (i : Nat) : (s.count i).clk = s.clk := rfl
@[simp] theorem State.count_waited (s : State) (i : Nat) : (s.count i).waited = s.waited := rfl
@[simp] theorem State.count_remoteWaits (s : State) (i : Nat) : (s.count i).remoteWaits = s.remoteWaits := rfl
@[simp] theorem State.count_gbase (s : State) (i : Nat) : (s.count i).gbase = s.gbase := rfl
@[simp] theorem State.count_contexts (s : State) (i : Nat) : (s.count i).contexts = s.contexts := rfl
@[simp] theorem State.count_launches (s : State) (i : Nat) : (s.count i).launches = s.launches := rfl
@[simp] theorem State.count_crews (s : State) (i : Nat) : (s.count i).crews = s.crews := rfl
@[simp] theorem State.count_tgs (s : State) (i : Nat) : (s.count i).tgs = s.tgs := rfl
@[simp] theorem State.count_cores (s : State) (i : Nat) : (s.count i).cores = s.cores := rfl
@[simp] theorem State.count_dies (s : State) (i : Nat) : (s.count i).dies = s.dies := rfl
@[simp] theorem State.count_copies (s : State) (i : Nat) : (s.count i).copies = s.copies := rfl
@[simp] theorem State.count_contribs (s : State) (i : Nat) : (s.count i).contribs = s.contribs := rfl
@[simp] theorem State.count_held (s : State) (i : Nat) : (s.count i).held = s.held := rfl
@[simp] theorem State.count_microcode (s : State) (i : Nat) : (s.count i).microcode = s.microcode := rfl
@[simp] theorem State.count_halted (s : State) (i : Nat) : (s.count i).halted = s.halted := rfl
@[simp] theorem State.count_resetting (s : State) (i : Nat) : (s.count i).resetting = s.resetting := rfl
@[simp] theorem State.count_events (s : State) (i : Nat) : (s.count i).events = s.events := rfl

@[simp] theorem State.next_agenda (s : State) : (s.next).agenda = s.agenda := rfl
@[simp] theorem State.next_cur (s : State) : (s.next).cur = s.cur := rfl
@[simp] theorem State.next_tick (s : State) : (s.next).tick = s.tick + 1 := rfl
@[simp] theorem State.next_stamp (s : State) : (s.next).stamp = s.stamp := rfl
@[simp] theorem State.next_mem (s : State) : (s.next).mem = s.mem := rfl
@[simp] theorem State.next_older (s : State) : (s.next).older = s.older := rfl
@[simp] theorem State.next_disc (s : State) : (s.next).disc = s.disc := rfl
@[simp] theorem State.next_releases (s : State) : (s.next).releases = s.releases := rfl
@[simp] theorem State.next_entries (s : State) : (s.next).entries = s.entries := rfl
@[simp] theorem State.next_clk (s : State) : (s.next).clk = s.clk := rfl
@[simp] theorem State.next_waited (s : State) : (s.next).waited = s.waited := rfl
@[simp] theorem State.next_remoteWaits (s : State) : (s.next).remoteWaits = s.remoteWaits := rfl
@[simp] theorem State.next_gbase (s : State) : (s.next).gbase = s.gbase := rfl
@[simp] theorem State.next_contexts (s : State) : (s.next).contexts = s.contexts := rfl
@[simp] theorem State.next_launches (s : State) : (s.next).launches = s.launches := rfl
@[simp] theorem State.next_crews (s : State) : (s.next).crews = s.crews := rfl
@[simp] theorem State.next_tgs (s : State) : (s.next).tgs = s.tgs := rfl
@[simp] theorem State.next_cores (s : State) : (s.next).cores = s.cores := rfl
@[simp] theorem State.next_dies (s : State) : (s.next).dies = s.dies := rfl
@[simp] theorem State.next_copies (s : State) : (s.next).copies = s.copies := rfl
@[simp] theorem State.next_contribs (s : State) : (s.next).contribs = s.contribs := rfl
@[simp] theorem State.next_held (s : State) : (s.next).held = s.held := rfl
@[simp] theorem State.next_microcode (s : State) : (s.next).microcode = s.microcode := rfl
@[simp] theorem State.next_halted (s : State) : (s.next).halted = s.halted := rfl
@[simp] theorem State.next_resetting (s : State) : (s.next).resetting = s.resetting := rfl
@[simp] theorem State.next_ralf (s : State) : (s.next).ralf = s.ralf := rfl
@[simp] theorem State.next_events (s : State) : (s.next).events = s.events := rfl

@[simp] theorem State.advanceClk_agenda (s : State) (n : Nat) : (s.advanceClk n).agenda = s.agenda := rfl
@[simp] theorem State.advanceClk_cur (s : State) (n : Nat) : (s.advanceClk n).cur = s.cur := rfl
@[simp] theorem State.advanceClk_tick (s : State) (n : Nat) : (s.advanceClk n).tick = s.tick := rfl
@[simp] theorem State.advanceClk_stamp (s : State) (n : Nat) : (s.advanceClk n).stamp = s.stamp := rfl
@[simp] theorem State.advanceClk_mem (s : State) (n : Nat) : (s.advanceClk n).mem = s.mem := rfl
@[simp] theorem State.advanceClk_older (s : State) (n : Nat) : (s.advanceClk n).older = s.older := rfl
@[simp] theorem State.advanceClk_disc (s : State) (n : Nat) : (s.advanceClk n).disc = s.disc := rfl
@[simp] theorem State.advanceClk_releases (s : State) (n : Nat) : (s.advanceClk n).releases = s.releases := rfl
@[simp] theorem State.advanceClk_entries (s : State) (n : Nat) : (s.advanceClk n).entries = s.entries := rfl
@[simp] theorem State.advanceClk_clk (s : State) (n : Nat) : (s.advanceClk n).clk = s.clk + n := rfl
@[simp] theorem State.advanceClk_waited (s : State) (n : Nat) : (s.advanceClk n).waited = s.waited := rfl
@[simp] theorem State.advanceClk_remoteWaits (s : State) (n : Nat) : (s.advanceClk n).remoteWaits = s.remoteWaits := rfl
@[simp] theorem State.advanceClk_gbase (s : State) (n : Nat) : (s.advanceClk n).gbase = s.gbase := rfl
@[simp] theorem State.advanceClk_contexts (s : State) (n : Nat) : (s.advanceClk n).contexts = s.contexts := rfl
@[simp] theorem State.advanceClk_launches (s : State) (n : Nat) : (s.advanceClk n).launches = s.launches := rfl
@[simp] theorem State.advanceClk_crews (s : State) (n : Nat) : (s.advanceClk n).crews = s.crews := rfl
@[simp] theorem State.advanceClk_cores (s : State) (n : Nat) : (s.advanceClk n).cores = s.cores := rfl
@[simp] theorem State.advanceClk_dies (s : State) (n : Nat) : (s.advanceClk n).dies = s.dies := rfl
@[simp] theorem State.advanceClk_copies (s : State) (n : Nat) : (s.advanceClk n).copies = s.copies := rfl
@[simp] theorem State.advanceClk_contribs (s : State) (n : Nat) : (s.advanceClk n).contribs = s.contribs := rfl
@[simp] theorem State.advanceClk_held (s : State) (n : Nat) : (s.advanceClk n).held = s.held := rfl
@[simp] theorem State.advanceClk_microcode (s : State) (n : Nat) : (s.advanceClk n).microcode = s.microcode := rfl
@[simp] theorem State.advanceClk_halted (s : State) (n : Nat) : (s.advanceClk n).halted = s.halted := rfl
@[simp] theorem State.advanceClk_resetting (s : State) (n : Nat) : (s.advanceClk n).resetting = s.resetting := rfl
@[simp] theorem State.advanceClk_ralf (s : State) (n : Nat) : (s.advanceClk n).ralf = s.ralf := rfl
@[simp] theorem State.advanceClk_events (s : State) (n : Nat) : (s.advanceClk n).events = s.events := rfl

@[simp] theorem State.occupy_agenda (s : State) (core sub n : Nat) : (s.occupy core sub n).agenda = s.agenda := rfl
@[simp] theorem State.occupy_cur (s : State) (core sub n : Nat) : (s.occupy core sub n).cur = s.cur := rfl
@[simp] theorem State.occupy_tick (s : State) (core sub n : Nat) : (s.occupy core sub n).tick = s.tick := rfl
@[simp] theorem State.occupy_stamp (s : State) (core sub n : Nat) : (s.occupy core sub n).stamp = s.stamp := rfl
@[simp] theorem State.occupy_mem (s : State) (core sub n : Nat) : (s.occupy core sub n).mem = s.mem := rfl
@[simp] theorem State.occupy_older (s : State) (core sub n : Nat) : (s.occupy core sub n).older = s.older := rfl
@[simp] theorem State.occupy_disc (s : State) (core sub n : Nat) : (s.occupy core sub n).disc = s.disc := rfl
@[simp] theorem State.occupy_releases (s : State) (core sub n : Nat) : (s.occupy core sub n).releases = s.releases := rfl
@[simp] theorem State.occupy_entries (s : State) (core sub n : Nat) : (s.occupy core sub n).entries = s.entries := rfl
@[simp] theorem State.occupy_clk (s : State) (core sub n : Nat) : (s.occupy core sub n).clk = s.clk := rfl
@[simp] theorem State.occupy_waited (s : State) (core sub n : Nat) : (s.occupy core sub n).waited = s.waited := rfl
@[simp] theorem State.occupy_remoteWaits (s : State) (core sub n : Nat) : (s.occupy core sub n).remoteWaits = s.remoteWaits := rfl
@[simp] theorem State.occupy_gbase (s : State) (core sub n : Nat) : (s.occupy core sub n).gbase = s.gbase := rfl
@[simp] theorem State.occupy_contexts (s : State) (core sub n : Nat) : (s.occupy core sub n).contexts = s.contexts := rfl
@[simp] theorem State.occupy_launches (s : State) (core sub n : Nat) : (s.occupy core sub n).launches = s.launches := rfl
@[simp] theorem State.occupy_crews (s : State) (core sub n : Nat) : (s.occupy core sub n).crews = s.crews := rfl
@[simp] theorem State.occupy_tgs (s : State) (core sub n : Nat) : (s.occupy core sub n).tgs = s.tgs := rfl
@[simp] theorem State.occupy_dies (s : State) (core sub n : Nat) : (s.occupy core sub n).dies = s.dies := rfl
@[simp] theorem State.occupy_copies (s : State) (core sub n : Nat) : (s.occupy core sub n).copies = s.copies := rfl
@[simp] theorem State.occupy_contribs (s : State) (core sub n : Nat) : (s.occupy core sub n).contribs = s.contribs := rfl
@[simp] theorem State.occupy_held (s : State) (core sub n : Nat) : (s.occupy core sub n).held = s.held := rfl
@[simp] theorem State.occupy_microcode (s : State) (core sub n : Nat) : (s.occupy core sub n).microcode = s.microcode := rfl
@[simp] theorem State.occupy_halted (s : State) (core sub n : Nat) : (s.occupy core sub n).halted = s.halted := rfl
@[simp] theorem State.occupy_resetting (s : State) (core sub n : Nat) : (s.occupy core sub n).resetting = s.resetting := rfl
@[simp] theorem State.occupy_ralf (s : State) (core sub n : Nat) : (s.occupy core sub n).ralf = s.ralf := rfl
@[simp] theorem State.occupy_events (s : State) (core sub n : Nat) : (s.occupy core sub n).events = s.events := rfl

@[simp] theorem State.setByte_agenda (s : State) (loc : Nat) (v : Byte) : (s.setByte loc v).agenda = s.agenda := rfl
@[simp] theorem State.setByte_cur (s : State) (loc : Nat) (v : Byte) : (s.setByte loc v).cur = s.cur := rfl
@[simp] theorem State.setByte_tick (s : State) (loc : Nat) (v : Byte) : (s.setByte loc v).tick = s.tick := rfl
@[simp] theorem State.setByte_stamp (s : State) (loc : Nat) (v : Byte) : (s.setByte loc v).stamp = s.stamp := rfl
@[simp] theorem State.setByte_mem (s : State) (loc : Nat) (v : Byte) : (s.setByte loc v).mem = SMap.set memDefault s.mem loc v := rfl
@[simp] theorem State.setByte_disc (s : State) (loc : Nat) (v : Byte) : (s.setByte loc v).disc = SMap.del s.disc loc := rfl
@[simp] theorem State.setByte_releases (s : State) (loc : Nat) (v : Byte) : (s.setByte loc v).releases = s.releases := rfl
@[simp] theorem State.setByte_entries (s : State) (loc : Nat) (v : Byte) : (s.setByte loc v).entries = s.entries := rfl
@[simp] theorem State.setByte_clk (s : State) (loc : Nat) (v : Byte) : (s.setByte loc v).clk = s.clk := rfl
@[simp] theorem State.setByte_waited (s : State) (loc : Nat) (v : Byte) : (s.setByte loc v).waited = s.waited := rfl
@[simp] theorem State.setByte_remoteWaits (s : State) (loc : Nat) (v : Byte) : (s.setByte loc v).remoteWaits = s.remoteWaits := rfl
@[simp] theorem State.setByte_gbase (s : State) (loc : Nat) (v : Byte) : (s.setByte loc v).gbase = s.gbase := rfl
@[simp] theorem State.setByte_contexts (s : State) (loc : Nat) (v : Byte) : (s.setByte loc v).contexts = s.contexts := rfl
@[simp] theorem State.setByte_launches (s : State) (loc : Nat) (v : Byte) : (s.setByte loc v).launches = s.launches := rfl
@[simp] theorem State.setByte_crews (s : State) (loc : Nat) (v : Byte) : (s.setByte loc v).crews = s.crews := rfl
@[simp] theorem State.setByte_tgs (s : State) (loc : Nat) (v : Byte) : (s.setByte loc v).tgs = s.tgs := rfl
@[simp] theorem State.setByte_cores (s : State) (loc : Nat) (v : Byte) : (s.setByte loc v).cores = s.cores := rfl
@[simp] theorem State.setByte_dies (s : State) (loc : Nat) (v : Byte) : (s.setByte loc v).dies = s.dies := rfl
@[simp] theorem State.setByte_copies (s : State) (loc : Nat) (v : Byte) : (s.setByte loc v).copies = s.copies := rfl
@[simp] theorem State.setByte_contribs (s : State) (loc : Nat) (v : Byte) : (s.setByte loc v).contribs = s.contribs := rfl
@[simp] theorem State.setByte_held (s : State) (loc : Nat) (v : Byte) : (s.setByte loc v).held = s.held := rfl
@[simp] theorem State.setByte_microcode (s : State) (loc : Nat) (v : Byte) : (s.setByte loc v).microcode = s.microcode := rfl
@[simp] theorem State.setByte_halted (s : State) (loc : Nat) (v : Byte) : (s.setByte loc v).halted = s.halted := rfl
@[simp] theorem State.setByte_resetting (s : State) (loc : Nat) (v : Byte) : (s.setByte loc v).resetting = s.resetting := rfl
@[simp] theorem State.setByte_ralf (s : State) (loc : Nat) (v : Byte) : (s.setByte loc v).ralf = s.ralf := rfl
@[simp] theorem State.setByte_events (s : State) (loc : Nat) (v : Byte) : (s.setByte loc v).events = s.events := rfl

/-! ### Reads of a record after an update -/

@[simp] theorem State.tg_setTg_self (s : State) (id : Nat) (g : Tg) : (s.setTg id g).tg id = some g :=
  SMap.find_put_self _ _ _
theorem State.tg_setTg_ne (s : State) (id j : Nat) (g : Tg) (h : j ≠ id) : (s.setTg id g).tg j = s.tg j :=
  SMap.find_put_ne _ _ _ _ h
theorem State.tg_modTg (s : State) (id j : Nat) (f : Tg → Tg) :
    (s.modTg id f).tg j = if j = id then (s.tg id).map f else s.tg j := SMap.find_adjust _ _ _ _
theorem State.crew_modCrew (s : State) (c j : Nat) (f : Crew → Crew) :
    (s.modCrew c f).crew j = if j = c then (s.crew c).map f else s.crew j := SMap.find_adjust _ _ _ _
theorem State.launch_modLaunch (s : State) (l j : Nat) (f : Launch → Launch) :
    (s.modLaunch l f).launch j = if j = l then (s.launch l).map f else s.launch j := SMap.find_adjust _ _ _ _
theorem State.ctx_modCtx (s : State) (c j : Nat) (f : Context → Context) :
    (s.modCtx c f).ctx j = if j = c then (s.ctx c).map f else s.ctx j := SMap.find_adjust _ _ _ _
@[simp] theorem State.core_modCore_self (s : State) (c : Nat) (f : CoreState → CoreState) :
    (s.modCore c f).core c = f (s.core c) := SMap.get_set_self _ _ _ _
theorem State.core_modCore_ne (s : State) (c j : Nat) (f : CoreState → CoreState) (h : j ≠ c) :
    (s.modCore c f).core j = s.core j := SMap.get_set_ne _ _ _ _ _ h
@[simp] theorem State.die_modDie_self (s : State) (d : Nat) (f : Die → Die) : (s.modDie d f).die d = f (s.die d) :=
  SMap.get_set_self _ _ _ _
theorem State.die_modDie_ne (s : State) (d j : Nat) (f : Die → Die) (h : j ≠ d) : (s.modDie d f).die j = s.die j :=
  SMap.get_set_ne _ _ _ _ _ h

@[simp] theorem State.crew_setTg (s : State) (id : Nat) (g : Tg) (c : Nat) : (s.setTg id g).crew c = s.crew c := rfl
@[simp] theorem State.launch_setTg (s : State) (id : Nat) (g : Tg) (l : Nat) : (s.setTg id g).launch l = s.launch l := rfl
@[simp] theorem State.ctx_setTg (s : State) (id : Nat) (g : Tg) (c : Nat) : (s.setTg id g).ctx c = s.ctx c := rfl
@[simp] theorem State.byte_setTg (s : State) (id : Nat) (g : Tg) (loc salt : Nat) :
    (s.setTg id g).byte loc salt = s.byte loc salt := rfl
@[simp] theorem State.crewOf_setTg (s : State) (id : Nat) (g h : Tg) : (s.setTg id g).crewOf h = s.crewOf h := rfl

/-! ### Updates of a TG -/

@[simp] theorem Tg.advance_ctx (g : Tg) (n : Nat) : (g.advance n).ctx = g.ctx := rfl
@[simp] theorem Tg.advance_launch (g : Tg) (n : Nat) : (g.advance n).launch = g.launch := rfl
@[simp] theorem Tg.advance_crew (g : Tg) (n : Nat) : (g.advance n).crew = g.crew := rfl
@[simp] theorem Tg.advance_num (g : Tg) (n : Nat) : (g.advance n).num = g.num := rfl
@[simp] theorem Tg.advance_idx (g : Tg) (n : Nat) : (g.advance n).idx = g.idx := rfl
@[simp] theorem Tg.advance_crewNum (g : Tg) (n : Nat) : (g.advance n).crewNum = g.crewNum := rfl
@[simp] theorem Tg.advance_core (g : Tg) (n : Nat) : (g.advance n).core = g.core := rfl
@[simp] theorem Tg.advance_sub (g : Tg) (n : Nat) : (g.advance n).sub = g.sub := rfl
@[simp] theorem Tg.advance_resident (g : Tg) (n : Nat) : (g.advance n).resident = g.resident := rfl
@[simp] theorem Tg.advance_order (g : Tg) (n : Nat) : (g.advance n).order = g.order := rfl
@[simp] theorem Tg.advance_mask (g : Tg) (n : Nat) : (g.advance n).mask = g.mask := rfl
@[simp] theorem Tg.advance_xmask (g : Tg) (n : Nat) : (g.advance n).xmask = g.xmask := rfl
@[simp] theorem Tg.advance_v (g : Tg) (n : Nat) : (g.advance n).v = g.v := rfl
@[simp] theorem Tg.advance_s (g : Tg) (n : Nat) : (g.advance n).s = g.s := rfl
@[simp] theorem Tg.advance_p (g : Tg) (n : Nat) : (g.advance n).p = g.p := rfl
@[simp] theorem Tg.advance_f (g : Tg) (n : Nat) : (g.advance n).f = g.f := rfl
@[simp] theorem Tg.advance_reconv (g : Tg) (n : Nat) : (g.advance n).reconv = g.reconv := rfl
@[simp] theorem Tg.advance_win (g : Tg) (n : Nat) : (g.advance n).win = g.win := rfl
@[simp] theorem Tg.advance_trap (g : Tg) (n : Nat) : (g.advance n).trap = g.trap := rfl
@[simp] theorem Tg.advance_mode (g : Tg) (n : Nat) : (g.advance n).mode = g.mode := rfl
@[simp] theorem Tg.advance_task (g : Tg) (n : Nat) : (g.advance n).task = g.task := rfl
@[simp] theorem Tg.advance_threads (g : Tg) (n : Nat) : (g.advance n).threads = g.threads := rfl
@[simp] theorem Tg.advance_frames (g : Tg) (n : Nat) : (g.advance n).frames = g.frames := rfl
@[simp] theorem Tg.advance_share (g : Tg) (n : Nat) : (g.advance n).share = g.share := rfl
@[simp] theorem Tg.advance_flushSeq (g : Tg) (n : Nat) : (g.advance n).flushSeq = g.flushSeq := rfl
@[simp] theorem Tg.advance_stores (g : Tg) (n : Nat) : (g.advance n).stores = g.stores := rfl
@[simp] theorem Tg.advance_seen (g : Tg) (n : Nat) : (g.advance n).seen = g.seen := rfl
@[simp] theorem Tg.advance_reads (g : Tg) (n : Nat) : (g.advance n).reads = g.reads := rfl
@[simp] theorem Tg.advance_fences (g : Tg) (n : Nat) : (g.advance n).fences = g.fences := rfl
@[simp] theorem Tg.advance_sliceEnd (g : Tg) (n : Nat) : (g.advance n).sliceEnd = g.sliceEnd := rfl
@[simp] theorem Tg.advance_late (g : Tg) (n : Nat) : (g.advance n).late = g.late := rfl
@[simp] theorem Tg.advance_wait (g : Tg) (n : Nat) : (g.advance n).wait = g.wait := rfl
@[simp] theorem Tg.advance_readyAt (g : Tg) (n : Nat) : (g.advance n).readyAt = g.readyAt := rfl
@[simp] theorem Tg.advance_mac (g : Tg) (n : Nat) : (g.advance n).mac = g.mac := rfl
@[simp] theorem Tg.advance_mcOld (g : Tg) (n : Nat) : (g.advance n).mcOld = g.mcOld := rfl
@[simp] theorem Tg.advance_budget (g : Tg) (n : Nat) : (g.advance n).budget = g.budget := rfl
@[simp] theorem Tg.advance_budgetTaken (g : Tg) (n : Nat) : (g.advance n).budgetTaken = g.budgetTaken := rfl
@[simp] theorem Tg.advance_budgetForced (g : Tg) (n : Nat) : (g.advance n).budgetForced = g.budgetForced := rfl
@[simp] theorem Tg.advance_forced (g : Tg) (n : Nat) : (g.advance n).forced = g.forced := rfl
@[simp] theorem Tg.advance_preempt (g : Tg) (n : Nat) : (g.advance n).preempt = g.preempt := rfl
@[simp] theorem Tg.advance_held (g : Tg) (n : Nat) : (g.advance n).held = g.held := rfl
@[simp] theorem Tg.advance_sinceSafe (g : Tg) (n : Nat) : (g.advance n).sinceSafe = g.sinceSafe := rfl
@[simp] theorem Tg.advance_slot (g : Tg) (n : Nat) : (g.advance n).slot = g.slot := rfl
@[simp] theorem Tg.advance_ending (g : Tg) (n : Nat) : (g.advance n).ending = g.ending := rfl
@[simp] theorem Tg.advance_gangBad (g : Tg) (n : Nat) : (g.advance n).gangBad = g.gangBad := rfl
@[simp] theorem Tg.advance_faultInval (g : Tg) (n : Nat) : (g.advance n).faultInval = g.faultInval := rfl
@[simp] theorem Tg.advance_linkLost (g : Tg) (n : Nat) : (g.advance n).linkLost = g.linkLost := rfl

@[simp] theorem Tg.setV_ctx (g : Tg) (n : Nat) (x : Nat → Option W32) : (g.setV n x).ctx = g.ctx := rfl
@[simp] theorem Tg.setV_launch (g : Tg) (n : Nat) (x : Nat → Option W32) : (g.setV n x).launch = g.launch := rfl
@[simp] theorem Tg.setV_crew (g : Tg) (n : Nat) (x : Nat → Option W32) : (g.setV n x).crew = g.crew := rfl
@[simp] theorem Tg.setV_num (g : Tg) (n : Nat) (x : Nat → Option W32) : (g.setV n x).num = g.num := rfl
@[simp] theorem Tg.setV_idx (g : Tg) (n : Nat) (x : Nat → Option W32) : (g.setV n x).idx = g.idx := rfl
@[simp] theorem Tg.setV_crewNum (g : Tg) (n : Nat) (x : Nat → Option W32) : (g.setV n x).crewNum = g.crewNum := rfl
@[simp] theorem Tg.setV_core (g : Tg) (n : Nat) (x : Nat → Option W32) : (g.setV n x).core = g.core := rfl
@[simp] theorem Tg.setV_sub (g : Tg) (n : Nat) (x : Nat → Option W32) : (g.setV n x).sub = g.sub := rfl
@[simp] theorem Tg.setV_resident (g : Tg) (n : Nat) (x : Nat → Option W32) : (g.setV n x).resident = g.resident := rfl
@[simp] theorem Tg.setV_order (g : Tg) (n : Nat) (x : Nat → Option W32) : (g.setV n x).order = g.order := rfl
@[simp] theorem Tg.setV_pc (g : Tg) (n : Nat) (x : Nat → Option W32) : (g.setV n x).pc = g.pc := rfl
@[simp] theorem Tg.setV_mask (g : Tg) (n : Nat) (x : Nat → Option W32) : (g.setV n x).mask = g.mask := rfl
@[simp] theorem Tg.setV_xmask (g : Tg) (n : Nat) (x : Nat → Option W32) : (g.setV n x).xmask = g.xmask := rfl
@[simp] theorem Tg.setV_s (g : Tg) (n : Nat) (x : Nat → Option W32) : (g.setV n x).s = g.s := rfl
@[simp] theorem Tg.setV_p (g : Tg) (n : Nat) (x : Nat → Option W32) : (g.setV n x).p = g.p := rfl
@[simp] theorem Tg.setV_f (g : Tg) (n : Nat) (x : Nat → Option W32) : (g.setV n x).f = g.f := rfl
@[simp] theorem Tg.setV_reconv (g : Tg) (n : Nat) (x : Nat → Option W32) : (g.setV n x).reconv = g.reconv := rfl
@[simp] theorem Tg.setV_win (g : Tg) (n : Nat) (x : Nat → Option W32) : (g.setV n x).win = g.win := rfl
@[simp] theorem Tg.setV_trap (g : Tg) (n : Nat) (x : Nat → Option W32) : (g.setV n x).trap = g.trap := rfl
@[simp] theorem Tg.setV_mode (g : Tg) (n : Nat) (x : Nat → Option W32) : (g.setV n x).mode = g.mode := rfl
@[simp] theorem Tg.setV_task (g : Tg) (n : Nat) (x : Nat → Option W32) : (g.setV n x).task = g.task := rfl
@[simp] theorem Tg.setV_threads (g : Tg) (n : Nat) (x : Nat → Option W32) : (g.setV n x).threads = g.threads := rfl
@[simp] theorem Tg.setV_frames (g : Tg) (n : Nat) (x : Nat → Option W32) : (g.setV n x).frames = g.frames := rfl
@[simp] theorem Tg.setV_share (g : Tg) (n : Nat) (x : Nat → Option W32) : (g.setV n x).share = g.share := rfl
@[simp] theorem Tg.setV_flushSeq (g : Tg) (n : Nat) (x : Nat → Option W32) : (g.setV n x).flushSeq = g.flushSeq := rfl
@[simp] theorem Tg.setV_stores (g : Tg) (n : Nat) (x : Nat → Option W32) : (g.setV n x).stores = g.stores := rfl
@[simp] theorem Tg.setV_seen (g : Tg) (n : Nat) (x : Nat → Option W32) : (g.setV n x).seen = g.seen := rfl
@[simp] theorem Tg.setV_reads (g : Tg) (n : Nat) (x : Nat → Option W32) : (g.setV n x).reads = g.reads := rfl
@[simp] theorem Tg.setV_fences (g : Tg) (n : Nat) (x : Nat → Option W32) : (g.setV n x).fences = g.fences := rfl
@[simp] theorem Tg.setV_sliceEnd (g : Tg) (n : Nat) (x : Nat → Option W32) : (g.setV n x).sliceEnd = g.sliceEnd := rfl
@[simp] theorem Tg.setV_late (g : Tg) (n : Nat) (x : Nat → Option W32) : (g.setV n x).late = g.late := rfl
@[simp] theorem Tg.setV_wait (g : Tg) (n : Nat) (x : Nat → Option W32) : (g.setV n x).wait = g.wait := rfl
@[simp] theorem Tg.setV_readyAt (g : Tg) (n : Nat) (x : Nat → Option W32) : (g.setV n x).readyAt = g.readyAt := rfl
@[simp] theorem Tg.setV_mac (g : Tg) (n : Nat) (x : Nat → Option W32) : (g.setV n x).mac = g.mac := rfl
@[simp] theorem Tg.setV_mcOld (g : Tg) (n : Nat) (x : Nat → Option W32) : (g.setV n x).mcOld = g.mcOld := rfl
@[simp] theorem Tg.setV_budget (g : Tg) (n : Nat) (x : Nat → Option W32) : (g.setV n x).budget = g.budget := rfl
@[simp] theorem Tg.setV_budgetTaken (g : Tg) (n : Nat) (x : Nat → Option W32) : (g.setV n x).budgetTaken = g.budgetTaken := rfl
@[simp] theorem Tg.setV_budgetForced (g : Tg) (n : Nat) (x : Nat → Option W32) : (g.setV n x).budgetForced = g.budgetForced := rfl
@[simp] theorem Tg.setV_forced (g : Tg) (n : Nat) (x : Nat → Option W32) : (g.setV n x).forced = g.forced := rfl
@[simp] theorem Tg.setV_preempt (g : Tg) (n : Nat) (x : Nat → Option W32) : (g.setV n x).preempt = g.preempt := rfl
@[simp] theorem Tg.setV_held (g : Tg) (n : Nat) (x : Nat → Option W32) : (g.setV n x).held = g.held := rfl
@[simp] theorem Tg.setV_sinceSafe (g : Tg) (n : Nat) (x : Nat → Option W32) : (g.setV n x).sinceSafe = g.sinceSafe := rfl
@[simp] theorem Tg.setV_slot (g : Tg) (n : Nat) (x : Nat → Option W32) : (g.setV n x).slot = g.slot := rfl
@[simp] theorem Tg.setV_ending (g : Tg) (n : Nat) (x : Nat → Option W32) : (g.setV n x).ending = g.ending := rfl
@[simp] theorem Tg.setV_gangBad (g : Tg) (n : Nat) (x : Nat → Option W32) : (g.setV n x).gangBad = g.gangBad := rfl
@[simp] theorem Tg.setV_faultInval (g : Tg) (n : Nat) (x : Nat → Option W32) : (g.setV n x).faultInval = g.faultInval := rfl
@[simp] theorem Tg.setV_linkLost (g : Tg) (n : Nat) (x : Nat → Option W32) : (g.setV n x).linkLost = g.linkLost := rfl

@[simp] theorem Tg.advance_pc (g : Tg) (n : Nat) : (g.advance n).pc = g.pc + BitVec.ofNat 64 (8 * n) := rfl

@[simp] theorem Tg.setV64_ctx (g : Tg) (n : Nat) (x : Nat → Option W64) : (g.setV64 n x).ctx = g.ctx := rfl
@[simp] theorem Tg.setV64_launch (g : Tg) (n : Nat) (x : Nat → Option W64) : (g.setV64 n x).launch = g.launch := rfl
@[simp] theorem Tg.setV64_crew (g : Tg) (n : Nat) (x : Nat → Option W64) : (g.setV64 n x).crew = g.crew := rfl
@[simp] theorem Tg.setV64_num (g : Tg) (n : Nat) (x : Nat → Option W64) : (g.setV64 n x).num = g.num := rfl
@[simp] theorem Tg.setV64_idx (g : Tg) (n : Nat) (x : Nat → Option W64) : (g.setV64 n x).idx = g.idx := rfl
@[simp] theorem Tg.setV64_crewNum (g : Tg) (n : Nat) (x : Nat → Option W64) : (g.setV64 n x).crewNum = g.crewNum := rfl
@[simp] theorem Tg.setV64_core (g : Tg) (n : Nat) (x : Nat → Option W64) : (g.setV64 n x).core = g.core := rfl
@[simp] theorem Tg.setV64_sub (g : Tg) (n : Nat) (x : Nat → Option W64) : (g.setV64 n x).sub = g.sub := rfl
@[simp] theorem Tg.setV64_resident (g : Tg) (n : Nat) (x : Nat → Option W64) : (g.setV64 n x).resident = g.resident := rfl
@[simp] theorem Tg.setV64_order (g : Tg) (n : Nat) (x : Nat → Option W64) : (g.setV64 n x).order = g.order := rfl
@[simp] theorem Tg.setV64_pc (g : Tg) (n : Nat) (x : Nat → Option W64) : (g.setV64 n x).pc = g.pc := rfl
@[simp] theorem Tg.setV64_mask (g : Tg) (n : Nat) (x : Nat → Option W64) : (g.setV64 n x).mask = g.mask := rfl
@[simp] theorem Tg.setV64_xmask (g : Tg) (n : Nat) (x : Nat → Option W64) : (g.setV64 n x).xmask = g.xmask := rfl
@[simp] theorem Tg.setV64_s (g : Tg) (n : Nat) (x : Nat → Option W64) : (g.setV64 n x).s = g.s := rfl
@[simp] theorem Tg.setV64_p (g : Tg) (n : Nat) (x : Nat → Option W64) : (g.setV64 n x).p = g.p := rfl
@[simp] theorem Tg.setV64_f (g : Tg) (n : Nat) (x : Nat → Option W64) : (g.setV64 n x).f = g.f := rfl
@[simp] theorem Tg.setV64_reconv (g : Tg) (n : Nat) (x : Nat → Option W64) : (g.setV64 n x).reconv = g.reconv := rfl
@[simp] theorem Tg.setV64_win (g : Tg) (n : Nat) (x : Nat → Option W64) : (g.setV64 n x).win = g.win := rfl
@[simp] theorem Tg.setV64_trap (g : Tg) (n : Nat) (x : Nat → Option W64) : (g.setV64 n x).trap = g.trap := rfl
@[simp] theorem Tg.setV64_mode (g : Tg) (n : Nat) (x : Nat → Option W64) : (g.setV64 n x).mode = g.mode := rfl
@[simp] theorem Tg.setV64_task (g : Tg) (n : Nat) (x : Nat → Option W64) : (g.setV64 n x).task = g.task := rfl
@[simp] theorem Tg.setV64_threads (g : Tg) (n : Nat) (x : Nat → Option W64) : (g.setV64 n x).threads = g.threads := rfl
@[simp] theorem Tg.setV64_frames (g : Tg) (n : Nat) (x : Nat → Option W64) : (g.setV64 n x).frames = g.frames := rfl
@[simp] theorem Tg.setV64_share (g : Tg) (n : Nat) (x : Nat → Option W64) : (g.setV64 n x).share = g.share := rfl
@[simp] theorem Tg.setV64_flushSeq (g : Tg) (n : Nat) (x : Nat → Option W64) : (g.setV64 n x).flushSeq = g.flushSeq := rfl
@[simp] theorem Tg.setV64_stores (g : Tg) (n : Nat) (x : Nat → Option W64) : (g.setV64 n x).stores = g.stores := rfl
@[simp] theorem Tg.setV64_seen (g : Tg) (n : Nat) (x : Nat → Option W64) : (g.setV64 n x).seen = g.seen := rfl
@[simp] theorem Tg.setV64_reads (g : Tg) (n : Nat) (x : Nat → Option W64) : (g.setV64 n x).reads = g.reads := rfl
@[simp] theorem Tg.setV64_fences (g : Tg) (n : Nat) (x : Nat → Option W64) : (g.setV64 n x).fences = g.fences := rfl
@[simp] theorem Tg.setV64_sliceEnd (g : Tg) (n : Nat) (x : Nat → Option W64) : (g.setV64 n x).sliceEnd = g.sliceEnd := rfl
@[simp] theorem Tg.setV64_late (g : Tg) (n : Nat) (x : Nat → Option W64) : (g.setV64 n x).late = g.late := rfl
@[simp] theorem Tg.setV64_wait (g : Tg) (n : Nat) (x : Nat → Option W64) : (g.setV64 n x).wait = g.wait := rfl
@[simp] theorem Tg.setV64_readyAt (g : Tg) (n : Nat) (x : Nat → Option W64) : (g.setV64 n x).readyAt = g.readyAt := rfl
@[simp] theorem Tg.setV64_mac (g : Tg) (n : Nat) (x : Nat → Option W64) : (g.setV64 n x).mac = g.mac := rfl
@[simp] theorem Tg.setV64_mcOld (g : Tg) (n : Nat) (x : Nat → Option W64) : (g.setV64 n x).mcOld = g.mcOld := rfl
@[simp] theorem Tg.setV64_budget (g : Tg) (n : Nat) (x : Nat → Option W64) : (g.setV64 n x).budget = g.budget := rfl
@[simp] theorem Tg.setV64_budgetTaken (g : Tg) (n : Nat) (x : Nat → Option W64) : (g.setV64 n x).budgetTaken = g.budgetTaken := rfl
@[simp] theorem Tg.setV64_budgetForced (g : Tg) (n : Nat) (x : Nat → Option W64) : (g.setV64 n x).budgetForced = g.budgetForced := rfl
@[simp] theorem Tg.setV64_forced (g : Tg) (n : Nat) (x : Nat → Option W64) : (g.setV64 n x).forced = g.forced := rfl
@[simp] theorem Tg.setV64_preempt (g : Tg) (n : Nat) (x : Nat → Option W64) : (g.setV64 n x).preempt = g.preempt := rfl
@[simp] theorem Tg.setV64_held (g : Tg) (n : Nat) (x : Nat → Option W64) : (g.setV64 n x).held = g.held := rfl
@[simp] theorem Tg.setV64_sinceSafe (g : Tg) (n : Nat) (x : Nat → Option W64) : (g.setV64 n x).sinceSafe = g.sinceSafe := rfl
@[simp] theorem Tg.setV64_slot (g : Tg) (n : Nat) (x : Nat → Option W64) : (g.setV64 n x).slot = g.slot := rfl
@[simp] theorem Tg.setV64_ending (g : Tg) (n : Nat) (x : Nat → Option W64) : (g.setV64 n x).ending = g.ending := rfl
@[simp] theorem Tg.setV64_gangBad (g : Tg) (n : Nat) (x : Nat → Option W64) : (g.setV64 n x).gangBad = g.gangBad := rfl
@[simp] theorem Tg.setV64_faultInval (g : Tg) (n : Nat) (x : Nat → Option W64) : (g.setV64 n x).faultInval = g.faultInval := rfl
@[simp] theorem Tg.setV64_linkLost (g : Tg) (n : Nat) (x : Nat → Option W64) : (g.setV64 n x).linkLost = g.linkLost := rfl

@[simp] theorem Tg.setP_ctx (g : Tg) (n : Nat) (x : Nat → Option (BitVec 4 × BitVec 4)) : (g.setP n x).ctx = g.ctx := by
  unfold Tg.setP; split <;> rfl
@[simp] theorem Tg.setP_launch (g : Tg) (n : Nat) (x : Nat → Option (BitVec 4 × BitVec 4)) : (g.setP n x).launch = g.launch := by
  unfold Tg.setP; split <;> rfl
@[simp] theorem Tg.setP_crew (g : Tg) (n : Nat) (x : Nat → Option (BitVec 4 × BitVec 4)) : (g.setP n x).crew = g.crew := by
  unfold Tg.setP; split <;> rfl
@[simp] theorem Tg.setP_num (g : Tg) (n : Nat) (x : Nat → Option (BitVec 4 × BitVec 4)) : (g.setP n x).num = g.num := by
  unfold Tg.setP; split <;> rfl
@[simp] theorem Tg.setP_idx (g : Tg) (n : Nat) (x : Nat → Option (BitVec 4 × BitVec 4)) : (g.setP n x).idx = g.idx := by
  unfold Tg.setP; split <;> rfl
@[simp] theorem Tg.setP_crewNum (g : Tg) (n : Nat) (x : Nat → Option (BitVec 4 × BitVec 4)) : (g.setP n x).crewNum = g.crewNum := by
  unfold Tg.setP; split <;> rfl
@[simp] theorem Tg.setP_core (g : Tg) (n : Nat) (x : Nat → Option (BitVec 4 × BitVec 4)) : (g.setP n x).core = g.core := by
  unfold Tg.setP; split <;> rfl
@[simp] theorem Tg.setP_sub (g : Tg) (n : Nat) (x : Nat → Option (BitVec 4 × BitVec 4)) : (g.setP n x).sub = g.sub := by
  unfold Tg.setP; split <;> rfl
@[simp] theorem Tg.setP_resident (g : Tg) (n : Nat) (x : Nat → Option (BitVec 4 × BitVec 4)) : (g.setP n x).resident = g.resident := by
  unfold Tg.setP; split <;> rfl
@[simp] theorem Tg.setP_order (g : Tg) (n : Nat) (x : Nat → Option (BitVec 4 × BitVec 4)) : (g.setP n x).order = g.order := by
  unfold Tg.setP; split <;> rfl
@[simp] theorem Tg.setP_pc (g : Tg) (n : Nat) (x : Nat → Option (BitVec 4 × BitVec 4)) : (g.setP n x).pc = g.pc := by
  unfold Tg.setP; split <;> rfl
@[simp] theorem Tg.setP_mask (g : Tg) (n : Nat) (x : Nat → Option (BitVec 4 × BitVec 4)) : (g.setP n x).mask = g.mask := by
  unfold Tg.setP; split <;> rfl
@[simp] theorem Tg.setP_xmask (g : Tg) (n : Nat) (x : Nat → Option (BitVec 4 × BitVec 4)) : (g.setP n x).xmask = g.xmask := by
  unfold Tg.setP; split <;> rfl
@[simp] theorem Tg.setP_v (g : Tg) (n : Nat) (x : Nat → Option (BitVec 4 × BitVec 4)) : (g.setP n x).v = g.v := by
  unfold Tg.setP; split <;> rfl
@[simp] theorem Tg.setP_s (g : Tg) (n : Nat) (x : Nat → Option (BitVec 4 × BitVec 4)) : (g.setP n x).s = g.s := by
  unfold Tg.setP; split <;> rfl
@[simp] theorem Tg.setP_f (g : Tg) (n : Nat) (x : Nat → Option (BitVec 4 × BitVec 4)) : (g.setP n x).f = g.f := by
  unfold Tg.setP; split <;> rfl
@[simp] theorem Tg.setP_reconv (g : Tg) (n : Nat) (x : Nat → Option (BitVec 4 × BitVec 4)) : (g.setP n x).reconv = g.reconv := by
  unfold Tg.setP; split <;> rfl
@[simp] theorem Tg.setP_win (g : Tg) (n : Nat) (x : Nat → Option (BitVec 4 × BitVec 4)) : (g.setP n x).win = g.win := by
  unfold Tg.setP; split <;> rfl
@[simp] theorem Tg.setP_trap (g : Tg) (n : Nat) (x : Nat → Option (BitVec 4 × BitVec 4)) : (g.setP n x).trap = g.trap := by
  unfold Tg.setP; split <;> rfl
@[simp] theorem Tg.setP_mode (g : Tg) (n : Nat) (x : Nat → Option (BitVec 4 × BitVec 4)) : (g.setP n x).mode = g.mode := by
  unfold Tg.setP; split <;> rfl
@[simp] theorem Tg.setP_task (g : Tg) (n : Nat) (x : Nat → Option (BitVec 4 × BitVec 4)) : (g.setP n x).task = g.task := by
  unfold Tg.setP; split <;> rfl
@[simp] theorem Tg.setP_threads (g : Tg) (n : Nat) (x : Nat → Option (BitVec 4 × BitVec 4)) : (g.setP n x).threads = g.threads := by
  unfold Tg.setP; split <;> rfl
@[simp] theorem Tg.setP_frames (g : Tg) (n : Nat) (x : Nat → Option (BitVec 4 × BitVec 4)) : (g.setP n x).frames = g.frames := by
  unfold Tg.setP; split <;> rfl
@[simp] theorem Tg.setP_share (g : Tg) (n : Nat) (x : Nat → Option (BitVec 4 × BitVec 4)) : (g.setP n x).share = g.share := by
  unfold Tg.setP; split <;> rfl
@[simp] theorem Tg.setP_flushSeq (g : Tg) (n : Nat) (x : Nat → Option (BitVec 4 × BitVec 4)) : (g.setP n x).flushSeq = g.flushSeq := by
  unfold Tg.setP; split <;> rfl
@[simp] theorem Tg.setP_stores (g : Tg) (n : Nat) (x : Nat → Option (BitVec 4 × BitVec 4)) : (g.setP n x).stores = g.stores := by
  unfold Tg.setP; split <;> rfl
@[simp] theorem Tg.setP_seen (g : Tg) (n : Nat) (x : Nat → Option (BitVec 4 × BitVec 4)) : (g.setP n x).seen = g.seen := by
  unfold Tg.setP; split <;> rfl
@[simp] theorem Tg.setP_reads (g : Tg) (n : Nat) (x : Nat → Option (BitVec 4 × BitVec 4)) : (g.setP n x).reads = g.reads := by
  unfold Tg.setP; split <;> rfl
@[simp] theorem Tg.setP_fences (g : Tg) (n : Nat) (x : Nat → Option (BitVec 4 × BitVec 4)) : (g.setP n x).fences = g.fences := by
  unfold Tg.setP; split <;> rfl
@[simp] theorem Tg.setP_sliceEnd (g : Tg) (n : Nat) (x : Nat → Option (BitVec 4 × BitVec 4)) : (g.setP n x).sliceEnd = g.sliceEnd := by
  unfold Tg.setP; split <;> rfl
@[simp] theorem Tg.setP_late (g : Tg) (n : Nat) (x : Nat → Option (BitVec 4 × BitVec 4)) : (g.setP n x).late = g.late := by
  unfold Tg.setP; split <;> rfl
@[simp] theorem Tg.setP_wait (g : Tg) (n : Nat) (x : Nat → Option (BitVec 4 × BitVec 4)) : (g.setP n x).wait = g.wait := by
  unfold Tg.setP; split <;> rfl
@[simp] theorem Tg.setP_readyAt (g : Tg) (n : Nat) (x : Nat → Option (BitVec 4 × BitVec 4)) : (g.setP n x).readyAt = g.readyAt := by
  unfold Tg.setP; split <;> rfl
@[simp] theorem Tg.setP_mac (g : Tg) (n : Nat) (x : Nat → Option (BitVec 4 × BitVec 4)) : (g.setP n x).mac = g.mac := by
  unfold Tg.setP; split <;> rfl
@[simp] theorem Tg.setP_mcOld (g : Tg) (n : Nat) (x : Nat → Option (BitVec 4 × BitVec 4)) : (g.setP n x).mcOld = g.mcOld := by
  unfold Tg.setP; split <;> rfl
@[simp] theorem Tg.setP_budget (g : Tg) (n : Nat) (x : Nat → Option (BitVec 4 × BitVec 4)) : (g.setP n x).budget = g.budget := by
  unfold Tg.setP; split <;> rfl
@[simp] theorem Tg.setP_budgetTaken (g : Tg) (n : Nat) (x : Nat → Option (BitVec 4 × BitVec 4)) : (g.setP n x).budgetTaken = g.budgetTaken := by
  unfold Tg.setP; split <;> rfl
@[simp] theorem Tg.setP_budgetForced (g : Tg) (n : Nat) (x : Nat → Option (BitVec 4 × BitVec 4)) : (g.setP n x).budgetForced = g.budgetForced := by
  unfold Tg.setP; split <;> rfl
@[simp] theorem Tg.setP_forced (g : Tg) (n : Nat) (x : Nat → Option (BitVec 4 × BitVec 4)) : (g.setP n x).forced = g.forced := by
  unfold Tg.setP; split <;> rfl
@[simp] theorem Tg.setP_preempt (g : Tg) (n : Nat) (x : Nat → Option (BitVec 4 × BitVec 4)) : (g.setP n x).preempt = g.preempt := by
  unfold Tg.setP; split <;> rfl
@[simp] theorem Tg.setP_held (g : Tg) (n : Nat) (x : Nat → Option (BitVec 4 × BitVec 4)) : (g.setP n x).held = g.held := by
  unfold Tg.setP; split <;> rfl
@[simp] theorem Tg.setP_sinceSafe (g : Tg) (n : Nat) (x : Nat → Option (BitVec 4 × BitVec 4)) : (g.setP n x).sinceSafe = g.sinceSafe := by
  unfold Tg.setP; split <;> rfl
@[simp] theorem Tg.setP_slot (g : Tg) (n : Nat) (x : Nat → Option (BitVec 4 × BitVec 4)) : (g.setP n x).slot = g.slot := by
  unfold Tg.setP; split <;> rfl
@[simp] theorem Tg.setP_ending (g : Tg) (n : Nat) (x : Nat → Option (BitVec 4 × BitVec 4)) : (g.setP n x).ending = g.ending := by
  unfold Tg.setP; split <;> rfl
@[simp] theorem Tg.setP_gangBad (g : Tg) (n : Nat) (x : Nat → Option (BitVec 4 × BitVec 4)) : (g.setP n x).gangBad = g.gangBad := by
  unfold Tg.setP; split <;> rfl
@[simp] theorem Tg.setP_faultInval (g : Tg) (n : Nat) (x : Nat → Option (BitVec 4 × BitVec 4)) : (g.setP n x).faultInval = g.faultInval := by
  unfold Tg.setP; split <;> rfl
@[simp] theorem Tg.setP_linkLost (g : Tg) (n : Nat) (x : Nat → Option (BitVec 4 × BitVec 4)) : (g.setP n x).linkLost = g.linkLost := by
  unfold Tg.setP; split <;> rfl

@[simp] theorem Tg.setS_ctx (g : Tg) (n : Nat) (x : W64) : (g.setS n x).ctx = g.ctx := by
  unfold Tg.setS; split <;> rfl
@[simp] theorem Tg.setS_launch (g : Tg) (n : Nat) (x : W64) : (g.setS n x).launch = g.launch := by
  unfold Tg.setS; split <;> rfl
@[simp] theorem Tg.setS_crew (g : Tg) (n : Nat) (x : W64) : (g.setS n x).crew = g.crew := by
  unfold Tg.setS; split <;> rfl
@[simp] theorem Tg.setS_num (g : Tg) (n : Nat) (x : W64) : (g.setS n x).num = g.num := by
  unfold Tg.setS; split <;> rfl
@[simp] theorem Tg.setS_idx (g : Tg) (n : Nat) (x : W64) : (g.setS n x).idx = g.idx := by
  unfold Tg.setS; split <;> rfl
@[simp] theorem Tg.setS_crewNum (g : Tg) (n : Nat) (x : W64) : (g.setS n x).crewNum = g.crewNum := by
  unfold Tg.setS; split <;> rfl
@[simp] theorem Tg.setS_core (g : Tg) (n : Nat) (x : W64) : (g.setS n x).core = g.core := by
  unfold Tg.setS; split <;> rfl
@[simp] theorem Tg.setS_sub (g : Tg) (n : Nat) (x : W64) : (g.setS n x).sub = g.sub := by
  unfold Tg.setS; split <;> rfl
@[simp] theorem Tg.setS_resident (g : Tg) (n : Nat) (x : W64) : (g.setS n x).resident = g.resident := by
  unfold Tg.setS; split <;> rfl
@[simp] theorem Tg.setS_order (g : Tg) (n : Nat) (x : W64) : (g.setS n x).order = g.order := by
  unfold Tg.setS; split <;> rfl
@[simp] theorem Tg.setS_pc (g : Tg) (n : Nat) (x : W64) : (g.setS n x).pc = g.pc := by
  unfold Tg.setS; split <;> rfl
@[simp] theorem Tg.setS_xmask (g : Tg) (n : Nat) (x : W64) : (g.setS n x).xmask = g.xmask := by
  unfold Tg.setS; split <;> rfl
@[simp] theorem Tg.setS_v (g : Tg) (n : Nat) (x : W64) : (g.setS n x).v = g.v := by
  unfold Tg.setS; split <;> rfl
@[simp] theorem Tg.setS_p (g : Tg) (n : Nat) (x : W64) : (g.setS n x).p = g.p := by
  unfold Tg.setS; split <;> rfl
@[simp] theorem Tg.setS_f (g : Tg) (n : Nat) (x : W64) : (g.setS n x).f = g.f := by
  unfold Tg.setS; split <;> rfl
@[simp] theorem Tg.setS_reconv (g : Tg) (n : Nat) (x : W64) : (g.setS n x).reconv = g.reconv := by
  unfold Tg.setS; split <;> rfl
@[simp] theorem Tg.setS_win (g : Tg) (n : Nat) (x : W64) : (g.setS n x).win = g.win := by
  unfold Tg.setS; split <;> rfl
@[simp] theorem Tg.setS_trap (g : Tg) (n : Nat) (x : W64) : (g.setS n x).trap = g.trap := by
  unfold Tg.setS; split <;> rfl
@[simp] theorem Tg.setS_mode (g : Tg) (n : Nat) (x : W64) : (g.setS n x).mode = g.mode := by
  unfold Tg.setS; split <;> rfl
@[simp] theorem Tg.setS_task (g : Tg) (n : Nat) (x : W64) : (g.setS n x).task = g.task := by
  unfold Tg.setS; split <;> rfl
@[simp] theorem Tg.setS_threads (g : Tg) (n : Nat) (x : W64) : (g.setS n x).threads = g.threads := by
  unfold Tg.setS; split <;> rfl
@[simp] theorem Tg.setS_frames (g : Tg) (n : Nat) (x : W64) : (g.setS n x).frames = g.frames := by
  unfold Tg.setS; split <;> rfl
@[simp] theorem Tg.setS_share (g : Tg) (n : Nat) (x : W64) : (g.setS n x).share = g.share := by
  unfold Tg.setS; split <;> rfl
@[simp] theorem Tg.setS_flushSeq (g : Tg) (n : Nat) (x : W64) : (g.setS n x).flushSeq = g.flushSeq := by
  unfold Tg.setS; split <;> rfl
@[simp] theorem Tg.setS_stores (g : Tg) (n : Nat) (x : W64) : (g.setS n x).stores = g.stores := by
  unfold Tg.setS; split <;> rfl
@[simp] theorem Tg.setS_seen (g : Tg) (n : Nat) (x : W64) : (g.setS n x).seen = g.seen := by
  unfold Tg.setS; split <;> rfl
@[simp] theorem Tg.setS_reads (g : Tg) (n : Nat) (x : W64) : (g.setS n x).reads = g.reads := by
  unfold Tg.setS; split <;> rfl
@[simp] theorem Tg.setS_fences (g : Tg) (n : Nat) (x : W64) : (g.setS n x).fences = g.fences := by
  unfold Tg.setS; split <;> rfl
@[simp] theorem Tg.setS_sliceEnd (g : Tg) (n : Nat) (x : W64) : (g.setS n x).sliceEnd = g.sliceEnd := by
  unfold Tg.setS; split <;> rfl
@[simp] theorem Tg.setS_late (g : Tg) (n : Nat) (x : W64) : (g.setS n x).late = g.late := by
  unfold Tg.setS; split <;> rfl
@[simp] theorem Tg.setS_wait (g : Tg) (n : Nat) (x : W64) : (g.setS n x).wait = g.wait := by
  unfold Tg.setS; split <;> rfl
@[simp] theorem Tg.setS_readyAt (g : Tg) (n : Nat) (x : W64) : (g.setS n x).readyAt = g.readyAt := by
  unfold Tg.setS; split <;> rfl
@[simp] theorem Tg.setS_mac (g : Tg) (n : Nat) (x : W64) : (g.setS n x).mac = g.mac := by
  unfold Tg.setS; split <;> rfl
@[simp] theorem Tg.setS_mcOld (g : Tg) (n : Nat) (x : W64) : (g.setS n x).mcOld = g.mcOld := by
  unfold Tg.setS; split <;> rfl
@[simp] theorem Tg.setS_budget (g : Tg) (n : Nat) (x : W64) : (g.setS n x).budget = g.budget := by
  unfold Tg.setS; split <;> rfl
@[simp] theorem Tg.setS_budgetTaken (g : Tg) (n : Nat) (x : W64) : (g.setS n x).budgetTaken = g.budgetTaken := by
  unfold Tg.setS; split <;> rfl
@[simp] theorem Tg.setS_budgetForced (g : Tg) (n : Nat) (x : W64) : (g.setS n x).budgetForced = g.budgetForced := by
  unfold Tg.setS; split <;> rfl
@[simp] theorem Tg.setS_forced (g : Tg) (n : Nat) (x : W64) : (g.setS n x).forced = g.forced := by
  unfold Tg.setS; split <;> rfl
@[simp] theorem Tg.setS_preempt (g : Tg) (n : Nat) (x : W64) : (g.setS n x).preempt = g.preempt := by
  unfold Tg.setS; split <;> rfl
@[simp] theorem Tg.setS_held (g : Tg) (n : Nat) (x : W64) : (g.setS n x).held = g.held := by
  unfold Tg.setS; split <;> rfl
@[simp] theorem Tg.setS_sinceSafe (g : Tg) (n : Nat) (x : W64) : (g.setS n x).sinceSafe = g.sinceSafe := by
  unfold Tg.setS; split <;> rfl
@[simp] theorem Tg.setS_slot (g : Tg) (n : Nat) (x : W64) : (g.setS n x).slot = g.slot := by
  unfold Tg.setS; split <;> rfl
@[simp] theorem Tg.setS_ending (g : Tg) (n : Nat) (x : W64) : (g.setS n x).ending = g.ending := by
  unfold Tg.setS; split <;> rfl
@[simp] theorem Tg.setS_gangBad (g : Tg) (n : Nat) (x : W64) : (g.setS n x).gangBad = g.gangBad := by
  unfold Tg.setS; split <;> rfl
@[simp] theorem Tg.setS_faultInval (g : Tg) (n : Nat) (x : W64) : (g.setS n x).faultInval = g.faultInval := by
  unfold Tg.setS; split <;> rfl
@[simp] theorem Tg.setS_linkLost (g : Tg) (n : Nat) (x : W64) : (g.setS n x).linkLost = g.linkLost := by
  unfold Tg.setS; split <;> rfl

/-- A write of s0 to s60 leaves the mask. -/
theorem Tg.setS_mask (g : Tg) (n : Nat) (x : W64) (h : n < 61) : (g.setS n x).mask = g.mask := by
  simp [Tg.setS, h]

@[simp] theorem Tg.bumpSr_ctx (g : Tg) (rm : BitVec 3) : (g.bumpSr rm).ctx = g.ctx := by
  unfold Tg.bumpSr; split <;> rfl
@[simp] theorem Tg.bumpSr_launch (g : Tg) (rm : BitVec 3) : (g.bumpSr rm).launch = g.launch := by
  unfold Tg.bumpSr; split <;> rfl
@[simp] theorem Tg.bumpSr_crew (g : Tg) (rm : BitVec 3) : (g.bumpSr rm).crew = g.crew := by
  unfold Tg.bumpSr; split <;> rfl
@[simp] theorem Tg.bumpSr_num (g : Tg) (rm : BitVec 3) : (g.bumpSr rm).num = g.num := by
  unfold Tg.bumpSr; split <;> rfl
@[simp] theorem Tg.bumpSr_idx (g : Tg) (rm : BitVec 3) : (g.bumpSr rm).idx = g.idx := by
  unfold Tg.bumpSr; split <;> rfl
@[simp] theorem Tg.bumpSr_crewNum (g : Tg) (rm : BitVec 3) : (g.bumpSr rm).crewNum = g.crewNum := by
  unfold Tg.bumpSr; split <;> rfl
@[simp] theorem Tg.bumpSr_core (g : Tg) (rm : BitVec 3) : (g.bumpSr rm).core = g.core := by
  unfold Tg.bumpSr; split <;> rfl
@[simp] theorem Tg.bumpSr_sub (g : Tg) (rm : BitVec 3) : (g.bumpSr rm).sub = g.sub := by
  unfold Tg.bumpSr; split <;> rfl
@[simp] theorem Tg.bumpSr_resident (g : Tg) (rm : BitVec 3) : (g.bumpSr rm).resident = g.resident := by
  unfold Tg.bumpSr; split <;> rfl
@[simp] theorem Tg.bumpSr_order (g : Tg) (rm : BitVec 3) : (g.bumpSr rm).order = g.order := by
  unfold Tg.bumpSr; split <;> rfl
@[simp] theorem Tg.bumpSr_pc (g : Tg) (rm : BitVec 3) : (g.bumpSr rm).pc = g.pc := by
  unfold Tg.bumpSr; split <;> rfl
@[simp] theorem Tg.bumpSr_mask (g : Tg) (rm : BitVec 3) : (g.bumpSr rm).mask = g.mask := by
  unfold Tg.bumpSr; split <;> rfl
@[simp] theorem Tg.bumpSr_xmask (g : Tg) (rm : BitVec 3) : (g.bumpSr rm).xmask = g.xmask := by
  unfold Tg.bumpSr; split <;> rfl
@[simp] theorem Tg.bumpSr_v (g : Tg) (rm : BitVec 3) : (g.bumpSr rm).v = g.v := by
  unfold Tg.bumpSr; split <;> rfl
@[simp] theorem Tg.bumpSr_s (g : Tg) (rm : BitVec 3) : (g.bumpSr rm).s = g.s := by
  unfold Tg.bumpSr; split <;> rfl
@[simp] theorem Tg.bumpSr_p (g : Tg) (rm : BitVec 3) : (g.bumpSr rm).p = g.p := by
  unfold Tg.bumpSr; split <;> rfl
@[simp] theorem Tg.bumpSr_f (g : Tg) (rm : BitVec 3) : (g.bumpSr rm).f = g.f := by
  unfold Tg.bumpSr; split <;> rfl
@[simp] theorem Tg.bumpSr_reconv (g : Tg) (rm : BitVec 3) : (g.bumpSr rm).reconv = g.reconv := by
  unfold Tg.bumpSr; split <;> rfl
@[simp] theorem Tg.bumpSr_win (g : Tg) (rm : BitVec 3) : (g.bumpSr rm).win = g.win := by
  unfold Tg.bumpSr; split <;> rfl
@[simp] theorem Tg.bumpSr_trap (g : Tg) (rm : BitVec 3) : (g.bumpSr rm).trap = g.trap := by
  unfold Tg.bumpSr; split <;> rfl
@[simp] theorem Tg.bumpSr_task (g : Tg) (rm : BitVec 3) : (g.bumpSr rm).task = g.task := by
  unfold Tg.bumpSr; split <;> rfl
@[simp] theorem Tg.bumpSr_threads (g : Tg) (rm : BitVec 3) : (g.bumpSr rm).threads = g.threads := by
  unfold Tg.bumpSr; split <;> rfl
@[simp] theorem Tg.bumpSr_frames (g : Tg) (rm : BitVec 3) : (g.bumpSr rm).frames = g.frames := by
  unfold Tg.bumpSr; split <;> rfl
@[simp] theorem Tg.bumpSr_share (g : Tg) (rm : BitVec 3) : (g.bumpSr rm).share = g.share := by
  unfold Tg.bumpSr; split <;> rfl
@[simp] theorem Tg.bumpSr_flushSeq (g : Tg) (rm : BitVec 3) : (g.bumpSr rm).flushSeq = g.flushSeq := by
  unfold Tg.bumpSr; split <;> rfl
@[simp] theorem Tg.bumpSr_stores (g : Tg) (rm : BitVec 3) : (g.bumpSr rm).stores = g.stores := by
  unfold Tg.bumpSr; split <;> rfl
@[simp] theorem Tg.bumpSr_seen (g : Tg) (rm : BitVec 3) : (g.bumpSr rm).seen = g.seen := by
  unfold Tg.bumpSr; split <;> rfl
@[simp] theorem Tg.bumpSr_reads (g : Tg) (rm : BitVec 3) : (g.bumpSr rm).reads = g.reads := by
  unfold Tg.bumpSr; split <;> rfl
@[simp] theorem Tg.bumpSr_fences (g : Tg) (rm : BitVec 3) : (g.bumpSr rm).fences = g.fences := by
  unfold Tg.bumpSr; split <;> rfl
@[simp] theorem Tg.bumpSr_sliceEnd (g : Tg) (rm : BitVec 3) : (g.bumpSr rm).sliceEnd = g.sliceEnd := by
  unfold Tg.bumpSr; split <;> rfl
@[simp] theorem Tg.bumpSr_late (g : Tg) (rm : BitVec 3) : (g.bumpSr rm).late = g.late := by
  unfold Tg.bumpSr; split <;> rfl
@[simp] theorem Tg.bumpSr_wait (g : Tg) (rm : BitVec 3) : (g.bumpSr rm).wait = g.wait := by
  unfold Tg.bumpSr; split <;> rfl
@[simp] theorem Tg.bumpSr_readyAt (g : Tg) (rm : BitVec 3) : (g.bumpSr rm).readyAt = g.readyAt := by
  unfold Tg.bumpSr; split <;> rfl
@[simp] theorem Tg.bumpSr_mac (g : Tg) (rm : BitVec 3) : (g.bumpSr rm).mac = g.mac := by
  unfold Tg.bumpSr; split <;> rfl
@[simp] theorem Tg.bumpSr_mcOld (g : Tg) (rm : BitVec 3) : (g.bumpSr rm).mcOld = g.mcOld := by
  unfold Tg.bumpSr; split <;> rfl
@[simp] theorem Tg.bumpSr_budget (g : Tg) (rm : BitVec 3) : (g.bumpSr rm).budget = g.budget := by
  unfold Tg.bumpSr; split <;> rfl
@[simp] theorem Tg.bumpSr_budgetTaken (g : Tg) (rm : BitVec 3) : (g.bumpSr rm).budgetTaken = g.budgetTaken := by
  unfold Tg.bumpSr; split <;> rfl
@[simp] theorem Tg.bumpSr_budgetForced (g : Tg) (rm : BitVec 3) : (g.bumpSr rm).budgetForced = g.budgetForced := by
  unfold Tg.bumpSr; split <;> rfl
@[simp] theorem Tg.bumpSr_forced (g : Tg) (rm : BitVec 3) : (g.bumpSr rm).forced = g.forced := by
  unfold Tg.bumpSr; split <;> rfl
@[simp] theorem Tg.bumpSr_preempt (g : Tg) (rm : BitVec 3) : (g.bumpSr rm).preempt = g.preempt := by
  unfold Tg.bumpSr; split <;> rfl
@[simp] theorem Tg.bumpSr_held (g : Tg) (rm : BitVec 3) : (g.bumpSr rm).held = g.held := by
  unfold Tg.bumpSr; split <;> rfl
@[simp] theorem Tg.bumpSr_sinceSafe (g : Tg) (rm : BitVec 3) : (g.bumpSr rm).sinceSafe = g.sinceSafe := by
  unfold Tg.bumpSr; split <;> rfl
@[simp] theorem Tg.bumpSr_slot (g : Tg) (rm : BitVec 3) : (g.bumpSr rm).slot = g.slot := by
  unfold Tg.bumpSr; split <;> rfl
@[simp] theorem Tg.bumpSr_ending (g : Tg) (rm : BitVec 3) : (g.bumpSr rm).ending = g.ending := by
  unfold Tg.bumpSr; split <;> rfl
@[simp] theorem Tg.bumpSr_gangBad (g : Tg) (rm : BitVec 3) : (g.bumpSr rm).gangBad = g.gangBad := by
  unfold Tg.bumpSr; split <;> rfl
@[simp] theorem Tg.bumpSr_faultInval (g : Tg) (rm : BitVec 3) : (g.bumpSr rm).faultInval = g.faultInval := by
  unfold Tg.bumpSr; split <;> rfl
@[simp] theorem Tg.bumpSr_linkLost (g : Tg) (rm : BitVec 3) : (g.bumpSr rm).linkLost = g.linkLost := by
  unfold Tg.bumpSr; split <;> rfl

end Sys2Proof.Machine
end

