-- ==== Sys2Proof/Laws/Ops.lean ====
section
/-! SUPPORT. What the shared operations do: masks and rows, how an instruction completes, register writes, trap entry and the
return from a handler. -/

namespace Sys2Proof.Machine

/-! ### Masks -/

theorem Mask.has_of (f : Nat → Bool) (t : Nat) (h : t < 96) : (Mask.of f).has t = f t := by
  have key : ∀ (l : List Nat), l.Nodup → (∀ x ∈ l, x < 96) → ∀ (m : Mask),
      (l.foldl (fun m t => if f t then m ||| BitVec.ofNat 96 (2 ^ t) else m) m).getLsbD t =
        (m.getLsbD t || (decide (t ∈ l) && f t)) := by
    intro l
    induction l with
    | nil => intros; simp
    | cons a r ih =>
      intro hn hl m
      rw [List.nodup_cons] at hn
      have ha : a < 96 := hl a (by simp)
      have hr := ih hn.2 (fun x hx => hl x (by simp [hx]))
      simp only [List.foldl_cons]
      rw [hr]
      by_cases hta : t = a
      · subst hta
        have hb : (BitVec.ofNat 96 (2 ^ t)).getLsbD t = true := by
          rw [BitVec.getLsbD_ofNat, Nat.testBit_two_pow]
          simp [h]
        by_cases hf : f t = true
        · rw [if_pos hf, BitVec.getLsbD_or, hb, hf]; simp
        · rw [if_neg hf]; simp [hf]
      · have hb : (BitVec.ofNat 96 (2 ^ a)).getLsbD t = false := by
          rw [BitVec.getLsbD_ofNat, Nat.testBit_two_pow]
          simp [h, Ne.symm hta]
        by_cases hf : f a = true
        · rw [if_pos hf, BitVec.getLsbD_or, hb]; simp [hta]
        · rw [if_neg hf]; simp [hta]
  have := key (List.range numThreads) List.nodup_range (fun x hx => by simpa using hx) 0
  simp only [Mask.has, Mask.of, this]
  simp [h]

theorem Mask.lowest_isSome (m : Mask) (h : m ≠ 0) : m.lowest.isSome := by
  unfold Mask.lowest
  cases hl : m.threads with
  | cons a r => rfl
  | nil =>
    exfalso
    apply h
    apply BitVec.eq_of_getLsbD_eq
    intro i hi
    have : i ∉ m.threads := by rw [hl]; simp
    simp only [Mask.threads, List.mem_filter, List.mem_range, Mask.has] at this
    by_cases hb : m.getLsbD i = true
    · exact absurd ⟨hi, hb⟩ this
    · simpa using hb

/-- The lowest thread is one of the mask. -/
theorem Mask.has_of_lowest (m : Mask) (t : Nat) (h : m.lowest = some t) : m.has t = true ∧ t < 96 := by
  unfold Mask.lowest at h
  have : t ∈ m.threads := List.mem_of_mem_head? h
  simp only [Mask.threads, List.mem_filter, List.mem_range] at this
  exact ⟨this.2, this.1⟩

theorem Mask.ne_zero_of_has (m : Mask) (t : Nat) (h : m.has t = true) : m ≠ 0 := by
  rintro rfl
  simp [Mask.has] at h

theorem Tg.has_acting (g : Tg) (h : Hdr) (t : Nat) (ht : t < 96) : (g.acting h).has t = (g.mask.has t && g.guard0 h t) :=
  Mask.has_of _ t ht

theorem Tg.has_actingPacked (g : Tg) (h : Hdr) (t : Nat) (ht : t < 96) :
    (g.actingPacked h).has t =
      (g.mask.has t && ((g.guardBits h.g h.n t).getLsbD 0 || (g.guardBits h.g h.n t).getLsbD 2)) :=
  Mask.has_of _ t ht

/-! ### How an instruction completes -/

/-- R78 leaves a TG with an active thread as it is. -/
theorem State.settle_active (s : State) (id : Nat) (g : Tg) (h : s.tg id = some g) (hm : g.mask ≠ 0) : s.settle id = s := by
  unfold State.settle
  simp only [h]
  rw [if_pos hm]

theorem State.settle_setTg (s : State) (id : Nat) (g : Tg) (hm : g.mask ≠ 0) : (s.setTg id g).settle id = s.setTg id g :=
  State.settle_active _ _ g (by simp [State.tg, State.setTg, SMap.find_put_self]) hm

/-- An instruction that leaves an active thread completes with the TG as given. -/
theorem done_of_active (s : State) (g : Tg) (hm : g.mask ≠ 0) : done s g = .next (s.setTg s.cur g) := by
  simp [done, State.settle_setTg _ _ _ hm]

theorem onTg_of (s : State) (g : Tg) (k : Tg → Out) (h : s.tg s.cur = some g) : onTg s k = k g := by
  simp [onTg, h]

/-! ### Rows and registers -/

theorem Row.at_tab' {α : Type} (f : Nat → α) (d : α) (t : Nat) (h : t < 96) : Row.at (Row.tab f) d t = f t :=
  Row.at_tab f d t h

/-- A register slot after a write of vN: the written threads of its slot take the new value, everything else keeps its own. -/
theorem Tg.setV_row (g : Tg) (n : Nat) (x : Nat → Option W32) (p t : Nat) (ht : t < 96) :
    Row.at (SMap.get [] (g.setV n x).v p) 0 t =
      if p = g.slotOf n then (x t).getD (g.vAt n t) else Row.at (SMap.get [] g.v p) 0 t := by
  unfold Tg.setV SMap.get
  by_cases hp : p = g.slotOf n
  · subst hp
    simp only [SMap.find_put_self, Option.getD_some, if_true, Row.at_tab' _ _ _ ht]
  · simp only [SMap.find_put_ne _ _ _ _ hp, if_neg hp]

/-- A predicate register after a write of pN. -/
theorem Tg.setP_row (g : Tg) (n : Nat) (hn : n ≠ 7) (x : Nat → Option (BitVec 4 × BitVec 4)) (p t : Nat) (ht : t < 96) :
    Row.at (SMap.get [] (g.setP n x).p p) 0 t =
      if p = n then
        match x t with
        | some (v, m) => (g.pAt n t &&& ~~~m) ||| (v &&& m)
        | none => g.pAt n t
      else Row.at (SMap.get [] g.p p) 0 t := by
  unfold Tg.setP SMap.get
  rw [if_neg hn]
  by_cases hp : p = n
  · subst hp
    simp only [SMap.find_put_self, Option.getD_some, if_true, Row.at_tab' _ _ _ ht]
    all_goals rfl
  · simp only [SMap.find_put_ne _ _ _ _ hp, if_neg hp]

/-- A scalar register after a write of sN below s61. -/
theorem Tg.setS_get (g : Tg) (n : Nat) (x : W64) (hn : n < 61) (m : Nat) :
    SMap.get 0 (g.setS n x).s m = if m = n then x else SMap.get 0 g.s m := by
  unfold Tg.setS
  rw [if_pos hn]
  by_cases h : m = n
  · subst h; simp [SMap.get_set_self]
  · simp [h, SMap.get_set_ne _ _ _ _ _ h]

/-! ### Trap entry and return (R325, R327) -/

/-- Outside a handler and with a vector, every cause enters the handler. -/
theorem State.enter_of_vector (s : State) (id : Nat) (g : Tg) (c : Cause) (ret info : W64) (tid : Nat)
    (h : s.tg id = some g) (ht : g.trap.tstat = false) (hv : g.trap.tvec ≠ 0) :
    s.enter id c ret info tid =
      ((if c.terminal then s.count (ctrTrap c.code) else s).setTg id (g.entered c ret info tid)) := by
  have h' : (if c.terminal then s.count (ctrTrap c.code) else s).tg id = some g := by
    split
    · exact h
    · exact h
  unfold State.enter
  simp only [h', ht, hv, Bool.false_eq_true, if_false]

/-- In a handler a trap ends the TG. -/
theorem State.enter_in_handler (s : State) (id : Nat) (g : Tg) (c : Cause) (ret info : W64) (tid : Nat)
    (h : s.tg id = some g) (ht : g.trap.tstat = true) :
    s.enter id c ret info tid = (if c.terminal then s.count (ctrTrap c.code) else s).endTg id c := by
  have h' : (if c.terminal then s.count (ctrTrap c.code) else s).tg id = some g := by
    split
    · exact h
    · exact h
  unfold State.enter
  simp only [h', ht, if_true]

/-- The return from a handler after a resumable cause. -/
theorem State.leave_resume (s : State) (id : Nat) (g : Tg) (h : s.tg id = some g) (ht : g.trap.tstat = true)
    (hc : g.trap.tcause.getLsbD 8 = false) (ha : g.trap.tpc.extractLsb' 0 3 = 0) (hb : g.trap.tpc.extractLsb' 57 7 = 0) :
    s.leave id = some (s.setTg id
      { g with win := { g.win with wbase := g.trap.twbase }, mask := g.trap.tam &&& ~~~g.xmask
               trap := { g.trap with tstat := false }, pc := g.trap.tpc }) := by
  unfold State.leave
  simp only [h, ht, hc, ha, hb, Bool.not_true, Bool.false_eq_true, if_false, ne_eq, not_true_eq_false]

/-- Outside a handler nothing returns. -/
theorem State.leave_outside (s : State) (id : Nat) (g : Tg) (h : s.tg id = some g) (ht : g.trap.tstat = false) :
    s.leave id = none := by
  simp [State.leave, h, ht]

end Sys2Proof.Machine
end

