-- ==== Sys2Proof/Laws/Order.lean ====
section
/-! SUPPORT. What memory accesses and their ordering can change (R149, R150, R193 to R201): memory and what is cached, the releases
noted, and the unperformed stores and the releases seen of TGs; nothing else. -/

namespace Sys2Proof.Machine

/-! ### Memory alone -/

/-- The two machines differ only in what memory holds and in the releases noted. -/
def State.SameButMem (s s' : State) : Prop := s' = { s with mem := s'.mem, older := s'.older, disc := s'.disc, releases := s'.releases }

/-- They differ only in that and in the translations cached. -/
def State.SameButTlb (s s' : State) : Prop :=
  s' = { s with mem := s'.mem, older := s'.older, disc := s'.disc, releases := s'.releases, cores := s'.cores, dies := s'.dies }

theorem State.SameButMem.refl (s : State) : s.SameButMem s := rfl

theorem State.SameButMem.trans {s s' s'' : State} (h : s.SameButMem s') (h' : s'.SameButMem s'') : s.SameButMem s'' := by
  unfold State.SameButMem at *
  rw [h']
  rw [h]

theorem State.SameButMem.tlb {s s' : State} (h : s.SameButMem s') : s.SameButTlb s' := by
  unfold State.SameButMem at h
  unfold State.SameButTlb
  rw [h]

theorem State.SameButTlb.refl (s : State) : s.SameButTlb s := rfl

theorem State.SameButTlb.trans {s s' s'' : State} (h : s.SameButTlb s') (h' : s'.SameButTlb s'') : s.SameButTlb s'' := by
  unfold State.SameButTlb at *
  rw [h']
  rw [h]

theorem State.SameButMem.setByte (s : State) (loc : Nat) (v : Byte) : s.SameButMem (s.setByte loc v) := rfl

theorem State.SameButMem.foldl {α : Type} (f : State → α → State) (hf : ∀ (s : State) a, s.SameButMem (f s a)) (l : List α) (s : State) :
    s.SameButMem (l.foldl f s) := by
  induction l generalizing s with
  | nil => exact .refl s
  | cons a r ih => exact State.SameButMem.trans (hf s a) (ih _)

theorem State.SameButTlb.foldl {α : Type} (f : State → α → State) (hf : ∀ (s : State) a, s.SameButTlb (f s a)) (l : List α) (s : State) :
    s.SameButTlb (l.foldl f s) := by
  induction l generalizing s with
  | nil => exact .refl s
  | cons a r ih => exact State.SameButTlb.trans (hf s a) (ih _)

theorem State.SameButMem.setBytes (s : State) (loc : Nat) (bs : List Byte) : s.SameButMem (s.setBytes loc bs) :=
  .foldl _ (fun _ _ => .setByte _ _ _) _ _

theorem State.SameButMem.store (s : State) (loc : Nat) (bs : List Byte) : s.SameButMem (s.store loc bs) :=
  State.SameButMem.trans (.setBytes s loc bs) rfl

theorem State.SameButMem.discard (s : State) (loc : Nat) : s.SameButMem (s.discard loc) := by
  unfold State.discard
  simp only []
  split
  · exact .refl s
  · rfl

theorem State.SameButMem.writeBack (s : State) (loc : Nat) : s.SameButMem (s.writeBack loc) := rfl

theorem State.SameButMem.overwrite (s : State) (p : ObjRef × Nat) : s.SameButMem (s.overwrite p) := rfl

theorem State.SameButMem.markLeaf (s : State) (leaf : Nat) (w : Bool) : s.SameButMem (s.markLeaf leaf w) := by
  have h : ∀ b : Byte, s.SameButMem (if b = s.last leaf then s else s.setByte leaf b) := by
    intro b; split
    · exact .refl s
    · exact .setByte _ _ _
  exact h _

theorem State.SameButMem.walked (s : State) (ctx va : Nat) (w : Bool) : s.SameButMem (s.walked ctx va w) := by
  unfold State.walked
  split
  · exact .markLeaf _ _ _
  · exact .refl s

theorem State.SameButTlb.touch (s : State) (core ctx va : Nat) (w : Bool) : s.SameButTlb (s.touch core ctx va w) := by
  unfold State.touch
  split
  · rename_i e _
    have hs : ∀ q : Bool, s.SameButTlb (if q then s else s.markLeaf e.leaf w) := by
      intro q
      cases q
      · exact (SameButMem.markLeaf _ _ _).tlb
      · exact .refl s
    have h2 : ∀ (x : State) (y : CoreState → CoreState) (z : Die → Die), x.SameButTlb ((x.modCore core y).modDie (dieOf core) z) :=
      fun _ _ _ => rfl
    simp only []
    generalize hq : ((s.cached core ctx va).contains e && (!w || e.dirty)) = q
    split
    · exact hs q
    · exact State.SameButTlb.trans (hs q) (h2 _ _ _)
  · exact .refl s

theorem State.SameButTlb.touchAll (s : State) (core ctx : Nat) (vas : List Nat) (w : Bool) :
    s.SameButTlb (s.touchAll core ctx vas w) :=
  .foldl _ (fun _ _ => .touch _ _ _ _ _) _ _

theorem State.SameButTlb.cur {s s' : State} (h : s.SameButTlb s') : s'.cur = s.cur := by rw [h]
theorem State.SameButTlb.tg {s s' : State} (h : s.SameButTlb s') (id : Nat) : s'.tg id = s.tg id := by rw [h]; rfl
theorem State.SameButTlb.crew {s s' : State} (h : s.SameButTlb s') (id : Nat) : s'.crew id = s.crew id := by rw [h]; rfl

/-! ### Ordering -/

/-- What ordering an access may do: stores of TGs are performed, marked or given a place, releases are noted, seen or forgotten. -/
structure State.Orders (s s' : State) : Prop where
  rest : s' = { s with mem := s'.mem, older := s'.older, disc := s'.disc, releases := s'.releases, stamp := s'.stamp, tgs := s'.tgs }
  tgs : ∀ id, (s.tg id = none → s'.tg id = none) ∧
    ∀ g, s.tg id = some g → ∃ st sn rd fc, s'.tg id = some { g with stores := st, seen := sn, reads := rd, fences := fc }

theorem State.Orders.cur {s s' : State} (h : s.Orders s') : s'.cur = s.cur := by rw [h.rest]
theorem State.Orders.crew {s s' : State} (h : s.Orders s') (id : Nat) : s'.crew id = s.crew id := by rw [h.rest]; rfl
theorem State.Orders.ctx {s s' : State} (h : s.Orders s') (c : Nat) : s'.ctx c = s.ctx c := by rw [h.rest]; rfl

theorem State.Orders.refl (s : State) : s.Orders s := ⟨rfl, fun _ => ⟨fun h => h, fun g h => ⟨g.stores, g.seen, g.reads, g.fences, h⟩⟩⟩

theorem State.Orders.trans {s s' s'' : State} (h : s.Orders s') (h' : s'.Orders s'') : s.Orders s'' := by
  refine ⟨?_, fun id => ⟨fun hn => (h'.tgs id).1 ((h.tgs id).1 hn), fun g hg => ?_⟩⟩
  · have h1 := h.rest
    have h2 := h'.rest
    rw [h2]
    rw [h1]
  · obtain ⟨st, sn, rd, fc, h1⟩ := (h.tgs id).2 g hg
    obtain ⟨st', sn', rd', fc', h2⟩ := (h'.tgs id).2 _ h1
    exact ⟨st', sn', rd', fc', h2⟩

theorem State.Orders.foldl {α : Type} (f : State → α → State) (hf : ∀ (s : State) a, s.Orders (f s a)) (l : List α) (s : State) :
    s.Orders (l.foldl f s) := by
  induction l generalizing s with
  | nil => exact .refl s
  | cons a r ih => exact State.Orders.trans (hf s a) (ih _)

theorem State.SameButMem.orders {s s' : State} (h : s.SameButMem s') : s.Orders s' := by
  refine ⟨?_, fun id => ?_⟩
  · have h1 := h
    unfold State.SameButMem at h1
    rw [h1]
  · rw [h.tlb.tg id]
    exact ⟨fun h => h, fun g hg => ⟨g.stores, g.seen, g.reads, g.fences, hg⟩⟩

/-- Every TG keeps all but its stores where they are changed at once. -/
theorem State.mapStores_tg (s : State) (f : Nat → List PStore → List PStore) (id : Nat) :
    (s.mapStores f).tg id = (s.tg id).map fun g => { g with stores := f id g.stores } :=
  SMap.find_map s.tgs (fun i x => { x with stores := f i x.stores }) id

theorem State.Orders.mapStores (s : State) (f : Nat → List PStore → List PStore) : s.Orders (s.mapStores f) :=
  ⟨rfl, fun id => by
    rw [State.mapStores_tg]
    exact ⟨fun hn => by rw [hn]; rfl, fun g hg => ⟨f id g.stores, g.seen, g.reads, g.fences, by rw [hg]; rfl⟩⟩⟩

/-- A change of what ordering writes in one TG. -/
theorem State.Orders.modTg (s : State) (id : Nat) (st : Tg → List PStore) (sn : Tg → List Nat) (rd fc : Tg → List (Nat × Nat)) :
    s.Orders (s.modTg id fun g => { g with stores := st g, seen := sn g, reads := rd g, fences := fc g }) := by
  refine ⟨rfl, fun j => ?_⟩
  simp only [State.modTg, State.tg, SMap.find_adjust]
  by_cases h : j = id
  · subst h
    refine ⟨fun hn => by simp [hn], fun g hg => ⟨st g, sn g, rd g, fc g, by simp [hg]⟩⟩
  · simp only [if_neg h]
    exact ⟨fun hn => hn, fun g hg => ⟨g.stores, g.seen, g.reads, g.fences, hg⟩⟩

/-- A change of the stores of one TG. -/
theorem State.Orders.modStores (s : State) (id : Nat) (st : Tg → List PStore) :
    s.Orders (s.modTg id fun g => { g with stores := st g }) :=
  .modTg s id st (·.seen) (·.reads) (·.fences)

theorem State.Orders.stamped (s : State) (n : Nat) : s.Orders { s with stamp := n } :=
  ⟨rfl, fun _ => ⟨fun h => h, fun g h => ⟨g.stores, g.seen, g.reads, g.fences, h⟩⟩⟩

theorem State.SameButMem.overwriteAll (s : State) (ps : List (ObjRef × Nat)) : s.SameButMem (ps.foldl State.overwrite s) :=
  .foldl State.overwrite (fun _ _ => rfl) _ _

theorem State.SameButMem.overwritePlain (s : State) (ps : List (ObjRef × Nat)) : s.SameButMem (ps.foldl State.overwritePlain s) :=
  .foldl State.overwritePlain (fun _ _ => rfl) _ _

theorem State.Orders.prune (s : State) : s.Orders s.prune := State.SameButMem.orders rfl

theorem State.Orders.markRelease (s : State) (id n pos rel : Nat) (ps : List (ObjRef × Nat)) (ph : Option (BitVec 16)) :
    s.Orders (s.markRelease id n pos rel ps ph) := by
  unfold State.markRelease
  split
  · exact .refl s
  · simp only []
    split
    · exact .refl s
    · exact (State.Orders.mapStores s _).trans ⟨rfl, fun _ => ⟨fun h => h, fun g h => ⟨g.stores, g.seen, g.reads, g.fences, h⟩⟩⟩

theorem State.Orders.releaseAll (s : State) (rel : Nat) (ps : List (ObjRef × Nat)) : s.Orders (s.releaseAll rel ps) := by
  unfold State.releaseAll
  split
  · exact .refl s
  · split
    · exact .refl s
    · exact (State.SameButMem.overwritePlain s ps).orders.trans (.markRelease _ _ _ _ _ _ _)

theorem State.Orders.released (s : State) (ord scope : Nat) (ps : List (ObjRef × Nat)) : s.Orders (s.released ord scope ps) :=
  (State.Orders.releaseAll s _ _).trans (.releaseAll _ _ _)

theorem State.Orders.wrotePlain (s : State) (ps : List (ObjRef × Nat)) : s.Orders (s.wrotePlain ps) := by
  unfold State.wrotePlain
  split
  · exact .refl s
  · exact (State.SameButMem.overwritePlain s ps).orders.trans (.markRelease _ _ _ _ _ _ _)

theorem State.Orders.performAt (s : State) (id k : Nat) (p : PStore) : s.Orders (s.performAt id k p) :=
  (((State.SameButMem.store s p.loc p.data).orders.trans (.modStores _ id _)).trans (.prune _)).trans (.markRelease _ _ _ _ _ _ _)

theorem State.Orders.performNth (s : State) (id k : Nat) : s.Orders (s.performNth id k) := by
  unfold State.performNth
  split
  · exact .refl s
  · exact .performAt _ _ _ _

theorem State.Orders.performN (s : State) (id n : Nat) : s.Orders (s.performN id n) := .foldl _ (fun _ _ => .performNth _ _ _) _ _

theorem State.Orders.drain (s : State) (id : Nat) : s.Orders (s.drain id) := by
  unfold State.drain
  split
  · exact .refl s
  · exact .performN _ _ _

theorem State.Orders.performThose (s : State) (id : Nat) (hit : PStore → Bool) : s.Orders (s.performThose id hit) := by
  unfold State.performThose
  split
  · exact .refl s
  · exact .foldl _ (fun _ _ => .performNth _ _ _) _ _

theorem State.Orders.performTo (s : State) (id : Nat) (rs : List (Nat × Nat)) : s.Orders (s.performTo id rs) := .performThose _ _ _

/-- A release changes the marks of stores, and neither their number nor anything else of a TG. -/
theorem State.markRelease_tg (s : State) (id n pos rel : Nat) (ps : List (ObjRef × Nat)) (ph : Option (BitVec 16)) (j : Nat) (g : Tg)
    (h : s.tg j = some g) :
    ∃ st, (s.markRelease id n pos rel ps ph).tg j = some { g with stores := st } ∧ st.length = g.stores.length := by
  unfold State.markRelease
  split
  · exact ⟨g.stores, h, rfl⟩
  · simp only []
    split
    · exact ⟨g.stores, h, rfl⟩
    · refine ⟨_, (State.mapStores_tg s _ j).trans (by rw [h]; rfl), ?_⟩
      simp [Tg.marked]

/-- A store performed leaves its TG with one store less. -/
theorem State.performAt_tg (s : State) (id k : Nat) (p : PStore) (g : Tg) (h : s.tg id = some g) :
    ∃ st, (s.performAt id k p).tg id = some { g with stores := st } ∧ st.length = (g.stores.eraseIdx k).length := by
  have h1 : (((s.store p.loc p.data).modTg id fun g => { g with stores := g.stores.eraseIdx k }).prune).tg id =
      some { g with stores := g.stores.eraseIdx k } := by
    have hs := (State.SameButMem.store s p.loc p.data).tlb.tg id
    rw [h] at hs
    simp only [State.prune, State.modTg, State.tg, SMap.find_adjust] at *
    rw [hs]
    simp
  exact State.markRelease_tg _ _ _ _ _ _ _ _ _ h1

/-- A drained TG has no unperformed store. -/
theorem State.drain_tg (s : State) (id : Nat) (g : Tg) (h : s.tg id = some g) : (s.drain id).tg id = some { g with stores := [] } := by
  have hn : ∀ (l : List Nat) (s : State) (g : Tg), s.tg id = some g → g.stores.length = l.length →
      (l.foldl (fun s _ => s.performNth id 0) s).tg id = some { g with stores := [] } := by
    intro l
    induction l with
    | nil =>
      intro s g hg hl
      rw [List.foldl_nil, hg, ← List.eq_nil_of_length_eq_zero hl]
    | cons a r ih =>
      intro s g hg hl
      cases hst : g.stores with
      | nil => rw [hst] at hl; cases hl
      | cons p q =>
        have hp : s.performNth id 0 = s.performAt id 0 p := by simp [State.performNth, hg, hst]
        obtain ⟨st, h1, h2⟩ := State.performAt_tg s id 0 p g hg
        rw [List.foldl_cons, hp]
        have hs := ih _ _ h1 (by rw [h2]; simp [hst] at hl ⊢; omega)
        exact hs
  unfold State.drain
  rw [h]
  exact hn (List.range g.stores.length) s g h (by simp)

theorem State.Orders.releasedAt (s : State) (base : Nat) (p : ObjRef × Nat) : s.Orders (s.releasedAt base p) :=
  State.SameButMem.orders rfl

theorem State.Orders.releaseAs (s : State) (id rel : Nat) : s.Orders (s.releaseAs id rel) := by
  unfold State.releaseAs
  split
  · exact .refl s
  · rename_i g h
    exact (State.Orders.markRelease s id _ _ rel [] none).trans (.stamped _ _)

theorem State.Orders.issuedBefore (s : State) (base loc n : Nat) : s.Orders (s.issuedBefore base loc n) :=
  .foldl _ (fun _ _ => .performThose _ _ _) _ _

theorem State.Orders.countedIn (s : State) (id base : Nat) (o : ObjRef) : s.Orders (s.countedIn id base o) :=
  State.SameButMem.orders rfl

theorem State.Orders.wroteFor (s : State) (id base : Nat) (p : ObjRef × Nat) : s.Orders (s.wroteFor id base p) :=
  State.SameButMem.orders rfl

theorem State.Orders.obey (s : State) (ids : List Nat) : s.Orders (s.obey ids) := by
  unfold State.obey
  split
  · exact .refl s
  · exact .foldl _ (fun _ _ => .performN _ _ _) _ _

theorem State.Orders.acquireBy (s : State) (a : Agent) (scope : Nat) (hit : Release → Bool) : s.Orders (s.acquireBy a scope hit) :=
  .obey _ _

theorem State.Orders.acquire (s : State) (scope : Nat) (hit : Release → Bool) : s.Orders (s.acquire scope hit) := .obey _ _

theorem State.Orders.acquireAt (s : State) (a : Agent) (ps : List (ObjRef × Nat)) : s.Orders (s.acquireAt a ps) := .obey _ _

theorem State.Orders.noteSeen (s : State) (hit : Release → Bool) : s.Orders (s.noteSeen hit) := by
  unfold State.noteSeen
  simp only []
  split
  · exact .refl s
  · exact (State.Orders.modTg s s.cur (·.stores) _ _ (·.fences)).trans (.stamped _ _)

theorem State.Orders.scAfter (s : State) (a : Agent) (scope : Nat) : s.Orders (s.scAfter a scope) := by
  unfold State.scAfter
  refine State.Orders.foldl _ (fun s p => ?_) _ _
  split
  · exact .refl s
  · exact .performN _ _ _

theorem State.Orders.scOrder (s : State) (scope : Nat) : s.Orders (s.scOrder scope) :=
  (State.Orders.scAfter _ _ _).trans (.modStores _ _ _)

theorem State.Orders.writeOrder (s : State) (ord scope : Nat) (ps : List (ObjRef × Nat)) : s.Orders (s.writeOrder ord scope ps) := by
  unfold State.writeOrder
  split
  · exact .scOrder _ _
  · exact .refl s

theorem State.Orders.readOrder (s : State) (ord scope : Nat) (ps : List (ObjRef × Nat)) : s.Orders (s.readOrder ord scope ps) := by
  have h := (State.Orders.writeOrder s ord scope ps).trans (.noteSeen _ ((s.writeOrder ord scope ps).meets ps))
  unfold State.readOrder
  simp only []
  split
  · exact (h.trans (.acquire _ _ _)).trans (.acquire _ _ _)
  · exact h

theorem State.Orders.redOrder (s : State) (ord scope : Nat) (ps : List (ObjRef × Nat)) : s.Orders (s.redOrder ord scope ps) :=
  (State.Orders.writeOrder s ord scope ps).trans (.noteSeen _ _)

theorem State.Orders.arrived (s : State) (o : ObjRef) (scope : Nat) (ph : BitVec 16) : s.Orders (s.arrived o scope ph) := by
  have h := (State.Orders.noteSeen s fun r => r.scope == 0 && r.places.any fun p => p.1 == o).trans
    (State.SameButMem.overwritePlain _ [(o, 16)]).orders
  unfold State.arrived
  simp only []
  split
  · exact h
  · exact h.trans (.markRelease _ _ _ _ _ _ _)

theorem State.Orders.observed (s : State) (o : ObjRef) (scope : Nat) (ph : BitVec 16) : s.Orders (s.observed o scope ph) :=
  (State.Orders.noteSeen s _).trans (.acquire _ _ _)

theorem State.Orders.fence (s : State) (ord scope : Nat) : s.Orders (s.fence ord scope) := by
  have h1 : ∀ s : State, s.Orders (if ord = 5 then s.scOrder scope else s) := by
    intro s; split
    · exact .scOrder _ _
    · exact .refl s
  have h2 : ∀ s : State, s.Orders (if isAcquire ord then s.acquire scope fun r => ((s.tg s.cur).any fun g => g.seen.contains r.id) else s) := by
    intro s; split
    · exact .acquire _ _ _
    · exact .refl s
  have h3 := (h1 s).trans (h2 _)
  unfold State.fence
  simp only []
  generalize (if isAcquire ord then _ else _ : State) = s2 at h3 ⊢
  split
  · exact (h3.trans (.modTg s2 s2.cur (·.stores) (·.seen) (·.reads) fun g => (s2.stamp + 1, scope) :: g.fences)).trans (.stamped _ _)
  · exact h3

/-- An access with order rlx or none orders nothing. -/
theorem State.writeOrder_relaxed (s : State) (ord scope : Nat) (ps : List (ObjRef × Nat)) (h : ord ≠ 5) :
    s.writeOrder ord scope ps = s := by
  simp [State.writeOrder, h]

end Sys2Proof.Machine
end

