-- ==== Sys2Proof/Laws/Memory.lean ====
section
/-! SUPPORT. Memory: the checks of R151, the registers a load writes, and reads after writes. -/

namespace Sys2Proof.Machine

theorem find?_none_of {α : Type} (l : List α) (p : α → Bool) (h : ∀ x ∈ l, p x = false) : l.find? p = none := by
  rw [List.find?_eq_none]
  intro x hx
  rw [h x hx]; simp

/-- R151 on accesses that a load may make. -/
theorem checkGl_readable (s : State) (g : Tg) (accs : List (Nat × W64)) (z : Nat)
    (h : ∀ p ∈ accs, Readable s g p.2 z) : s.checkGl g.core g.ctx accs z .load = none := by
  unfold State.checkGl
  rw [find?_none_of _ _ fun p hp => by simp [(h p hp).1], find?_none_of _ _ fun p hp => by have hx := (h p hp).2.1; simpa using hx]
  unfold State.checkPages
  simp only []
  rw [find?_none_of, find?_none_of, find?_none_of]
  · intro q hq
    simp only [List.mem_map] at hq
    obtain ⟨p, hp, rfl⟩ := hq
    obtain ⟨e, he, _⟩ := (h p hp).2.2
    simp [he]
  · intro q hq
    simp only [List.mem_map] at hq
    obtain ⟨p, hp, rfl⟩ := hq
    obtain ⟨e, he, _⟩ := (h p hp).2.2
    simp [he, AccKind.prot]
  · intro q hq
    simp only [List.mem_map] at hq
    obtain ⟨p, hp, rfl⟩ := hq
    obtain ⟨e, he, hl⟩ := (h p hp).2.2
    simp only [he, Trans.gone, hl]

/-- R151 on accesses that a plain store may make. -/
theorem checkGl_writable (s : State) (g : Tg) (accs : List (Nat × W64)) (z : Nat)
    (h : ∀ p ∈ accs, Writable s g p.2 z) : s.checkGl g.core g.ctx accs z .store = none := by
  unfold State.checkGl
  rw [find?_none_of _ _ fun p hp => by simp [(h p hp).1], find?_none_of _ _ fun p hp => by have hx := (h p hp).2.1; simpa using hx]
  unfold State.checkPages
  simp only []
  rw [find?_none_of, find?_none_of, find?_none_of]
  · intro q hq
    simp only [List.mem_map] at hq
    obtain ⟨p, hp, rfl⟩ := hq
    obtain ⟨e, he, _⟩ := (h p hp).2.2
    simp [he]
  · intro q hq
    simp only [List.mem_map] at hq
    obtain ⟨p, hp, rfl⟩ := hq
    obtain ⟨e, he, hw, hb, _⟩ := (h p hp).2.2
    simp [he, AccKind.prot, hw, hb]
  · intro q hq
    simp only [List.mem_map] at hq
    obtain ⟨p, hp, rfl⟩ := hq
    obtain ⟨e, he, _, _, hl⟩ := (h p hp).2.2
    simp only [he, Trans.gone, hl]

theorem mem_threads (m : Mask) (t : Nat) : t ∈ m.threads ↔ t < 96 ∧ m.has t = true := by
  simp [Mask.threads, numThreads]

theorem find_threads {α : Type} (x : Nat → α) (m : Mask) (t : Nat) (ht : t < 96) :
    SMap.find (m.threads.map fun t => (t, x t)) t = if m.has t = true then some (x t) else none := by
  have key : ∀ l : List Nat, SMap.find ((l.filter m.has).map fun t => (t, x t)) t = if t ∈ l ∧ m.has t = true then some (x t) else none := by
    intro l
    induction l with
    | nil => simp [SMap.find]
    | cons a r ih =>
      by_cases ha : m.has a = true
      · by_cases hat : a = t
        · subst hat; simp [ha, SMap.find]
        · simp only [List.filter_cons, ha, if_true, List.map_cons, SMap.find, hat, if_false, ih, List.mem_cons]
          simp [Ne.symm hat]
      · by_cases hat : a = t
        · subst hat; simp [ha, ih]
        · simp [ha, ih, Ne.symm hat]
  have := key (List.range numThreads)
  rw [Mask.threads, this]
  simp [numThreads, ht]

theorem putWords_aux (g : Tg) (d : Nat) (w : Nat → Nat → Option W32) (n : Nat) :
    ∃ v, (List.range n).foldl (fun g' j => g'.setV (d + j) fun t => w j t) g = { g with v := v } ∧
      (n ≤ g.win.k → ∀ t, t < 96 → (∀ j, j < n → ∀ y, w j t = some y → slotAt v (g.slotOf (d + j)) t = y) ∧
        (∀ p, (∀ j, j < n → w j t = none ∨ p ≠ g.slotOf (d + j)) → slotAt v p t = slotAt g.v p t)) := by
  induction n with
  | zero => exact ⟨g.v, rfl, fun _ t _ => ⟨fun j hj => absurd hj (by omega), fun _ _ => rfl⟩⟩
  | succ n ih =>
    obtain ⟨v, hv, hs⟩ := ih
    rw [List.range_succ, List.foldl_append, hv]
    refine ⟨(({ g with v := v } : Tg).setV (d + n) fun t => w n t).v, rfl, fun hk t ht => ?_⟩
    have hs := hs (by omega) t ht
    have hrow : ∀ p, slotAt (({ g with v := v } : Tg).setV (d + n) fun t => w n t).v p t =
        if p = g.slotOf (d + n) then (w n t).getD (slotAt v p t) else slotAt v p t := by
      intro p
      rw [slotAt, Tg.setV_row _ _ _ _ _ ht]
      have : ({ g with v := v } : Tg).slotOf (d + n) = g.slotOf (d + n) := rfl
      rw [this]
      split
      · rename_i hp; subst hp; rfl
      · rfl
    have hinj : ∀ i j, i < n + 1 → j < n + 1 → g.slotOf (d + i) = g.slotOf (d + j) → i = j := by
      intro i j hi hj h
      unfold Tg.slotOf at h
      have h1 : (g.win.wbase.toNat + (d + i)) % g.win.k = (g.win.wbase.toNat + (d + j)) % g.win.k := h
      have a1 := Nat.div_add_mod (g.win.wbase.toNat + (d + i)) g.win.k
      have a2 := Nat.div_add_mod (g.win.wbase.toNat + (d + j)) g.win.k
      rcases Nat.lt_trichotomy ((g.win.wbase.toNat + (d + i)) / g.win.k) ((g.win.wbase.toNat + (d + j)) / g.win.k) with h2 | h2 | h2
      · have := Nat.mul_le_mul_left g.win.k h2
        rw [Nat.mul_succ] at this
        omega
      · rw [h2] at a1; omega
      · have := Nat.mul_le_mul_left g.win.k h2
        rw [Nat.mul_succ] at this
        omega
    refine ⟨fun j hj y hy => ?_, fun p hp => ?_⟩
    · rw [hrow]
      by_cases hjn : j = n
      · subst hjn; rw [if_pos rfl, hy]; rfl
      · rw [if_neg fun h => hjn (hinj _ _ hj (by omega) h)]
        exact hs.1 j (by omega) y hy
    · rw [hrow]
      have := hs.2 p fun j hj => hp j (by omega)
      rcases hp n (by omega) with h | h
      · rw [h]; split <;> exact this
      · rw [if_neg h]; exact this

theorem putWords_gives (g : Tg) (f : RArgs) (z d : Nat) (hk : 64 ≤ g.win.k) (hz : dataRegs z ≤ 64) (x : Nat → Nat) :
    ∃ v, putWords g d f.ty z ((g.acting f.h).threads.map fun t => (t, x t)) = { g with v := v } ∧ Loaded g v f z d x := by
  obtain ⟨v, hv, hs⟩ := putWords_aux g d (fun j t => (SMap.find ((g.acting f.h).threads.map fun t => (t, x t)) t).map
    fun x => (loadWords f.ty z x).getD j 0) (dataRegs z)
  refine ⟨v, hv, fun j t hj ht ha => ?_, fun p t ht hp => ?_⟩
  · apply (hs (by omega) t ht).1 j hj
    rw [find_threads _ _ _ ht, if_pos ha]; rfl
  · apply (hs (by omega) t ht).2 p
    intro j hj
    rcases hp with hp | hp
    · left; rw [find_threads _ _ _ ht, hp]; rfl
    · right; exact hp j hj

/-- The part of an access that is performed when it issues lies in it, and is all of it unless it has 16 bytes. -/
theorem firstPart_le (s : State) (z : Nat) : (s.firstPart z).1 + (s.firstPart z).2 ≤ z := by
  unfold State.firstPart
  split
  · rename_i h
    subst h
    split <;> decide
  · simp

theorem firstPart_whole (s : State) (z : Nat) (h : z ≠ 16) : s.firstPart z = (0, z) := by
  unfold State.firstPart
  rw [if_neg h]

theorem accessSize_regs (f : RArgs) : dataRegs (accessSize f) ≤ 64 := by
  unfold dataRegs accessSize
  have h1 : f.ty.bytes ≤ 8 := by cases f.ty <;> decide
  have h2 : 2 ^ (f.x.toNat % 4) ≤ 2 ^ 3 := Nat.pow_le_pow_right (by decide) (by omega)
  have := Nat.mul_le_mul h2 h1
  omega

theorem once_lt (g : Tg) (h : Hdr) (t : Nat) (ho : g.once h = some t) : t < 96 ∧ g.mask.has t = true := by
  unfold Tg.once at ho
  cases hlow : g.mask.lowest with
  | none => simp [hlow] at ho
  | some t' =>
    simp only [hlow] at ho
    split at ho
    · cases ho; exact ⟨(Mask.has_of_lowest _ _ hlow).2, (Mask.has_of_lowest _ _ hlow).1⟩
    · cases ho

/-! ### Loads and stores -/

theorem readFrom_orders (s : State) (g : Tg) (f : RArgs) (z : Nat) (accs : List (Nat × W64)) : s.Orders (readFrom s g f z accs) := by
  unfold readFrom
  simp only []
  split
  · exact (State.Orders.readOrder _ _ _ _).trans (State.Orders.performTo _ _ _)
  · exact .readOrder _ _ _ _

theorem readFrom_tg (s : State) (g : Tg) (f : RArgs) (z : Nat) (accs : List (Nat × W64)) (hg : s.tg s.cur = some g) :
    ∃ st sn rd fc, (readFrom s g f z accs).curTg g = { g with stores := st, seen := sn, reads := rd, fences := fc } ∧
      (readFrom s g f z accs).cur = s.cur := by
  have h := readFrom_orders s g f z accs
  obtain ⟨st, sn, rd, fc, ht⟩ := (h.tgs s.cur).2 g hg
  exact ⟨st, sn, rd, fc, by rw [State.curTg, h.cur, ht]; rfl, h.cur⟩

theorem afterRead_cur (s : State) (g : Tg) (f : RArgs) (z : Nat) (accs : List (Nat × W64)) : (afterRead s g f z accs).cur = s.cur := by
  unfold afterRead
  simp only []
  rw [(State.SameButTlb.touchAll _ _ _ _ _).cur]
  split
  · rw [(State.SameButMem.foldl _ (fun _ _ => State.SameButMem.foldl _ (fun _ _ => .discard _ _) _ _) accs _).tlb.cur,
      (readFrom_orders s g f z accs).cur]
  · exact (readFrom_orders s g f z accs).cur

theorem loadGl_gives (s : State) (g : Tg) (f : RArgs) (z n : Nat) (accs : List (Nat × W64))
    (put : Tg → Nat × Nat → List (Nat × Nat) → Tg) (h : ∀ p ∈ accs, Readable s g p.2 z) :
    loadGl s g f z n accs put = done (afterRead s g f z accs)
      ({ put ((readFrom s g f z accs).curTg g) (s.firstPart z) (accs.map fun p : Nat × W64 => (p.1, loadedAt s g f z accs p.2 p.1)) with
         late := loadLate s g f z n accs }.advance (RArgs.words f)) := by
  unfold loadGl
  rw [checkGl_readable _ _ _ _ h]
  simp only [afterRead, loadedAt, readFrom, loadLate, lateTakes, State.discardAll, List.map_map, List.foldl_map, beq_iff_eq,
    Bool.and_eq_true, bne_iff_ne]
  rfl

theorem storeGl_gives (i : Instr) (s : State) (g : Tg) (f : RArgs) (z : Nat) (accs : List (Nat × W64)) (data : Nat → List Byte)
    (hg : s.tg s.cur = some g) (hm : g.mask ≠ 0) (hi : exec i s = storeGl s g f z accs data) (h : ∀ p ∈ accs, Writable s g p.2 z) :
    Stores i s g f z accs data := by
  unfold Stores
  rw [hi]
  unfold storeGl
  rw [checkGl_writable _ _ _ _ h]
  simp only [List.flatMap_map, List.map_map]
  have ho := State.Orders.writeOrder s (effOrd g f.pfx) (effScp g f.pfx false)
    (accs.map fun p => (.glob (s.locOf g.core g.ctx p.2.toNat), z))
  obtain ⟨st, sn, rd, fc, ht⟩ := (ho.tgs s.cur).2 g hg
  rw [done_of_active]
  · rw [(State.SameButTlb.touchAll _ _ _ _ _).cur]; rfl
  · exact fun hx => hm (by have h2 := ho.cur; simpa [State.curTg, Function.comp_def, h2, ht] using hx)

theorem find_low (m : Mask) (q : Nat → Bool) (t : Nat) (ht : t < 96) (hm : m.has t = true) (hq : q t = true)
    (hl : ∀ u, u < t → m.has u = true → q u = false) : m.threads.find? q = some t := by
  have key : ∀ n, t < n → ((List.range n).filter m.has).find? q = some t := by
    intro n
    induction n with
    | zero => intro h; omega
    | succ n ih =>
      intro h
      rw [List.range_succ, List.filter_append, List.find?_append]
      by_cases hn : t < n
      · rw [ih hn]; rfl
      · have : t = n := by omega
        subst this
        rw [List.find?_eq_none.2, Option.none_or]
        · simp [hm, hq]
        · intro u hu
          simp only [List.mem_filter, List.mem_range] at hu
          simp [hl u hu.1 hu.2]
  exact key 96 ht

/-- R151 on scratchpad accesses that it lets pass. -/
theorem checkSp_none (n nb z : Nat) (m : Mask) (off : Nat → Nat) (w : Bool)
    (h : ∀ t, t < 96 → m.has t = true → off t % z = 0 ∧ off t + z ≤ n ∧ (w = true → off t + z ≤ n - 16 * nb)) :
    checkSp n nb (m.threads.map fun t => (t, off t)) z w = none := by
  unfold checkSp checkSpAccs
  rw [List.map_map, find?_none_of]
  · simp only []
    rw [List.findSome?_eq_none_iff]
    intro q hq
    simp only [List.mem_map, Function.comp_def] at hq
    obtain ⟨t, ht, rfl⟩ := hq
    rw [mem_threads] at ht
    obtain ⟨_, h2, h3⟩ := h t ht.1 ht.2
    simp only []
    rw [if_neg (by omega), if_neg]
    simp only [Bool.and_eq_true, decide_eq_true_eq, not_and]
    intro hw
    have := h3 hw
    omega
  · intro q hq
    simp only [List.mem_map, Function.comp_def] at hq
    obtain ⟨t, ht, rfl⟩ := hq
    rw [mem_threads] at ht
    simp [(h t ht.1 ht.2).1]

/-- Bytes written to a map in rising order from `off`. -/
theorem setMany (m : SMap Byte) (off : Nat) (bs : List Byte) (o : Nat) :
    SMap.get memDefault (bs.zipIdx.foldl (fun m p => SMap.set memDefault m (off + p.2) p.1) m) o =
      if off ≤ o ∧ o < off + bs.length then bs.getD (o - off) 0 else SMap.get memDefault m o := by
  have key : ∀ (l : List Byte) (k : Nat) (m : SMap Byte),
      SMap.get memDefault ((l.zipIdx k).foldl (fun m p => SMap.set memDefault m (off + p.2) p.1) m) o =
        if off + k ≤ o ∧ o < off + k + l.length then l.getD (o - off - k) 0 else SMap.get memDefault m o := by
    intro l
    induction l with
    | nil => intro k m; simp <;> omega
    | cons a r ih =>
      intro k m
      rw [List.zipIdx_cons, List.foldl_cons, ih]
      by_cases h1 : off + (k + 1) ≤ o ∧ o < off + (k + 1) + r.length
      · rw [if_pos h1, if_pos (by simp; omega)]
        have : o - off - k = (o - off - (k + 1)) + 1 := by omega
        rw [this]; simp
      · rw [if_neg h1]
        by_cases h2 : o = off + k
        · subst h2
          rw [SMap.get_set_self, if_pos (by simp)]
          simp
        · rw [SMap.get_set_ne _ _ _ _ _ h2, if_neg (by simp; omega)]
  have := key bs 0 m
  simpa using this

theorem dataBytes_length (g : Tg) (n z t : Nat) (hz : z ≤ 4 * dataRegs z) : (dataBytes g n z t).length = z := by
  unfold dataBytes
  have : ((List.range (dataRegs z)).flatMap fun j => leBytes (g.vAt (n + j) t).toNat 4).length = 4 * dataRegs z := by
    rw [List.length_flatMap]
    simp only [leBytes, List.length_map, List.length_range]
    generalize dataRegs z = q
    induction q with
    | zero => rfl
    | succ q ih => rw [List.range_succ, List.map_append, List.sum_append, ih]; simp; omega
  rw [List.length_take, this]; omega

/-- Bytes `data t` of the threads of a rising list stored at their offsets, later threads over earlier ones. -/
theorem fold_sp (c : Crew) (z : Nat) (data : Nat → List Byte) (hz : ∀ t, (data t).length = z) (off : Nat → Nat) (l : List Nat)
    (hl : l.Pairwise (· < ·)) :
    ∃ m, (l.map fun t => (t, off t)).foldl (fun c p => c.setSp p.2 (data p.1)) c = { c with scratch := m } ∧
      (∀ o, (∀ t ∈ l, o < off t ∨ off t + z ≤ o) → SMap.get memDefault m o = SMap.get memDefault c.scratch o) ∧
      (∀ t ∈ l, ∀ j, j < z → (∀ u ∈ l, t < u → off t + j < off u ∨ off u + z ≤ off t + j) →
        SMap.get memDefault m (off t + j) = (data t).getD j 0) := by
  induction l generalizing c with
  | nil => exact ⟨c.scratch, rfl, fun _ _ => rfl, fun t ht => by simp at ht⟩
  | cons a r ih =>
    rw [List.pairwise_cons] at hl
    obtain ⟨m, h1, h2, h3⟩ := ih (c.setSp (off a) (data a)) hl.2
    have hb : ∀ o, SMap.get memDefault (c.setSp (off a) (data a)).scratch o =
        if off a ≤ o ∧ o < off a + z then (data a).getD (o - off a) 0 else SMap.get memDefault c.scratch o := by
      intro o
      have := setMany c.scratch (off a) (data a) o
      rw [hz] at this
      exact this
    refine ⟨m, ?_, fun o ho => ?_, fun t ht j hj hu => ?_⟩
    · rw [List.map_cons, List.foldl_cons, h1]; rfl
    · rw [h2 o fun t ht => ho t (by simp [ht]), hb, if_neg]
      have := ho a (by simp)
      omega
    · rcases List.mem_cons.1 ht with rfl | ht
      · rw [h2 _ fun u hu' => hu u (by simp [hu']) (hl.1 u hu'), hb, if_pos (by omega)]
        congr 1; omega
      · exact h3 t ht j hj fun u hu' => hu u (by simp [hu'])

theorem threads_sorted (m : Mask) : m.threads.Pairwise (· < ·) := by
  unfold Mask.threads
  exact List.Pairwise.filter _ List.pairwise_lt_range

theorem sizes (f : RArgs) : accessSize f ≤ 4 * dataRegs (accessSize f) := by
  unfold dataRegs accessSize
  have : f.ty.bytes = 1 ∨ f.ty.bytes = 2 ∨ f.ty.bytes = 4 ∨ f.ty.bytes = 8 ∨ f.ty.bytes = 0 := by cases f.ty <;> decide
  have : f.x.toNat % 4 = 0 ∨ f.x.toNat % 4 = 1 ∨ f.x.toNat % 4 = 2 ∨ f.x.toNat % 4 = 3 := by omega
  rcases this with h | h | h | h <;> rw [h] <;> omega

end Sys2Proof.Machine
end

