-- ==== Sys2Proof/Laws/Canonical.lean ====
section
/-! SUPPORT. The canonical form of memory under every memory operation, and what a byte reads after a write, a discard or the use of
a translation. -/

namespace Sys2Proof.Machine

/-- Memory keeps its canonical form from `s` to `s'`. -/
def State.KeepsForm (s s' : State) : Prop := Memory.wf s.mem = true → Memory.wf s'.mem = true

theorem State.KeepsForm.refl (s : State) : s.KeepsForm s := id

theorem State.KeepsForm.trans {s s' s'' : State} (h : s.KeepsForm s') (h' : s'.KeepsForm s'') : s.KeepsForm s'' := fun w => h' (h w)

/-- A change of other fields keeps it. -/
theorem State.KeepsForm.of_mem {s s' : State} (h : s'.mem = s.mem) : s.KeepsForm s' := fun w => by rw [h]; exact w

theorem State.KeepsForm.foldl {α : Type} (f : State → α → State) (hf : ∀ (s : State) a, s.KeepsForm (f s a)) (l : List α) (s : State) :
    s.KeepsForm (l.foldl f s) := by
  induction l generalizing s with
  | nil => exact .refl s
  | cons a r ih => exact (hf s a).trans (ih _)

theorem reset_wf : Memory.wf State.reset.mem = true := rfl

theorem State.setByte_keeps (s : State) (loc : Nat) (v : Byte) : s.KeepsForm (s.setByte loc v) :=
  fun w => SMap.wf_set memDefault s.mem loc v w

theorem State.setBytes_keeps (s : State) (loc : Nat) (bs : List Byte) : s.KeepsForm (s.setBytes loc bs) :=
  .foldl (fun s (p : Byte × Nat) => s.setByte (loc + p.2) p.1) (fun s p => s.setByte_keeps (loc + p.2) p.1) _ _

theorem State.write_keeps (s : State) (loc n x : Nat) : s.KeepsForm (s.write loc n x) := s.setBytes_keeps loc _

theorem State.discard_keeps (s : State) (loc : Nat) : s.KeepsForm (s.discard loc) := by
  unfold State.discard
  simp only []
  split
  · exact .refl s
  · exact .of_mem rfl

theorem State.writeBack_keeps (s : State) (loc : Nat) : s.KeepsForm (s.writeBack loc) := .of_mem rfl

theorem State.markLeaf_keeps (s : State) (leaf : Nat) (w : Bool) : s.KeepsForm (s.markLeaf leaf w) := by
  have h : ∀ b : Byte, s.KeepsForm (if b = s.last leaf then s else s.setByte leaf b) := by
    intro b; split
    · exact .refl s
    · exact s.setByte_keeps _ _
  exact h _

theorem State.walked_keeps (s : State) (ctx va : Nat) (w : Bool) : s.KeepsForm (s.walked ctx va w) := by
  unfold State.walked
  split
  · exact s.markLeaf_keeps _ _
  · exact .refl s

theorem State.touch_keeps (s : State) (core ctx va : Nat) (w : Bool) : s.KeepsForm (s.touch core ctx va w) := by
  unfold State.touch
  split
  · rename_i e _
    have hs : ∀ q : Bool, s.KeepsForm (if q then s else s.markLeaf e.leaf w) := by
      intro q
      cases q
      · exact s.markLeaf_keeps _ _
      · exact .refl s
    simp only []
    generalize hq : ((s.cached core ctx va).contains e && (!w || e.dirty)) = q
    split
    · exact hs q
    · exact (hs q).trans (.of_mem rfl)
  · exact .refl s

theorem State.touchAll_keeps (s : State) (core ctx : Nat) (vas : List Nat) (w : Bool) : s.KeepsForm (s.touchAll core ctx vas w) :=
  .foldl _ (fun s _ => s.touch_keeps _ _ _ _) _ _

theorem State.store_keeps (s : State) (loc : Nat) (bs : List Byte) : s.KeepsForm (s.store loc bs) :=
  (s.setBytes_keeps loc bs).trans (.of_mem rfl)

theorem State.prune_mem (s : State) : s.prune.mem = s.mem := rfl

theorem State.overwritePlain_mem (s : State) (ps : List (ObjRef × Nat)) : (ps.foldl State.overwritePlain s).mem = s.mem := by
  induction ps generalizing s with
  | nil => rfl
  | cons p r ih => exact (ih (s.overwritePlain p)).trans rfl

theorem State.overwrite_mem (s : State) (ps : List (ObjRef × Nat)) : (ps.foldl State.overwrite s).mem = s.mem := by
  induction ps generalizing s with
  | nil => rfl
  | cons p r ih => exact (ih (s.overwrite p)).trans rfl

theorem State.markRelease_mem (s : State) (id n pos rel : Nat) (ps : List (ObjRef × Nat)) (ph : Option (BitVec 16)) :
    (s.markRelease id n pos rel ps ph).mem = s.mem := by
  unfold State.markRelease
  split
  · rfl
  · simp only []
    split <;> rfl

theorem State.releaseAll_mem (s : State) (rel : Nat) (ps : List (ObjRef × Nat)) : (s.releaseAll rel ps).mem = s.mem := by
  unfold State.releaseAll
  split
  · rfl
  · split
    · rfl
    · exact (State.markRelease_mem _ _ _ _ _ _ _).trans (s.overwritePlain_mem ps)

theorem State.released_mem (s : State) (ord scope : Nat) (ps : List (ObjRef × Nat)) : (s.released ord scope ps).mem = s.mem := by
  unfold State.released
  simp only [State.releaseAll_mem]

theorem State.wrotePlain_mem (s : State) (ps : List (ObjRef × Nat)) : (s.wrotePlain ps).mem = s.mem := by
  unfold State.wrotePlain
  split
  · rfl
  · exact (State.markRelease_mem _ _ _ _ _ _ _).trans (s.overwritePlain_mem ps)

theorem State.releaseAs_mem (s : State) (id rel : Nat) : (s.releaseAs id rel).mem = s.mem := by
  unfold State.releaseAs
  split
  · rfl
  · exact State.markRelease_mem _ _ _ _ _ _ _

theorem State.countedIn_mem (s : State) (id base : Nat) (o : ObjRef) : (s.countedIn id base o).mem = s.mem := rfl

theorem State.performAt_keeps (s : State) (id k : Nat) (p : PStore) : s.KeepsForm (s.performAt id k p) := by
  unfold State.performAt
  refine (s.store_keeps p.loc p.data).trans (.of_mem ?_)
  rw [State.markRelease_mem, State.prune_mem]
  rfl

theorem State.performNth_keeps (s : State) (id k : Nat) : s.KeepsForm (s.performNth id k) := by
  unfold State.performNth
  split
  · exact .refl s
  · exact s.performAt_keeps _ _ _

theorem State.performN_keeps (s : State) (id n : Nat) : s.KeepsForm (s.performN id n) :=
  .foldl _ (fun s _ => s.performNth_keeps _ _) _ _

theorem State.drain_keeps (s : State) (id : Nat) : s.KeepsForm (s.drain id) := by
  unfold State.drain
  split
  · exact .refl s
  · exact State.performN_keeps _ _ _

theorem State.performThose_keeps (s : State) (id : Nat) (hit : PStore → Bool) : s.KeepsForm (s.performThose id hit) := by
  unfold State.performThose
  split
  · exact .refl s
  · exact .foldl _ (fun s _ => s.performNth_keeps _ _) _ _

theorem State.performTo_keeps (s : State) (id : Nat) (rs : List (Nat × Nat)) : s.KeepsForm (s.performTo id rs) :=
  s.performThose_keeps _ _

theorem State.issuedBefore_keeps (s : State) (base loc n : Nat) : s.KeepsForm (s.issuedBefore base loc n) :=
  .foldl _ (fun s _ => s.performThose_keeps _ _) _ _

theorem State.obey_keeps (s : State) (ids : List Nat) : s.KeepsForm (s.obey ids) := by
  unfold State.obey
  split
  · exact .refl s
  · exact .foldl _ (fun s _ => s.performN_keeps _ _) _ _

theorem State.acquire_keeps (s : State) (scope : Nat) (hit : Release → Bool) : s.KeepsForm (s.acquire scope hit) := State.obey_keeps _ _

theorem State.acquireAt_keeps (s : State) (a : Agent) (ps : List (ObjRef × Nat)) : s.KeepsForm (s.acquireAt a ps) := State.obey_keeps _ _

theorem State.noteSeen_mem (s : State) (hit : Release → Bool) : (s.noteSeen hit).mem = s.mem := by
  unfold State.noteSeen
  simp only []
  split <;> rfl

theorem State.scAfter_keeps (s : State) (a : Agent) (scope : Nat) : s.KeepsForm (s.scAfter a scope) := by
  unfold State.scAfter
  refine State.KeepsForm.foldl _ (fun s p => ?_) s.tgs s
  split
  · exact .refl s
  · exact State.performN_keeps _ _ _

theorem State.scOrder_keeps (s : State) (scope : Nat) : s.KeepsForm (s.scOrder scope) :=
  (s.scAfter_keeps _ _).trans (.of_mem rfl)

theorem State.writeOrder_keeps (s : State) (ord scope : Nat) (ps : List (ObjRef × Nat)) : s.KeepsForm (s.writeOrder ord scope ps) := by
  unfold State.writeOrder
  split
  · exact s.scOrder_keeps _
  · exact .refl s

theorem State.readOrder_keeps (s : State) (ord scope : Nat) (ps : List (ObjRef × Nat)) : s.KeepsForm (s.readOrder ord scope ps) := by
  have h := (s.writeOrder_keeps ord scope ps).trans
    (.of_mem (State.noteSeen_mem _ ((s.writeOrder ord scope ps).meets ps)))
  unfold State.readOrder
  simp only []
  split
  · exact (h.trans (State.acquire_keeps _ _ _)).trans (State.acquire_keeps _ _ _)
  · exact h

theorem State.redOrder_keeps (s : State) (ord scope : Nat) (ps : List (ObjRef × Nat)) : s.KeepsForm (s.redOrder ord scope ps) :=
  (s.writeOrder_keeps ord scope ps).trans (.of_mem (State.noteSeen_mem _ _))

theorem State.fence_keeps (s : State) (ord scope : Nat) : s.KeepsForm (s.fence ord scope) := by
  have h1 : ∀ s : State, s.KeepsForm (if ord = 5 then s.scOrder scope else s) := by
    intro s; split
    · exact s.scOrder_keeps _
    · exact .refl s
  have h2 : ∀ s : State, s.KeepsForm (if isAcquire ord then s.acquire scope fun r => ((s.tg s.cur).any fun g => g.seen.contains r.id) else s) := by
    intro s; split
    · exact s.acquire_keeps _ _
    · exact .refl s
  have h3 := (h1 s).trans (h2 _)
  unfold State.fence
  simp only []
  generalize (if isAcquire ord then _ else _ : State) = s2 at h3 ⊢
  split
  · exact h3.trans (.of_mem rfl)
  · exact h3

theorem State.cpWrite_keeps (s : State) (ctx : Nat) (va : W64) (bs : List Byte) : s.KeepsForm (s.cpWrite ctx va bs) := by
  unfold State.cpWrite
  split
  · exact (s.walked_keeps _ _ _).trans (State.setBytes_keeps _ _ _)
  · exact .refl s

theorem State.cpAcquire_keeps (s : State) (ctx : Nat) (va : W64) (n : Nat) : s.KeepsForm (s.cpAcquire ctx va n) := by
  unfold State.cpAcquire
  split
  · exact .refl s
  · exact (State.acquireAt_keeps _ _ _).trans (.foldl _ (fun s _ => s.walked_keeps _ _ _) _ _)

theorem State.writeStatus_keeps (s : State) (l : Nat) (t : W64) : s.KeepsForm (s.writeStatus l t) := by
  unfold State.writeStatus
  split
  · exact s.cpWrite_keeps _ _ _
  · exact .refl s

theorem State.updLaunch_keeps (s : State) (l : Nat) (f : Launch → Launch) : s.KeepsForm (s.updLaunch l f) :=
  State.KeepsForm.trans (s' := s.modLaunch l f) (.of_mem rfl) ((s.modLaunch l f).writeStatus_keeps l 0)

theorem State.setObj_keeps (s : State) (o : ObjRef) (x : Obj) : s.KeepsForm (s.setObj o x) := by
  unfold State.setObj
  split
  · exact .of_mem rfl
  · exact s.setBytes_keeps _ _
  · exact .of_mem rfl
  · exact .of_mem rfl
  · exact .refl s

theorem State.wakeRemote_mem (s : State) (o : ObjRef) : (s.wakeRemote o).mem = s.mem := by
  unfold State.wakeRemote
  split <;> rfl

theorem State.updObj_keeps (s : State) (o : ObjRef) (f : Obj → Obj) : s.KeepsForm (s.updObj o f) := by
  unfold State.updObj
  simp only []
  split
  · exact s.setObj_keeps o _
  · exact (s.setObj_keeps o _).trans (.of_mem (State.wakeRemote_mem _ _))

theorem State.writeEntry_keeps (s : State) (loc : Nat) (e : Entry) : s.KeepsForm (s.writeEntry loc e) :=
  (s.setBytes_keeps loc e.toBytes).trans (.of_mem rfl)

theorem State.post_keeps (s : State) (die : Nat) (f : FaultInfo) : s.KeepsForm (s.post die f) := by
  intro w
  unfold State.post
  simp only []
  rw [State.modDie_mem, State.count_mem]
  exact State.updObj_keeps _ _ _ (State.setBytes_keeps _ _ _ (State.updObj_keeps _ _ _ w))

/-! ### Reads after writes -/

theorem State.setByte_byte (s : State) (loc a salt : Nat) (v : Byte) :
    (s.setByte loc v).byte a salt = if a = loc then v else s.byte a salt := by
  unfold State.byte State.setByte State.last State.free
  by_cases h : a = loc
  · subst h
    simp [SMap.find_del_self, SMap.get_set_self]
  · simp [h, SMap.find_del_ne _ _ _ h, SMap.get_set_ne _ _ _ _ _ h]

theorem State.setByte_last (s : State) (loc a : Nat) (v : Byte) : (s.setByte loc v).last a = if a = loc then v else s.last a := by
  unfold State.setByte State.last
  by_cases h : a = loc
  · subst h; simp [SMap.get_set_self]
  · simp [h, SMap.get_set_ne _ _ _ _ _ h]

theorem State.discard_last (s : State) (loc a : Nat) : (s.discard loc).last a = s.last a := by
  unfold State.discard
  simp only []
  split <;> rfl

end Sys2Proof.Machine
end

