-- ==== Sys2Proof/Laws/Lanes.lean ====
section
/-! SUPPORT. What `lanes` does with an instruction whose result is data of D: one lemma for every row of classes 0x10 to 0x2F. -/

namespace Sys2Proof.Machine

theorem vAt_eq_slotAt (g : Tg) (n t : Nat) : g.vAt n t = slotAt g.v (g.slotOf n) t := rfl

theorem WroteV_setV (g : Tg) (n : Nat) (act : Mask) (x : Nat → Option W32) (y : Nat → W32)
    (h : ∀ t, t < 96 → x t = if act.has t = true then some (y t) else none) : WroteV g (g.setV n x).v n act y := by
  intro p t ht
  rw [slotAt, Tg.setV_row _ _ _ _ _ ht, h t ht]
  by_cases hp : p = g.slotOf n <;> by_cases ha : act.has t = true <;> simp [hp, ha, vAt_eq_slotAt, slotAt]

theorem WroteV64_setV64 (g : Tg) (n : Nat) (act : Mask) (x : Nat → Option W64) (y : Nat → W64)
    (h : ∀ t, t < 96 → x t = if act.has t = true then some (y t) else none) : WroteV64 g (g.setV64 n x).v n act y := by
  intro p t ht
  unfold Tg.setV64
  rw [slotAt, Tg.setV_row _ _ _ _ _ ht, h t ht]
  have hs : (g.setV n fun t => (x t).map fun w => w.extractLsb' 0 32).slotOf (n + 1) = g.slotOf (n + 1) := rfl
  have hv : ∀ m, (g.setV n fun t => (x t).map fun w => w.extractLsb' 0 32).vAt m t =
      if g.slotOf m = g.slotOf n ∧ act.has t = true then (y t).extractLsb' 0 32 else g.vAt m t := by
    intro m
    show slotAt _ _ _ = _
    have := WroteV_setV g n act (fun t => (x t).map fun w => w.extractLsb' 0 32) (fun t => (y t).extractLsb' 0 32)
      (fun t ht => by rw [h t ht]; by_cases ha : act.has t = true <;> simp [ha]) (g.slotOf m) t ht
    exact this
  have hw := WroteV_setV g n act (fun t => (x t).map fun w => w.extractLsb' 0 32) (fun t => (y t).extractLsb' 0 32)
      (fun t ht => by rw [h t ht]; by_cases ha : act.has t = true <;> simp [ha]) p t ht
  rw [hs]
  by_cases hp : p = g.slotOf (n + 1)
  · subst hp
    by_cases ha : act.has t = true
    · simp [ha]
    · simp [ha, hv, vAt_eq_slotAt]
  · simp only [hp, if_false, false_and]
    exact hw

/-- The thread on which a uniform form acts is an active one. -/
theorem uniformOn_lt (g : Tg) (f : RArgs) (op : LaneOp) (t : Nat) (ho : uniformOn g f op = some t) : t < 96 := by
  have hlow : ∀ (q : Nat → Bool), (g.mask.lowest.filter q) = some t → t < 96 := fun q h =>
    (Mask.has_of_lowest _ _ (Option.filter_eq_some_iff.1 h).1).2
  unfold uniformOn at ho
  split at ho
  · exact hlow _ ho
  · unfold Tg.once at ho
    cases hl : g.mask.lowest with
    | none => simp [hl] at ho
    | some t' =>
      simp only [hl] at ho
      split at ho
      · cases ho; exact (Mask.has_of_lowest _ _ hl).2
      · cases ho

/-- An operation whose result is data of D completes with that data, computed by its function from what each thread reads. -/
theorem lanes_data (i : Instr) (f : RArgs) (op : LaneOp) (fn : (Nat → Rnd) → LaneIn → Nat) (w : Nat) (act : Tg → Mask) (on : Tg → Option Nat)
    (x : State → Tg → Nat → W64) (hi : ∀ s, exec i s = lanes f s op) (hrun : ∀ r a, op.run r a = .reg (fn r a))
    (hw : op.dw = w) (hact : ∀ g, act g = laneActing g f op) (hon : ∀ g, uniformOn g f op = on g)
    (hx : ∀ s g, f.h.u = true → ∀ t, t < 96 → BitVec.ofNat 64 (fn (rndAt s g f.rm) (laneIn s g f op none t)) = x s g t)
    (hx64 : ∀ s g, f.h.u = false → w = 64 → ∀ t, t < 96 → BitVec.ofNat 64 (fn (rndAt s g f.rm) (laneIn s g f op none t)) = x s g t)
    (hx32 : ∀ s g, f.h.u = false → w ≠ 64 → ∀ t, t < 96 →
      BitVec.ofNat 32 (fn (rndAt s g f.rm) (laneIn s g f op none t)) = (x s g t).setWidth 32) :
    GivesDataOn i f w act on x := by
  intro s g ⟨hg, hm⟩ hsw
  have hl : exec i s = done s (Tg.past (if f.h.u then laneUniform s g f op else laneVector s g f op) f.rm (RArgs.words f)) := by
    rw [hi, lanes, onTg_of _ _ _ hg]
    unfold Long.isSweep at hsw
    split
    · rename_i heq; rw [heq] at hsw; simp at hsw
    · rfl
  refine ⟨fun hu n hd => ?_, fun hu n hd => ?_⟩
  · have hcs : ∀ (o : Row (Option LaneOut)) (k : Tg), (∀ t, ∀ y, Row.at o none t = some y → ∃ z, y = .reg z) →
        lanePreds k f o = k := by
      intro o k ho
      have hany : ∀ (sel : LaneOut → Option (BitVec 4 × BitVec 4)), (∀ z, sel (.reg z) = none) →
          o.any (fun o => o.any fun x => (sel x).isSome) = false := by
        intro sel hs
        rw [List.any_eq_false]
        intro y hy
        obtain ⟨t, ht, rfl⟩ := List.mem_iff_getElem.1 hy
        cases hyt : o[t] with
        | none => simp
        | some y =>
          obtain ⟨z, rfl⟩ := ho t y (by simp [Row.at, List.getD, ht, hyt])
          simp [hs]
      unfold lanePreds
      simp only [hany LaneOut.pc (fun _ => rfl), hd]
      cases f.cs <;> simp
    have houts : ∀ t, t < 96 → Row.at (laneOuts s g f op (laneActing g f op) none) none t =
        if (laneActing g f op).has t then some (.reg (fn (rndAt s g f.rm) (laneIn s g f op none t))) else none := by
      intro t ht
      rw [laneOuts, Row.at_tab' _ _ _ ht, hrun]
    have houts' : ∀ t, ∀ y, Row.at (laneOuts s g f op (laneActing g f op) none) none t = some y → ∃ z, y = .reg z := by
      intro t y hy
      by_cases ht : t < 96
      · rw [houts t ht] at hy
        split at hy
        · exact ⟨_, (Option.some.inj hy).symm⟩
        · cases hy
      · rw [laneOuts, Row.at, List.getD, List.getElem?_eq_none (by simp [Row.tab, numThreads]; omega)] at hy
        cases hy
    have hval : ∀ t, t < 96 → (Row.at (laneOuts s g f op (laneActing g f op) none) none t).bind LaneOut.data =
        if (act g).has t = true then some (fn (rndAt s g f.rm) (laneIn s g f op none t)) else none := by
      intro t ht
      rw [houts t ht, hact]
      split <;> rfl
    have hvec : laneVector s g f op = laneRegs g f op.dw (laneOuts s g f op (laneActing g f op) none) := rfl
    by_cases h64 : w = 64
    · refine ⟨(g.setV64 n.toNat fun t => ((Row.at (laneOuts s g f op (laneActing g f op) none) none t).bind LaneOut.data).map
          (BitVec.ofNat 64)).v, ?_, ?_⟩
      · rw [WroteVec, if_pos h64]
        apply WroteV64_setV64
        intro t ht
        rw [hval t ht]
        by_cases ha : (act g).has t = true
        · simp [ha, hx64 s g hu h64 t ht]
        · simp [ha]
      · rw [Becomes, hl, hu, if_neg (by simp), hvec, laneRegs, hd]
        simp only [hw, h64, if_true]
        rw [hcs _ _ houts', done_of_active]
        · rfl
        · simpa [Tg.past] using hm
    · refine ⟨(g.setV n.toNat fun t => ((Row.at (laneOuts s g f op (laneActing g f op) none) none t).bind LaneOut.data).map
          (BitVec.ofNat 32)).v, ?_, ?_⟩
      · rw [WroteVec, if_neg h64]
        apply WroteV_setV
        intro t ht
        rw [hval t ht]
        by_cases ha : (act g).has t = true
        · simp [ha, hx32 s g hu h64 t ht]
        · simp [ha]
      · rw [Becomes, hl, hu, if_neg (by simp), hvec, laneRegs, hd]
        simp only [hw, h64, if_false]
        rw [hcs _ _ houts', done_of_active]
        · rfl
        · simpa [Tg.past] using hm
  · rw [Completes, hl, hu, if_pos rfl, laneUniform]
    cases ho : uniformOn g f op with
    | none => rw [← hon, ho]; rfl
    | some t =>
      rw [← hon, ho]
      have ht := uniformOn_lt g f op t ho
      have hcs : ∀ (k : Tg), lanePreds k f (Row.tab fun u => if g.mask.has u then
          some (op.run (rndAt s g f.rm) (laneIn s g f op none t)) else none) = k := by
        intro k
        have hany : ∀ (sel : LaneOut → Option (BitVec 4 × BitVec 4)), (∀ z, sel (.reg z) = none) →
            (Row.tab fun u => if g.mask.has u then some (op.run (rndAt s g f.rm) (laneIn s g f op none t)) else none).any
              (fun o => o.any fun x => (sel x).isSome) = false := by
          intro sel hs
          rw [List.any_eq_false]
          intro y hy
          simp only [Row.tab, List.mem_map, List.mem_range] at hy
          obtain ⟨u, _, rfl⟩ := hy
          split
          · simp [hrun, hs]
          · simp
        unfold lanePreds
        simp only [hany LaneOut.pc (fun _ => rfl), hd]
        cases f.cs <;> simp
      simp only [hrun, LaneOut.reg] at hcs
      simp only [hd, hrun, LaneOut.reg, hcs, hx s g hu t ht]
      rfl

/-! ### Integer operations -/


theorem wrapInt_eq (x : Int) (w : Nat) : wrapInt x w = (BitVec.ofInt w x).toNat := by
  rw [wrapInt, BitVec.toNat_ofInt]

theorem sextInt_eq (x : Int) (w : Nat) (hw : 0 < w) : sextInt x w = (BitVec.ofInt w x).toInt := by
  rw [sextInt, wrapInt_eq, BitVec.toInt_eq_toNat_cond]
  have h2 : 2 ^ w = 2 * 2 ^ (w - 1) := by
    obtain ⟨k, rfl⟩ : ∃ k, w = k + 1 := ⟨w - 1, by omega⟩
    simp [Nat.pow_succ, Nat.mul_comm]
  split <;> split <;> first | rfl | omega

theorem Ty.width_pos (ty : Ty) : 0 < ty.width := by cases ty <;> decide
theorem Ty.width_le (ty : Ty) : ty.width ≤ 64 := by cases ty <;> decide
theorem Ty.width_le32 (ty : Ty) (h : ty.width ≠ 64) : ty.width ≤ 32 := by cases ty <;> revert h <;> decide

/-- A result of `w` bits as a register of `r` bits holds it. -/
theorem ofNat_extend (s : Bool) (w r : Nat) (hw : 0 < w) (x : BitVec w) :
    BitVec.ofNat r (extend s w r x.toNat) = if s then x.signExtend r else x.setWidth r := by
  unfold extend
  cases s
  · apply BitVec.eq_of_toNat_eq
    simp [Nat.mod_eq_of_lt x.isLt]
  · simp only [if_true]
    rw [sextInt_eq _ _ hw]
    apply BitVec.eq_of_toNat_eq
    rw [wrapInt_eq, BitVec.toNat_ofNat, Nat.mod_eq_of_lt (BitVec.isLt _), BitVec.ofInt_natCast, BitVec.ofNat_toNat, BitVec.setWidth_eq]
    rfl

theorem opnd_lt (s : State) (g : Tg) (h : Hdr) (ty : Ty) (hi : ty.isInt = true) (sp : Spec) (t : Nat) :
    opnd s g h ty ty.width sp t < 2 ^ ty.width := by
  have hp : 0 < 2 ^ ty.width := Nat.two_pow_pos _
  have hwr : ∀ x, wrapInt x ty.width < 2 ^ ty.width := fun x => by rw [wrapInt_eq]; exact (BitVec.ofInt _ x).isLt
  cases sp <;> simp only [opnd] <;> try exact hp
  case v n =>
    split
    · rename_i h64; rw [h64]; exact (g.v64 n.toNat t).isLt
    · exact Nat.mod_lt _ hp
  case s n => exact Nat.mod_lt _ hp
  case special x => exact Nat.mod_lt _ hp
  case p n =>
    refine Nat.lt_of_lt_of_le (g.pAt n.toNat t).isLt (Nat.pow_le_pow_right (by omega) ?_)
    cases ty <;> revert hi <;> decide
  case imm n =>
    cases ty <;> first | exact hwr _ | (exfalso; revert hi; decide)
  case limm =>
    unfold longImm
    split
    · split
      · rename_i h64 _; rw [h64] at hwr ⊢; exact hwr _
      · rename_i h64 _; rw [h64]; exact Nat.lt_of_lt_of_le (Hdr.imm h).isLt (by decide)
    · exact Nat.mod_lt _ hp

theorem bitsOf_toNat (s : State) (g : Tg) (h : Hdr) (ty : Ty) (hi : ty.isInt = true) (sp : Spec) (t : Nat) :
    (bitsOf s g h ty sp t).toNat = opnd s g h ty ty.width sp t := by
  rw [bitsOf, BitVec.toNat_ofNat, Nat.mod_eq_of_lt (opnd_lt s g h ty hi sp t)]

theorem intVal_opnd (s : State) (g : Tg) (h : Hdr) (ty : Ty) (hi : ty.isInt = true) (sp : Spec) (t : Nat) :
    intVal ty (opnd s g h ty ty.width sp t) = intOf s g h ty sp t := by
  unfold intVal intOf
  split
  · rw [sextInt_eq _ _ (Ty.width_pos ty)]
    rfl
  · rw [bitsOf_toNat _ _ _ _ hi]

/-- A register of 32 bits holds the low bits of what one of 64 would hold. -/
theorem narrow_reg (b : Bool) (w : Nat) (x : BitVec w) :
    (if b then x.signExtend 32 else x.setWidth 32) = (if b then x.signExtend 64 else x.setWidth 64).setWidth 32 := by
  cases b
  · apply BitVec.eq_of_getLsbD_eq
    intro j hj
    simp [hj]
  · apply BitVec.eq_of_getLsbD_eq
    intro j hj
    simp only [if_true]
    rw [BitVec.getLsbD_setWidth, BitVec.getLsbD_signExtend, BitVec.getLsbD_signExtend]
    have h1 : j < 64 := by omega
    simp [hj, h1]

/-- An operation on bits gives the extension of its result. -/
theorem bitsOp_gives (i : Instr) (f : RArgs) (fn : Nat → Nat → Nat → Nat) (x : State → Tg → Nat → BitVec f.ty.width)
    (hi : ∀ s, exec i s = lanes f s (bitsOp f fn))
    (hx : ∀ s g t, fn (opnd s g f.h f.ty f.ty.width f.a t) (opnd s g f.h f.ty f.ty.width f.b t)
      (opnd s g f.h f.ty f.ty.width f.cs t) = (x s g t).toNat) :
    GivesData i f f.ty.width (·.acting f.h) fun s g t => regBits f.ty (x s g t) := by
  have hw := Ty.width_pos f.ty
  have key : ∀ s g t, extend f.ty.isSInt f.ty.width (laneIn s g f (bitsOp f fn) none t).r
      (fn (laneIn s g f (bitsOp f fn) none t).a (laneIn s g f (bitsOp f fn) none t).b (laneIn s g f (bitsOp f fn) none t).c) =
      extend f.ty.isSInt f.ty.width (if f.h.u || decide (f.ty.width = 64) then 64 else 32) (x s g t).toNat := by
    intro s g t
    rw [← hx s g t]
    rfl
  apply lanes_data i f (bitsOp f fn) (fun _ a => extend f.ty.isSInt f.ty.width a.r (fn a.a a.b a.c)) _ _ _ _ hi (fun _ _ => rfl) rfl
    (fun _ => rfl) (fun _ => rfl)
  · intro s g hu t _
    rw [key, hu, Bool.true_or, if_pos rfl, ofNat_extend _ _ _ hw, regBits]
  · intro s g hu h64 t _
    simp only [bitsOp] at h64
    rw [key, decide_eq_true h64, Bool.or_true, if_pos rfl, ofNat_extend _ _ _ hw, regBits]
  · intro s g hu h64 t _
    simp only [bitsOp] at h64
    rw [key, decide_eq_false h64, hu, Bool.or_false, if_neg (by simp), ofNat_extend _ _ _ hw, regBits]
    exact narrow_reg _ _ _

/-- An operation on values gives the extension of its wrapped result. -/
theorem valOp_gives (i : Instr) (f : RArgs) (hty : f.ty.isInt = true) (fn : Int → Int → Int → Int)
    (hi : ∀ s, exec i s = lanes f s (valOp f fn)) :
    GivesData i f f.ty.width (·.acting f.h) fun s g t =>
      regInt f.ty (fn (intOf s g f.h f.ty f.a t) (intOf s g f.h f.ty f.b t) (intOf s g f.h f.ty f.cs t)) :=
  bitsOp_gives i f _ (fun s g t => BitVec.ofInt f.ty.width
    (fn (intOf s g f.h f.ty f.a t) (intOf s g f.h f.ty f.b t) (intOf s g f.h f.ty f.cs t))) hi
    (fun s g t => by simp only [intVal_opnd _ _ _ _ hty, wrapInt_eq])

/-! ### Compares -/

theorem Tg.setP_eq (g : Tg) (n : Nat) (x : Nat → Option (BitVec 4 × BitVec 4)) : g.setP n x = { g with p := (g.setP n x).p } := by
  unfold Tg.setP
  split <;> rfl

theorem WroteP_setP (g : Tg) (n : Nat) (x : Nat → Option (BitVec 4 × BitVec 4)) (z : Nat → Option (BitVec 4))
    (hz : n ≠ 7 → ∀ t, t < 96 → z t = (x t).map fun q => condBits (g.pAt n t) q.1 q.2) :
    WroteP g (g.setP n x).p n z := by
  unfold WroteP
  split
  · rename_i h7; simp [Tg.setP, h7]
  · rename_i h7
    intro m t ht
    rw [Tg.setP_row _ _ h7 _ _ _ ht, hz h7 t ht]
    split
    · cases x t <;> rfl
    · rfl

theorem WrotePP_setP (g : Tg) (d c : Nat) (act : Mask) (x m : Nat → BitVec 4) (X Y : Nat → Option (BitVec 4 × BitVec 4))
    (hX : ∀ t, t < 96 → X t = if act.has t then some (~~~(x t), m t) else none)
    (hY : ∀ t, t < 96 → Y t = if act.has t then some (x t, m t) else none) :
    WrotePP g ((g.setP c X).setP d Y).p d c
      (fun t => if act.has t then some (condBits (g.pAt d t) (x t) (m t)) else none)
      (fun t => if act.has t then some (condBits (g.pAt c t) (~~~(x t)) (m t)) else none) := by
  refine ⟨(g.setP c X).p, WroteP_setP _ _ _ _ fun _ t ht => by rw [hX t ht]; split <;> rfl, ?_⟩
  rw [← Tg.setP_eq]
  apply WroteP_setP
  intro h7 t ht
  rw [hY t ht]
  split
  · rename_i hat
    simp only [Option.map_some]
    congr 1
    by_cases h : d = c
    · subst h
      have : (g.setP d X).pAt d t = condBits (g.pAt d t) (~~~(x t)) (m t) := by
        rw [Tg.pAt, if_neg h7, Tg.setP_row _ _ h7 _ _ _ ht, if_pos rfl, hX t ht, if_pos hat]
        rfl
      rw [this]
      apply BitVec.eq_of_getLsbD_eq
      intro j hj
      simp only [condBits, BitVec.getLsbD_or, BitVec.getLsbD_and, BitVec.getLsbD_not, hj, decide_true, Bool.true_and]
      cases (m t).getLsbD j <;> simp
    · have : (g.setP c X).pAt d t = g.pAt d t := by
        by_cases hc7 : c = 7
        · simp [Tg.setP, hc7]
        · rw [Tg.pAt, if_neg h7, Tg.setP_row _ _ hc7 _ _ _ ht, if_neg h, Tg.pAt, if_neg h7]
      rw [this]
  · rfl

/-- Predicates CS and D of a compare written (R53). -/
theorem lanePreds_cond (g : Tg) (f : RArgs) (d c : BitVec 3) (hd : f.d = .p d) (hc : f.cs = .p c) (act : Mask)
    (x m : Nat → BitVec 4) (ha : ∃ t, t < 96 ∧ act.has t = true) (o : Row (Option LaneOut))
    (ho : o = Row.tab fun t => if act.has t then some (LaneOut.cond (x t) (m t)) else none) :
    ∃ p, WrotePP g p d.toNat c.toNat
        (fun t => if act.has t then some (condBits (g.pAt d.toNat t) (x t) (m t)) else none)
        (fun t => if act.has t then some (condBits (g.pAt c.toNat t) (~~~(x t)) (m t)) else none) ∧
      lanePreds g f o = { g with p := p } := by
  obtain ⟨t0, ht0, hat0⟩ := ha
  have hany : ∀ sel : LaneOut → Option (BitVec 4 × BitVec 4), (∀ a b, (sel (.cond a b)).isSome = true) →
      (o.any fun o => o.any fun x => (sel x).isSome) = true := by
    intro sel hs
    subst ho
    rw [List.any_eq_true]
    refine ⟨some (LaneOut.cond (x t0) (m t0)), ?_, by simp [hs]⟩
    simp only [Row.tab, List.mem_map, List.mem_range]
    exact ⟨t0, ht0, by simp [hat0]⟩
  have hbind : ∀ (sel : LaneOut → Option (BitVec 4 × BitVec 4)) (t : Nat), t < 96 →
      (Row.at o none t).bind sel = if act.has t then sel (.cond (x t) (m t)) else none := by
    intro sel t ht
    rw [ho, Row.at_tab' _ _ _ ht]
    split <;> rfl
  unfold lanePreds
  simp only [hd, hc, hany LaneOut.pc (fun _ _ => rfl), hany LaneOut.pd (fun _ _ => rfl), if_true]
  refine ⟨_, WrotePP_setP g d.toNat c.toNat act x m _ _ (fun t ht => hbind LaneOut.pc t ht) (fun t ht => hbind LaneOut.pd t ht), ?_⟩
  rw [Tg.setP_eq, Tg.setP_eq g c.toNat]

theorem lanePreds_none (g : Tg) (f : RArgs) (o : Row (Option LaneOut)) (ho : o = Row.tab fun _ => none) : lanePreds g f o = g := by
  have hany : ∀ sel : LaneOut → Option (BitVec 4 × BitVec 4), (o.any fun o => o.any fun x => (sel x).isSome) = false := by
    intro sel
    subst ho
    rw [List.any_eq_false]
    intro y hy
    simp only [Row.tab, List.mem_map, List.mem_range] at hy
    obtain ⟨_, _, rfl⟩ := hy
    simp
  unfold lanePreds
  simp only [hany]
  cases f.cs <;> cases f.d <;> simp

theorem lanes_nosweep (f : RArgs) (s : State) (g : Tg) (op : LaneOp) (hg : s.Issues g) (hsw : Long.isSweep f.h.long = false) :
    lanes f s op = done s (Tg.past (if f.h.u then laneUniform s g f op else laneVector s g f op) f.rm (RArgs.words f)) := by
  rw [lanes, onTg_of _ _ _ hg.1]
  unfold Long.isSweep at hsw
  split
  · rename_i heq; rw [heq] at hsw; simp at hsw
  · rfl

theorem lanes_cond (i : Instr) (f : RArgs) (op : LaneOp) (act : Tg → Mask) (on : Tg → Option Nat) (x m : State → Tg → Nat → BitVec 4)
    (hi : ∀ s, exec i s = lanes f s op) (hact : ∀ g, act g = laneActing g f op) (hon : ∀ g, uniformOn g f op = on g)
    (hrun : ∀ d, f.d = .p d → ∀ s g t, op.run (rndAt s g f.rm) (laneIn s g f op none t) = .cond (x s g t) (m s g t)) :
    GivesCond i f act on x m := by
  intro s g hg hsw d c hd hc
  have hl := lanes_nosweep f s g op hg hsw
  have hz : ∀ q : Mask, q ≠ 0 → ∃ t, t < 96 ∧ q.has t = true := fun q hq => by
    obtain ⟨t, ht⟩ := Option.isSome_iff_exists.1 (Mask.lowest_isSome q hq)
    exact ⟨t, (Mask.has_of_lowest _ _ ht).2, (Mask.has_of_lowest _ _ ht).1⟩
  have hfin : ∀ p, done s (Tg.past { g with p := p } f.rm (RArgs.words f)) =
      .next (s.setTg s.cur (Tg.past { g with p := p } f.rm (RArgs.words f))) := fun p => by
    apply done_of_active
    unfold Tg.past Tg.bumpSr
    split <;> exact hg.2
  have hregs : ∀ o, laneRegs g f op.dw o = lanePreds g f o := fun o => by simp [laneRegs, hd]
  refine ⟨fun hu ha => ?_, fun hu ha => ?_, fun hu t ht => ?_, fun hu ht => ?_⟩
  · obtain ⟨p, hp, he⟩ := lanePreds_cond g f d c hd hc (act g) (x s g) (m s g) (hz _ ha) (laneOuts s g f op (laneActing g f op) none)
      (by rw [laneOuts, hact]; simp only [hrun d hd])
    refine ⟨p, hp, ?_⟩
    rw [Becomes, hi, hl, hu, if_neg (by simp), laneVector, hregs, he, hfin]
  · rw [Becomes, hi, hl, hu, if_neg (by simp), laneVector, hregs, lanePreds_none]
    · exact hfin g.p
    · rw [laneOuts, ← hact, ha]; simp [Mask.has]
  · obtain ⟨p, hp, he⟩ := lanePreds_cond g f d c hd hc g.mask (fun _ => x s g t) (fun _ => m s g t) (hz _ hg.2) (Row.tab fun u => if g.mask.has u then
          some (op.run (rndAt s g f.rm) (laneIn s g f op none t)) else none) (by simp only [hrun d hd])
    refine ⟨p, hp, ?_⟩
    rw [Becomes, hi, hl, hu, if_pos rfl, laneUniform, hon, ht]
    simp only [hd]
    rw [he, hfin]
  · rw [Becomes, hi, hl, hu, if_pos rfl, laneUniform, hon, ht]
    exact hfin g.p

/-! ### Floating operations -/

/-- As `lanes_data` for a function that gives the same result in a register of either width. -/
theorem lanes_data_same (i : Instr) (f : RArgs) (op : LaneOp) (fn : (Nat → Rnd) → LaneIn → Nat) (w : Nat) (act : Tg → Mask)
    (on : Tg → Option Nat) (x : State → Tg → Nat → W64) (hi : ∀ s, exec i s = lanes f s op) (hrun : ∀ r a, op.run r a = .reg (fn r a))
    (hw : op.dw = w) (hact : ∀ g, act g = laneActing g f op) (hon : ∀ g, uniformOn g f op = on g)
    (hx : ∀ s g t, BitVec.ofNat 64 (fn (rndAt s g f.rm) (laneIn s g f op none t)) = x s g t) : GivesDataOn i f w act on x := by
  refine lanes_data i f op fn w act on x hi hrun hw hact hon (fun s g _ t _ => hx s g t) (fun s g _ _ t _ => hx s g t) fun s g _ _ t _ => ?_
  rw [← hx s g t]
  apply BitVec.eq_of_toNat_eq
  simp

theorem laneIn_e (s : State) (g : Tg) (f : RArgs) (op : LaneOp) (t : Nat) : (laneIn s g f op none t).e = elemOf f t := by
  simp [laneIn, elemOf]

/-- An operation that rounds an exact value once. -/
theorem roundOp_gives (i : Instr) (f : RArgs) (fn : Rnd → Exact → Exact → Exact → Exact)
    (hi : ∀ s, exec i s = lanes f s (roundOp f fn)) :
    GivesData i f f.ty.width (·.acting f.h) fun s g t => BitVec.ofNat 64
      (rounded s g f (Ty.fmt f.ty)
        (fun m => fn m (fltOf s g f.h f.ty f.a t) (fltOf s g f.h f.ty f.b t) (fltOf s g f.h f.ty f.cs t)) (elemOf f t)) := by
  refine lanes_data_same i f (roundOp f fn) (fun rnd i => (Ty.fmt f.ty).round
    (fn (rnd i.e) (fltVal f.ty i.a) (fltVal f.ty i.b) (fltVal f.ty i.c)) (rnd i.e) (f.x.getLsbD 0)) _ _ _ _ hi (fun _ _ => rfl) rfl
    (fun _ => rfl) (fun _ => rfl) fun s g t => ?_
  simp only [laneIn_e]
  rfl

/-- The two elements of a packed result, each under its guard bit, as the register then holds them. -/
theorem packWord_eq (s : State) (g : Tg) (f : RArgs) (op : LaneOp) (hop : op.dw = 32) (t lo hi : Nat) :
    BitVec.ofNat 64 (packGuarded (laneIn s g f op none t).gb (laneIn s g f op none t).old lo hi) =
      packWord (f.h.u && !op.each) g f t lo hi := by
  have aux : ∀ (b0 b2 : Bool) (o : W32) (on : Nat), on % 2 ^ 32 = o.toNat →
      BitVec.ofNat 64 ((if b0 then lo else on) % 2 ^ 16 + 2 ^ 16 * ((if b2 then hi else on / 2 ^ 16) % 2 ^ 16)) =
      ((if b2 then BitVec.ofNat 16 hi else o.extractLsb' 16 16) ++
        (if b0 then BitVec.ofNat 16 lo else o.extractLsb' 0 16)).setWidth 64 := by
    intro b0 b2 o on ho
    apply BitVec.eq_of_toNat_eq
    have e0 : (if b0 then BitVec.ofNat 16 lo else o.extractLsb' 0 16).toNat = (if b0 then lo else on) % 2 ^ 16 := by
      cases b0
      · simp only [Bool.false_eq_true, if_false, BitVec.extractLsb'_toNat, ← ho]; omega
      · simp
    have e2 : (if b2 then BitVec.ofNat 16 hi else o.extractLsb' 16 16).toNat = (if b2 then hi else on / 2 ^ 16) % 2 ^ 16 := by
      cases b2
      · simp only [Bool.false_eq_true, if_false, BitVec.extractLsb'_toNat, ← ho, Nat.shiftRight_eq_div_pow]; omega
      · simp
    rw [BitVec.toNat_setWidth, BitVec.toNat_append, e0, e2, BitVec.toNat_ofNat, Nat.shiftLeft_eq, Nat.mul_comm _ (2 ^ 16),
      ← Nat.two_pow_add_eq_or_of_lt (Nat.mod_lt _ (by decide)), Nat.add_comm]
  have hgb : ∀ k, (laneIn s g f op none t).gb.getLsbD k = (if f.h.u && !op.each then (15#4).getLsbD k else (g.guardBits f.h.g f.h.n t).getLsbD k) := by
    intro k
    simp only [laneIn]
    split <;> rfl
  have hold : (laneIn s g f op none t).old = laneOld s g op.dw f.d none t := rfl
  have hv : ∃ o : W32, (laneIn s g f op none t).old % 2 ^ 32 = o.toNat ∧ packWord (f.h.u && !op.each) g f t lo hi =
      ((if (f.h.u && !op.each) || (g.guardBits f.h.g f.h.n t).getLsbD 2 then BitVec.ofNat 16 hi else o.extractLsb' 16 16) ++
        (if (f.h.u && !op.each) || (g.guardBits f.h.g f.h.n t).getLsbD 0 then BitVec.ofNat 16 lo else o.extractLsb' 0 16)).setWidth 64 := by
    rw [hold]
    unfold laneOld packWord
    cases f.d
    case v n => exact ⟨_, by simp only [hop]; exact Nat.mod_eq_of_lt (BitVec.isLt _), rfl⟩
    case s n => exact ⟨(g.sAt n.toNat).setWidth 32, by simp, rfl⟩
    all_goals exact ⟨0, rfl, rfl⟩
  obtain ⟨o, ho, hp⟩ := hv
  rw [hp, ← aux _ _ o _ ho, packGuarded, hgb, hgb]
  cases f.h.u <;> cases op.each <;> rfl

theorem ofNat_extend_nat (s : Bool) (w r : Nat) (hw : 0 < w) (n : Nat) :
    BitVec.ofNat r (extend s w r n) = if s then (BitVec.ofNat w n).signExtend r else (BitVec.ofNat w n).setWidth r := by
  rw [← ofNat_extend _ _ _ hw]
  congr 1
  unfold extend
  have h : wrapInt ((BitVec.ofNat w n).toNat : Int) w = wrapInt (n : Int) w := by
    rw [wrapInt_eq, wrapInt_eq, BitVec.ofInt_natCast, BitVec.ofInt_natCast, BitVec.ofNat_toNat, BitVec.setWidth_eq]
  rw [sextInt, sextInt, h, BitVec.toNat_ofNat, Nat.mod_mod]

/-- An operation whose result is extended from the width of T. -/
theorem lanes_data_ext (i : Instr) (f : RArgs) (op : LaneOp) (ty : Ty) (fn : (Nat → Rnd) → LaneIn → Nat) (act : Tg → Mask)
    (on : Tg → Option Nat) (x : State → Tg → Nat → BitVec ty.width) (hi : ∀ s, exec i s = lanes f s op)
    (hrun : ∀ r a, op.run r a = .reg (extend ty.isSInt ty.width a.r (fn r a)))
    (hw : op.dw = ty.width) (hact : ∀ g, act g = laneActing g f op) (hon : ∀ g, uniformOn g f op = on g)
    (hx : ∀ s g t, BitVec.ofNat ty.width (fn (rndAt s g f.rm) (laneIn s g f op none t)) = x s g t) :
    GivesDataOn i f ty.width act on fun s g t => regBits ty (x s g t) := by
  have hp := Ty.width_pos ty
  refine lanes_data i f op (fun r a => extend ty.isSInt ty.width a.r (fn r a)) _ _ on _ hi hrun hw hact hon ?_ ?_ ?_
  · intro s g hu t _
    have hr : (laneIn s g f op none t).r = 64 := by simp [laneIn, hu]
    rw [hr, ofNat_extend_nat _ _ _ hp, hx]; rfl
  · intro s g hu h64 t _
    have hr : (laneIn s g f op none t).r = 64 := by simp [laneIn, hw, h64]
    rw [hr, ofNat_extend_nat _ _ _ hp, hx]; rfl
  · intro s g hu h64 t _
    have hr : (laneIn s g f op none t).r = 32 := by simp [laneIn, hw, h64, hu]
    rw [hr, ofNat_extend_nat _ _ _ hp, hx, narrow_reg]; rfl

theorem packedRound_gives (i : Instr) (f : RArgs) (fn : Rnd → Exact → Exact → Exact → Exact)
    (hi : ∀ s, exec i s = lanes f s (packedRound f fn)) :
    GivesData i f 32 (·.actingPacked f.h) fun s g t =>
        packWord f.h.u g f t (rounded s g f (Ty.fmt f.ty) (fun m => fn m (halfFlt s g f f.a t 0) (halfFlt s g f f.b t 0) (halfFlt s g f f.cs t 0)) (2 * elemOf f t))
          (rounded s g f (Ty.fmt f.ty) (fun m => fn m (halfFlt s g f f.a t 1) (halfFlt s g f f.b t 1) (halfFlt s g f f.cs t 1)) (2 * elemOf f t + 1)) := by
  refine lanes_data_same i f _ (fun rnd i =>
      let el (h : Nat) : Nat := (Ty.fmt f.ty).round (fn (rnd (2 * i.e + h)) (fltVal f.ty (half i.a h)) (fltVal f.ty (half i.b h)) (fltVal f.ty (half i.c h))) (rnd (2 * i.e + h)) (f.x.getLsbD 0)
      packGuarded i.gb i.old (el 0) (el 1)) _ _ _ _ hi (fun _ _ => rfl) rfl (fun _ => rfl) (fun _ => rfl) (fun s g t => ?_)
  simp only []
  rw [packWord_eq _ _ _ _ rfl, show (packedRound f fn).each = false from rfl, Bool.not_false, Bool.and_true]
  simp only [laneIn_e]
  rfl

end Sys2Proof.Machine
end

