-- ==== Sys2Proof/Tests/Slice0.lean ====
section
/-! SUPPORT. The author's tests: an ill-formed term for each decode check, a word written out from R49 to R65 for every constructor
that has an encoding, single steps on a small state, and states that meet the hypotheses of the statements. -/

namespace Sys2Proof.Tests

set_option Elab.async false

open Sys2Proof Sys2Proof.Machine

/-- The header of a word with guard `g`, N, U and S, and no long word. -/
def hd (g : BitVec 3) (n u s : Bool) : Hdr := { g := g, n := n, u := u, safe := s, long := .none }

/-- The fields of an R-form word with every operand field zero. -/
def r (g : BitVec 3) (n u s : Bool) : RArgs :=
  { pfx := none, h := hd g n u s, d := .v 0, a := .v 0, b := .v 0, cs := .v 0, x := 0, rm := 0, ty := .n8 }

/-- Unguarded and per thread; unguarded and uniform. -/
def r0 : RArgs := r 7 false false false
def r1 : RArgs := r 7 false true false

def withLong (f : RArgs) (l : Long) : RArgs := { f with h := { f.h with long := l } }

/-! ### Well-formedness: one ill-formed term for each check, refused -/

def wfAll (l : List Instr) : Bool := l.all Instr.wf
def wfNone (l : List Instr) : Bool := l.all fun i => !i.wf

theorem test_wf_good : wfAll
    [.nop r0, .add { r0 with ty := .n32 }, .cmp { r0 with d := .p 0, cs := .p 1, x := 5 }, .ldU { r1 with d := .s 1, a := .s 2, b := .imm 0 },
     .rett r0, .trap { h := hd 7 false false false, d := .v 0, a := .v 0, b := 0, c := 255 }] = true := by decide +kernel

/-- A reserved field that is not zero; a type, a condition, a modifier and a rounding mode that the row does not allow (R49, R53, R54). -/
theorem test_wf_fields : wfNone
    [.nop { r0 with d := .v 1 }, .add { r0 with ty := .f32 }, .abs { r0 with ty := .n32 }, .madw { r0 with ty := .n64 },
     .cmp { r0 with d := .p 0, cs := .p 1, x := 6 }, .fcmp { r0 with d := .p 0, cs := .p 1, x := 8, ty := .f32 }, .mul { r0 with x := 1 },
     .add { r0 with rm := 1 }, .fadd { r0 with ty := .f32, rm := 5 }, .mmov { r0 with d := .m 0, a := .m 1, ty := .f32, rm := 4 }] = true := by
  decide +kernel

/-- Kinds, odd pairs, special destinations, small immediates of 8-bit floats, reserved specifiers (R55 to R57). -/
theorem test_wf_specs : wfNone
    [.add { r0 with a := .p 0 }, .add { r0 with a := .f 1 }, .add { r0 with a := .m 1 }, .add { r0 with ty := .n64, a := .v 3 },
     .add { r0 with ty := .n64, d := .v 1 }, .add { r0 with d := .special .tid }, .add { r0 with d := .imm 0 }, .fadd { r0 with ty := .f32, a := .special .tid },
     .fclass { r0 with ty := .e4m3, a := .imm 1 }, .add { r0 with a := .reserved 0xB0 }, .barInit { r0 with a := .imm 32, b := .s 0 },
     .ldGl { r0 with d := .v 1, a := .s 0, b := .imm 0, x := 1, ty := .n32 }, .mcload { r0 with d := .s 0, a := .s 1, b := .imm 8 }] = true := by
  decide +kernel

/-- U where it is not accepted, missing, or with a per-thread operand; a scalar D without U (R51). -/
theorem test_wf_uniform : wfNone
    [.nop r1, .ldGl { r1 with d := .v 1, a := .s 0, b := .imm 0, ty := .n32 }, .ldU { r0 with d := .s 1, a := .s 2, b := .imm 0 },
     .add { r1 with d := .s 1, a := .v 2 }, .add { r1 with d := .s 1, a := .special .lane }, .add { r1 with d := .v 1 }, .add { r0 with d := .s 1 }] = true := by
  decide +kernel

/-- Long words: kinds not accepted, IMM32 named twice or not at all, a named immediate without one, COFF, CNT and steps (R58 to R61). -/
theorem test_wf_long : wfNone
    [.nop (withLong r0 (.imm32 0)), .add (withLong r0 (.imm32 0)), .add { r0 with a := .limm }, .add (withLong { r0 with a := .limm, b := .limm } (.imm32 1)),
     .add (withLong r0 (.callback 8)), .trav (withLong r0 (.callback 4)), .trav (withLong r0 (.imm32 8)), .add (withLong { r0 with ty := .n32 } (.sweep 0 0 0 0)),
     .add (withLong { r0 with ty := .n32 } (.sweep 4 1 0 0)), .add (withLong { r0 with ty := .n16 } (.sweep 4 0 0 0)),
     .add (withLong { r1 with ty := .n32, d := .s 1, a := .s 2, b := .s 3 } (.sweep 4 0 0 0)),
     .fma (withLong { r0 with ty := .f32, cs := .s 1 } (.sweep 4 0 0 0)), .madw (withLong { r0 with ty := .n32 } (.sweep 4 0 0 0)),
     .bra { h := { hd 7 false false false with long := .imm32 4 }, d := .v 0, a := .limm, b := 0, c := 0 },
     .bra { h := { hd 7 false false false with long := .imm32 8 }, d := .v 0, a := .limm, b := 0, c := 1 }] = true := by decide +kernel

/-- Prefixes: on an instruction that takes none, reserved values, and combinations that R63 forbids. -/
theorem test_wf_prefix : wfNone
    [.add { r0 with pfx := some { ord := 0, scp := 0, spc := 0, pol := 0 } },
     .ldGl { r0 with a := .s 1, b := .imm 0, pfx := some { ord := 6, scp := 0, spc := 0, pol := 0 } },
     .ldGl { r0 with a := .s 1, b := .imm 0, pfx := some { ord := 0, scp := 7, spc := 0, pol := 0 } },
     .ldGl { r0 with a := .s 1, b := .imm 0, pfx := some { ord := 0, scp := 0, spc := 3, pol := 0 } },
     .ldGl { r0 with a := .s 1, b := .imm 0, pfx := some { ord := 0, scp := 0, spc := 0, pol := 5 } },
     .ldGl { r0 with a := .s 1, b := .imm 0, pfx := some { ord := 3, scp := 0, spc := 0, pol := 0 } },
     .ldGl { r0 with a := .s 1, b := .imm 0, pfx := some { ord := 1, scp := 0, spc := 2, pol := 0 } },
     .ldSp { r0 with a := .s 1, b := .imm 0, pfx := some { ord := 1, scp := 0, spc := 2, pol := 2 } },
     .stGl { r0 with a := .s 1, b := .imm 0, pfx := some { ord := 2, scp := 0, spc := 1, pol := 1 } },
     .prf { r0 with a := .s 1, b := .imm 0, cs := .s 2, pfx := some { ord := 5, scp := 0, spc := 0, pol := 0 } }] = true := by decide +kernel

/-- Checks of single rows: system registers, guards of join and rett, trap codes, window steps, conversions (R77, R89, R128, R327, R336 to R340). -/
theorem test_wf_rows : wfNone
    [.sysr { r0 with d := .s 0, cs := .v 0x0A }, .sysw { r0 with a := .s 0, cs := .v 0x01 }, .sysw { r0 with a := .s 0, cs := .v 0x1A },
     .join (r 3 false false false), .rett (r 7 true false false), .trap { h := hd 7 false false false, d := .v 0, a := .v 0, b := 0, c := 256 },
     .call { h := hd 7 false false false, d := .v 0, a := .v 0, b := 8, c := 0 }, .callx { r0 with a := .s 1, x := 8 },
     .cvt { r0 with cs := .v 0x09, x := 8, ty := .f32 }, .cvt { r0 with cs := .v 0x0E, ty := .f32 }, .fence { r0 with cs := .v 0, x := 3 },
     .barInit { r0 with a := .s 1, b := .s 2, x := 2 }, .atom { r0 with d := .v 1, a := .s 1, b := .imm 0, cs := .v 2, x := 10, ty := .n32 },
     .movi { h := hd 7 false false false, d := .v 0, a := .v 0, b := 0x08, c := 0 }] = true := by decide +kernel

/-! ### Decoding: words written out from the fields of R49, R53 and R65 -/

/-- Each word decodes to its instruction, as one word. -/
def decodes1 (l : List (W64 × Instr)) : Bool := l.all fun p => decode [p.1] == .ok p.2 1

theorem test_decode_control : decodes1
    [(0x00A4000000000000, .nop (r 5 false false true)), (0x0400000490000000, .brx { r 0 false false false with a := .s 9 }),
     (0x08A0000610000500, .callx { r 5 false false false with a := .s 33, x := 5 }),
     (0x0A040007C0000000, .ret { r 0 false false true with a := .s 60 }), (0x0CE4000000000000, .join (r 7 false false true)),
     (0x1020000000000000, .exit (r 1 false false false))] = true := by decide +kernel

theorem test_decode_int : decodes1
    [(0x20C000102FF00105, .add { r 6 false false false with d := .v 1, a := .v 2, b := .imm 63, x := 1, ty := .i16 }),
     (0x2064104060892B03, .addc { r 3 false false true with d := .v 4, a := .v 6, b := .v 8, cs := .p 2, x := 11, ty := .n64 }),
     (0x2008243444500003, .sub { r 0 false true false with d := .s 3, a := .s 4, b := .s 5, ty := .n64 }),
     (0x2054305060791302, .subb { r 2 true false true with d := .v 5, a := .v 6, b := .v 7, cs := .p 1, x := 3, ty := .n32 }),
     (0x224400AA00C00000, .mul { r 2 false false true with d := .v 10, a := .special .tid, b := .v 12 }),
     (0x2240102040600007, .mulhi { r 2 false false false with d := .v 2, a := .v 4, b := .v 6, ty := .i64 }),
     (0x22A020D0E0F10002, .mad { r 5 false false false with d := .v 13, a := .v 14, b := .v 15, cs := .v 16, ty := .n32 }),
     (0x2204314151618006, .madw { r 0 false false true with d := .v 20, a := .v 21, b := .v 22, cs := .v 24, ty := .i32 }),
     (0x24D4001020300004, .min { r 6 true false true with d := .v 1, a := .v 2, b := .v 3, ty := .i8 }),
     (0x24F4101020300001, .max { r 7 true false true with d := .v 1, a := .v 2, b := .v 3, ty := .n16 }),
     (0x2460228290000106, .abs { r 3 false false false with d := .v 40, a := .v 41, x := 1, ty := .i32 }),
     (0x243432A2C0000007, .neg { r 1 true false true with d := .v 42, a := .v 44, ty := .i64 }),
     (0x26B4007080900002, .and { r 5 true false true with d := .v 7, a := .v 8, b := .v 9, ty := .n32 }),
     (0x2624107080900001, .or { r 1 false false true with d := .v 7, a := .v 8, b := .v 9, ty := .n16 }),
     (0x2650207080900000, .xor { r 2 true false false with d := .v 7, a := .v 8, b := .v 9 }),
     (0x26F0307080000002, .not { r 7 true false false with d := .v 7, a := .v 8, ty := .n32 }),
     (0x263443F3E3D00002, .andn { r 1 true false true with d := .v 63, a := .v 62, b := .v 61, ty := .n32 })] = true := by decide +kernel

theorem test_decode_shift : decodes1
    [(0x28B400102C500002, .shl { r 5 true false true with d := .v 1, a := .v 2, b := .imm 5, ty := .n32 }),
     (0x2824101020300001, .shr { r 1 false false true with d := .v 1, a := .v 2, b := .v 3, ty := .n16 }),
     (0x28E0201020300006, .sar { r 7 false false false with d := .v 1, a := .v 2, b := .v 3, ty := .i32 }),
     (0x2894302040600003, .rot { r 4 true false true with d := .v 2, a := .v 4, b := .v 6, ty := .n64 }),
     (0x2AD0001020300006, .bfx { r 6 true false false with d := .v 1, a := .v 2, b := .v 3, ty := .i32 }),
     (0x2AF0101020304002, .bfi { r 7 true false false with d := .v 1, a := .v 2, b := .v 3, cs := .v 4, ty := .n32 }),
     (0x2C30001020000002, .popc { r 1 true false false with d := .v 1, a := .v 2, ty := .n32 }),
     (0x2C70101020000000, .clz { r 3 true false false with d := .v 1, a := .v 2 }),
     (0x2C74201020000001, .ctz { r 3 true false true with d := .v 1, a := .v 2, ty := .n16 }),
     (0x2CE0302040000003, .brev { r 7 false false false with d := .v 2, a := .v 4, ty := .n64 }),
     (0x2EF4093020394506, .cmp { r 7 true false true with d := .p 3, a := .v 2, b := .v 3, cs := .p 4, x := 5, ty := .i32 }),
     (0x3054001020395008, .sel { r 2 true false true with d := .v 1, a := .v 2, b := .v 3, cs := .p 5, ty := .f32 }),
     (0x32D40129B0000003, .mov { r 6 true false true with d := .v 18, a := .f 3, ty := .n64 }),
     (0x34600145E0500706, .lea { r 3 false false false with d := .v 20, a := .s 30, b := .v 5, x := 7, ty := .i32 })] = true := by decide +kernel

theorem test_decode_lane : decodes1
    [(0x3640009910000300, .vote { r 2 false false false with d := .v 9, a := .p 1, x := 3 }),
     (0x36641090AC100208, .shf { r 3 false false true with d := .v 9, a := .v 10, b := .imm 1, x := 2, ty := .f32 }),
     (0x3654290919200600, .prd { r 2 true false true with d := .p 0, a := .p 1, b := .p 2, x := 6 }),
     (0x360439091C200200, .prmov { r 0 false false true with d := .p 0, a := .p 1, b := .imm 2, x := 2 }),
     (0x38B0016510000003, .s2v { r 5 true false false with d := .v 22, a := .s 17, ty := .n64 }),
     (0x381415103C400006, .v2s { r 0 true false true with d := .s 17, a := .v 3, b := .imm 4, ty := .i32 })] = true := by decide +kernel

theorem test_decode_float : decodes1
    [(0x40D400102C30018A, .fadd { r 6 true false true with d := .v 1, a := .v 2, b := .imm 3, x := 1, rm := 4, ty := .bf16 }),
     (0x4034101020300028, .fsub { r 1 true false true with d := .v 1, a := .v 2, b := .v 3, rm := 1, ty := .f32 }),
     (0x4000201020300049, .fmul { r 0 false false false with d := .v 1, a := .v 2, b := .v 3, rm := 2, ty := .f16 }),
     (0x4070301020304168, .fma { r 3 true false false with d := .v 1, a := .v 2, b := .v 3, cs := .v 4, x := 1, rm := 3, ty := .f32 }),
     (0x4230001020300108, .fmin { r 1 true false false with d := .v 1, a := .v 2, b := .v 3, x := 1, ty := .f32 }),
     (0x4228141424300008, .fmax { r 1 false true false with d := .s 1, a := .s 2, b := .s 3, ty := .f32 }),
     (0x4430091020392709, .fcmp { r 1 true false false with d := .p 1, a := .v 2, b := .v 3, cs := .p 2, x := 7, ty := .f16 }),
     (0x4624001020000068, .frnd { r 1 false false true with d := .v 1, a := .v 2, rm := 3, ty := .f32 }),
     (0x4654101020300108, .fscale { r 2 true false true with d := .v 1, a := .v 2, b := .v 3, x := 1, ty := .f32 }),
     (0x46B020102000000C, .fclass { r 5 true false false with d := .v 1, a := .v 2, ty := .e5m2 }),
     (0x4834001020009406, .cvt { r 1 true false true with d := .v 1, a := .v 2, cs := .v 9, x := 4, ty := .i32 }),
     (0x48F410102000828A, .srnd { r 7 true false true with d := .v 1, a := .v 2, cs := .v 8, x := 2, rm := 4, ty := .bf16 }),
     (0x4A20001020000028, .rcp { r 1 false false false with d := .v 1, a := .v 2, rm := 1, ty := .f32 }),
     (0x4AB4101020000008, .rsq { r 5 true false true with d := .v 1, a := .v 2, ty := .f32 }),
     (0x4A40201020000049, .sqrt { r 2 false false false with d := .v 1, a := .v 2, rm := 2, ty := .f16 }),
     (0x4AA0301020000008, .ex2 { r 5 false false false with d := .v 1, a := .v 2, ty := .f32 }),
     (0x4A84401020000008, .lg2 { r 4 false false true with d := .v 1, a := .v 2, ty := .f32 }),
     (0x4AA4501020000008, .sin { r 5 false false true with d := .v 1, a := .v 2, ty := .f32 }),
     (0x4A70601020000008, .cos { r 3 true false false with d := .v 1, a := .v 2, ty := .f32 })] = true := by decide +kernel

theorem test_decode_packed : decodes1
    [(0x4C6400102030010F, .hadd2 { r 3 false false true with d := .v 1, a := .v 2, b := .v 3, x := 1, ty := .f16x2 }),
     (0x4C64101020300030, .hmul2 { r 3 false false true with d := .v 1, a := .v 2, b := .v 3, rm := 1, ty := .bf16x2 }),
     (0x4CA020102030404F, .hfma2 { r 5 false false false with d := .v 1, a := .v 2, b := .v 3, cs := .v 4, rm := 2, ty := .f16x2 }),
     (0x4C9430102030010F, .hmin2 { r 4 true false true with d := .v 1, a := .v 2, b := .v 3, x := 1, ty := .f16x2 }),
     (0x4C74401020300010, .hmax2 { r 3 true false true with d := .v 1, a := .v 2, b := .v 3, ty := .bf16x2 }),
     (0x4CB059102039660F, .hcmp2 { r 5 true false false with d := .p 1, a := .v 2, b := .v 3, cs := .p 6, x := 6, ty := .f16x2 }),
     (0x4C60601020304090, .dot2 { r 3 false false false with d := .v 1, a := .v 2, b := .v 3, cs := .v 4, rm := 4, ty := .bf16x2 })] = true := by decide +kernel

theorem test_decode_memory : decodes1
    [(0x60E4004490300208, .ldGl { r 7 false false true with d := .v 4, a := .s 9, b := .v 3, x := 2, ty := .f32 }),
     (0x627000049C006102, .stGl { r 3 true false false with a := .s 9, b := .imm 0, cs := .v 6, x := 1, ty := .n32 }),
     (0x64F000506C000000, .ldSp { r 7 true false false with d := .v 5, a := .v 6, b := .imm 0 }),
     (0x6630000490608003, .stSp { r 1 true false false with a := .s 9, b := .v 6, cs := .v 8, ty := .n64 }),
     (0x68E400402C000005, .ldg { r 7 false false true with d := .v 4, a := .v 2, b := .imm 0, ty := .i16 }),
     (0x6AA400002C00700B, .stg { r 5 false false true with a := .v 2, b := .imm 0, cs := .v 7, ty := .e4m3 }),
     (0x6CF804344C000003, .ldU { r 7 true true false with d := .s 3, a := .s 4, b := .imm 0, ty := .n64 }),
     (0x6E4800044C045002, .stU { r 2 false true false with a := .s 4, b := .imm 0, cs := .s 5, ty := .n32 }),
     (0x700400044C045000, .prf { r 0 false false true with a := .s 4, b := .imm 0, cs := .s 5 }),
     (0x705410044C046000, .dsc { r 2 true false true with a := .s 4, b := .imm 0, cs := .s 6 }),
     (0x704020044C047000, .wbk { r 2 false false false with a := .s 4, b := .imm 0, cs := .s 7 }),
     (0x720009144C005002, .qpush { r 0 false false false with d := .p 1, a := .s 4, b := .imm 0, cs := .v 5, ty := .n32 }),
     (0x72C010844C092103, .qpop { r 6 false false false with d := .v 8, a := .s 4, b := .imm 0, cs := .p 2, x := 1, ty := .n64 })] = true := by decide +kernel

theorem test_decode_sync : decodes1
    [(0x8010002440508703, .atom { r 0 true false false with d := .v 2, a := .s 4, b := .v 5, cs := .v 8, x := 7, ty := .n64 }),
     (0x8284000440506208, .red { r 4 false false true with a := .s 4, b := .v 5, cs := .v 6, x := 2, ty := .f32 }),
     (0x829010004C006006, .redDet { r 4 true false false with a := .v 4, b := .imm 0, cs := .v 6, ty := .i32 }),
     (0x8414000000000000, .aflush (r 0 true false true)),
     (0x86C0000440000400, .bredClr { r 6 false false false with a := .s 4, x := 4 }),
     (0x8610041440500108, .bredCode { r 0 true false false with d := .s 1, a := .s 4, b := .v 5, x := 1, ty := .f32 }),
     (0x8600041440500608, .bredAdd { r 0 false false false with d := .s 1, a := .s 4, b := .v 5, x := 6, ty := .f32 }),
     (0x8650001440000300, .bredGet { r 2 true false false with d := .v 1, a := .s 4, x := 3 }),
     (0x8814000000004500, .fence { r 0 true false true with cs := .v 4, x := 5 }),
     (0x8A20000C34900000, .barInit { r 1 false false false with a := .imm 3, b := .s 9 }),
     (0x8A70142430000100, .barArrive { r 3 true false false with d := .s 2, a := .s 3, x := 1 }),
     (0x8A3020043C700300, .barExpect { r 1 true false false with a := .s 3, b := .imm 7, x := 3 }),
     (0x8A3434143FF00900, .barWait { r 1 true false true with d := .s 1, a := .s 3, b := .imm 63, x := 9 }),
     (0x8A74491C24344000, .barTest { r 3 true false true with d := .p 1, a := .imm 2, b := .s 3, cs := .s 4 }),
     (0x8AE4500430000100, .barInval { r 7 false false true with a := .s 3, x := 1 })] = true := by decide +kernel

theorem test_decode_copy : decodes1
    [
     (0x987004142D0C3102, .cpy { r 3 true false false with d := .s 1, a := .s 2, b := .imm 16, cs := .imm 3, x := 1, ty := .n32 }),
     (0x98C40004200C3C00, .cpyDesc { r 6 false false true with a := .s 2, cs := .imm 3, x := 12 }),
     (0x98F01C4FF4546209, .cpyFill { r 7 true false false with d := .imm 4, a := .imm 63, b := .s 5, cs := .s 6, x := 2, ty := .f16 }),
     (0x9A700004200C3008, .cpyTopk { r 3 true false false with a := .s 2, cs := .imm 3, ty := .f32 }),
     (0x9A701004200C300A, .cpyExpand { r 3 true false false with a := .s 2, cs := .imm 3, ty := .bf16 }),
     (0x9C500C24300C4100, .cpySub { r 2 true false false with d := .imm 2, a := .s 3, cs := .imm 4, x := 1 }),
     (0x9C84142000000000, .cpyUnsub { r 4 false false true with d := .s 2 }),
     (0x9E64000000043000, .cpyCancel { r 3 false false true with cs := .s 3 }),
     (0xA0E0000C24300000, .stgRsv { r 7 false false false with a := .imm 2, b := .s 3 }),
     (0xA054100420000000, .stgRel { r 2 true false true with a := .s 2 }),
     (0xA0B02C7C0C000100, .stgCb { r 5 true false false with d := .imm 7, a := .imm 0, b := .imm 0, x := 1 }),
     (0xA2B0000C2C300000, .rngAdvProd { r 5 true false false with a := .imm 2, b := .imm 3 }),
     (0xA2A4000C24300100, .rngAdvCons { r 5 false false true with a := .imm 2, b := .s 3, x := 1 }),
     (0xA2F0141C20000000, .rngTake { r 7 true false false with d := .s 1, a := .imm 2 })] = true := by decide +kernel

theorem test_decode_matrix : decodes1
    [(0xA4D400005C000000, .gang { r 6 true false true with a := .v 5, b := .imm 0 }),
     (0xA62008182C30A208, .mma { r 1 false false false with d := .m 1, a := .m 2, b := .imm 3, cs := .v 10, x := 2, ty := .f32 }),
     (0xA6241C1C2430B308, .mmaBlk { r 1 false false true with d := .imm 1, a := .imm 2, b := .s 3, cs := .v 11, x := 3, ty := .f32 }),
     (0xA88008300000000A, .mzero { r 4 false false false with d := .m 3, ty := .bf16 }),
     (0xA88418441C042108, .mld { r 4 false false true with d := .m 4, a := .s 1, b := .imm 0, cs := .s 2, x := 1, ty := .f32 }),
     (0xA890284C0C0C0069, .mst { r 4 true false false with d := .m 4, a := .imm 0, b := .imm 0, cs := .imm 0, rm := 3, ty := .f16 }),
     (0xA8F038586000002C, .mmov { r 7 true false false with d := .m 5, a := .m 6, rm := 1, ty := .e5m2 }),
     (0xAA80000000000000, .mfenceOp (r 4 false false false)),
     (0xAAC4100000000500, .mwait { r 6 false false true with x := 5 })] = true := by decide +kernel

theorem test_decode_lowrank : decodes1
    [
     (0xAC040814243C4108, .mlrSet { r 0 false false true with d := .m 1, a := .s 2, b := .s 3, cs := .imm 4, x := 1, ty := .f32 }),
     (0xAC2018142430000A, .mlrGet { r 1 false false false with d := .m 1, a := .s 2, b := .s 3, ty := .bf16 }),
     (0xAC84241820000000, .mlrInfo { r 4 false false true with d := .s 1, a := .m 2 }),
     (0xAE14081828300308, .mlrMul { r 0 true false true with d := .m 1, a := .m 2, b := .m 3, x := 3, ty := .f32 }),
     (0xAE8018182830070A, .mlrMuld { r 4 false false false with d := .m 1, a := .m 2, b := .m 3, x := 7, ty := .bf16 }),
     (0xB060081828300008, .mlrAdd { r 3 false false false with d := .m 1, a := .m 2, b := .m 3, ty := .f32 }),
     (0xB080181824300108, .mlrScl { r 4 false false false with d := .m 1, a := .m 2, b := .s 3, x := 1, ty := .f32 }),
     (0xB274081824300008, .mlrRcmp { r 3 true false true with d := .m 1, a := .m 2, b := .s 3, ty := .f32 }),
     (0xB27418182C90020A, .mlrTrunc { r 3 true false true with d := .m 1, a := .m 2, b := .imm 9, x := 2, ty := .bf16 }),
     (0xB25428182440000A, .mlrFact { r 2 true false true with d := .m 1, a := .m 2, b := .s 4, ty := .bf16 }),
     (0xB410081820000308, .mlrDense { r 0 true false false with d := .m 1, a := .m 2, x := 3, ty := .f32 })] = true := by decide +kernel

theorem test_decode_task : decodes1
    [(0xB800099420400000, .fspawn { r 0 false false false with d := .f 1, a := .s 2, b := .v 4 }),
     (0xB8E419A430000100, .launch { r 7 false false true with d := .f 2, a := .s 3, x := 1 }),
     (0xB83420043C000000, .binSet { r 1 true false true with a := .s 3, b := .imm 0 }),
     (0xBAD00999A0000000, .fref { r 6 true false false with d := .f 1, a := .f 2 }),
     (0xBA701009B0000000, .fdrop { r 3 true false false with a := .f 3 }),
     (0xBA5420004C09D000, .fstm { r 2 true false true with a := .v 4, b := .imm 0, cs := .f 5 }),
     (0xBA0039E47C000000, .fldm { r 0 false false false with d := .f 6, a := .s 7, b := .imm 0 }),
     (0xBA3449F000000000, .fself { r 1 true false true with d := .f 7 }),
     (0xBC40004990092100, .fwait { r 2 false false false with d := .v 4, a := .f 1, cs := .p 2, x := 1 }),
     (0xBCD01069A0093000, .fpoll { r 6 true false false with d := .v 6, a := .f 2, cs := .p 3 }),
     (0xBC84200080000000, .fput { r 4 false false true with a := .v 8 }),
     (0xBC4430041C000000, .yield { r 2 false false true with a := .s 1, b := .imm 0 }),
     (0xBEE4000000000000, .fhold (r 7 false false true)), (0xBEB4100000000000, .frel (r 5 true false true))] = true := by decide +kernel

theorem test_decode_macro : decodes1
    [(0xC064000000000300, .trav { r 3 false false true with x := 3 }), (0xC270000000000000, .tacc (r 3 true false false)),
     (0xC214100000000000, .trej (r 0 true false true)), (0xC434000000000000, .rast (r 1 true false true)),
     (0xC660000690000200, .filt { r 3 false false false with a := .s 41, x := 2 }),
     (0xC8300006A0000100, .blnd { r 1 true false false with a := .s 42, x := 1 }),
     (0xCA5000102C344008, .sobol { r 2 true false false with d := .v 1, a := .v 2, b := .imm 3, cs := .s 4, ty := .f32 })] = true := by decide +kernel

theorem test_decode_system : decodes1
    [(0xE2E4000000000000, .rett (r 7 false false true)),
     (0xE414078000012000, .sysr { r 0 true false true with d := .s 56, cs := .v 18 }),
     (0xE460100790010000, .sysw { r 3 false false false with a := .s 57, cs := .v 16 }),
     (0xE4D410043001A000, .syswMemdef { r 6 true false true with a := .s 3, cs := .v 26 }),
     (0xE450100430008000, .syswTvec { r 2 true false false with a := .s 3, cs := .v 8 }),
     (0xE610000545500200, .tlbInv { r 0 true false false with a := .s 20, b := .s 21, x := 2 }),
     (0xE80004142C700000, .mcload { r 0 false false false with d := .s 1, a := .s 2, b := .imm 7 }),
     (0xEA00000000000100, .halt { r 0 false false false with x := 1 }), (0xECA4000000000000, .brkpt (r 5 false false true))] = true := by decide +kernel


/-- The I-form rows: the signed offset in C, n in B, the constants. -/
theorem test_decode_iform : decodes1
    [(0x02000000000FFFFE, .bra { h := hd 0 false false false, d := .v 0, a := .v 0, b := 0, c := 0xFFFFE }),
     (0x06F0000000700010, .call { h := hd 7 true false false, d := .v 0, a := .v 0, b := 7, c := 0x10 }),
     (0x0E60045000012345, .loop { h := hd 3 false false false, d := .s 5, a := .v 0, b := 0, c := 0x12345 }),
     (0x32E01010006FFFFF, .movi { h := hd 7 false false false, d := .v 1, a := .v 0, b := 6, c := 0xFFFFF }),
     (0x32E824400070000F, .movhi { h := hd 7 false true false, d := .s 4, a := .v 0, b := 7, c := 0xF }),
     (0xE0E0000000000005, .trap { h := hd 7 false false false, d := .v 0, a := .v 0, b := 0, c := 5 })] = true := by decide +kernel

/-- Long words, a prefix and a microcode slot: the second word holds the 32-bit constant; the prefix comes first (R58, R62, R64). -/
theorem test_decode_words :
    [decode [0x33E8044BF0000103, 0x89ABCDEF], decode [0x0340000BF0000000, 0x10], decode [0x21E000102BF00002, 0x80000000],
     decode [0xD6B55123456789AB], decode [0xFE0000000000028C, 0x60E000449C000008]] ==
    [.ok (.movHi (withLong { r 7 false true false with d := .s 4, a := .limm, x := 1, ty := .n64 } (.imm32 0x89ABCDEF))) 2,
     .ok (.bra { h := { hd 2 false false false with long := .imm32 0x10 }, d := .v 0, a := .limm, b := 0, c := 0 }) 2,
     .ok (.add (withLong { r0 with d := .v 1, a := .v 2, b := .limm, ty := .n32 } (.imm32 0x80000000))) 2,
     .ok (.mcx { slot := 3, g := 5, n := true, u := false, safe := true, fn := 0x15, d := 0x12, a := 0x34, b := 0x56, c := 0x789AB, long := none }) 1,
     .ok (.ldGl { r0 with pfx := some { ord := 2, scp := 4, spc := 1, pol := 4 }, d := .v 4, a := .s 9, b := .imm 0, ty := .f32 }) 2] := by decide +kernel

/-! ### A small state -/

/-- A machine whose one TG, of a system context, has the turn, as State.withFetchWord builds it; its first GiB of addresses is mapped. -/
def base : State := { State.reset.withFetchWord 0 0 with cur := 2 ^ 30, agenda := [] }

/-- Its TG, written out. -/
def tg0 : Tg :=
  { ctx := 1, launch := 1, crew := 2 ^ 26, num := 0, idx := 0, crewNum := 0, core := 0, sub := 0, resident := true, order := 0, pc := 0x10000
    mask := BitVec.allOnes 96, xmask := 0, v := [], s := [(2, 1)], p := [], f := [], reconv := { core := [], depth := 0, rspill := 0x180000 }
    win := { k := 256, wbase := 0, wlo := 0, wneed := 0, wspill := 0x100000, wtlim := 170 }
    trap := { tpc := 0, tcause := 0, taddr := 0, ttid := 0, tam := 0, twbase := 0, tvec := 0x30000, tstat := false }
    mode := { memdef := 0x189, srseq := 0, gmask := 0, rankcap := 63, mtol := 0, rmode := false }
    task := { tgdl := 0, tgbud := 0xFFFFFFFF, spdone := 0, inlbase := 0x800000, inldepth := 4, ffail := 0 }
    threads := List.replicate 96 { own := 0, depth := 0, srec := .none, hold := false }
    frames := [], share := [], flushSeq := 0, stores := [], seen := [], reads := [], fences := [], sliceEnd := false, wait := .ready, mac := none, mcOld := [], budget := false, budgetTaken := false
    budgetForced := false, forced := false, preempt := false, held := false, sinceSafe := 0, slot := none, ending := .none, gangBad := false
    faultInval := none, linkLost := false, late := [], readyAt := 0 }

/-- `base` with another TG in its place. -/
def st (g : Tg) : State := base.setTg (2 ^ 30) g

theorem base_tg : base.tg base.cur = some tg0 := by decide +kernel
theorem st_tg (g : Tg) : (st g).tg (2 ^ 30) = some g := SMap.find_put_self ..
theorem issues_st (g : Tg) (h : g.mask ≠ 0) : (st g).Issues g := ⟨st_tg g, h⟩
/-- Thread 0 alone. -/
def alone (g : Tg) : Tg := { g with mask := 1 }

theorem has_one {t : Nat} (ht : t < 96) (h : Mask.has 1 t = true) : t = 0 := by
  have : ∀ t, t < 96 → Mask.has 1 t = true → t = 0 := by decide +kernel
  exact this t ht h

theorem issues0 : (st tg0).Issues tg0 := issues_st _ (by decide +kernel)

/-- A TG with some scalars set. -/
def withS (l : List (Nat × W64)) (g : Tg) : Tg := l.foldl (fun g p => g.setS p.1 p.2) g

/-- p0 true in threads 0 to 47. -/
def half0 (g : Tg) : Tg := { g with p := SMap.set [] g.p 0 (Row.tab fun t => if t < 48 then 15 else 0) }

/-- A per-thread and a uniform form of class 0x10 to 0x2F. -/
def vForm (ty : Ty) : RArgs := { r0 with d := .v 63, a := .v 0, b := .v 2, cs := .v 4, ty := ty }
def sForm (ty : Ty) : RArgs := { r1 with d := .s 60, a := .s 0, b := .imm 63, cs := .s 3, ty := ty }

/-- The hypotheses that the statements of `GivesData` make of the state, the TG and the form. -/
def DataHyps (s : State) (g : Tg) (f : RArgs) : Prop :=
  s.Issues g ∧ Long.isSweep f.h.long = false ∧ ((f.h.u = false ∧ ∃ n, f.d = .v n) ∨ (f.h.u = true ∧ ∃ n, f.d = .s n))

theorem data_v (ty : Ty) : DataHyps (st tg0) tg0 (vForm ty) := ⟨issues0, rfl, .inl ⟨rfl, 63, rfl⟩⟩
theorem data_s (ty : Ty) : DataHyps (st tg0) tg0 (sForm ty) := ⟨issues0, rfl, .inr ⟨rfl, 60, rfl⟩⟩

/-! ### Hypotheses of the statements are met: encoding and control -/

theorem witness_DecodeOfEncodeIsIdentity : (Instr.nop r0).wf = true ∧ encode (.nop r0) = some [0x00E0000000000000] := by decide +kernel

theorem witness_EncodeOfDecodeIsIdentity : decode [0x00E0000000000000, 5] = .ok (.nop r0) 1 := by decide +kernel

theorem witness_NopHasNoEffect : (st tg0).tg (st tg0).cur = some tg0 := st_tg tg0

/-- A forward branch of one word, and one with a long word. -/
def bra (g : BitVec 3) (c : BitVec 20) : IArgs := { h := hd g false false false, d := .v 0, a := .v 0, b := 0, c := c }
def entry (pc : W64) : ReconvEntry := { m := BitVec.allOnes 96, p := 1, pc := pc }
def stacked (l : List ReconvEntry) (g : Tg) : Tg := { g with reconv := { g.reconv with core := l, depth := l.length } }

/-- No thread, every thread, some threads with a new entry (31 entries before it), and some with the entry of the target. -/
theorem witness_BraBranchesOrDiverges :
    let f := bra 0 0xFFFFF
    let full := stacked (List.replicate 31 (entry 8)) (half0 tg0)
    (st tg0).Issues tg0 ∧ IsTarget f tg0.pc 0xFFF8 ∧ tg0.acting f.h = 0 ∧
    tg0.acting (hd 7 false false false) = tg0.mask ∧
    (st full).Issues full ∧ full.acting f.h ≠ 0 ∧ full.acting f.h ≠ full.mask ∧ full.reconv.Room ∧
    (∀ e, full.reconv.core.head? = some e → e.pc ≠ 0xFFF8) ∧
    ∃ e l, (stacked [entry 0xFFF8] (half0 tg0)).reconv.core = e :: l ∧ e.pc = 0xFFF8 :=
  ⟨issues0, .inl ⟨rfl, by decide +kernel⟩, by decide +kernel, by decide +kernel, issues_st _ (by decide +kernel), by decide +kernel,
    by decide +kernel, ⟨by decide +kernel, by decide +kernel⟩, by decide +kernel, _, _, rfl, rfl⟩

theorem lowest0 : tg0.mask.lowest = some 0 := by decide +kernel

/-- Every thread to one target; and thread 0 alone to a target of its own. -/
theorem witness_BrxRunsOneTargetGroup :
    let f : RArgs := { r0 with a := .v 2 }
    let g : Tg := { tg0 with v := SMap.set [] tg0.v 2 (Row.tab fun t => if t = 0 then 0x20000 else 0x20008) }
    (∀ t, t < 96 → (tg0.acting f.h).has t = true → LegalTarget (brxTarget tg0 f t)) ∧
    (∀ t, t < 96 → tg0.mask.has t = (tg0.mask.has t && decide (brxTarget tg0 f t = brxTarget tg0 f 0))) ∧
    (st g).Issues g ∧ g.mask.lowest = some 0 ∧
    (∀ t, t < 96 → (g.acting f.h).has t = true → (brxTarget g f t).extractLsb' 0 3 = 0 ∧ (brxTarget g f t).extractLsb' 57 7 = 0) ∧
    (∀ t, t < 96 → (1 : Mask).has t = (g.mask.has t && decide (brxTarget g f t = brxTarget g f 0))) ∧
    (1 : Mask) ≠ g.mask ∧ (∀ e, g.reconv.core.head? = some e → e.pc ≠ g.pc) ∧ g.reconv.Room ∧
    ∃ e l, (stacked [entry 0x10000] g).reconv.core = e :: l ∧ e.pc = g.pc := by
  refine ⟨?_, by decide +kernel, issues_st _ (by decide +kernel), by decide +kernel, by decide +kernel, by decide +kernel, by decide +kernel,
    by decide +kernel, ⟨by decide +kernel, by decide +kernel⟩, _, _, rfl, rfl⟩
  intro t _ _
  exact ⟨by decide +kernel +revert, by decide +kernel +revert⟩

/-- Window steps that just fit, of 0 and of 24 registers; tg0 has 256 resident registers and WTLIM 170. -/
theorem witness_CallMovesTheWindow :
    let f : IArgs := { bra 7 1 with b := 7 }
    let g := { withS [(9, 0x1FFFFFFFFFFFFF8)] tg0 with win := { tg0.win with wbase := 256 + 170 - 64, wlo := 170 } }
    (st tg0).Issues tg0 ∧ IsTarget f tg0.pc 0x10008 ∧ tg0.once f.h ≠ none ∧
    tg0.win.wbase.toNat + 8 * f.b.toNat + 64 ≤ min 65536 (tg0.win.wtlim.toNat + tg0.win.k) ∧
    tg0.win.wbase.toNat + 8 * f.b.toNat + 64 ≤ tg0.win.wlo.toNat + tg0.win.k ∧
    (st g).Issues g ∧ g.once r0.h ≠ none ∧ LegalTarget (g.sAt 9) ∧
    g.win.wbase.toNat + 8 * r0.x.toNat + 64 = min 65536 (g.win.wtlim.toNat + g.win.k) ∧
    g.win.wbase.toNat + 8 * r0.x.toNat + 64 = g.win.wlo.toNat + g.win.k :=
  ⟨issues0, .inl ⟨rfl, by decide +kernel⟩, by decide +kernel, by decide +kernel, by decide +kernel, issues_st _ (by decide +kernel),
    by decide +kernel, ⟨by decide +kernel, by decide +kernel⟩, by decide +kernel, by decide +kernel⟩

/-- Eight registers above the talus; and eight above the resident registers, still within the talus; a legal target in s9, and targets of
thread 2 with bit 0 and with bit 57. -/
theorem witness_CallWindowTraps :
    let f : IArgs := { bra 7 1 with b := 1 }
    let g := { tg0 with win := { tg0.win with wbase := 256 + 170 - 64, wlo := 170 } }
    let k := { tg0 with win := { tg0.win with wbase := 256 - 64 } }
    (st g).Issues g ∧ g.once f.h = some 0 ∧ min 65536 (g.win.wtlim.toNat + g.win.k) < g.win.wbase.toNat + 8 * f.b.toNat + 64 ∧
    (st k).Issues k ∧ k.win.wbase.toNat + 8 * f.b.toNat + 64 ≤ min 65536 (k.win.wtlim.toNat + k.win.k) ∧
    k.win.wlo.toNat + k.win.k < k.win.wbase.toNat + 8 * f.b.toNat + 64 ∧
    (let x (a : W64) : W64 := (withS [(9, a)] k).sAt 9;
      LegalTarget (x 0x1FFFFFFFFFFFFF8) ∧ (x 1).extractLsb' 0 3 ≠ 0 ∧ (x (2 ^ 57)).extractLsb' 0 3 = 0 ∧ (x (2 ^ 57)).extractLsb' 57 7 ≠ 0) ∧
    (let b : RArgs := { r0 with a := .v 2 };
      let at' (lo hi : W32) : Tg := { tg0 with v := [2, 3].foldl (fun v n => SMap.set [] v n
        (Row.tab fun t => if t = 2 then (if n = 2 then lo else hi) else 0)) tg0.v };
      let ts (g : Tg) : List (Nat × W64) := (g.acting b.h).threads.map fun u => (u, brxTarget g b u);
      FirstBad (ts (at' 1 0)) (fun p => p.2.extractLsb' 0 3 ≠ 0) (2, 1) ∧ (∀ q ∈ ts (at' 0 (2 ^ 25)), q.2.extractLsb' 0 3 = 0) ∧
      FirstBad (ts (at' 0 (2 ^ 25))) (fun p => p.2.extractLsb' 57 7 ≠ 0) (2, 2 ^ 57)) :=
  ⟨issues_st _ (by decide +kernel), by decide +kernel, by decide +kernel, issues_st _ (by decide +kernel), by decide +kernel, by decide +kernel,
    ⟨⟨by decide +kernel, by decide +kernel⟩, by decide +kernel⟩, ⟨[(0, 0), (1, 0)], (List.range 93).map fun k => (k + 3, 0), by decide +kernel, by decide +kernel,
      by decide +kernel⟩, by decide +kernel, ⟨[(0, 0), (1, 0)], (List.range 93).map fun k => (k + 3, 0), by decide +kernel, by decide +kernel, by decide +kernel⟩⟩

/-- A step of 0, of exactly what WLO leaves, of 8 more, and a link outside the addresses. -/
theorem witness_RetReturnsThroughTheLink :
    let f : RArgs := { r0 with a := .s 60 }
    let g := withS [(60, 0x10001)] { tg0 with win := { tg0.win with wbase := 16, wlo := 8 } }
    let k := withS [(60, 0x10007)] g
    let x := withS [(60, 0x0200000000000000)] g
    (st g).Issues g ∧ f.a = .s 60 ∧ g.once f.h = some 0 ∧ (g.sAt 60).extractLsb' 57 7 = 0 ∧
    g.win.wlo.toNat + 8 * ((g.sAt 60).toNat % 8) = g.win.wbase.toNat ∧
    8 * ((k.sAt 60).toNat % 8) ≠ 0 ∧ k.win.wbase.toNat < k.win.wlo.toNat + 8 * ((k.sAt 60).toNat % 8) ∧ (x.sAt 60).extractLsb' 57 7 ≠ 0 :=
  ⟨issues_st _ (by decide +kernel), rfl, by decide +kernel, by decide +kernel, by decide +kernel, by decide +kernel, by decide +kernel, by decide +kernel⟩

/-- An empty stack; an entry with parked threads elsewhere; one whose threads are all here, at the deepest stack of the core. -/
theorem witness_JoinResumesOrPops :
    let e := entry 0x20000
    let g := stacked [e] tg0
    let k := stacked (List.replicate 32 { e with p := 0 }) tg0
    (st tg0).Issues tg0 ∧ tg0.reconv.core = [] ∧ (st g).Issues g ∧ e.p &&& ~~~g.xmask ≠ 0 ∧ e.pc ≠ g.pc ∧
    (st k).Issues k ∧ k.reconv.depth = 32 ∧ ({ e with p := 0 } : ReconvEntry).p &&& ~~~k.xmask = 0 :=
  ⟨issues0, by decide +kernel, issues_st _ (by decide +kernel), by decide +kernel, by decide +kernel, issues_st _ (by decide +kernel),
    by decide +kernel, by decide +kernel⟩

theorem witness_LoopCountsDown :
    let f : IArgs := { bra 7 0xFFFFF with d := .s 60 }
    (st tg0).Issues tg0 ∧ f.d = .s 60 ∧ IsTarget f tg0.pc 0xFFF8 ∧ tg0.once f.h ≠ none ∧ (60 : BitVec 6).toNat < 61 :=
  ⟨issues0, rfl, .inl ⟨rfl, by decide +kernel⟩, by decide +kernel, by decide⟩

theorem witness_FalseGuardSkipsTgWideControl :
    (st tg0).Issues tg0 ∧ tg0.once (bra 0 1).h = none ∧ tg0.once (r 0 false false false).h = none :=
  ⟨issues0, by decide +kernel, by decide +kernel⟩

/-- Some of the threads; all of them with an empty stack, with threads parked at the top entry, and with threads that wait there. -/
theorem witness_ExitRetiresItsThreads :
    let all := r0.h
    let g := stacked [entry 0x20000] (alone tg0)
    let k := stacked [{ entry 0x20000 with m := 2, p := 0 }] (alone tg0)
    let q := stacked [{ entry 0x20000 with p := 2 }] (alone tg0)
    (st (half0 tg0)).Issues (half0 tg0) ∧ (half0 tg0).acting (hd 0 false false false) ≠ (half0 tg0).mask ∧
    (tg0.acting all = tg0.mask ∧ tg0.frames = [] ∧ tg0.reconv.core = []) ∧
    ((st q).Issues q ∧ q.acting all = q.mask ∧ q.frames = [] ∧ (2 : Mask) &&& ~~~(q.xmask ||| q.acting all) ≠ 0) ∧
    ((st k).Issues k ∧ k.acting all = k.mask ∧ (0 : Mask) &&& ~~~(k.xmask ||| k.acting all) = 0 ∧ (2 : Mask) &&& ~~~(k.xmask ||| k.acting all) ≠ 0) ∧
    ((st g).Issues g ∧ (entry 0x20000).p &&& ~~~(g.xmask ||| g.acting all) = 0) :=
  ⟨issues_st _ (by decide +kernel), by decide +kernel, by decide +kernel, ⟨issues_st _ (by decide +kernel), by decide +kernel⟩,
    ⟨issues_st _ (by decide +kernel), by decide +kernel⟩, issues_st _ (by decide +kernel), by decide +kernel⟩

/-! ### Integer and floating instructions -/

theorem witness_IntegerArithmetic : (vForm .i8).ty.isInt = true ∧ DataHyps (st tg0) tg0 (vForm .i8) ∧ DataHyps (st tg0) tg0 (sForm .n64) :=
  ⟨rfl, data_v _, data_s _⟩
theorem witness_BitwiseLogic : (vForm .n16).ty.isInt = true ∧ DataHyps (st tg0) tg0 (vForm .n16) ∧ DataHyps (st tg0) tg0 (sForm .n32) :=
  ⟨rfl, data_v _, data_s _⟩
theorem witness_ShiftsAndRotation : (vForm .i64).ty.isInt = true ∧ DataHyps (st tg0) tg0 (vForm .i64) ∧ DataHyps (st tg0) tg0 (sForm .i8) :=
  ⟨rfl, data_v _, data_s _⟩
theorem witness_BitFields : (vForm .n64).ty.isInt = true ∧ DataHyps (st tg0) tg0 (vForm .n64) ∧ DataHyps (st tg0) tg0 (sForm .i32) :=
  ⟨rfl, data_v _, data_s _⟩
theorem witness_BitCounts : (vForm .n8).ty.isInt = true ∧ DataHyps (st tg0) tg0 (vForm .n8) ∧ DataHyps (st tg0) tg0 (sForm .n64) :=
  ⟨rfl, data_v _, data_s _⟩

theorem witness_CarryChainsAndWideProducts :
    let f : RArgs := { vForm .n32 with cs := .p 6, x := 15 }
    let u : RArgs := { sForm .n32 with cs := .p 6, x := 15 }
    f.ty.isInt = true ∧ (st tg0).Issues tg0 ∧ Long.isSweep f.h.long = false ∧ f.h.u = false ∧ f.d = .v 63 ∧ f.cs = .p 6 ∧
    (Long.isSweep u.h.long = false ∧ u.h.u = true ∧ u.d = .s 60 ∧ tg0.once u.h = some 0 ∧ tg0.once (hd 0 false true false) = none) ∧
    (vForm .i8).ty.width ≠ 64 ∧ DataHyps (st tg0) tg0 (vForm .i8) ∧ DataHyps (st tg0) tg0 (sForm .n32) :=
  ⟨rfl, issues0, rfl, rfl, rfl, rfl, ⟨rfl, rfl, rfl, by decide +kernel, by decide +kernel⟩, by decide, data_v _, data_s _⟩

/-- Threads act, none acts, and the uniform form on an active thread and on none; D p7 discards its write. -/
theorem witness_ComparesWriteConditionAndComplement :
    let f : RArgs := { vForm .f32 with d := .p 7, cs := .p 6 }
    let u : RArgs := { sForm .n32 with d := .p 0, cs := .p 0 }
    (st tg0).Issues tg0 ∧ Long.isSweep f.h.long = false ∧ f.d = .p 7 ∧ f.cs = .p 6 ∧ f.h.u = false ∧ tg0.acting f.h ≠ 0 ∧
    tg0.acting (hd 0 false false false) = 0 ∧ u.ty.isInt = true ∧ u.h.u = true ∧ tg0.once u.h = some 0 ∧
    tg0.once (hd 0 false true false) = none ∧ tg0.actingPacked f.h ≠ 0 ∧ tg0.actingPacked (hd 0 false false false) = 0 :=
  ⟨issues0, rfl, rfl, rfl, rfl, by decide +kernel, by decide +kernel, rfl, rfl, by decide +kernel, by decide +kernel, by decide +kernel, by decide +kernel⟩

theorem witness_MovesAndConstants :
    let i : IArgs := { h := hd 7 false false false, d := .v 0, a := .v 0, b := 6, c := 0xFFFFF }
    let j : IArgs := { h := hd 7 false true false, d := .s 60, a := .v 0, b := 7, c := 0 }
    (vForm .f32).ty.isPacked = false ∧ DataHyps (st tg0) tg0 (vForm .f32) ∧ (vForm .f16x2).ty.isPacked = true ∧
    DataHyps (st tg0) tg0 (vForm .f16x2) ∧ (∀ r, (vForm .n64).a ≠ .f r) ∧
    ({ vForm .n64 with a := .limm } : RArgs).a = .limm ∧ (iTy i).isInt = true ∧ i.h.u = false ∧ i.d = .v 0 ∧
    (iTy j).isInt = true ∧ Long.isSweep j.h.long = false ∧ j.h.u = true ∧ j.d = .s 60 ∧ (vForm .i8).ty.isInt = true ∧
    (st tg0).Issues tg0 ∧ ({ r0 with d := .v 62, a := .f 7 } : RArgs).a = .f 7 ∧ (7 : BitVec 3) ≠ 0 :=
  ⟨rfl, data_v _, rfl, data_v _, by decide, rfl, by decide, rfl, rfl, by decide, rfl, rfl, rfl, rfl, issues0, rfl, by decide⟩

/-- p0 is true in threads 0 to 47, so all of the 48 are not all of the 96. -/
theorem witness_VoteReducesOverTheGroup :
    let z : Mask := 0xFFFFFFFFFFFF
    let g := half0 tg0
    (st g).Issues g ∧ (∀ t, t < 96 → z.has t = ((g.acting r0.h).has t && (g.pAt 0 t).getLsbD 0)) ∧
    ∀ x ∈ [(0 : BitVec 4), 1, 2], ∃ b : Bool,
      (x = 0 → (b = true ↔ ∀ t, t < 96 → (g.acting r0.h).has t = true → z.has t = true)) ∧
      (x = 1 → (b = true ↔ ∃ t, t < 96 ∧ z.has t = true)) ∧
      (x = 2 → (b = true ↔ ¬(∃ t, t < 96 ∧ z.has t = true) ∨ ∀ t, t < 96 → (g.acting r0.h).has t = true → z.has t = true)) := by
  refine ⟨issues_st _ (by decide +kernel), by decide +kernel, ?_⟩
  intro x _
  exact ⟨x == 1, fun h => by subst h; decide +kernel, fun h => by subst h; decide +kernel, fun h => by subst h; decide +kernel⟩

theorem witness_ShfMovesBetweenThreads : (st tg0).Issues tg0 ∧ (vForm .n64).d = .v 63 ∧ ({ vForm .n64 with x := 3 } : RArgs).x.toNat < 4 :=
  ⟨issues0, rfl, by decide⟩

theorem witness_PredicatesCombineAndMove :
    let f : RArgs := { r0 with d := .p 7, a := .p 6, b := .p 0, x := 7 }
    (st tg0).Issues tg0 ∧ f.d = .p 7 ∧ f.a = .p 6 ∧ f.b = .p 0 ∧ f.x.toNat < 8 ∧
    ({ r0 with d := .v 1, a := .p 0 } : RArgs).x = 0 ∧ ({ r0 with d := .p 1, x := 1 } : RArgs).x = 1 ∧
    ({ r0 with d := .p 1, a := .p 0, x := 2 } : RArgs).x = 2 :=
  ⟨issues0, rfl, rfl, rfl, by decide, rfl, rfl, rfl⟩

theorem witness_TransfersBetweenScalarAndVector :
    (st tg0).Issues tg0 ∧ (vForm .n64).d = .v 63 ∧ (sForm .n64).d = .s 60 ∧ tg0.once (sForm .n64).h = some 0 ∧
    tg0.once (hd 0 false false false) = none :=
  ⟨issues0, rfl, rfl, by decide +kernel, by decide +kernel⟩

theorem witness_FloatArithmeticRoundsOnce : DataHyps (st tg0) tg0 { vForm .f32 with rm := 4 } ∧ DataHyps (st tg0) tg0 (sForm .bf16) :=
  ⟨⟨issues0, rfl, .inl ⟨rfl, 63, rfl⟩⟩, data_s _⟩
theorem witness_MinAndMaxReturnAnOperand : DataHyps (st tg0) tg0 (vForm .f16) ∧ (vForm .bf16x2).ty.isPacked = true ∧
    DataHyps (st tg0) tg0 (vForm .bf16x2) := ⟨data_v _, rfl, data_v _⟩
theorem witness_PackedArithmetic : (vForm .f16x2).ty.isPacked = true ∧ DataHyps (st tg0) tg0 (vForm .f16x2) ∧
    DataHyps (st tg0) tg0 (sForm .bf16x2) := ⟨rfl, data_v _, data_s _⟩

/-- Sources by R128: code 0x08 is FP32, 0x09 FP16, 0x02 n32; the last clause inserts element 3 of four. -/
theorem witness_ClassAndConversions :
    let p : RArgs := { vForm .f16x2 with cs := .v 8 }
    let w : RArgs := { vForm .i64 with cs := .v 8 }
    let n : RArgs := { vForm .f32 with cs := .v 9, x := 4 }
    let i : RArgs := { vForm .e4m3 with cs := .v 8, x := 12 }
    (∀ q, (vForm .f32).d ≠ .p q) ∧ DataHyps (st tg0) tg0 (vForm .f32) ∧
    (p.ty.isPacked = true ∧ srcTy p = .f32) ∧ (w.ty.isPacked = false ∧ 32 ≤ (srcTy w).width ∧ 32 ≤ w.ty.width) ∧
    (n.ty.isPacked = false ∧ (srcTy n).width ≤ 16 ∧ n.a = .v 0) ∧
    (Long.isSweep i.h.long = false ∧ i.h.u = false ∧ i.d = .v 63 ∧ i.ty.isPacked = false ∧ 32 ≤ (srcTy i).width ∧ i.ty.width ≤ 16 ∧
      i.ty.width * (cvtK i + 1) = 32) ∧
    (let u : RArgs := { i with h := r1.h, d := .s 60 };
      (st tg0).Issues tg0 ∧ u.h.u = true ∧ u.d = .s 60 ∧ 32 ≤ (srcTy u).width ∧ u.ty.width * (cvtK u + 1) = 32 ∧
      tg0.once u.h = some 0 ∧ tg0.once (hd 0 false true false) = none) :=
  ⟨by decide, data_v _, by decide, by decide, by decide, by decide, issues0, by decide +kernel⟩

/-- A quiet NaN of FP32 is a NaN operand. -/
theorem witness_SpecialFunctions : DataHyps (st tg0) tg0 (vForm .f32) ∧ (4 < 5 ∧ Ty.bf16 = .bf16) ∧ (fltVal .f32 0x7FC00001).isNan = true :=
  ⟨data_v _, by decide, by decide +kernel⟩

/-! ### Memory accesses -/

/-- `st` with little-endian words (location, bytes, value) in memory; addresses are locations there. -/
def stm (ws : List (Nat × Nat × Nat)) (g : Tg) : State := (ws.foldl (fun s w => s.write w.1 w.2.1 w.2.2) base).setTg (2 ^ 30) g

theorem issues_stm (ws : List (Nat × Nat × Nat)) (g : Tg) (h : g.mask ≠ 0) (hc : (ws.foldl (fun s w => s.write w.1 w.2.1 w.2.2) base).cur = 2 ^ 30) :
    (stm ws g).Issues g := ⟨by rw [show (stm ws g).cur = 2 ^ 30 from hc]; exact SMap.find_put_self .., h⟩

/-- An access of which Readable, Writable (wr, no barrier page) or Updatable holds. -/
def accB (s : State) (g : Tg) (a : W64) (z : Nat) (wr nb : Bool) : Bool :=
  a.toNat % z == 0 && decide (a.toNat < 2 ^ 57) && match s.translate g.core g.ctx a.toNat with
    | .leaf e true => (!wr || e.w) && (!nb || !e.b) && !unanswered (s.linkLost g.core g.ctx) e.loc
    | _ => false

theorem acc_cases {s : State} {g : Tg} {a : W64} {z : Nat} {wr nb : Bool} (h : accB s g a z wr nb = true) :
    a.toNat % z = 0 ∧ a.toNat < 2 ^ 57 ∧ ∃ e, s.translate g.core g.ctx a.toNat = .leaf e true ∧ (wr = true → e.w = true) ∧
      (nb = true → e.b = false) ∧ unanswered (s.linkLost g.core g.ctx) e.loc = false := by
  unfold accB at h
  split at h
  · rename_i e he
    simp only [Bool.and_eq_true, beq_iff_eq, decide_eq_true_eq, Bool.or_eq_true, Bool.not_eq_true'] at h
    refine ⟨h.1.1, h.1.2, e, he, fun hw => ?_, fun hb => ?_, h.2.2⟩
    · rcases h.2.1.1 with h1 | h1
      · rw [hw] at h1; cases h1
      · exact h1
    · rcases h.2.1.2 with h1 | h1
      · rw [hb] at h1; cases h1
      · exact h1
  · simp at h

theorem readable_of {s : State} {g : Tg} {a : W64} {z : Nat} (h : accB s g a z false false = true) : Readable s g a z :=
  have ⟨h1, h2, e, he, _, _, hl⟩ := acc_cases h
  ⟨h1, h2, e, he, hl⟩
theorem writable_of {s : State} {g : Tg} {a : W64} {z : Nat} (h : accB s g a z true true = true) : Writable s g a z :=
  have ⟨h1, h2, e, he, hw, hb, hl⟩ := acc_cases h
  ⟨h1, h2, e, he, hw rfl, hb rfl, hl⟩
theorem updatable_of {s : State} {g : Tg} {a : W64} {z : Nat} (h : accB s g a z true false = true) : Updatable s g a z :=
  have ⟨h1, h2, e, he, hw, _, hl⟩ := acc_cases h
  ⟨h1, h2, e, he, hw rfl, hl⟩

/-- A form on the address in s10 with no displacement. -/
def mForm (ty : Ty) : RArgs := { r0 with d := .v 63, a := .s 10, b := .imm 0, cs := .v 4, ty := ty }
def at10 (a : W64) (g : Tg) : Tg := withS [(10, a)] g
/-- Thread 0 alone, with the last word of the mapped GiB in s10. -/
def high : Tg := alone (at10 0x3FFFFFFC tg0)
theorem high_acts {t : Nat} (ht : t < 96) (h : (high.acting r0.h).has t = true) : t = 0 :=
  has_one ht (by rw [show high.acting r0.h = 1 by decide +kernel] at h; exact h)

theorem witness_GlobalLoads :
    let f := mForm .n32
    let u : RArgs := { f with h := r1.h, d := .s 60 }
    (st high).Issues high ∧ high.win.k = 256 ∧ f.d = .v 63 ∧
    (∀ t, t < 96 → (high.acting f.h).has t = true → Readable (st high) high (glAddr high f (accessSize f) t) (accessSize f)) ∧
    high.acting f.h ≠ 0 ∧ high.acting (hd 0 false false false) = 0 ∧ u.d = .s 60 ∧ high.once u.h = some 0 ∧
    Readable (st high) high (uAddr high u) (accessSize u) ∧ high.once (hd 0 false true false) = none ∧ accessSize f ≠ 16 ∧
    accessSize { f with x := 2 } = 16 ∧ effPol high f.pfx ≠ 3 ∧ effPol high (some { ord := 1, scp := 4, spc := 1, pol := 3 }) = 3 := by
  refine ⟨issues_st _ (by decide +kernel), by decide +kernel, rfl, ?_, by decide +kernel, by decide +kernel, rfl, by decide +kernel,
    readable_of (by decide +kernel), by decide +kernel⟩
  intro t ht ha
  obtain rfl := high_acts ht ha
  exact readable_of (by decide +kernel)

theorem witness_GlobalStores :
    let f := mForm .n32
    let u : RArgs := { f with cs := .s 60 }
    (st high).Issues high ∧
    (∀ t, t < 96 → (high.acting f.h).has t = true → Writable (st high) high (glAddr high f (accessSize f) t) (accessSize f)) ∧
    high.acting f.h ≠ 0 ∧ high.acting (hd 0 false false false) = 0 ∧ high.once u.h = some 0 ∧
    Writable (st high) high (uAddr high u) (accessSize u) ∧ high.once (hd 0 false true false) = none := by
  refine ⟨issues_st _ (by decide +kernel), ?_, by decide +kernel, by decide +kernel, by decide +kernel, writable_of (by decide +kernel),
    by decide +kernel⟩
  intro t ht ha
  obtain rfl := high_acts ht ha
  exact writable_of (by decide +kernel)

/-- The crew of `base`. -/
def crew0 : Crew := (base.crews.head (by decide +kernel)).2
theorem st_crew (g : Tg) : (st g).crew (2 ^ 26) = some crew0 := by
  have h : SMap.find base.crews (2 ^ 26) = some crew0 := by decide +kernel
  simpa only [st, State.setTg, State.crew] using h

/-- A scratchpad of 655360 bytes with 32 objects at its end: the last words before them, and the very last words. -/
theorem witness_ScratchpadLoadsAndStores :
    let f := mForm .n32
    let g := at10 (655360 - 512 - 384) tg0
    let k := at10 (655360 - 384) tg0
    (st g).Issues g ∧ (st g).crew g.crew = some crew0 ∧ g.win.k = 256 ∧ f.d = .v 63 ∧ g.acting f.h ≠ 0 ∧
    (∀ t, t < 96 → (g.acting f.h).has t = true → spAddr g f 4 t % 4 = 0 ∧ spAddr g f 4 t + 4 ≤ crew0.scratchSize - 16 * crew0.nbar) ∧
    (st k).Issues k ∧ (∀ t, t < 96 → (k.acting f.h).has t = true → spAddr k f 4 t % 4 = 0 ∧ spAddr k f 4 t + 4 ≤ crew0.scratchSize) ∧
    g.acting (hd 0 false false false) = 0 ∧ accessSize f ≠ 16 ∧ accessSize { f with x := 2 } = 16 ∧ (st g).tg (st g).cur = some g :=
  ⟨issues_st _ (by decide +kernel), st_crew _, by decide +kernel, rfl, by decide +kernel, by decide +kernel, issues_st _ (by decide +kernel),
    by decide +kernel, by decide +kernel, by decide +kernel, by decide +kernel, by decide +kernel⟩

/-- `st` with the second GiB mapped by an entry with these low bits; `pageB` holds of the leaf that maps an address. -/
def stPage (bits : Nat) (g : Tg) : State := stm [(0x1008, 8, 0x40000000 + bits)] g
def pageB (s : State) (g : Tg) (v : W64) (ok : TlbEntry → Bool → Bool) : Bool := match s.translate g.core g.ctx v.toNat with
  | .leaf e r => ok e r
  | .bad => false
theorem page_cases {s : State} {g : Tg} {v : W64} {ok : TlbEntry → Bool → Bool} (h : pageB s g v ok = true) :
    ∃ e r, s.translate g.core g.ctx v.toNat = .leaf e r ∧ ok e r = true := by
  unfold pageB at h
  split at h
  · exact ⟨_, _, ‹_›, h⟩
  · cases h

/-- The only access of a list is the first bad one. -/
theorem first_one {α : Type} {bad : α → Prop} {p : α} (h : bad p) : FirstBad [p] bad p :=
  ⟨[], [], rfl, h, fun _ hq => by cases hq⟩
theorem none_one {α : Type} {bad : α → Prop} {p : α} (h : ¬bad p) : ∀ q ∈ [p], ¬bad q := by
  intro q hq; rw [List.mem_singleton.1 hq]; exact h

/-- Whether an address is aligned and below 2^57, and its page no leaf that cannot be reached. -/
def toPage (s : State) (g : Tg) (a : W64) : Bool :=
  a.toNat % 4 == 0 && decide (a.toNat < 2 ^ 57) && pageB s g a fun e _ => !unanswered (s.linkLost g.core g.ctx) e.loc
theorem toPage_ok {s : State} {g : Tg} {a : W64} (h : toPage s g a = true) :
    ¬a.toNat % 4 ≠ 0 ∧ ¬2 ^ 57 ≤ a.toNat ∧ ¬(s.translate g.core g.ctx a.toNat = .bad ∨
      ∃ e r, s.translate g.core g.ctx a.toNat = .leaf e r ∧ unanswered (s.linkLost g.core g.ctx) e.loc = true) := by
  simp only [toPage, Bool.and_eq_true, beq_iff_eq, decide_eq_true_eq] at h
  obtain ⟨e, r, he, hu⟩ := page_cases h.2
  refine ⟨fun hn => hn h.1.1, by omega, ?_⟩
  rintro (hb | ⟨e', r', he', hu'⟩)
  · rw [he] at hb; cases hb
  · rw [he] at he'; cases he'; rw [hu'] at hu; cases hu

/-- Thread 2 adds 1 to an aligned address. -/
def odd2 : Tg := { at10 0x100000 tg0 with v := SMap.set [] tg0.v 2 (Row.tab fun t => if t = 2 then 1 else 0) }
theorem odd2_first : FirstBad ((odd2.acting r0.h).threads.map fun t => (t, glAddr odd2 { mForm .n32 with b := .v 2 } 4 t))
    (fun p => p.2.toNat % 4 ≠ 0) (2, 0x100001) :=
  ⟨((odd2.acting r0.h).threads.map fun t => (t, glAddr odd2 { mForm .n32 with b := .v 2 } 4 t)).take 2,
    ((odd2.acting r0.h).threads.map fun t => (t, glAddr odd2 { mForm .n32 with b := .v 2 } 4 t)).drop 3,
    by decide +kernel, by decide +kernel, by decide +kernel⟩

/-- ALIGN (thread 2 is the first that is misaligned); ADDR at 2^57, for no entry, and for a module that does not answer; PROT on a page
that is read only, and on a barrier page; a page that is not resident; in the scratchpad ALIGN, ADDR and ARENA. -/
theorem witness_MisalignedAccessesTrap :
    let f : RArgs := { mForm .n32 with b := .v 2 }
    let g := odd2
    let one := alone tg0
    let lost := { one with linkLost := true }
    (st g).Issues g ∧ (∃ s', GlStops (st g) g ((g.acting f.h).threads.map fun t => (t, glAddr g f 4 t)) 4 false s') ∧
    (∀ w, ∃ s', GlStops (st one) one [(0, 0x200000000000000)] 4 w s') ∧ (∀ w, ∃ s', GlStops (st one) one [(0, 0x80000000)] 4 w s') ∧
    (∀ w, ∃ s', GlStops (stPage 0x200000000000EF lost) lost [(0, 0x40000000)] 4 w s') ∧
    (∃ s', GlStops (stPage 0xEB one) one [(0, 0x7FFFFFFC)] 4 true s') ∧ (∃ s', GlStops (stPage 0xFF one) one [(0, 0x40000000)] 4 true s') ∧
    (∀ w, ∃ s', GlStops (stPage 0xCF one) one [(0, 0x40000000)] 4 w s') ∧
    (st g).crew g.crew = some crew0 ∧ (∀ w, ∃ s', SpStops (st g) crew0 [(0, 655359)] 4 w s') ∧
    (∀ w, ∃ s', SpStops (st g) crew0 [(0, 655360)] 4 w s') ∧ (∃ s', SpStops (st g) crew0 [(0, 655356)] 4 true s') := by
  refine ⟨issues_st _ (by decide +kernel), ⟨_, _, .inl ⟨odd2_first, rfl⟩⟩,
    fun w => ⟨_, _, .inr (.inl ⟨none_one (by decide), first_one (by decide), rfl⟩)⟩,
    fun w => ⟨_, _, .inr (.inr (.inl ⟨none_one (by decide), none_one (by decide), first_one (.inl (by decide +kernel)), rfl⟩))⟩,
    fun w => ⟨_, _, .inr (.inr (.inl ⟨none_one (by decide), none_one (by decide), first_one (.inr ?_), rfl⟩))⟩, ?_, ?_, fun w => ?_, st_crew _,
    fun w => ⟨_, _, .inl ⟨first_one (by decide), rfl⟩⟩,
    fun w => ⟨_, _, .inr ⟨none_one (by decide), first_one (.inl (by decide +kernel)), .inl ⟨by decide +kernel, rfl⟩⟩⟩,
    ⟨_, _, .inr ⟨none_one (by decide), first_one (.inr ⟨rfl, by decide +kernel⟩), .inr ⟨by decide +kernel, rfl⟩⟩⟩⟩
  · have h : pageB (stPage 0x200000000000EF { alone tg0 with linkLost := true }) { alone tg0 with linkLost := true } 0x40000000
      (fun e _ => unanswered true e.loc) = true := by decide +kernel
    exact page_cases h
  · have h : (toPage (stPage 0xEB (alone tg0)) (alone tg0) 0x7FFFFFFC && pageB (stPage 0xEB (alone tg0)) (alone tg0) 0x7FFFFFFC
      fun e _ => !e.w || e.b) = true := by decide +kernel
    rw [Bool.and_eq_true] at h
    obtain ⟨h1, h2, h3⟩ := toPage_ok h.1
    obtain ⟨e, r, he, hw⟩ := page_cases h.2
    exact ⟨_, _, .inr (.inr (.inr (.inl ⟨none_one h1, none_one h2, none_one h3, first_one ⟨rfl, e, r, he, by simpa using hw⟩, rfl⟩)))⟩
  · have h : (toPage (stPage 0xFF (alone tg0)) (alone tg0) 0x40000000 && pageB (stPage 0xFF (alone tg0)) (alone tg0) 0x40000000
      fun e _ => !e.w || e.b) = true := by decide +kernel
    rw [Bool.and_eq_true] at h
    obtain ⟨h1, h2, h3⟩ := toPage_ok h.1
    obtain ⟨e, r, he, hw⟩ := page_cases h.2
    exact ⟨_, _, .inr (.inr (.inr (.inl ⟨none_one h1, none_one h2, none_one h3, first_one ⟨rfl, e, r, he, by simpa using hw⟩, rfl⟩)))⟩
  · have h : (toPage (stPage 0xCF (alone tg0)) (alone tg0) 0x40000000 && pageB (stPage 0xCF (alone tg0)) (alone tg0) 0x40000000
      fun e r => e.w && !e.b && !r) = true := by decide +kernel
    rw [Bool.and_eq_true] at h
    obtain ⟨h1, h2, h3⟩ := toPage_ok h.1
    obtain ⟨e, r, he, hw⟩ := page_cases h.2
    simp only [Bool.and_eq_true, Bool.not_eq_true'] at hw
    obtain ⟨⟨hw1, hw2⟩, rfl⟩ := hw
    refine ⟨_, _, .inr (.inr (.inr (.inr ⟨none_one h1, none_one h2, none_one h3, none_one ?_, first_one ⟨e, he⟩, rfl⟩)))⟩
    rintro ⟨_, e', r', he', hb⟩
    have h4 := he.symm.trans he'
    cases h4
    simp [hw1, hw2] at hb

/-- bra, brx and join with 32 entries in the core and eight in memory, whose pages answer, are not mapped, and are not resident; and at
the greatest depth. -/
theorem witness_StackInMemory :
    let g (a : W64) (depth : Nat) : Tg := { half0 tg0 with reconv := { core := List.replicate 32 (entry 8), depth := depth, rspill := a } }
    let top : Tg := g 0x3FFFFEE0 40
    (st top).Issues top ∧ top.mask.lowest = some 0 ∧ top.acting (hd 0 false false false) ≠ 0 ∧ top.acting (hd 0 false false false) ≠ top.mask ∧
    top.reconv.core = List.replicate 31 (entry 8) ++ [entry 8] ∧ top.reconv.depth < 65536 ∧ 32 < top.reconv.depth ∧
    Writable (st top) top (memEntryVa top (40 - 32)) 32 ∧ Readable (st top) top (memEntryVa top (40 - 33)) 32 ∧
    65536 ≤ (g 0 65536).reconv.depth ∧
    (∀ w, ∃ s', GlStops (st (g 0x80000000 40)) (g 0x80000000 40) [(0, 0x80000100)] 32 w s' .spill) ∧
    (∀ w, ∃ s', GlStops (stPage 0xCF (g 0x40000000 40)) (g 0x40000000 40) [(0, 0x40000100)] 32 w s' .spill) ∧
    memEntryVa (g 0x40000000 40) 8 = 0x40000100 := by
  refine ⟨issues_st _ (by decide +kernel), by decide +kernel, by decide +kernel, by decide +kernel, by decide +kernel, by decide +kernel, by decide +kernel,
    writable_of (by decide +kernel), readable_of (by decide +kernel), by decide +kernel,
    fun w => ⟨_, _, .inr (.inr (.inl ⟨none_one (by decide), none_one (by decide), first_one (.inl (by decide +kernel)), rfl⟩))⟩, fun w => ?_, by decide +kernel⟩
  have h : (toPage (stPage 0xCF (alone tg0)) (alone tg0) 0x40000100 && pageB (stPage 0xCF (alone tg0)) (alone tg0) 0x40000100
    fun e r => e.w && !e.b && !r) = true := by decide +kernel
  rw [Bool.and_eq_true] at h
  obtain ⟨_, h2, h3⟩ := toPage_ok h.1
  obtain ⟨e, r, he, hw⟩ := page_cases h.2
  simp only [Bool.and_eq_true, Bool.not_eq_true'] at hw
  obtain ⟨⟨hw1, hw2⟩, rfl⟩ := hw
  refine ⟨_, _, .inr (.inr (.inr (.inr ⟨none_one (by decide), none_one h2, none_one h3, none_one ?_, first_one ⟨e, he⟩, rfl⟩)))⟩
  rintro ⟨_, e', r', he', hb⟩
  have h4 := he.symm.trans he'
  cases h4
  simp [hw1, hw2] at hb

/-- A leaf that is writable and no barrier page. -/
def plainLeaf (s : State) (g : Tg) (v : Nat) : Bool := match s.translate g.core g.ctx v with
  | .leaf e _ => e.w && !e.b
  | .bad => false

theorem plainLeaf_cases {s : State} {g : Tg} {v : Nat} (h : plainLeaf s g v = true) :
    ∃ e r, s.translate g.core g.ctx v = .leaf e r ∧ e.w = true ∧ e.b = false := by
  unfold plainLeaf at h
  split at h
  · exact ⟨_, _, ‹_›, by simpa using h⟩
  · cases h

/-- No bytes, and the last byte of the mapped GiB with the three before it. -/
theorem witness_RangeOperationsKeepTheLastWrites :
    let f : RArgs := { r0 with a := .s 10, b := .imm 0, cs := .s 11 }
    let g := withS [(11, 4)] (at10 0x3FFFFFFC tg0)
    (st tg0).Issues tg0 ∧ (tg0.sAt 11).toNat % 2 ^ 32 = 0 ∧ (st g).Issues g ∧ g.once f.h ≠ none ∧ (g.sAt 11).toNat % 2 ^ 32 ≠ 0 ∧
    (uAddr g f).toNat + 4 ≤ 2 ^ 57 ∧
    (∀ v ∈ rangeBlocks (uAddr g f).toNat 4, ∃ e r, (st g).translate g.core g.ctx v = .leaf e r ∧ e.w = true ∧ e.b = false) := by
  refine ⟨issues0, by decide +kernel, issues_st _ (by decide +kernel), by decide +kernel, by decide +kernel, by decide +kernel, ?_⟩
  have h : ∀ v ∈ rangeBlocks (uAddr (withS [(11, 4)] (at10 0x3FFFFFFC tg0)) { r0 with a := .s 10, b := .imm 0, cs := .s 11 }).toNat 4,
    plainLeaf (st (withS [(11, 4)] (at10 0x3FFFFFFC tg0))) (withS [(11, 4)] (at10 0x3FFFFFFC tg0)) v = true := by decide +kernel
  exact fun v hv => plainLeaf_cases (h v hv)

/-! ### Barriers, atomics, reductions and queues -/

/-- Object 0 of the arena, its phase 0; one TG parked on it, and none. -/
def obj0 : ObjRef := .arena (2 ^ 26) (655360 - 16)

/-- Whether a check passes with a given answer. -/
def okIs {α : Type} [DecidableEq α] (x : Except Stop α) (a : α) : Bool := match x with
  | .ok b => b == a
  | .error _ => false
theorem ok_of {α : Type} [DecidableEq α] {x : Except Stop α} {a : α} (h : okIs x a = true) : x = .ok a := by
  cases x with
  | ok b => simp only [okIs, beq_iff_eq] at h; rw [h]
  | error _ => cases h

theorem witness_BarrierInstructions :
    let f : RArgs := { r0 with d := .p 7, a := .imm 0, b := .imm 1, cs := .s 3 }
    let w : State := (st tg0).setTg 5 { tg0 with wait := .obj obj0 0 }
    (st tg0).Issues tg0 ∧ tg0.once f.h = some 0 ∧ barTarget (st tg0) tg0 f 0 = .ok obj0 ∧ (st tg0).parkedOn obj0 = false ∧
    w.Issues tg0 ∧ barTarget w tg0 f 0 = .ok obj0 ∧ w.parkedOn obj0 = true ∧
    ((barStart (st tg0) tg0 f false).obj obj0).phase = BitVec.ofNat 16 0 ∧ ((barStart (st tg0) tg0 f false).obj obj0).phase ≠ BitVec.ofNat 16 1 ∧
    f.d = .p 7 ∧ tg0.once (hd 0 false false false) = none :=
  ⟨issues0, by decide +kernel, ok_of (by decide +kernel), by decide +kernel, ⟨by decide +kernel, by decide +kernel⟩, ok_of (by decide +kernel),
    by decide +kernel, by decide +kernel, by decide +kernel, rfl, by decide +kernel⟩

theorem witness_AtomicsServeThreadsInOrder :
    let f : RArgs := { mForm .n32 with x := 0 }
    let p : RArgs := { f with pfx := some { ord := 2, scp := 2, spc := 2, pol := 0 } }
    let g := high
    let k := alone (at10 (655360 - 512 - 4) tg0)
    f.ty.isPacked = false ∧ Ty.isPacked .bf16x2 = true ∧ (st g).Issues g ∧ atomIllegal g f = false ∧ atomActing g f ≠ 0 ∧ atomActing g { f with h := hd 0 false false false } = 0 ∧
    atomSp g f = false ∧ (∀ t, t < 96 → (atomActing g f).has t = true → Updatable (st g) g (glAddr g f 4 t) 4) ∧
    (st k).Issues k ∧ atomIllegal k p = false ∧ atomSp k p = true ∧
    (∀ t, t < 96 → (atomActing k p).has t = true → spAddr k p 4 t % 4 = 0 ∧
      spAddr k p 4 t + 4 ≤ ((st k).crewOf k).scratchSize - 16 * ((st k).crewOf k).nbar) ∧
    atomIllegal k { f with pfx := some { ord := 2, scp := 2, spc := 2, pol := 2 } } = true := by
  refine ⟨rfl, rfl, issues_st _ (by decide +kernel), by decide +kernel, by decide +kernel, by decide +kernel, by decide +kernel, ?_,
    issues_st _ (by decide +kernel), by decide +kernel, by decide +kernel, by decide +kernel, by decide +kernel⟩
  intro t ht ha
  obtain rfl := high_acts ht ha
  exact updatable_of (by decide +kernel)

theorem witness_AtomicNewValues : Ty.i32 ∈ [Ty.n32, .i32, .n64, .i64] ∧ Ty.bf16 ∈ [Ty.f32, .f16, .bf16] ∧
    (Ty.bf16x2, Ty.bf16) ∈ [(Ty.f16x2, Ty.f16), (.bf16x2, .bf16)] := by decide

/-- With the determinism mode, and an entry of another type at the word. -/
def detBase (g : Tg) : State := (st g).modLaunch 1 fun l => { l with desc := { l.desc with modes := 1 } }

theorem witness_DeterministicReduction :
    let f : RArgs := mForm .f32
    let g : Tg := { high with share := [{ loc := 0x3FFFFFFC, thread := 0, ty := .n32, val := 1 }] }
    let full : Tg := { high with share := List.replicate 256 { loc := 0x3FFFFFF8, thread := 0, ty := .f32, val := 1 } }
    (st high).Issues high ∧ high.acting f.h ≠ 0 ∧ high.acting (hd 0 false false false) = 0 ∧
    (∀ t, t < 96 → (high.acting f.h).has t = true → Updatable (st high) high (glAddr high f 4 t) 4) ∧ (st high).detMode high.launch = false ∧
    (detBase high).Issues high ∧ (detBase high).detMode high.launch = true ∧
    high.share.length + (atomLocs (detBase high) high f (high.acting f.h)).length ≤ 256 ∧
    (∀ e ∈ high.share, ∀ p ∈ atomLocs (detBase high) high f (high.acting f.h), ShareEntry.clash e p.2 f.ty = false) ∧
    (detBase g).Issues g ∧ (∃ e ∈ g.share, ∃ p ∈ atomLocs (detBase g) g f (g.acting f.h), e.clash p.2 f.ty = true) ∧
    ((detBase full).Issues full ∧ 256 < full.share.length +
      ((atomLocs (detBase full) full f (full.acting f.h)).filter fun p => !full.share.any fun e => e.loc == p.2 && e.thread == p.1).length) ∧
    high.once f.h ≠ none ∧ high.once (hd 0 false false false) = none := by
  refine ⟨issues_st _ (by decide +kernel), by decide +kernel, by decide +kernel, ?_, by decide +kernel, ⟨by decide +kernel, by decide +kernel⟩,
    by decide +kernel, by decide +kernel, by decide +kernel, ⟨by decide +kernel, by decide +kernel⟩, by decide +kernel,
    ⟨⟨by decide +kernel, by decide +kernel⟩, by decide +kernel⟩, by decide +kernel, by decide +kernel⟩
  intro t ht ha
  obtain rfl := high_acts ht ha
  exact updatable_of (by decide +kernel)

/-- The second GiB is mapped with B = 1; a descriptor at 0x40100000 with ACC = 0x3FFFFC00, so that its last word ends below the end of the mapped GiB. -/
def bredG : Tg := alone (at10 0x40100000 tg0)
def bredS : State := stm [(0x1008, 8, 0x400000FF), (0x40100010, 8, 0x3FFFFC00)] bredG
def bredB (s : State) (g : Tg) (f : RArgs) (t0 : Nat) (ws : List Nat) (k : AccKind) (b : Bred) : Bool :=
  let a := g.sAt (Spec.num f.a)
  (s.checkGl g.core g.ctx [(t0, a)] 64 .barrier).isNone && decide (b.loc = s.locOf g.core g.ctx a.toNat) &&
  decide (b.acc = BitVec.ofNat 64 (leNat (((tgBytes g s b.loc 64 0).drop 16).take 8))) &&
  decide (leNat ((tgBytes g s b.loc 64 0).drop 24) = 0) &&
  (s.checkGl g.core g.ctx (ws.map fun t => (if t < 96 then t else t0, bredWord b.acc t)) 8 k).isNone
theorem bred_of {s : State} {g : Tg} {f : RArgs} {t0 : Nat} {ws : List Nat} {k : AccKind} {b : Bred} (h : bredB s g f t0 ws k b = true) :
    BredReady s g f t0 ws k b := by
  simp only [bredB, Bool.and_eq_true, decide_eq_true_eq, Option.isNone_iff_eq_none] at h
  exact ⟨h.1.1.1.1, h.1.1.1.2, h.1.1.2, h.1.2, h.2⟩

theorem witness_BlockReductionAndFence :
    let f : RArgs := { r0 with d := .v 63, a := .s 10, b := .v 0 }
    let b : Bred := { loc := 0x40100000, acc := 0x3FFFFC00 }
    bredS.Issues bredG ∧ bredG.once f.h = some 0 ∧ BredReady bredS bredG f 0 (List.range 97) .rmw b ∧
    (bredG.acting f.h).threads = [0] ∧ BredReady bredS bredG f 0 [96] .rmw b ∧ BredReady bredS bredG f 0 ([0] ++ [96]) .rmw b ∧
    f.d = .v 63 ∧ BredReady bredS bredG f 0 ([0] ++ [96]) .load b ∧ bredG.acting (hd 0 false false false) = 0 ∧
    bredG.once (hd 0 false false false) = none ∧
    (let g : Tg := { bredG with reads := [(5, 2)], fences := [(1, 4)] };
      (st g).Issues g ∧ g.once r0.h ≠ none ∧ g.reads ≠ [] ∧ (1, 4) ∈ g.fences) ∧ bredG.stores = [] ∧ bredG.reads = [] :=
  ⟨⟨by decide +kernel, by decide +kernel⟩, by decide +kernel, bred_of (by decide +kernel), by decide +kernel, bred_of (by decide +kernel),
    bred_of (by decide +kernel), rfl, bred_of (by decide +kernel), by decide +kernel, by decide +kernel,
    ⟨issues_st _ (by decide +kernel), by decide +kernel⟩, by decide +kernel, by decide +kernel⟩

/-- A queue at 0x100000 of two records of 4 bytes, full; and the same descriptor with a capacity of 3, which is not valid. -/
theorem witness_QueuesServeThreadsInOrder :
    let f : RArgs := mForm .n32
    let g := alone (at10 0x100000 tg0)
    let s (cap : Nat) : State := stm [(0x100000, 8, 0x3FFFFF00), (0x100008, 4, cap), (0x10000C, 4, 4), (0x100018, 8, 2)] g
    let q (cap : Nat) : QDesc := QDesc.ofBytes (tgBytes g (s cap) ((s cap).locOf g.core g.ctx (uAddr g f).toNat) 32 0)
    (s 2).Issues g ∧ (g.acting f.h).threads = [0] ∧ (g.acting (hd 0 false false false)).threads = [] ∧
    Updatable (s 2) g (uAddr g f) 32 ∧ (q 2).valid (s 2) g (accessSize f) = true ∧
    (s 3).Issues g ∧ Updatable (s 3) g (uAddr g f) 32 ∧ (q 3).valid (s 3) g (accessSize f) = false :=
  ⟨⟨by decide +kernel, by decide +kernel⟩, by decide +kernel, by decide +kernel, updatable_of (by decide +kernel), by decide +kernel,
    ⟨by decide +kernel, by decide +kernel⟩, updatable_of (by decide +kernel), by decide +kernel⟩

/-! ### Copies and staging -/

/-- Source and descriptor in s10, destination in s11; object 0 of the arena. -/
def copyG : Tg := withS [(11, 0x3FFFFFF8), (12, 0x0001040010000000)] (at10 0x100000 tg0)
def cForm : RArgs := { r0 with d := .s 11, a := .s 10, b := .imm 2, cs := .imm 0, x := 5, ty := .f32 }

def tileB (s : State) (g : Tg) (f : RArgs) (t : Nat) (x : CopyTile) : Bool :=
  okIs (copyObj s g f t) obj0 &&
    okIs (checkStage s g x.srcSp x.src x.srct (x.count * x.srct.bytes) (x.ss1 == 0 && x.ss2 == 0) t) 0 &&
    okIs (checkStage s g x.dstSp x.dst x.dstt (x.count * x.dstt.bytes) (x.ds1 == 0 && x.ds2 == 0) t) 0 &&
    checkScales s g x && (checkAccs s g x.accs t).isNone
theorem tile_of {s : State} {g : Tg} {f : RArgs} {t : Nat} {x : CopyTile} (h : tileB s g f t x = true) : TileReady s g f t x obj0 0 0 := by
  simp only [tileB, Bool.and_eq_true, Option.isNone_iff_eq_none] at h
  exact ⟨ok_of h.1.1.1.1, ok_of h.1.1.1.2, ok_of h.1.1.2, h.1.2, h.2⟩

/-- A tile descriptor of two FP32 elements at 0x100000, from there to 0x3FFFFFF8; and a descriptor of a top-1 of two FP32 elements. -/
def tileS : State := stm [(0x100000, 8, 0x100000), (0x100008, 8, 0x3FFFFFF8), (0x100010, 8, 0x100010002), (0x100028, 8, 0x100000002), (0x100030, 8, 0x50010800000001)] copyG
def topS : State := stm [(0x100000, 8, 0x100000), (0x100008, 8, 0x3FFFFFF8), (0x100010, 8, 0x200000), (0x100018, 8, 0x1501000200000002)] copyG
def expS : State := stm [(0x100000, 8, 0x200000), (0x100008, 8, 0x3FFFFFF8), (0x100010, 8, 1), (0x100018, 8, 0x0501000200000002)] copyG
/-- A subscription of ring 0 (one slot of 256 bytes): one tile at 0x200000. -/
def ring0 : Ring :=
  { req := 0x0000000100100008, pc := 0, cc := 0, pcl := 0, ccl := 0, freeing := false, sub := none, pdone := [], cdone := [], pend := [], cend := [] }
def subS : State := (stm [(0x100000, 8, 0x200000), (0x100008, 8, 0x100), (0x100010, 8, 1)] copyG).modCrew (2 ^ 26) fun c =>
  { c with rings := SMap.put c.rings 0 ring0 }

/-- Whether a descriptor reads and parses, and `p` holds of the result. -/
def parsed {α : Type} (s : State) (n : Nat) (parse : List Byte → Option α) (p : α → Bool) : Bool := match readDesc s copyG cForm n 0 with
  | .ok bs => match parse bs with
    | some x => p x
    | none => false
  | .error _ => false
theorem parsed_of {α : Type} {s : State} {n : Nat} {parse : List Byte → Option α} {p : α → Bool} (h : parsed s n parse p = true) :
    ∃ bs x, readDesc s copyG cForm n 0 = .ok bs ∧ parse bs = some x ∧ p x = true := by
  unfold parsed at h
  split at h
  · rename_i bs hb
    split at h
    · exact ⟨bs, _, hb, ‹_›, h⟩
    · cases h
  · cases h

theorem witness_CopiesAreHandedToTheEngine_tiles :
    (st copyG).Issues copyG ∧ copyG.once (hd 0 false false false) = none ∧ copyG.once cForm.h = some 0 ∧
    (copyOperand copyG cForm.a 1 = some 0x100000 ∧ copyOperand copyG cForm.d 1 = some 0x3FFFFFF8 ∧ opnd32 (st copyG) copyG cForm.h cForm.b * 4 ≤ 2 ^ 31 ∧
      TileReady (st copyG) copyG cForm 0 (oneD 0x100000 0x3FFFFFF8 1 1 2 .f32) obj0 0 0) ∧
    tileS.Issues copyG ∧ (∃ bs x, readDesc tileS copyG cForm 64 0 = .ok bs ∧ parseTile bs copyG.mode.srseq (seedOf tileS copyG) = some x ∧
      TileReady (touchDesc tileS copyG cForm) copyG cForm 0 x obj0 0 0) := by
  refine ⟨issues_st _ (by decide +kernel), by decide +kernel, by decide +kernel,
    ⟨by decide +kernel, by decide +kernel, by decide +kernel, tile_of (by decide +kernel)⟩, ⟨by decide +kernel, by decide +kernel⟩, ?_⟩
  have h : parsed tileS 64 (fun bs => parseTile bs copyG.mode.srseq (seedOf tileS copyG))
    (tileB (touchDesc tileS copyG cForm) copyG cForm 0) = true := by decide +kernel
  obtain ⟨bs, x, h1, h2, h3⟩ := parsed_of h
  exact ⟨bs, x, h1, h2, tile_of h3⟩

theorem witness_CopiesAreHandedToTheEngine :
    let f : RArgs := { cForm with a := .imm 0, x := 1 }
    let sub : RArgs := { cForm with d := .imm 0, x := 1 }
    (st copyG).Issues copyG ∧ copyG.once f.h = some 0 ∧ copyOperand copyG f.d 1 = some 0x3FFFFFF8 ∧ copyObj (st copyG) copyG f 0 = .ok obj0 ∧
    checkStage (st copyG) copyG 1 0x3FFFFFF8 .f32 8 true 0 = .ok 0 ∧
    checkAccs (st copyG) copyG (CopyWork.fill 0x3FFFFFF8 1 2 4 0 0 0).accs0 0 = none ∧
    topS.Issues copyG ∧ (∃ bs w, readDesc topS copyG cForm 32 0 = .ok bs ∧ parseSparse .f32 false bs = some w ∧ checkAccs topS copyG (w.accs (chosenNow topS copyG w)) 0 = none) ∧
    expS.Issues copyG ∧ (∃ bs w, readDesc expS copyG cForm 32 0 = .ok bs ∧ parseSparse .f32 true bs = some w ∧ checkAccs expS copyG (w.accs (chosenNow expS copyG w)) 0 = none) ∧
    subS.Issues copyG ∧ ringNum copyG sub.d = some 0 ∧ 0 < (subS.crewOf copyG).nrsv ∧ (subS.ring copyG.crew 0).any (fun r => !r.freeing && r.sub.isNone) = true ∧
    (∃ bs x, readDesc subS copyG cForm 32 0 = .ok bs ∧ some bs = some x ∧ (decide (leNat ((x.drop 20).take 12) = 0) && decide (leNat ((x.drop 16).take 4) ≠ 0) &&
      decide (leNat ((x.drop 8).take 8) % 256 = 0) && decide (leNat ((x.drop 0).take 8) % 256 = 0)) = true) := by
  refine ⟨issues_st _ (by decide +kernel), by decide +kernel, by decide +kernel, ok_of (by decide +kernel), ok_of (by decide +kernel), by decide +kernel,
    ⟨by decide +kernel, by decide +kernel⟩, ?_, ⟨by decide +kernel, by decide +kernel⟩, ?_, ⟨by decide +kernel, by decide +kernel⟩,
    by decide +kernel, by decide +kernel, by decide +kernel, parsed_of (parse := fun bs => some bs) (by decide +kernel)⟩
  · have h : parsed topS 32 (parseSparse .f32 false) (fun w => (checkAccs topS copyG (w.accs (chosenNow topS copyG w)) 0).isNone) = true := by decide +kernel
    obtain ⟨bs, x, h1, h2, h3⟩ := parsed_of h
    exact ⟨bs, x, h1, h2, Option.isNone_iff_eq_none.1 h3⟩
  · have h : parsed expS 32 (parseSparse .f32 true) (fun w => (checkAccs expS copyG (w.accs (chosenNow expS copyG w)) 0).isNone) = true := by decide +kernel
    obtain ⟨bs, x, h1, h2, h3⟩ := parsed_of h
    exact ⟨bs, x, h1, h2, Option.isNone_iff_eq_none.1 h3⟩

/-- A transposed tile of 2 by 3, and one of two types. -/
def aTile : CopyTile := { oneD 0 0x100 1 1 2 .f32 with t1 := 3, e1 := 3, dstt := .f16 }
theorem witness_TileElementsConvert :
    (oneD 0 0 1 1 2 .f32).srct = (oneD 0 0 1 1 2 .f32).dstt ∧ (aTile.srct ≠ aTile.dstt ∧ aTile.smode = 0 ∧ aTile.rm.toNat < 4) ∧
    (aTile.trans = false ∧ 1 < aTile.t0 ∧ 2 < aTile.t1 ∧ 0 < aTile.t2 ∧ aTile.srcSp = 1 ∧ aTile.dstSp = 1) ∧
    (({ aTile with trans := true } : CopyTile).trans = true ∧ 2 < aTile.t1 ∧ 1 < aTile.t0) ∧
    (let q : CopyTile := { aTile with dstt := .e5m2, smode := 2 }; q.srct ≠ q.dstt ∧ q.smode ≠ 0 ∧ q.dstt = .e5m2) ∧
    (let q : CopyTile := { aTile with smode := 3 }; q.srct ≠ q.dstt ∧ q.smode ≠ 0 ∧ q.dstt ≠ .e4m3 ∧ q.dstt ≠ .e5m2) ∧
    ({ aTile with smode := 1 } : CopyTile).smode = 1 := by decide

theorem witness_StagingInstructions :
    let f : RArgs := { r0 with d := .s 3, a := .imm 31, b := .s 12 }
    let ok : Ring := { ring0 with pc := 5, cc := 5, pcl := 5, ccl := 5 }
    let g := withS [(12, 0x0000000100100008)] copyG
    let req : Ring := { ok with req := g.sAt 12, pc := 0, cc := 0, pcl := 0, ccl := 0 }
    let rs (r : Ring) : State := (st g).modCrew (2 ^ 26) fun c => { c with rings := SMap.put c.rings 31 r }
    (st g).Issues g ∧ g.once f.h = some 0 ∧ g.once (hd 0 false false false) = none ∧ ringNum g f.a = some 31 ∧ 31 < ((st g).crewOf g).nrsv ∧
    rsvOk (st g) g 31 req = true ∧ (rs ok).Issues g ∧ rsvOk (rs ok) g 31 req = false ∧
    (rs ok).ring g.crew 31 = some ok ∧ (rs { ok with freeing := true }).ring g.crew 31 = some { ok with freeing := true } ∧
    (ok.freeing = false ∧ ok.pcl = ok.pc ∧ ok.pc - ok.cc + 1 = ok.nslot) ∧
    (let full := { ok with pc := 6, pcl := 6 }; (rs full).ring g.crew 31 = some full ∧ full.ccl = full.cc ∧ 1 = full.pc - full.cc ∧ full.nslot < full.pc - full.cc + 1) ∧
    ok.pc - ok.cc < 1 := by
  refine ⟨issues_st _ (by decide +kernel), by decide +kernel, by decide +kernel, by decide +kernel, by decide +kernel, by decide +kernel,
    ⟨by decide +kernel, by decide +kernel⟩, by decide +kernel, by decide +kernel, by decide +kernel, by decide +kernel, by decide +kernel, by decide +kernel⟩

/-- Codebook slot 7 from the last 32 bytes of the mapped GiB, and from the last of the scratchpad. -/
theorem witness_StagingInstructions_codebooks :
    let f (x : BitVec 4) : RArgs := { r0 with d := .imm 7, a := .s 10, b := .imm 0, x := x }
    let g := at10 0x3FFFFFE0 tg0
    let k := at10 (655360 - 32) tg0
    (st g).Issues g ∧ g.once (f 1).h = some 0 ∧ (st g).cbTaken g.core g.crew 7 = false ∧ (st g).cbBusy g.core 7 = false ∧
    Readable (st g) g (memBase g (f 1).a + BitVec.ofInt 64 (disp (f 1))) 32 ∧ (st k).Issues k ∧
    (memBase k (f 0).a + BitVec.ofInt 64 (disp (f 0))).toNat % 32 = 0 ∧
    (memBase k (f 0).a + BitVec.ofInt 64 (disp (f 0))).toNat % 2 ^ 32 + 32 ≤ ((st k).crewOf k).scratchSize :=
  ⟨issues_st _ (by decide +kernel), by decide +kernel, by decide +kernel, by decide +kernel, readable_of (by decide +kernel),
    issues_st _ (by decide +kernel), by decide +kernel, by decide +kernel⟩

/-! ### Sweeps -/

/-- One iteration of a per-thread form on scratchpad words, one that ends in a trap (D misaligned), and two iterations of add.n32. -/
theorem witness_SweepsStreamTheScratchpad :
    let f : RArgs := { withLong r0 (.sweep 1 0 0 0) with d := .s 10, a := .s 11, b := .s 12, cs := .v 4, ty := .n32 }
    let f2 : RArgs := { f with h := { f.h with long := .sweep 2 384 384 384 } }
    let g := withS [(10, 0), (11, 0x1000), (12, 0x2000)] tg0
    let x := withS [(10, 2)] g
    (Instr.add ∈ sweepable ∧ Instr.hadd2 ∈ sweepablePacked) ∧ (st g).Issues g ∧ f.h.long = .sweep 1 0 0 0 ∧ f.h.u = false ∧ f.pfx = none ∧ f.ty.width = 32 ∧
    g.win.k = 256 ∧ (∀ r ∈ [(61 : BitVec 6), 62, 63], f.d ≠ .v r ∧ f.a ≠ .v r ∧ f.b ≠ .v r ∧ f.cs ≠ .v r) ∧
    sweepCheck (st g) g f (g.acting f.h) 0 0 0 0 = none ∧ (st x).Issues x ∧
    sweepCheck (st x) x f (x.acting f.h) 0 0 0 0 = some (.trap .align 2 0) ∧
    f2.x = 0 ∧ f2.rm = 0 ∧ (st g).crew g.crew = some crew0 ∧
    (∀ i, i < 2 → sweepCheck (st g) g f2 (g.acting f2.h) i 384 384 384 = none) :=
  ⟨⟨by simp [sweepable], by simp [sweepablePacked]⟩, issues_st _ (by decide +kernel), rfl, rfl, rfl, rfl, by decide +kernel, by decide,
    by decide +kernel, issues_st _ (by decide +kernel), by decide +kernel, rfl, rfl, st_crew _, by decide +kernel⟩

/-- Its last hypothesis, with two threads and destinations that meet no source of a later iteration. -/
theorem witness_SweepsStreamTheScratchpad_apart :
    let g : Tg := { withS [(10, 0), (11, 768), (12, 768)] tg0 with mask := 3 }
    let dst (i t : Nat) : Nat := spOff g 10 i 384 t
    ∀ i j t u, i < 2 → j < 2 → t ∈ (g.acting r0.h).threads → u ∈ (g.acting r0.h).threads →
      (j < i → ∀ o ∈ [spOff g 11 i 384 t, spOff g 12 i 384 t], o + 4 ≤ dst j u ∨ dst j u + 4 ≤ o) ∧
      ((i, t) ≠ (j, u) → dst i t + 4 ≤ dst j u ∨ dst j u + 4 ≤ dst i t) := by
  intro g dst i j t u hi hj ht hu
  have h2 : (g.acting r0.h).threads = [0, 1] := by decide +kernel
  rw [h2] at ht hu
  have hd : ∀ i : Fin 2, ∀ t : Fin 2, dst i t = 384 * i + 4 * t ∧ spOff g 11 i 384 t = 768 + 384 * i + 4 * t ∧ spOff g 12 i 384 t = 768 + 384 * i + 4 * t := by
    decide +kernel
  have ht' : t < 2 := by simp at ht; omega
  have hu' : u < 2 := by simp at hu; omega
  have d1 := hd ⟨i, hi⟩ ⟨t, ht'⟩
  have d2 := hd ⟨j, hj⟩ ⟨u, hu'⟩
  simp only at d1 d2
  refine ⟨fun hji o ho => ?_, fun hne => ?_⟩
  · simp only [d1, List.mem_cons, List.not_mem_nil, or_false, or_self] at ho
    omega
  · rw [d1.1, d2.1]
    simp only [ne_eq, Prod.mk.injEq] at hne
    omega

/-! ### Gangs -/

/-- The crew with a second TG (index 1) and the gang 3 of both; TG 0 issues. -/
def gangTg (k : Nat) : Tg := { at10 0 tg0 with idx := k, mode := { tg0.mode with gmask := 3, rankcap := 2 } }
def gangS (slabs : Nat) (gg : Gang) (g : Tg) : State :=
  ((base.setTg (2 ^ 30) g).setTg (2 ^ 30 + 1) { gangTg 1 with wait := .col 3 }).modCrew (2 ^ 26) fun c =>
    { c with gangs := [(3, gg)], tgs := [2 ^ 30, 2 ^ 30 + 1], slabs := slabs }

/-- The col of an instruction where TG 1 has arrived. -/
def col1 (i : Instr) : Col := { pc := 0x10000, words := 1, instr := i, guard := true, arrived := [1], request := none, token := false, denied := none, trapping := none, stage := none }

/-- m1 to m4 hold factors of rank 2 and 32 and dense FP32 and BF16 elements; 228 slabs with a dense FP32 m0. -/
def gang0 (i : Instr) : Gang := { Gang.fresh 3 with
  formed := true, col := some (col1 i), form := [(1, .fact false 2), (2, .fact false 32), (3, .dense .f32), (4, .dense .bf16)] }
def mS (i : Instr) (s : State) (g : Tg) : State :=
  let c := colAt g i 1 true ((s.gang g.crew g.mode.gmask).getD (.fresh 0))
  let s1 := atCol s g g.mode.gmask c
  (s1.listed g.crew g.mode.gmask).foldl (fun s p => s.drain p.1) s1
def mG (i : Instr) (s : State) (g : Tg) : Gang := ((mS i s g).gang g.crew g.mode.gmask).getD (.fresh 0)
def mL (i : Instr) (s : State) (g : Tg) : Tg := (((mS i s g).listed g.crew g.mode.gmask).head?.map (·.2)).getD g

def allB (g : Tg) (m : BitVec 16) (c : Col) : Bool := (List.range 16).all fun k => !m.getLsbD k || k == g.idx || c.arrived.contains k
theorem all_of {g : Tg} {m : BitVec 16} {c : Col} (h : allB g m c = true) : AllArrive g m c := by
  intro k hk hm
  have := List.all_eq_true.1 h k (List.mem_range.2 hk)
  simpa [hm] using this

def meetB (i : Instr) (f : RArgs) (s : State) (g : Tg) : Bool := match s.gang g.crew g.mode.gmask with
  | none => false
  | some gg0 =>
    let c := colAt g i (RArgs.words f) true gg0
    !g.gangBad && decide (g.mode.gmask ≠ 0) && gg0.formed && !gg0.dissolved && decide (g.once f.h ≠ none) &&
      (decide (c.trapping = none) && decide (c.pc = g.pc) && decide (c.instr = i) && decide (c.guard = true) && decide (g.idx ∉ c.arrived)) &&
      allB g g.mode.gmask c &&
      decide (RArgs.words f = 1) && decide ((mG i s g).mask = g.mode.gmask) && ((mS i s g).gang g.crew g.mode.gmask).isSome &&
      ((mS i s g).listed g.crew g.mode.gmask).head?.isSome

theorem meets_of {i : Instr} {f : RArgs} {s : State} {g : Tg} (h : meetB i f s g = true) :
    Meets i f s g (mS i s g) (mG i s g) (mL i s g) := by
  unfold meetB at h
  split at h
  · cases h
  · rename_i gg0 hg
    simp only [Bool.and_eq_true, Bool.not_eq_true', decide_eq_true_eq, Option.isSome_iff_exists] at h
    obtain ⟨⟨⟨⟨⟨⟨⟨⟨⟨⟨hb, hz⟩, hf⟩, hd⟩, ho⟩, hag⟩, hall⟩, hw⟩, hm⟩, ⟨gm, hgm⟩⟩, ⟨p, hp⟩⟩ := h
    refine ⟨gg0, ⟨hg, hb, hz, hf, hd⟩, ho, ⟨hag.1.1.1.1, hag.1.1.1.2, hag.1.1.2, hag.1.2, hag.2⟩, all_of hall, ?_, ?_, hm, p.1, ?_⟩
    · simp only [mS, hg, Option.getD_some, hw]
    · simp only [mG, hgm, Option.getD_some]
    · simp only [mL, hp, Option.map_some, Option.getD_some]

/-- The gang of `i`, met, with `p` true of the machine, the gang and its lead. -/
def metB (i : Instr) (f : RArgs) (slabs : Nat) (gg : Gang) (p : State → Gang → Tg → Bool) : Bool :=
  let s := gangS slabs gg (gangTg 0)
  meetB i f s (gangTg 0) && p (mS i s (gangTg 0)) (mG i s (gangTg 0)) (mL i s (gangTg 0))
theorem met_of {i : Instr} {f : RArgs} {n : Nat} {gg : Gang} {p : State → Gang → Tg → Bool} (h : metB i f n gg p = true) :
    ∃ s' g' lead, (gangS n gg (gangTg 0)).Issues (gangTg 0) ∧ Meets i f (gangS n gg (gangTg 0)) (gangTg 0) s' g' lead ∧ p s' g' lead = true := by
  simp only [metB, Bool.and_eq_true] at h
  exact ⟨_, _, _, ⟨rfl, by decide +kernel⟩, meets_of h.1, h.2⟩

/-- The first arrival of a gang instruction, the last one with a true and with a false guard, one that differs; one at a col that traps,
of which one TG and two are left to trap; a TG whose gang is gone; the col of a formed gang completing, and a TG past it with a pending
BUDGET; gang itself arriving first, last, and not allowed (index 15 is not in the crew). -/
theorem witness_GangInstructionsMeetAtTheCol :
    let i : Instr := .mfenceOp r0
    let i0 : Instr := .mfenceOp { r0 with h := hd 0 false false false }
    let g := gangTg 0
    let gf : RArgs := { r0 with a := .v 0, b := .v 3 }
    let first := gangS 1024 { gang0 i with col := none } g
    let last := gangS 1024 (gang0 i) g
    let off := gangS 1024 { gang0 i0 with col := some { col1 i0 with guard := false } } g
    let fresh : Gang := { Gang.fresh 3 with col := some (col1 (.gang gf)) }
    let stopG (l : List Nat) : Gang := { gang0 i with col := some { col1 i with arrived := [], trapping := some l } }
    let stop (l : List Nat) : State := gangS 1024 (stopG l) g
    let due : Tg := { tg0 with budget := true }
    let young : Tg := { g with mode := tg0.mode }
    (first.Issues g ∧ i ∈ gangInstrs r0 ∧ InGang first g { gang0 i with col := none } ∧
      Agrees g i true (colAt g i 1 true { gang0 i with col := none }) ∧ ¬AllArrive g 3 (colAt g i 1 true { gang0 i with col := none })) ∧
    (last.Issues g ∧ InGang last g (gang0 i) ∧ Agrees g i true (colAt g i 1 true (gang0 i)) ∧ AllArrive g 3 (colAt g i 1 true (gang0 i))) ∧
    (off.Issues g ∧ g.once (hd 0 false false false) = none ∧ Agrees g i0 false (colAt g i0 1 false { gang0 i0 with col := some { col1 i0 with guard := false } })) ∧
    ((colAt g i0 1 true (gang0 i)).trapping = none ∧ (colAt g i0 1 true (gang0 i)).instr ≠ i0) ∧
    ((stop [1]).Issues g ∧ InGang (stop [1]) g (stopG [1]) ∧ (colAt g i 1 true (stopG [1])).trapping ≠ none) ∧
    (((stop [0, 1]).crew (2 ^ 26)).map Crew.gangs = some [(3, stopG [0, 1])] ∧ (stopG [0, 1]).mask = 3 ∧ ∃ j ∈ [0, 1], j ≠ 0) ∧
    (((stop [0]).crew (2 ^ 26)).map Crew.gangs = some [(3, stopG [0])] ∧ ∀ j ∈ [0], j = 0) ∧
    ((st due).tg (2 ^ 30) = some due ∧ due.mask ≠ 0 ∧ isSafe (.mfenceOp { r0 with h := (r 7 false false true).h }) = true ∧ due.budgetDue = true ∧
      due.trap.tstat = false) ∧ (st tg0).gang tg0.crew tg0.mode.gmask = none ∧
    (SMap.sorted last.tgs = true ∧ last.gang (2 ^ 26) 3 = some (gang0 i) ∧ (∀ p ∈ last.listed (2 ^ 26) 3, p.2.mask ≠ 0 ∧ p.2.budgetDue = false)) ∧
    ((gangS 1024 fresh young).Issues young ∧ young.gangBad = false ∧ gangOk ((gangS 1024 fresh young).crewOf young) young (gangMask young gf) = true ∧
      (gangS 1024 fresh young).gang (2 ^ 26) 3 = some fresh ∧ Agrees young (.gang gf) true (colAt young (.gang gf) 1 true fresh) ∧
      AllArrive young 3 (colAt young (.gang gf) 1 true fresh) ∧ fresh.formed = false ∧ young.once gf.h ≠ none) ∧
    gangOk ((gangS 1024 fresh young).crewOf young) young (gangMask young { gf with a := .imm 0, b := .v 1 }) = false := by
  refine ⟨⟨⟨by decide +kernel, by decide +kernel⟩, by decide, ⟨by decide +kernel, rfl, by decide, rfl, rfl⟩, ⟨rfl, rfl, rfl, rfl, by decide⟩, ?_⟩,
    ⟨⟨by decide +kernel, by decide +kernel⟩, ⟨by decide +kernel, rfl, by decide, rfl, rfl⟩, ⟨rfl, by decide +kernel, rfl, rfl, by decide⟩, all_of (by decide +kernel)⟩,
    ⟨⟨by decide +kernel, by decide +kernel⟩, by decide +kernel, ⟨rfl, by decide +kernel, rfl, rfl, by decide⟩⟩, by decide +kernel,
    ⟨⟨by decide +kernel, by decide +kernel⟩, ⟨by decide +kernel, rfl, by decide, rfl, rfl⟩, by decide⟩, by decide +kernel, by decide +kernel,
    ⟨st_tg _, by decide, rfl, rfl, rfl⟩, by decide +kernel,
    ⟨by decide +kernel, by decide +kernel, by decide +kernel⟩,
    ⟨⟨by decide +kernel, by decide +kernel⟩, rfl, by decide +kernel, by decide +kernel, ⟨rfl, by decide +kernel, rfl, rfl, by decide⟩,
      all_of (by decide +kernel), rfl, by decide +kernel⟩, by decide +kernel⟩
  intro h
  have := h 1 (by decide) (by decide)
  revert this
  decide

/-- A register form on m registers; A is m3 (dense FP32). -/
def gForm (d a b : BitVec 4) : RArgs := { r0 with d := .m d, a := .m a, b := .m b, ty := .f32 }
def fits (f : RArgs) (form : MForm) (ovf : Bool) (s : State) (gg : Gang) (lead : Tg) : Bool :=
  decide ((s.crewOf lead).slabs < gg.occWith (Spec.num f.d) form) == ovf

/-- Quotas met exactly and missed by one, legal and misaligned addresses, both kinds of source. -/
theorem witness_TransfersJoinTheLoadPath :
    let z : RArgs := { r0 with d := .m 0, ty := .f32 }
    let m : RArgs := { z with a := .s 10, b := .imm 0, cs := .v 0 }
    let mis : Gang := gang0 (.mld { m with a := .s 2 })
    let mv (a : BitVec 4) : RArgs := { z with a := .m a }
    let gt : RArgs := { r0 with d := .m 1, a := .s 10, b := .s 10, ty := .f32 }
    metB (.mzero z) z 228 (gang0 (.mzero z)) (fits z (.dense .f32) false) = true ∧
    metB (.mzero z) z 227 (gang0 (.mzero z)) (fits z (.dense .f32) true) = true ∧
    metB (.mld { m with a := .s 2 }) { m with a := .s 2 } 1024 mis (fun _ _ lead => decide ((memBase lead (.s 2)).toNat % 16 ≠ 0)) = true ∧
    metB (.mmov (mv 3)) (mv 3) 1024 (gang0 (.mmov (mv 3))) (fun _ gg _ => (gg.formOf 3).denseLike && !(gg.formOf 0).isWork) = true ∧
    metB (.mmov (mv 3)) (mv 3) 1024 { gang0 (.mmov (mv 3)) with form := [(0, .work true 64 1), (3, .dense .f32)] } (fun _ gg _ =>
      (gg.formOf 0).isWork) = true ∧
    metB (.mmov (mv 1)) (mv 1) 1024 (gang0 (.mmov (mv 1))) (fun _ gg _ => !(gg.formOf 1).denseLike) = true ∧
    metB (.mst { m with d := .m 1 }) { m with d := .m 1 } 1024 (gang0 (.mst { m with d := .m 1 })) (fun _ gg _ => !(gg.formOf 1).denseLike) = true ∧
    metB (.mlrGet gt) gt 1024 (gang0 (.mlrGet gt)) (fun s gg lead =>
      decide ((gg.formOf 1).factRank = some 2) && (xferCheck s lead [0, 0] (factAccs false true 0 4 2 ++ factAccs false true 0 4 2)).isNone) = true ∧
    metB (.mlrInfo r0) r0 1024 (gang0 (.mlrInfo r0)) (fun _ _ _ => true) = true ∧
    metB (.mfenceOp r0) r0 1024 (gang0 (.mfenceOp r0)) (fun _ gg _ => gg.xfers.isEmpty && gg.hazards.isEmpty) = true ∧
    metB (.mwait { r0 with x := 4 }) { r0 with x := 4 } 1024 (gang0 (.mwait { r0 with x := 4 })) (fun _ gg _ =>
      [0, 1, 2, 3].all fun n => decide ((gg.streams.getD n (.fresh 0)).expb = 0)) = true ∧
    metB (.mwait { r0 with x := 3 }) { r0 with x := 3 } 1024
      { gang0 (.mwait { r0 with x := 3 }) with streams := [.fresh 0, .fresh 0, .fresh 0, (Obj.fresh 0).expect 1] } (fun _ gg _ =>
      [3].any fun n => decide ((gg.streams.getD n (.fresh 0)).expb ≠ 0)) = true := by decide +kernel

/-- A whole dense tile in the scratchpad loads and stores; factors of the rank cap (2) and of one more. -/
theorem witness_TransfersJoinTheLoadPath_tiles :
    let m : RArgs := { r0 with d := .m 3, a := .s 10, b := .imm 0, cs := .v 0, ty := .bf16 }
    let sets (r : BitVec 6) : RArgs := { r0 with d := .m 0, a := .s 10, b := .s 10, cs := .imm r, ty := .bf16 }
    let ok (w : Bool) (s : State) (gg : Gang) (lead : Tg) : Bool :=
      (gg.formOf 3).denseLike && (xferCheck s lead [0, 128] (denseAccs false w 0 128 2)).isNone
    let rank (r : Nat) (s : State) (_ : Gang) (lead : Tg) : Bool :=
      (xferCheck s lead [0, 0] (factAccs false false 0 2 r ++ factAccs false false 0 2 r)).isNone && decide (min lead.mode.rankcap.toNat 32 = 2)
    metB (.mld m) m 1024 (gang0 (.mld m)) (ok false) = true ∧ metB (.mst m) m 1024 (gang0 (.mst m)) (ok true) = true ∧
    metB (.mlrSet (sets 2)) (sets 2) 1024 (gang0 (.mlrSet (sets 2))) (rank 2) = true ∧
    metB (.mlrSet (sets 3)) (sets 3) 1024 (gang0 (.mlrSet (sets 3))) (rank 3) = true := by decide +kernel

/-- The load path of a gang without a hazard. -/
theorem witness_TransfersJoinTheLoadPath_path :
    (gangS 1024 (gang0 (.mzero r0)) (gangTg 0)).gang (gangTg 0).crew (gang0 (.mzero r0)).mask = some (gang0 (.mzero r0)) ∧
    (gang0 (.mzero r0)).hazards = [] ∧
    (let g : Gang := { gang0 (.mzero r0) with hazards := [{ op := 0, stream := 0, reads := [3], write := some 0, dense := false }] };
      (gangS 1024 g (gangTg 0)).gang (gangTg 0).crew g.mask = some g ∧ ∃ h ∈ g.hazards, h.uses 3 = true) := by decide +kernel

/-- Ranks at the cap (2) and above it; the stages of mlr.rcmp. -/
theorem witness_EngineInstructionsAskThenIssue :
    let mm : RArgs := { gForm 0 4 4 with cs := .v 0x0A }
    let ml := gForm 0 1 2
    let ad := gForm 0 2 2
    let dn := gForm 0 1 3
    let rc : RArgs := { gForm 0 1 0 with b := .s 20 }
    let go (_ : State) (_ : Gang) (_ : Tg) : Bool := true
    let ranks (a b : Nat) (k : Nat) (_ : State) (gg : Gang) (_ : Tg) : Bool :=
      decide ((gg.formOf 1).factRank = some a) && decide ((gg.formOf 2).factRank = some b) && decide ((gg.formOf 0).isWork = false) && decide (min a b = k)
    metB (.mma mm) mm 1024 (gang0 (.mma mm)) (fun _ gg _ => MOperand.formOk gg (srcTy mm) (.reg 4) && decide (gg.formOf 0 = .empty)) = true ∧
    metB (.mlrMul ml) ml 1024 (gang0 (.mlrMul ml)) (ranks 2 32 2) = true ∧
    metB (.mlrAdd ad) ad 1024 (gang0 (.mlrAdd ad)) (fun _ gg lead => decide (32 < 32 + 32 ∧ (gg.formOf 2).factRank = some 32 ∧ lead.mode.rmode = false)) = true ∧
    metB (.mlrMuld dn) dn 1024 (gang0 (.mlrMuld dn)) (fun _ gg _ => (gg.formOf 3).denseLike && decide ((gg.formOf 1).factRank = some 2)) = true ∧
    metB (.mlrMuld { dn with x := 4 }) { dn with x := 4 } 1024 (gang0 (.mlrMuld { dn with x := 4 })) go = true ∧
    metB (.mlrScl { dn with b := .s 10 }) { dn with b := .s 10 } 1024 (gang0 (.mlrScl { dn with b := .s 10 })) go = true ∧
    metB (.mlrTrunc { dn with b := .imm 2 }) { dn with b := .imm 2 } 1024 (gang0 (.mlrTrunc { dn with b := .imm 2 })) go = true ∧
    metB (.mlrDense dn) dn 227 (gang0 (.mlrDense dn)) (fits dn (.dense .f32) true) = true ∧
    metB (.mlrRcmp rc) rc 1024 (gang0 (.mlrRcmp rc)) (fun _ gg lead =>
      decide (lead.sAt 20 = 0) && decide ((rcmpArgs rc false).srcRank gg = some 2)) = true ∧
    metB (.mlrFact { rc with a := .m 3, b := .s 2 }) { rc with a := .m 3, b := .s 2 } 1024
      { gang0 (.mlrFact { rc with a := .m 3, b := .s 2 }) with form := [(0, .work true 64 1), (3, .dense .f32)] } (fun _ gg lead =>
      decide ((lead.sAt 2).toNat = 1) && decide (gg.formOf 0 = .work true 64 1)) = true := by decide +kernel

/-- mma.blk on two operand rings (FP8, K = 128, scale codes) and an output ring. -/
theorem witness_EngineInstructionsAskThenIssue_blk :
    let f : RArgs := { r0 with d := .imm 2, a := .imm 0, b := .imm 1, cs := .v 0x0B, ty := .f32 }
    let inRing : Ring := { ring0 with req := 0x000000010210A00B }
    let outRing : Ring := { ring0 with req := 0x0008800104100008 }
    let s := (gangS 1024 (gang0 (.mmaBlk f)) (gangTg 0)).modCrew (2 ^ 26) fun c => { c with rings := [(0, inRing), (1, inRing), (2, outRing)] }
    let m := mS (.mmaBlk f) s (gangTg 0)
    let lead := mL (.mmaBlk f) s (gangTg 0)
    meetB (.mmaBlk f) f s (gangTg 0) = true ∧ ringNum lead f.d = some 2 ∧ matArg lead f.a = some (.ring 0 0) ∧ matArg lead f.b = some (.ring 1 0) ∧
    (match stepsOk m lead (srcTy f) true (.ring 0 0) (.ring 1 0) with | .ok _ => true | .error _ => false) = true ∧ outRingOk m lead 2 = true := by
  decide +kernel

/-- A col that has asked; the token issues its operation, or leaves it to wait for a full queue. -/
def askG (f : RArgs) (ops : List EngineOp) : Gang :=
  { gang0 (.mlrDense f) with col := some { col1 (.mlrDense f) with arrived := [0, 1], request := some (0, 0) }, ops := ops }
def waitOp (n : Nat) : EngineOp :=
  { id := n, stream := 0, work := .dense 5 1, form := .dense .f32, overDense := false, started := false, result := none, poison := false, forms := [] }
theorem witness_EngineInstructionsAskThenIssue_token :
    let f := gForm 0 1 3
    let s (n : Nat) := gangS 1024 (askG f ((List.range n).map waitOp)) { gangTg 0 with wait := .col 3 }
    let s1 (s : State) : State := (({ s with ralf := { s.ralf with tokens := 1 } } : State).count (ctrDenial 0)).modGang (2 ^ 26) 3 fun g =>
      { g with col := g.col.map fun k => { k with token := true } }
    (earliest (s 15).tokenRequests = some (2 ^ 26, 3) ∧ (s 15).ralf.tokens < (s 15).ralf.pool ∧ (s 15).gang (2 ^ 26) 3 = some (askG f ((List.range 15).map waitOp)) ∧
      colStages (.mlrDense f) = none ∧
      (match (s1 (s 15)).gang (2 ^ 26) 3 with
        | some g1 => match colPlan (.mlrDense f) (s1 (s 15)) g1 { gangTg 0 with wait := .col 3 } with
          | some (.ok _) => true
          | _ => false
        | none => false) = true ∧ (s1 (s 15)).engineLoad 0 < 16) ∧
    (earliest (s 16).tokenRequests = some (2 ^ 26, 3) ∧ 16 ≤ (s1 (s 16)).engineLoad 0) ∧
    (let gg := askG f []; gg.streams.length = 4 ∧ (∀ h ∈ gg.hazards, h.stream = 3) ∧ gg.unfenced = [] ∧ gg.xfers = [] ∧
      (gg.valOf 15).fits .empty = true ∧ (gg.valOf 15).fits (.dense .f32) = false) := by decide +kernel

/-- The count of a denial at the end of a col; an mma and a partial tile of whole operands; the groups of products that R44 names. -/
theorem witness_EngineInstructionsAskThenIssue_sums :
    let i : Instr := .mlrDense (gForm 0 1 3)
    let gg : Gang := { gang0 i with col := some { col1 i with denied := some 0 } }
    let s := gangS 1024 gg (gangTg 0)
    let o : EngineOp := { waitOp 0 with work := .mma 0 (.reg 3) (.reg 4) .bf16 true }
    let rows := (MOperand.reg 3).vectors s (2 ^ 26) 0 gg false false
    (s.gang (2 ^ 26) 3 = some gg ∧ gg.col = some { col1 i with denied := some 0 }) ∧
    (rows.length = 64 ∧ o.work = .mma 0 (.reg 3) (.reg 4) .bf16 true ∧ ((MOperand.reg 4).vectors s (2 ^ 26) 0 gg true true).length = 64 ∧
      (MVal.acc (gg.valOf 0)).length = 4096) ∧
    (({ o with work := .mmaBlk (.ring 2 0) (.reg 3) (.reg 4) .bf16 } : EngineOp).work = .mmaBlk (.ring 2 0) (.reg 3) (.reg 4) .bf16 ∧
      ((MOperand.reg 4).vectors s (2 ^ 26) 0 gg true false).length = 64) ∧
    (∃ p : List Exact, .inf false ∈ p ∧ .inf true ∈ p) ∧ (∃ p : List Exact, .nan ∉ p ∧ .inf true ∈ p ∧ .inf false ∉ p) ∧
    (∃ p : List Exact, p ≠ [] ∧ ∀ x ∈ p, ∃ neg, x = .zero neg) ∧
    (∃ p : List Exact, (∀ x ∈ p, x.isFinite = true) ∧ (∃ neg n d, .fin neg n d ∈ p ∧ floorLog2 n d = 0) ∧
      ∀ neg n d, .fin neg n d ∈ p → floorLog2 n d ≤ 0) := by
  refine ⟨⟨by decide +kernel, rfl⟩, ⟨by decide +kernel, rfl, by decide +kernel, by decide +kernel⟩, ⟨rfl, by decide +kernel⟩,
    ⟨[.inf false, .inf true], by decide, by decide⟩, ⟨[.inf true], by decide, by decide, by decide⟩,
    ⟨[.zero true], by decide, fun x hx => ⟨true, List.mem_singleton.1 hx⟩⟩,
    ⟨[.fin false 3 2, .zero false], by decide, ⟨false, 3, 2, by decide, by decide⟩, fun neg n d h => ?_⟩⟩
  simp only [List.mem_cons, Exact.fin.injEq, reduceCtorEq, List.not_mem_nil, or_false] at h
  obtain ⟨rfl, rfl, rfl⟩ := h
  decide

/-! ### Tasks -/

/-- Entry 1 of the future table (ID 5), and a TG whose thread 0 holds its handle in f0 to f7. -/
def ent (state count : Nat) (doom : Bool) : Entry :=
  { result := 7, count := count, state := state, depth := 1, doom := doom, inl := false, lch := false, parent := 0, phase := 0, dl := 0, id := 5 }
def hand : W64 := 0x500001
def futS (e : Entry) (g : Tg) : State := (base.writeEntry 0x40020 e).setTg (2 ^ 30) g
def futG : Tg := { alone (at10 0x100000 tg0) with f := (List.range 8).map fun n => (n, Row.tab fun _ => { h := hand, counted := true }) }

theorem futS_lookup : (futS (ent 2 65535 false) futG).lookup 1 hand = .entry 0x40020 (ent 2 65535 false) := by decide +kernel

theorem only0 {t : Nat} (h : t ∈ (futG.acting r0.h).threads) : t = 0 := by
  rw [show (futG.acting r0.h).threads = [0] by decide +kernel] at h
  exact List.mem_singleton.1 h

/-- Counts of 65535, 2 and 1; a live, a doomed and a stale handle; a table entry out of range. -/
theorem witness_FutureReferencesAreCounted :
    let f : RArgs := { mForm .n8 with d := .f 7, a := .f 0, cs := .f 1 }
    let m : RArgs := { mForm .n8 with d := .f 7, a := .s 10, cs := .f 1 }
    let s := futS (ent 2 65535 false) futG
    s.Issues futG ∧ (∀ t ∈ (futG.acting f.h).threads, HandleOk s futG (heldHandle futG f.a t)) ∧
    ((st futG).Issues futG ∧ (futG.acting f.h).threads = [0] ∧ heldHandle futG f.a 0 ≠ 0 ∧ (st futG).lookup futG.ctx (heldHandle futG f.a 0) = .stale) ∧
    (∀ t ∈ (futG.acting m.h).threads, Updatable s futG (glAddr futG m 8 t) 8 ∧ HandleOk s futG (heldHandle futG m.cs t)) ∧
    (∀ t ∈ (futG.acting m.h).threads, Readable s futG (glAddr futG m 8 t) 8) ∧
    (∃ e, s.lookup 1 hand = .entry 0x40020 e ∧ ¬e.count < 65535 ∧ 1 < e.count) ∧
    (∃ e, (futS (ent 2 1 false) futG).lookup 1 hand = .entry 0x40020 e ∧ e.count = 1 ∧ e.state = 2) ∧
    (∃ e, (futS (ent 5 1 false) futG).lookup 1 hand = .entry 0x40020 e ∧ e.count = 1 ∧ e.state = 5) ∧
    s.ctx 1 = some demoContext ∧ demoContext.ftsize.toNat ≤ (16 : W64).toNat % 2 ^ 20 ∧
    (hand.extractLsb' 52 12 = 0 ∧ hand.toNat % 2 ^ 20 < demoContext.ftsize.toNat ∧ s.entryLoc 1 (hand.toNat % 2 ^ 20) = some 0x40020 ∧
      (s.readEntry 0x40020).id = hand.toNat / 2 ^ 20 % 2 ^ 32 ∧ (s.readEntry 0x40020).state ≠ 0) ∧
    ((st futG).readEntry 0x40020).state = 0 ∧
    (DropsReach s futG (futG.acting f.h).threads 7 ∧ (futG.fAt 7 0).counted = true ∧ (futG.fAt 7 0).h ≠ 0) ∧
    (let gone := s.modCtx 1 fun c => { c with ftbase := 0x80000000 };
      gone.Issues futG ∧ gone.lookup futG.ctx (futG.fAt 7 0).h = .noTable) := by
  refine ⟨⟨by decide +kernel, by decide +kernel⟩, fun t ht => ?_, ⟨issues_st _ (by decide +kernel), by decide +kernel, by decide +kernel, by decide +kernel⟩,
    fun t ht => ?_, fun t ht => ?_, ⟨_, futS_lookup, by decide, by decide⟩, ⟨ent 2 1 false, by decide +kernel, rfl, rfl⟩,
    ⟨ent 5 1 false, by decide +kernel, rfl, rfl⟩, by decide +kernel, by decide +kernel, by decide +kernel, by decide +kernel,
    ⟨fun t ht _ _ => ?_, by decide +kernel, by decide +kernel⟩, ⟨by decide +kernel, by decide +kernel⟩, by decide +kernel⟩
  rotate_left 3
  · obtain rfl := only0 ht
    rw [show (futG.fAt 7 0).h = hand by decide +kernel, show futG.ctx = 1 from rfl, futS_lookup]
    exact fun h => by cases h
  · obtain rfl := only0 ht
    exact .inr ⟨_, _, futS_lookup⟩
  · obtain rfl := only0 ht
    exact ⟨updatable_of (by decide +kernel), .inr ⟨_, _, futS_lookup⟩⟩
  · obtain rfl := only0 ht
    exact readable_of (by decide +kernel)

/-- A thread that goes with handles of a table that cannot be reached, and one without. -/
theorem witness_ExitRetiresItsThreads_tables :
    let gone := (st futG).modCtx 1 fun c => { c with ftbase := 0x80000000 }
    (gone.Issues futG ∧ FirstBad (goHandles futG (futG.acting r0.h).threads) (Unreached gone futG) (0, hand) ∧ (gone.ctx futG.ctx).isSome = true) ∧
    ∀ p ∈ goHandles tg0 (tg0.acting r0.h).threads, ¬Unreached (st tg0) tg0 p := by
  refine ⟨⟨⟨by decide +kernel, by decide +kernel⟩, ⟨[(0, 0)], (goHandles futG (futG.acting r0.h).threads).drop 2, by decide +kernel,
    ⟨by decide, by decide +kernel⟩, fun q hq => ?_⟩, by decide +kernel⟩, fun p hp h => ?_⟩
  · obtain rfl := List.mem_singleton.1 hq
    exact fun h => h.1 rfl
  · have : (goHandles tg0 (tg0.acting r0.h).threads).all (fun p => p.2 == 0) = true := by decide +kernel
    exact h.1 (by simpa using List.all_eq_true.1 this p hp)

/-- An inline frame of threads 0 and 1 whose last thread exits at its depth; its f[D] held nothing, and a handle whose table is gone. -/
def frame0 (h : W64) : InlineFrame :=
  { mask := 3, q := 1, ret := 0x20000, wbase := 0, rdepth := 0, spdone := 0, d := 7, fregs := [(7, Row.tab fun _ => { h := h, counted := h != 0 })]
    vtop := [], tasks := tg0.threads, children := [(0, hand)] }

theorem witness_ExitRetiresItsThreads_frame :
    let g (h : W64) : Tg := { alone tg0 with frames := [frame0 h] }
    let s1 := ((st (g 0)).setTg (2 ^ 30) ((g 0).advance 1)).removeThreads (2 ^ 30) ((g 0).acting r0.h)
    let gone := (st (g hand)).modCtx 1 fun c => { c with ftbase := 0x80000000 }
    (st (g 0)).Issues (g 0) ∧ (g 0).acting r0.h = (g 0).mask ∧ (g 0).reconv.depth = (frame0 0).rdepth ∧ (frame0 0).mask ≠ 0 ∧
    Readable s1 (s1.curTg (g 0)) 0x800000 1 ∧ Readable s1 (s1.curTg (g 0)) (0x800000 + 12287) 1 ∧
    (∀ p ∈ popHandles (frame0 0), ¬Unreached (st (g 0)) (g 0) p) ∧
    (gone.Issues (g hand) ∧ FirstBad (popHandles (frame0 hand)) (Unreached gone (g hand)) (0, hand)) := by
  refine ⟨issues_st _ (by decide +kernel), by decide +kernel, rfl, by decide, readable_of (by decide +kernel), readable_of (by decide +kernel), ?_,
    ⟨by decide +kernel, by decide +kernel⟩, ?_⟩
  · rw [show popHandles (frame0 0) = [] by decide +kernel]
    exact fun p hp => by cases hp
  · rw [show popHandles (frame0 hand) = [(0, hand)] by decide +kernel]
    exact first_one ⟨by decide, by decide +kernel⟩

/-- What the search for a free entry finds at an entry. -/
def look (s : State) (i : Nat) : Option FreeEntry := match s.entryLoc 1 i with
  | none => some (.noTable (((s.ctx 1).map fun c => c.entryVa i).getD 0))
  | some loc => if (s.readEntry loc).state = stFree then some (.found i loc (s.readEntry loc)) else none

/-- The search ends at one of the entries 1 to 15, wherever it starts, or finds nothing at any of them. -/
theorem findFree_cases {s : State} (h : ((s.ctx 1).any fun c => decide (c.ftsize.toNat = 16)) = true) :
    (s.findFree 1 = .full ∧ ∀ i, i < 16 → i ≠ 0 → look s i = none) ∨ ∃ i, i < 16 ∧ i ≠ 0 ∧ look s i = some (s.findFree 1) := by
  unfold State.findFree
  cases hcc : s.ctx 1 with
  | none => simp [hcc] at h
  | some c =>
    have hn : c.ftsize.toNat = 16 := by simpa [hcc] using h
    simp only [hn]
    cases hf : (List.range 16).findSome? fun k =>
      let i := (s.free 4 + k) % 16
      if i = 0 then none
      else match s.entryLoc 1 i with
      | none => some (FreeEntry.noTable (c.entryVa i))
      | some loc => if (s.readEntry loc).state = stFree then some (.found i loc (s.readEntry loc)) else none with
    | none =>
      refine .inl ⟨by simp only [Option.getD_none], fun i hi h0 => ?_⟩
      have := List.findSome?_eq_none_iff.1 hf ((16 + i - s.free 4 % 16) % 16) (List.mem_range.2 (by omega))
      rw [show (s.free 4 + (16 + i - s.free 4 % 16) % 16) % 16 = i by omega] at this
      simpa only [h0, if_false, look, hcc, Option.map_some, Option.getD_some] using this
    | some e =>
      obtain ⟨k, hk, he⟩ := List.exists_of_findSome?_eq_some hf
      refine .inr ⟨(s.free 4 + k) % 16, by omega, ?_⟩
      simp only at he
      split at he
      · cases he
      · rename_i h0
        exact ⟨h0, by simpa only [hf, Option.getD_some, look, hcc, Option.map_some] using he⟩

/-- Where the search finds something at every entry, that is what it answers. -/
theorem findFree_look {s : State} {p : FreeEntry → Bool} (h : (((s.ctx 1).any fun c => decide (c.ftsize.toNat = 16)) &&
    (List.range 16).all fun i => i == 0 || (look s i).any p) = true) : p (s.findFree 1) = true := by
  rw [Bool.and_eq_true] at h
  have at' : ∀ i, i < 16 → i ≠ 0 → (look s i).any p = true := fun i hi h0 => by
    simpa [h0] using List.all_eq_true.1 h.2 i (List.mem_range.2 hi)
  rcases findFree_cases h.1 with ⟨_, hn⟩ | ⟨i, hi, h0, he⟩
  · have := at' 1 (by decide) (by decide)
    rw [hn 1 (by decide) (by decide)] at this
    cases this
  · have := at' i hi h0
    rw [he] at this
    exact this

/-- Where it finds nothing at any, the table is full. -/
theorem findFree_full {s : State} (h : (((s.ctx 1).any fun c => decide (c.ftsize.toNat = 16)) &&
    (List.range 16).all fun i => i == 0 || (look s i).isNone) = true) : s.findFree 1 = .full := by
  rw [Bool.and_eq_true] at h
  rcases findFree_cases h.1 with ⟨hf, _⟩ | ⟨i, hi, h0, he⟩
  · exact hf
  · have := List.all_eq_true.1 h.2 i (List.mem_range.2 hi)
    simp [h0, he] at this

/-- Whether a search found an entry. -/
def isFound : FreeEntry → Bool
  | .found .. => true
  | _ => false
theorem found_of {e : FreeEntry} (h : isFound e = true) : ∃ i loc x, e = .found i loc x := by
  cases e <;> simp [isFound] at h ⊢

/-- An entry header with REGS 16 and timer 64 at 0x1FFFF8. -/
def spawnG : Tg := withS [(11, 0x200000), (12, 1)] futG
def spawnS : State := stm [(0x1FFFF8, 8, 0x400010)] spawnG
/-- A bin of that entry with 95 threads. -/
def bin95 : Bin := { launch := 1, entry := 0x200000, regs := 16, due := 100, threads := List.replicate 95 { handle := hand, payload := 0, depth := 2, srec := .unreserved, dl := 0 } }

/-- The smallest legal launch descriptor. -/
def descBytes : List Byte := (List.range 256).map fun i => if i = 44 ∨ i = 48 ∨ i = 61 then 1 else if i = 49 then 16 else 0

theorem witness_SpawnLaunchAndBins :
    let f : RArgs := { r0 with d := .f 2, a := .s 11, b := .imm 0, x := 1 }
    let deep : Tg := { spawnG with threads := Row.tab fun _ => { own := hand, depth := 15, srec := .none, hold := false } }
    spawnS.Issues spawnG ∧ spawnG.acting (hd 0 false false false) = 0 ∧ spawnG.once (hd 0 false false false) = none ∧ spawnG.once f.h = some 0 ∧
    (spawnG.acting f.h).lowest = some 0 ∧ (∃ p, checkEntry spawnS spawnG (entryAddr spawnG f) 0 = .ok p) ∧
    (∀ t, t < 96 → (spawnG.acting f.h).has t = true → (spawnG.taskAt t).depth ≠ 15) ∧
    ((spawnS.setTg (2 ^ 30) deep).Issues deep ∧ (deep.acting f.h).threads.filter (fun t => (deep.taskAt t).depth == 15) = [0] ∧
      (∃ p, checkEntry (spawnS.setTg (2 ^ 30) deep) deep (entryAddr deep f) 0 = .ok p)) ∧
    (spawnG.sAt (Spec.num (Spec.s 12))).toNat % 256 ≠ 0 ∧ ((spawnG.sAt (Spec.num f.a)).toNat % 256 = 0 ∧ f.x.getLsbD 0 = true ∧
      ∃ s2 h, (spawnS.drain spawnS.cur).allocEntry spawnG.ctx 2 0 (hIndex (spawnG.taskAt 0).own) spawnG.task.tgdl false true = .ok (s2, h)) ∧
    DropsReach spawnS spawnG [0] 2 ∧
    ((spawnS.die 0).unreserved < 65521 ∧ (∃ i loc e, (spawnS.modDie 0 fun d => { d with unreserved := d.unreserved + 1 }).findFree 1 = .found i loc e) ∧ (spawnS.die 0).bins = []) ∧
    (((spawnS.modDie 0 fun d => { d with bins := [(3, bin95)] }).die 0).bins.find? (fun p => p.2.launch == 1 && p.2.entry == 0x200000) = some (3, bin95) ∧
      bin95.threads.length = 95) ∧
    (spawnS.ctx 1 = some demoContext ∧ Desc.legal descBytes (Desc.ofBytes descBytes) = true ∧ (Desc.ofBytes descBytes).nhandle = 0 ∧
      Desc.legal (List.replicate 256 0) (Desc.ofBytes (List.replicate 256 0)) = false) := by
  have ok : ∀ (s : State) (g : Tg), (match checkEntry s g 0x200000 0 with | .ok _ => true | .error _ => false) = true → ∃ p, checkEntry s g 0x200000 0 = .ok p := by
    intro s g h
    split at h
    · exact ⟨_, ‹_›⟩
    · cases h
  refine ⟨⟨by decide +kernel, by decide +kernel⟩, by decide +kernel, by decide +kernel, by decide +kernel, by decide +kernel, ok _ _ (by decide +kernel),
    by decide +kernel, ⟨⟨by decide +kernel, by decide +kernel⟩, by decide +kernel, ok _ _ (by decide +kernel)⟩, by decide +kernel, ⟨by decide +kernel, rfl, ?_⟩, ?_,
    ⟨by decide +kernel, found_of (findFree_look (by decide +kernel)), by decide +kernel⟩, ⟨by decide +kernel, by decide +kernel⟩,
    ⟨by decide +kernel, by decide +kernel, by decide +kernel, by decide +kernel⟩⟩
  · obtain ⟨i, loc, e, hp⟩ := found_of (findFree_look (s := spawnS.drain spawnS.cur) (by decide +kernel))
    unfold State.allocEntry
    rw [show spawnG.ctx = 1 from rfl, hp]
    exact ⟨_, _, rfl⟩
  · intro t ht _ _
    obtain rfl := List.mem_singleton.1 ht
    decide +kernel


/-- The last spawn of a thread with a record, where the search for an entry ends otherwise. -/
theorem spawnAll_one {s : State} {g : Tg} {x : SpawnArgs} {pay : Nat → W64} {t : Nat} {p : State × SpawnRec} (hg : s.tg s.cur = some g)
    (hr : s.takeRecord (dieOf g.core) ((g.taskAt t).depth + 1) = some p) :
    (p.1.findFree g.ctx = .full → (s.spawnAll s.cur x pay [t]).2 = some .park) ∧
    (∀ va, p.1.findFree g.ctx = .noTable va → (s.spawnAll s.cur x pay [t]).2 = some (.noTable va t)) := by
  obtain ⟨s1, rec⟩ := p
  refine ⟨fun h => ?_, fun va h => ?_⟩ <;>
    simp only [State.spawnAll, State.spawnOne, hg, hr, State.allocEntry, h]

theorem record_free {s : State} {die d : Nat} (h : (s.die die).unreserved < 65521) :
    s.takeRecord die d = some (s.modDie die fun y => { y with unreserved := y.unreserved + 1 }, .unreserved) := if_pos h

/-- Threads spawned before the reissue; a full table, one that cannot be reached, and no record left; every bin in use, and a bin with room. -/
theorem witness_SpawnLaunchAndBins_ends :
    let x : SpawnArgs := { d := 2, entry := 0x200000, regs := 16, timer := 64 }
    let pay (_ : Nat) : W64 := 0
    let full := (List.range 15).foldl (fun s i => s.writeEntry (0x40020 + 32 * i) (ent 2 1 false)) spawnS
    let gone := spawnS.modCtx 1 fun c => { c with ftbase := 0x80000000 }
    let none' := spawnS.modDie 0 fun d => { d with unreserved := 65521, reserved := 2 }
    let bins (n k : Nat) : SMap Bin := (List.range n).map fun i => (i, { bin95 with launch := if i + 1 = n then k else 9, threads := [] })
    ((spawnG.acting r0.h &&& ~~~(1 : Mask)).threads = [] ∧ (spawnS.spawnAll spawnS.cur x pay []).2 = none) ∧
    (full.spawnAll full.cur x pay [0]).2 = some .park ∧ (∃ va, (gone.spawnAll gone.cur x pay [0]).2 = some (.noTable va 0)) ∧
    ((none'.spawnAll none'.cur x pay [0]).2 = some .noRecord ∧ (none'.launch spawnG.launch).map (fun l => l.desc.modes.getLsbD 3) = some false) ∧
    (∀ p ∈ bins 512 8, (p.2.launch == 1 && p.2.entry == 0x200000) = false) ∧ 512 ≤ (bins 512 8).length ∧
    ((bins 3 1).find? (fun p => p.2.launch == 1 && p.2.entry == 0x200000)).map (fun p => p.2.threads.length) = some 0 := by
  refine ⟨by decide +kernel, ?_, ?_, by decide +kernel, by decide +kernel, by decide +kernel, by decide +kernel⟩
  · exact (spawnAll_one (g := spawnG) (by decide +kernel) (record_free (by decide +kernel))).1 (findFree_full (by decide +kernel))
  · have h := findFree_look (p := fun e => match e with | .noTable _ => true | _ => false)
      (s := (spawnS.modCtx 1 fun c => { c with ftbase := 0x80000000 }).modDie 0 fun y => { y with unreserved := y.unreserved + 1 }) (by decide +kernel)
    split at h
    · rename_i va hv
      exact ⟨va, (spawnAll_one (g := spawnG) (by decide +kernel) (record_free (by decide +kernel))).2 va hv⟩
    · cases h

/-- fspawn without a record in the inline mode: at INLDEPTH, beyond the talus, beyond the resident registers, and in a frame whose pages answer
with a free entry. -/
theorem witness_SpawnLaunchAndBins_inline :
    let s := (spawnS.modDie 0 fun d => { d with unreserved := 65521, reserved := 2 }).modLaunch 1 fun l => { l with desc := { l.desc with modes := 8 } }
    let x : SpawnArgs := { d := 2, entry := 0x200000, regs := 16, timer := 64 }
    let win (b : W32) : Tg := { spawnG with win := { spawnG.win with wbase := b, wlo := 0, wtlim := 32 } }
    let top (g : Tg) : Nat := g.win.wbase.toNat + 56 + 64
    s.tg s.cur = some spawnG ∧ (s.spawnAll s.cur x (fun _ => 0) [0]).2 = some .noRecord ∧
    ((s.spawnAll s.cur x (fun _ => 0) [0]).1.launch spawnG.launch).map (fun l => l.desc.modes.getLsbD 3) = some true ∧
    (spawnG.acting r0.h &&& ~~~spawnG.task.spdone).lowest = some 0 ∧
    ({ spawnG with task := { spawnG.task with inldepth := 0 } } : Tg).task.inldepth.toNat ≤ spawnG.frames.length ∧
    spawnG.frames.length < spawnG.task.inldepth.toNat ∧ min 65536 ((win 169).win.wtlim.toNat + (win 169).win.k) < top (win 169) ∧
    (top (win 137) ≤ min 65536 ((win 137).win.wtlim.toNat + (win 137).win.k) ∧ (win 137).win.wlo.toNat + (win 137).win.k < top (win 137)) ∧
    (top spawnG ≤ min 65536 (spawnG.win.wtlim.toNat + spawnG.win.k) ∧ top spawnG ≤ spawnG.win.wlo.toNat + spawnG.win.k) ∧
    (∀ v ∈ rangeBlocks 0x800000 12288 ++ [0x800000 + 12287], s.checkGl 0 1 [(0, BitVec.ofNat 64 v)] 1 .store = none) ∧
    ∃ p, s.inlineEntries spawnG [0] = .ok p := by
  refine ⟨by decide +kernel, by decide +kernel, by decide +kernel, by decide +kernel, by decide +kernel, by decide +kernel, by decide +kernel,
    by decide +kernel, by decide +kernel, by decide +kernel, ?_⟩
  obtain ⟨i, loc, e, hp⟩ := found_of (findFree_look (s := (spawnS.modDie 0 fun d => { d with unreserved := 65521, reserved := 2 }).modLaunch 1
    fun l => { l with desc := { l.desc with modes := 8 } }) (by decide +kernel))
  unfold State.inlineEntries State.allocEntry
  rw [show spawnG.ctx = 1 from rfl, hp]
  exact ⟨_, rfl⟩

/-- An entry that is complete, one that runs, one that is doomed; a null handle; a thread with a task of its own and one without. -/
theorem witness_FuturesAreWaitedForPolledAndPut :
    let f : RArgs := { mForm .n64 with d := .v 62, a := .f 0, cs := .p 7 }
    let null : Tg := { futG with f := [] }
    let own : Tg := { futG with threads := Row.tab fun _ => { own := hand, depth := 1, srec := .none, hold := false } }
    let s := futS (ent 3 1 false) futG
    let run := futS (ent 2 1 false) futG
    s.Issues futG ∧ f.d = .v 62 ∧ f.cs = .p 7 ∧
    (∀ t, t < 96 → (futG.acting f.h).has t = true → heldHandle futG f.a t ≠ 0 ∧ (s.entryOf futG.ctx (heldHandle futG f.a t)).isSome = true ∧
      ((s.entryOf futG.ctx (heldHandle futG f.a t)).any fun e => e.state == 3 || e.state == 5) = true) ∧
    run.Issues futG ∧ (∀ t, t < 96 → (futG.acting f.h).has t = true → heldHandle futG f.a t ≠ 0 ∧ (run.entryOf futG.ctx (heldHandle futG f.a t)).isSome = true) ∧
    (Mask.has (futG.acting f.h) 0 = true ∧ ((run.entryOf futG.ctx (heldHandle futG f.a 0)).any fun e => e.state == 3 || e.state == 5) = false) ∧
    ((st null).Issues null ∧ (null.acting f.h).threads = [0] ∧ heldHandle null f.a 0 = 0) ∧
    ((run.setTg (2 ^ 30) own).Issues own ∧ (own.acting f.h).threads = [0] ∧ (own.taskAt 0).own ≠ 0 ∧ (run.setTg (2 ^ 30) own).lookup own.ctx (own.taskAt 0).own ≠ .noTable) ∧
    (futG.taskAt 0).own = 0 ∧ (futG.acting (hd 0 false false false)).threads = [] ∧
    (let g1 := (futG.setHold (futG.acting f.h) false).advance 1; (s.setTg s.cur g1).reclaimable g1 = 0) ∧
    futG.once (hd 0 false false false) = none ∧ futG.once f.h ≠ none ∧ (s.launch futG.launch).isSome = true ∧
    run.lookup 1 hand = .entry 0x40020 (ent 2 1 false) ∧ (futS (ent 2 0 true) futG).lookup 1 hand = .entry 0x40020 (ent 2 0 true) ∧
    s.lookup 1 hand = .entry 0x40020 (ent 3 1 false) := by
  have null0 : ∀ g : Tg, (g.acting r0.h = 1) → ∀ t, t < 96 → (g.acting r0.h).has t = true → t = 0 := fun g h t ht ha => has_one ht (h ▸ ha)
  refine ⟨⟨by decide +kernel, by decide +kernel⟩, rfl, rfl, fun t ht ha => ?_, ⟨by decide +kernel, by decide +kernel⟩, fun t ht ha => ?_,
    ⟨by decide +kernel, by decide +kernel⟩, ⟨issues_st _ (by decide +kernel), by decide +kernel, by decide +kernel⟩,
    ⟨⟨by decide +kernel, by decide +kernel⟩, by decide +kernel, by decide +kernel, by decide +kernel⟩, by decide +kernel, by decide +kernel, by decide +kernel,
    by decide +kernel, by decide +kernel, by decide +kernel, by decide +kernel, by decide +kernel, by decide +kernel⟩
  · obtain rfl := null0 futG (by decide +kernel) t ht ha
    exact ⟨by decide +kernel, by decide +kernel, by decide +kernel⟩
  · obtain rfl := null0 futG (by decide +kernel) t ht ha
    exact ⟨by decide +kernel, by decide +kernel⟩

/-! ### Macros -/

/-- Control words of 0 and scalars of 0 are legal; candidates of thread 0 in its registers and in slot 1; a macro of an image. -/
theorem witness_MacrosStartAndComplete :
    let g := withS [(40, 0), (41, 0), (59, 0)] tg0
    let fl : Tg := { tg0 with v := SMap.set [] tg0.v 52 (Row.tab fun _ => 0xF10) }
    let rs := withS [(48, 0x0001000100000000), (53, 0), (55, 8)] tg0
    let im : Microcode := { ver := 1, fndef := 0x8000000000000000, fnpriv := 0x8000000000000000, longi := 0, longk := 0, image := [] }
    let mc : State := { st tg0 with microcode := [(7, im)] }
    let x : McArgs := { slot := 7, g := 7, n := false, u := false, safe := false, fn := 63, d := 0, a := 0, b := 0, c := 0, long := none }
    let tr : Tg := { alone (withS [(41, 0x100000)] tg0) with v := SMap.set [] tg0.v 49 (Row.tab fun _ => 0x28000) }
    ((st g).Issues g ∧ (g.sAt 40).toNat % 64 = 0 ∧ (g.sAt 41).toNat % 16 = 0 ∧ (g.sAt 59).toNat % 16 = 0 ∧ (∀ t, t < 96 → (Ctl.of (g.vAt 49 t)).legal = true) ∧
      (∀ t, t < 96 → g.mask.has t = (g.acting r0.h).has t) ∧ g.mask ≠ 0 ∧ g.stopPending = false) ∧
    ((0 : Mask) = 0 ∧ macCallback tg0 (running (.trav r0) 1 0 none) = false) ∧
    ((st fl).Issues fl ∧ (fl.sAt 3).toNat % 32 = 0 ∧ (∀ t, t < 96 → filtLegal fl t = true)) ∧
    ((tg0.sAt 3).toNat % 16 = 0 ∧ (tg0.sAt 3).extractLsb' 34 30 = 0 ∧ (∀ t, t < 96 → (tg0.vAt 60 t).extractLsb' 12 4 = 0 ∧ (tg0.vAt 60 t).extractLsb' 24 8 = 0)) ∧
    (tg0.once (hd 0 false false false) = none ∧ (st rs).Issues rs ∧ rs.once r0.h ≠ none ∧ (rs.sAt 48).toNat % 16 = 0 ∧ (rs.sAt 53).toNat % 16 = 0 ∧ rastLegal rs = true ∧
      (rs.sAt 55).toNat % 256 = 8 ∧ rs.stopPending = false) ∧
    (mc.Issues tg0 ∧ (st tg0).imageFor tg0 7 = none ∧ mc.imageFor tg0 7 = some im ∧ im.fndef.getLsbD 63 = true ∧ mcLongOk im x = true ∧ mc.privileged tg0 = true) ∧
    (Ty.n32 = .n32 ∧ DataHyps (st tg0) tg0 (vForm .f32)) ∧
    ((st tr).Issues tr ∧ (tr.acting r0.h).threads.filter (fun t => (Ctl.of (tr.vAt 49 t)).rv) = [0] ∧
      accB (st tr) tr (recVa tr 0 1) 16 false false = true ∧ accB (st tr) tr (cellVa tr 0 1) 8 true false = true ∧
      (macNat (st tr) tr (cellVa tr 0 1) 8 = 0 ∧ (let w := stm [((st tr).locOf 0 1 (cellVa tr 0 1).toNat, 8, hand.toNat)] tr |>.modCtx 1 fun c => { c with ftbase := 0x80000000 };
        macNat w tr (cellVa tr 0 1) 8 = hand.toNat ∧ w.lookup 1 hand = .noTable))) :=
  ⟨⟨issues_st _ (by decide +kernel), by decide +kernel, by decide +kernel, by decide +kernel, by decide +kernel, by decide +kernel, by decide +kernel, by decide +kernel⟩,
    ⟨rfl, by decide +kernel⟩, ⟨issues_st _ (by decide +kernel), by decide +kernel, by decide +kernel⟩, ⟨by decide +kernel, by decide +kernel, by decide +kernel⟩,
    ⟨by decide +kernel, issues_st _ (by decide +kernel), by decide +kernel, by decide +kernel, by decide +kernel, by decide +kernel, by decide +kernel, by decide +kernel⟩,
    ⟨⟨by decide +kernel, by decide +kernel⟩, by decide +kernel, by decide +kernel, by decide +kernel, by decide +kernel, by decide +kernel⟩,
    ⟨rfl, data_v _⟩, ⟨issues_st _ (by decide +kernel), by decide +kernel, by decide +kernel, by decide +kernel, by decide +kernel⟩⟩

/-! ### Traps and system instructions -/

/-- Outside a handler, in one, and with a TVEC of 0. -/
def inHandler (cause : BitVec 9) (tpc : W64) : Tg := { tg0 with trap := { tg0.trap with tstat := true, tcause := cause, tpc := tpc } }

theorem witness_TrapEntryAndReturn :
    (st tg0).tg (2 ^ 30) = some tg0 ∧ (tg0.trap.tstat = false ∧ tg0.trap.tvec ≠ 0) ∧
    (st { tg0 with trap := { tg0.trap with tvec := 0 } }).tg (2 ^ 30) = some { tg0 with trap := { tg0.trap with tvec := 0 } } ∧
    ((st tg0).launch tg0.launch).isSome = true ∧ (st tg0).Issues tg0 ∧ tg0.once (hd 0 false false false) = none ∧ tg0.once r0.h = some 0 ∧
    ((st (inHandler 0x101 0)).Issues (inHandler 0x101 0) ∧ (inHandler 0x101 0).trap.tcause.getLsbD 8 = true) ∧
    ((st (inHandler 0x14 4)).Issues (inHandler 0x14 4) ∧ (inHandler 0x14 4).trap.tcause.getLsbD 8 = false ∧ (inHandler 0x14 4).trap.tpc.toNat % 8 ≠ 0) ∧
    (2 ^ 57 ≤ (inHandler 0x14 0x0200000000000000).trap.tpc.toNat ∧ (inHandler 0x14 0x0200000000000000).trap.tpc.toNat % 8 = 0) ∧
    ((st (inHandler 0x14 0x01FFFFFFFFFFFFF8)).Issues (inHandler 0x14 0x01FFFFFFFFFFFFF8) ∧
      (inHandler 0x14 0x01FFFFFFFFFFFFF8).trap.tpc.toNat % 8 = 0 ∧ (inHandler 0x14 0x01FFFFFFFFFFFFF8).trap.tpc.toNat < 2 ^ 57) :=
  ⟨st_tg _, ⟨rfl, by decide⟩, st_tg _, by decide +kernel, issues0, by decide +kernel, by decide +kernel, ⟨issues_st _ (by decide +kernel), rfl⟩,
    ⟨issues_st _ (by decide +kernel), rfl, by decide⟩, ⟨by decide, by decide⟩, ⟨issues_st _ (by decide +kernel), by decide, by decide⟩⟩

/-- `st` with its context outside a system. -/
def userS (g : Tg) : State := (st g).modCtx 1 fun c => { c with system := false }

/-- Both kinds of context, values at the ends of their ranges, and an image at the end of the mapped GiB that is too short to be legal and one
that is legal. -/
theorem witness_SystemRegistersAndPrivilege :
    let reg (n : BitVec 6) : RArgs := { r0 with d := .s 3, a := .s 3, cs := .v n }
    let g (x : W64) : Tg := withS [(3, x)] tg0
    let ld : RArgs := { r0 with d := .s 3, a := .s 4, b := .imm 7 }
    let at' (a : W64) : Tg := withS [(4, a)] tg0
    let im := stm [(0x100000, 8, 8)] (at' 0x100000)
    (st tg0).Issues tg0 ∧ tg0.once (hd 0 false false false) = none ∧ tg0.once r0.h = some 0 ∧ (st tg0).privileged tg0 = true ∧
    ((userS tg0).Issues tg0 ∧ (userS tg0).privileged tg0 = false ∧ srn (reg 0x33) ∈ systemOnly ∧ srn (reg 0x1E) ∉ systemOnly) ∧
    (st tg0).ctx tg0.ctx = some demoContext ∧ (sysRegs (st tg0) tg0 demoContext ((st tg0).die 0)).map (·.1) ≠ [] ∧ srn (reg 0x2E) = 0x2E ∧
    (SysValue (srn (reg 0x1E)) ((g 63).sAt 3) ∧ ¬SysValue (srn (reg 0x1E)) ((g 64).sAt 3)) ∧
    (SysValue (srn (reg 0x32)) ((g 1024).sAt 3) ∧ ¬SysValue (srn (reg 0x32)) ((g 1023).sAt 3)) ∧
    ((g 0x5BC).sAt 3).toNat / 256 = 5 ∧ ((g 0x800).sAt 3).toNat % 2048 = 0 ∧ ((g 0x400).sAt 3).toNat % 2048 ≠ 0 ∧
    (ld.d = .s 3 ∧ (∀ n, ld.b ≠ .s n) ∧ Spec.num ld.b = 7 ∧ ({ ld with b := .imm 8 } : RArgs).b = .imm 8) ∧
    ((at' 4).sAt (Spec.num ld.a)).toNat % 64 ≠ 0 ∧
    ((st (at' 0x3FFFFFC0)).Issues (at' 0x3FFFFFC0) ∧ Readable (st (at' 0x3FFFFFC0)) (at' 0x3FFFFFC0) ((at' 0x3FFFFFC0).sAt (Spec.num ld.a)) 64 ∧
      leNat (((imageBytes (st (at' 0x3FFFFFC0)) (at' 0x3FFFFFC0) 0x3FFFFFC0 64).drop 0).take 8) = 0) ∧
    ((let s := st (at' 0x3FFFFFC0); let e : State := { s with ralf := { s.ralf with keysErased := true } };
      e.Issues (at' 0x3FFFFFC0) ∧ Readable e (at' 0x3FFFFFC0) ((at' 0x3FFFFFC0).sAt (Spec.num ld.a)) 64 ∧ s.ralf.keysErased = false ∧ im.ralf.keysErased = false)) ∧
    (im.Issues (at' 0x100000) ∧ leNat (((imageBytes im (at' 0x100000) 0x100000 64).drop 0).take 8) = 8 ∧
      leNat (((imageBytes im (at' 0x100000) 0x100000 64).drop 48).take 16) = 0 ∧
      (∀ v ∈ rangeBlocks 0x100000 (64 + 8 + 96), Readable im (at' 0x100000) (BitVec.ofNat 64 v) 1)) := by
  refine ⟨issues0, by decide +kernel, by decide +kernel, by decide +kernel, ⟨⟨by decide +kernel, by decide +kernel⟩, by decide +kernel, by decide, by decide⟩,
    by decide +kernel, by decide +kernel, by decide, ⟨⟨by decide +kernel, by decide +kernel, by decide +kernel, by decide +kernel, ?_, by decide +kernel, by decide +kernel, by decide +kernel⟩, fun h => ?_⟩,
    ⟨⟨by decide +kernel, by decide +kernel, by decide +kernel, by decide +kernel, ?_, by decide +kernel, by decide +kernel, by decide +kernel⟩, fun h => ?_⟩,
    by decide +kernel, by decide +kernel, by decide +kernel, ⟨rfl, by decide, by decide, rfl⟩, by decide +kernel,
    ⟨issues_st _ (by decide +kernel), readable_of (by decide +kernel), by decide +kernel⟩,
    ⟨⟨by decide +kernel, by decide +kernel⟩, readable_of (by decide +kernel), by decide +kernel, by decide +kernel⟩,
    ⟨⟨by decide +kernel, by decide +kernel⟩, by decide +kernel, by decide +kernel, ?_⟩⟩
  · exact fun h => absurd h (by decide)
  · exact absurd (h.2.2.1 (by decide)) (by decide +kernel)
  · exact fun h => absurd h (by decide)
  · exact absurd (h.2.2.2.2.2.1 (by decide)).1 (by decide +kernel)
  · intro v hv
    rw [show rangeBlocks 0x100000 (64 + 8 + 96) = [0x100000] by decide +kernel] at hv
    obtain rfl := List.mem_singleton.1 hv
    exact readable_of (by decide +kernel)

/-! ### Steps of the other agents -/

/-- A copy of two FP32 elements from global memory to the last of the mapped GiB, with bytes of its second element read, bytes on their
way and bytes landed; a push of ring 0 with a free slot, and a pull of it with a full one. -/
def copyOp (src : W64) (part : SMap Byte) (pend : List CByte) (done : Nat) : CopyOp :=
  { tg := 2 ^ 30, dl := 0, ctx := 1, crew := 2 ^ 26, launch := 1, core := 0, obj := obj0, objVa := none, work := .tile (oneD src 0x3FFFFFF8 1 1 2 .f32), got := []
    parts := if part = [] then [] else [(1, part)], pend := pend, done := done, fault := none, dead := false, rel := 0 }
def subOp (pull : Bool) (base : W64) : CopyOp := { copyOp 0 [] [] 0 with work := .sub 0 pull base 0x100 2 0 256 0 }
/-- `stPage` with one operation outstanding and ring 0. -/
def unitS (bits : Nat) (o : CopyOp) (r : Ring) : State :=
  { (stPage bits tg0).modCrew (2 ^ 26) (fun c => { c with rings := [(0, r)] }) with copies := [(4, o)] }

/-- How the page of an access of the operation answers: 0 it does, 1 it ends the operation, 2 it is not resident. -/
def pageKind (s : State) (addr : Nat) (write : Bool) : Nat := match s.translate 0 1 addr with
  | .bad => 1
  | .leaf e r => if unanswered (s.lostBy (2 ^ 30)) e.loc || write && (!e.w || e.b) then 1 else if r then 0 else 2
theorem page_of {s : State} {o : CopyOp} {addr : Nat} {write : Bool} (ho : o.core = 0 ∧ o.ctx = 1 ∧ o.tg = 2 ^ 30) :
    (pageKind s addr write = 0 → Answers s o 1 addr write) ∧ (pageKind s addr write = 1 → Ends s o 1 addr write) ∧
    (pageKind s addr write = 2 → Absent s o 1 addr write) := by
  unfold pageKind Answers Ends Absent
  rw [ho.1, ho.2.1, ho.2.2]
  cases ht : s.translate 0 1 addr with
  | bad => simp
  | leaf e r =>
    cases hu : unanswered (s.lostBy (2 ^ 30)) e.loc <;> cases write <;> cases r <;> cases hw : e.w <;> cases hb : e.b <;>
      simp_all
def pagesB (s : State) (va n : Nat) (ok : TlbEntry → Bool → Bool) : Bool := (rangeBlocks va n).all fun v => match s.translate 0 1 v with
  | .leaf e r => ok e r
  | .bad => false
theorem pages_of {s : State} {va n : Nat} {ok : TlbEntry → Bool → Bool} (h : pagesB s va n ok = true) :
    ∀ v ∈ rangeBlocks va n, ∃ e r, s.translate 0 1 v = .leaf e r ∧ ok e r = true := by
  intro v hv
  have := List.all_eq_true.1 h v hv
  split at this
  · exact ⟨_, _, ‹_›, this⟩
  · cases this

/-- The last byte of an element to read with three and with none read before it, at a page of each kind; the last byte to write, of which one
and of which no byte is left after it, at a page of each kind; an operation that is dead; a subscription that begins a tile, each way, on
resident pages, beyond 2^57 and on pages that may not be its. -/
theorem witness_UnitEventsComplete_copies :
    let b (a : Nat) : CByte := { sp := 1, addr := a, claim := 0, val := 9 }
    let at' (src : W64) (part : SMap Byte) : CopyOp := copyOp src part [] 0
    let full : Ring := { ring0 with pc := 1, pcl := 1 }
    let three : SMap Byte := [(0, 1), (1, 2), (2, 3)]
    let o0 := at' 0x3FFFFF00 three
    let w (a : Nat) (done : Nat) := copyOp 0 [] [b a] done
    (SMap.find (unitS 0xEF o0 ring0).copies 4 = some o0 ∧ 1 < o0.work.units ∧ 3 < o0.work.reads ∧ Ivs.has o0.got 1 = false ∧ SMap.has (o0.partOf 1) 3 = false ∧
      o0.source (unitS 0xEF o0 ring0) 1 3 (o0.partOf 1) = .byte 1 0x3FFFFF07 0 ∧ Answers (unitS 0xEF o0 ring0) o0 1 0x3FFFFF07 false ∧
      ({ o0 with parts := [(1, three ++ [(3, 4)])] } : CopyOp).unitRead (unitS 0xEF o0 ring0) 1 = true ∧
      ({ at' 0x3FFFFF00 [(3, 4)] with got := [] } : CopyOp).unitRead (unitS 0xEF o0 ring0) 1 = false ∧ o0.work.side true = none ∧ o0.work.side false = none ∧
      (unitS 0xEF o0 ring0).mayBegin 4 o0 = true) ∧
    (let new := at' 0x3FFFFF00 []; let two : State := { unitS 0xEF new ring0 with copies := [(4, { new with tg := 1, dl := 5 }), (5, { new with tg := 1, dl := 9 })] };
      SMap.find two.copies 5 = some { new with tg := 1, dl := 9 } ∧ SMap.find two.copies 4 = some { new with tg := 1, dl := 5 } ∧ new.started = false ∧
      two.canBegin 4 { new with tg := 1, dl := 5 } = true ∧ two.copyDeadline 4 < two.copyDeadline 5) ∧
    ((at' 0x7FFFFFFC []).source (unitS 0xEF o0 ring0) 1 3 [] = .byte 1 0x80000003 0 ∧ Ends (unitS 0xEF o0 ring0) (at' 0x7FFFFFFC []) 1 0x80000003 false) ∧
    ((at' 0x40000000 []).source (unitS 0xCF o0 ring0) 1 3 [] = .byte 1 0x40000007 0 ∧ Absent (unitS 0xCF o0 ring0) (at' 0x40000000 []) 1 0x40000007 false) ∧
    (Answers (unitS 0xEF (w 0x3FFFFFFF 0) ring0) (w 0x3FFFFFFF 0) 1 0x3FFFFFFF true ∧
      ({ w 0x3FFFFFFF 6 with done := 7 } : CopyOp).left ≠ 0 ∧ ({ w 0x3FFFFFFF 7 with done := 8 } : CopyOp).left = 0) ∧
    (Ends (unitS 0xEB (w 0x40000000 0) ring0) (w 0x40000000 0) 1 0x40000000 true ∧ Absent (unitS 0xCF (w 0x40000000 0) ring0) (w 0x40000000 0) 1 0x40000000 true) ∧
    ((o0.left ≠ 0) ∧ ({ o0 with dead := true } : CopyOp).dead = true) ∧
    (let o := subOp false 0x3FFFFF00; SMap.find (unitS 0xEF o ring0).copies 4 = some o ∧ Ivs.has o.got 255 = false ∧ SMap.has (o.partOf 255) 0 = false ∧
      ((unitS 0xEF o ring0).ringOf o 0).canFill 0 = true ∧ Answers (unitS 0xEF o ring0) o 1 0x3FFFFFFF false ∧
      (∀ v ∈ rangeBlocks 0x3FFFFF00 256, ∃ e, (unitS 0xEF o ring0).translate 0 1 v = .leaf e true ∧ e.loc < 2 ^ 52)) ∧
    (let o := subOp true 0x3FFFFF00; SMap.find (unitS 0xEF o full).copies 4 = some o ∧ ((unitS 0xEF o full).ringOf o 0).canRead 0 = true ∧
      (∀ v ∈ rangeBlocks 0x3FFFFF00 256, ∃ e, (unitS 0xEF o full).translate 0 1 v = .leaf e true ∧ e.loc < 2 ^ 52 ∧ e.w = true ∧ e.b = false)) ∧
    2 ^ 57 < (0x01FFFFFFFFFFFF01 : W64).toNat + 256 ∧
    (let o := subOp false 0x40000000; ∀ v ∈ rangeBlocks 0x40000000 256, ∃ e r, (unitS 0x100000000000EF o ring0).translate 0 1 v = .leaf e r ∧ 2 ^ 52 ≤ e.loc) ∧
    (let o := subOp true 0x40000000; ∀ v ∈ rangeBlocks 0x40000000 256, ∃ e r, (unitS 0xEB o full).translate 0 1 v = .leaf e r ∧ e.w = false) := by
  have own : ∀ a p q d, (copyOp a p q d).core = 0 ∧ (copyOp a p q d).ctx = 1 ∧ (copyOp a p q d).tg = 2 ^ 30 := fun _ _ _ _ => ⟨rfl, rfl, rfl⟩
  refine ⟨⟨by decide +kernel, by decide +kernel, by decide +kernel, by decide +kernel, by decide +kernel, by decide +kernel,
      (page_of (own ..)).1 (by decide +kernel), by decide +kernel, by decide +kernel, by decide +kernel, by decide +kernel, by decide +kernel⟩,
    by decide +kernel,
    ⟨by decide +kernel, (page_of (own ..)).2.1 (by decide +kernel)⟩, ⟨by decide +kernel, (page_of (own ..)).2.2 (by decide +kernel)⟩,
    ⟨(page_of (own ..)).1 (by decide +kernel), by decide +kernel, by decide +kernel⟩,
    ⟨(page_of (own ..)).2.1 (by decide +kernel), (page_of (own ..)).2.2 (by decide +kernel)⟩, ⟨by decide +kernel, rfl⟩,
    ⟨by decide +kernel, by decide +kernel, by decide +kernel, by decide +kernel, (page_of ⟨rfl, rfl, rfl⟩).1 (by decide +kernel), ?_⟩,
    ⟨by decide +kernel, by decide +kernel, ?_⟩, by decide, ?_, ?_⟩
  · intro v hv
    obtain ⟨e, r, he, h⟩ := pages_of (s := unitS 0xEF (subOp false 0x3FFFFF00) ring0) (ok := fun e r => r && decide (e.loc < 2 ^ 52)) (by decide +kernel) v hv
    simp only [Bool.and_eq_true, decide_eq_true_eq] at h
    exact ⟨e, by rw [he, h.1], h.2⟩
  · intro v hv
    obtain ⟨e, r, he, h⟩ := pages_of (s := unitS 0xEF (subOp true 0x3FFFFF00) { ring0 with pc := 1, pcl := 1 })
      (ok := fun e r => r && decide (e.loc < 2 ^ 52) && e.w && !e.b) (by decide +kernel) v hv
    simp only [Bool.and_eq_true, decide_eq_true_eq, Bool.not_eq_true'] at h
    exact ⟨e, by rw [he, h.1.1.1], h.1.1.2, h.1.2, h.2⟩
  · intro o v hv
    obtain ⟨e, r, he, h⟩ := pages_of (s := unitS 0x100000000000EF (subOp false 0x40000000) ring0) (ok := fun e _ => decide (2 ^ 52 ≤ e.loc)) (by decide +kernel) v hv
    exact ⟨e, r, he, of_decide_eq_true h⟩
  · intro o v hv
    obtain ⟨e, r, he, h⟩ := pages_of (s := unitS 0xEB (subOp true 0x40000000) { ring0 with pc := 1, pcl := 1 }) (ok := fun e _ => !e.w) (by decide +kernel) v hv
    exact ⟨e, r, he, by simpa using h⟩

/-- Whether the pages of a transfer's global bytes are resident and let it make its accesses. -/
def transferB (s : State) (w : XferWork) : Bool := w.accs.all fun a => a.sp != 1 || match s.translate 0 1 a.addr with
  | .leaf e true => decide (e.loc < 2 ^ 53) && (!a.wr || e.w && !e.b)
  | _ => false
theorem transfer_of {s : State} {w : XferWork} (h : transferB s w = true) :
    ∀ a ∈ w.accs, a.sp = 1 → ∃ e, s.translate 0 1 a.addr = .leaf e true ∧ e.loc < 2 ^ 53 ∧ (a.wr = true → e.w = true ∧ e.b = false) := by
  intro a ha hs
  have := List.all_eq_true.1 h a ha
  simp only [hs, bne_self_eq_false, Bool.false_or] at this
  split at this
  · rename_i e he
    refine ⟨e, he, ?_, fun hw => ?_⟩ <;> simp_all
  · cases this

/-- The bytes that move are bytes of the transfer's accesses, whichever are chosen. -/
theorem choice_acc {x : Transfer} {s : State} {b : XByte} (h : b ∈ x.choice s) : b.acc ∈ x.work.accs := by
  have hl : b ∈ x.left := by
    unfold Transfer.choice at h
    simp only at h
    split at h
    · exact h
    · exact (List.mem_filter.1 h).1
  obtain ⟨p, hp, rfl⟩ := List.mem_map.1 (List.mem_filter.1 hl).1
  obtain ⟨a, ha, hj⟩ := List.mem_flatMap.1 (List.fst_mem_of_mem_zipIdx hp)
  obtain ⟨j, -, hq⟩ := List.mem_map.1 hj
  exact hq ▸ ha

/-- Factors of rank 1 loaded from, and stored to, the last 256 bytes of the mapped GiB; the first where its function is reset. -/
theorem witness_UnitEventsComplete_transfers :
    let x (w : XferWork) : Transfer := { work := w, form := .empty, src := .empty, vals := none, moved := [], ctx := 1, dl := 0, poison := false, fault := none, dead := none }
    let ld : XferWork := .set 0 .f32 0x3FFFFF00 0x3FFFFF00 1 true
    let sto : XferWork := .get 1 .f32 0x3FFFFF00 0x3FFFFF00 1 true
    let gg (w : XferWork) : Gang := { gang0 (.mzero r0) with xfers := [x w] }
    let s (w : XferWork) := gangS 1024 (gg w) (gangTg 0)
    ((s ld).gang (2 ^ 26) 3 = some (gg ld) ∧ (∀ b ∈ (x ld).choice (s ld), b.acc.sp = 1 → ∃ e, (s ld).translate 0 1 b.acc.addr = .leaf e true ∧
      e.loc < 2 ^ 53 ∧ (b.acc.wr = true → e.w = true ∧ e.b = false)) ∧ ld.accs ≠ [] ∧ ld.target = some 0 ∧ (s ld).inReset 1 = false) ∧
    ((s sto).gang (2 ^ 26) 3 = some (gg sto) ∧ (∀ b ∈ (x sto).choice (s sto), b.acc.sp = 1 → ∃ e, (s sto).translate 0 1 b.acc.addr = .leaf e true ∧
      e.loc < 2 ^ 53 ∧ (b.acc.wr = true → e.w = true ∧ e.b = false)) ∧ sto.accs ≠ [] ∧ sto.target = none) ∧
    ({ s ld with resetting := [0] } : State).inReset 1 = true := by
  refine ⟨⟨by decide +kernel, fun b hb => transfer_of (by decide +kernel) _ (choice_acc hb), by decide +kernel, rfl, by decide +kernel⟩,
    ⟨by decide +kernel, fun b hb => transfer_of (by decide +kernel) _ (choice_acc hb), by decide +kernel, rfl⟩, by decide +kernel⟩

/-- An operation that can start, and two that run with their results; stages of mlr.rcmp on factors of rank 1, with no stop and with a
stop of every TG, on an empty source, and the last one on work of rank 3. -/
theorem witness_UnitEventsComplete_engine :
    let i : Instr := .mzero r0
    let op : EngineOp := { waitOp 7 with work := .mul .f32 0 1 2 }
    let run : EngineOp := { op with started := true, result := some .empty }
    let f := gForm 0 1 20
    let x := rcmpArgs { f with b := .s 20 } false
    let col (n : Nat) := { col1 (.mlrRcmp { f with b := .s 20 }) with arrived := [0, 1], token := true, stage := some n }
    let rc (n : Nat) (form : SMap MForm) (val : SMap MVal) : Gang :=
      { gang0 (.mlrRcmp { f with b := .s 20 }) with col := some (col n), form := form, val := val }
    let s (g : Gang) := gangS 1024 g (gangTg 0)
    let one := rc 0 [(1, .fact false 1)] [(1, .fact false [List.replicate 64 0] [List.replicate 64 0])]
    let three := rc 9 [(0, .work false 3 9)] [(0, .work { su := [], sv := [], qu := [], tu := [], qv := [], tv := [], w := []
                                                          c := [[0x3F800000], [0x3F800000], [0x3F800000]] })]
    let late (k : Nat) : Tg := { gangTg k with preempt := true }
    let stop := (s one).setTg (2 ^ 30) (late 0) |>.setTg (2 ^ 30 + 1) { late 1 with wait := .col 3 }
    (earliest ((s { gang0 i with ops := [op] }).startable 0) = some (7, 2 ^ 26, 3) ∧ (s { gang0 i with ops := [op] }).engineRuns 0 = false) ∧
    ((s { gang0 i with ops := [run] }).runningOp 0 7 = some (2 ^ 26, { gang0 i with ops := [run] }, run) ∧ run.poison = false) ∧
    (let mm : EngineOp := { run with work := .mma 0 (.reg 3) (.reg 3) .f32 true };
      (s { gang0 i with ops := [mm] }).runningOp 0 7 = some (2 ^ 26, { gang0 i with ops := [mm] }, mm)) ∧
    ((s one).gang (2 ^ 26) 3 = some one ∧ (((s one).listed (2 ^ 26) 3).head?.map (·.1)) = some (2 ^ 30) ∧ colStages (col 0).instr = some x ∧ one.ops = [] ∧
      (match x.stage (one.stageSource (s one) x 0) (gangTg 0) 0 with | .work .. => true | _ => false) = true ∧
      (s one).engineLoad 0 < 16 ∧ (∀ q ∈ (s one).listed (2 ^ 26) 3, q.2.preempt = false ∧ q.2.budgetDue = false) ∧ (∀ q ∈ stop.listed (2 ^ 26) 3, q.2.preempt = true)) ∧
    ((s (rc 0 [] [])).gang (2 ^ 26) 3 = some (rc 0 [] []) ∧
      (match x.stage ((rc 0 [] []).stageSource (s (rc 0 [] [])) x 0) (gangTg 0) 0 with
        | .done fm _ => decide ((rc 0 [] []).occWith 0 fm ≤ 1024)
        | _ => false) = true) ∧
    ((s three).gang (2 ^ 26) 3 = some three ∧ (match x.stage (three.stageSource (s three) x 9) (gangTg 0) 9 with | .rankovf k => decide (k = 3) | _ => false) = true) := by
  refine ⟨⟨?_, ?_⟩, ⟨?_, rfl⟩, ?_, ⟨?_, ?_, rfl, rfl, ?_, ?_, ?_, ?_⟩, ⟨?_, ?_⟩, ⟨?_, ?_⟩⟩ <;> decide +kernel

/-- How a step of a macro ends in thread 0: 0 ended, 1 a trap, 2 a fault. -/
def stepEnd (m : MacRun) (s : State) (g : Tg) : Nat := match stepOf m s (2 ^ 30) g 0 with
  | .ok _ => 0
  | .error e => match e.st with
    | .trap .. => 1
    | .fault .. => 2

/-- A bin due first, whose launch has a slot for its TG; a running macro with and without a pending stop, whose step ends, traps, and faults with
and without the callback; a held fault with the TG that waits for it; the three TG events; and a store. -/
theorem witness_UnitEventsComplete_tgs :
    let m : MacRun := running (.trav r0) 1 1 none
    let cb : MacRun := running (.trav { r0 with x := 2 }) 1 1 none
    let ray : SMap (Row W32) := [43, 44, 45, 46, 47].foldl (fun v n => SMap.set [] v n (Row.tab fun _ => 0x3F800000)) tg0.v
    let g (root : W64) : Tg := { withS [(40, root)] tg0 with v := ray, mac := some m, wait := .mac }
    let bin : State := { spawnS.modDie 0 (fun d => { d with bins := [(3, bin95)] }) with clk := 100 }
    let held : FaultInfo := { ctx := 1, page := 0, va := 0, src := .copy, kind := 0, core := 0, dl := 0, time := 0 }
    let waits : Tg := { tg0 with wait := .heldFault 0 8 5 false }
    let dying : State := (st waits).modDie 0 fun d => { d with fqsize := 1, heldFaults := [held] }
    let out : Tg := { tg0 with task := { tg0.task with tgbud := 0 } }
    let stop : Tg := { tg0 with sinceSafe := 8192, preempt := true }
    let due : Tg := { tg0 with sinceSafe := 8192, budget := true }
    let sto : Tg := { tg0 with stores := [{ loc := 0x100000, data := [1] }, { loc := 0x100001, data := [2] }] }
    (SMap.find (bin.die 0).bins 3 = some bin95 ∧ bin.nextDue = some bin95.due ∧ bin95.due ≤ bin.clk ∧ (bin.launch 1).map (fun l => (l.ctx, l.failed)) = some (1, false) ∧
      (bin.ctx 1).isSome = true) ∧
    ((st (g 0)).tg (2 ^ 30) = some (g 0) ∧ (g 0).mac = some m ∧ (g 0).wait = .mac ∧ (g 0).resident = true ∧ (st (g 0)).macTurn (2 ^ 30) (g 0) = true ∧
      m.mayStep 0 = true ∧ m.running.has 0 = true ∧ (st (g 0)).reclaimable (g 0) = 0 ∧ (g 0).stopPending = false ∧
      ({ g 0 with preempt := true } : Tg).stopPending = true ∧ inPasses m.instr = false) ∧
    (stepEnd m (st (g 0)) (g 0) = 0 ∧ stepEnd m (st (g 0x80000000)) (g 0x80000000) = 1 ∧ stepEnd m (stPage 0xCF (g 0x40000000)) (g 0x40000000) = 2 ∧
      faultCallback m = false ∧ faultCallback cb = true ∧ stepEnd cb (stPage 0xCF (g 0x40000000)) (g 0x40000000) = 2) ∧
    ((dying.die 0).heldFaults = [held] ∧ (dying.die 0).canPost = true ∧ dying.tg (2 ^ 30) = some waits ∧ waits.ctx = held.ctx ∧
      dying.pageOf 1 8 = held.page ∧ waits.mac = none) ∧
    ((st out).tg (2 ^ 30) = some out ∧ out.task.tgbud = 0 ∧ out.budget = false ∧ out.budgetTaken = false) ∧
    ((st stop).tg (2 ^ 30) = some stop ∧ (st stop).ctx stop.ctx = some demoContext ∧ stop.resident = true ∧ stop.wait = .ready ∧ stop.held = false ∧
      demoContext.safemax.toNat ≤ stop.sinceSafe ∧ stop.preempt = true ∧ due.budgetDue = true ∧ due.trap.tstat = false) ∧
    ((st sto).tg (2 ^ 30) = some sto ∧ sto.stores[1]? = some { loc := 0x100001, data := [2] } ∧
      (∀ q ∈ sto.stores.take 1, overlaps q.loc q.data.length 0x100001 1 = false) ∧ sto.reads = []) := by decide +kernel

/-- A launch of one crew under fixed placement on core 0. -/
def launch2 (state : BitVec 8) (placed : List Nat) : Launch :=
  { ctx := 1, desc := { demoDesc with modes := 2 }, seq := 2, state := state, cause := 0, trapn := 0, flags := 0, tstart := 0, tvec := 0, failed := false, waits := []
    placed := placed, fut := none, timers := [], spilled := 0, order := 0 }
def carved : SMap CoreState := [(0, { CoreState.reset with carve := some 640 })]
def late (g : Tg) : Tg := { g with task := { g.task with tgdl := 100 } }

/-- A launch with an earlier deadline displaces the crew; a crew that can be saved, and one of which a thread is reclaimed first; a new and a
saved crew that can be placed; a core without crews; the steps of a launch. -/
theorem witness_UnitEventsComplete_launches :
    let wait : State := { st (late tg0) with launches := (st tg0).launches ++ [(2, launch2 2 [])], cores := carved }
    let leave : State := (st { tg0 with held := true }).modCrew (2 ^ 26) fun c => { c with preempt := true }
    let doomed : Tg := { futG with held := true, threads := Row.tab fun _ => { own := hand, depth := 1, srec := .none, hold := false } }
    let dying : State := (futS (ent 2 0 true) doomed).modCrew (2 ^ 26) fun c => { c with preempt := true }
    let new : State := { base with tgs := [], crews := [], launches := [(2, launch2 2 [])], cores := carved }
    let oldCrew : Crew := { crew0 with core := none, saved := true, launch := 2 }
    let old : State := { base with tgs := [(2 ^ 30, { tg0 with resident := false, launch := 2 })], crews := [(2 ^ 26, oldCrew)],
                                   launches := [(2, launch2 3 [0])], cores := carved }
    let red : Contrib := { launch := 2, loc := 0x100000, ty := .n32, val := 1, core := 0, tg := 0, seq := 0, spilled := false, rel := none }
    let fin' (l : Launch) : State := { new with launches := [(2, l)] }
    (wait.crew (2 ^ 26) = some crew0 ∧ crew0.core ≠ none ∧ crew0.preempt = false ∧ wait.displaced (2 ^ 26) crew0 = true) ∧
    (leave.crew (2 ^ 26) = some { crew0 with preempt := true } ∧ leave.unsavable (2 ^ 26) { crew0 with preempt := true } = false ∧
      leave.reclaimNow { tg0 with held := true } = 0) ∧
    (dying.unsavable (2 ^ 26) { crew0 with preempt := true } = false ∧ dying.tg (2 ^ 30) = some doomed ∧ dying.reclaimNow doomed ≠ 0) ∧
    (earliest new.placeable = some (true, 2) ∧ new.fits 0 (launch2 2 []).desc.need = some [0] ∧ 0 < (launch2 2 []).desc.ncrew ∧ 0 ∉ (launch2 2 []).placed) ∧
    (earliest old.placeable = some (false, 2 ^ 26) ∧ old.fits 0 (oldCrew.need old (launch2 3 [0])) = some [0] ∧ (oldCrew.need old (launch2 3 [0])).fixed = true ∧
      oldCrew.num % 192 = 0 ∧ oldCrew.die = none ∧ oldCrew.tgs = [2 ^ 30] ∧ ((oldCrew.liveTgs old)[0]?).map (·.1) = some (2 ^ 30)) ∧
    ((∀ p ∈ base.crews, p.2.core ≠ some 191) ∧ (∀ p ∈ base.copies, p.2.core ≠ 191)) ∧
    ((fin' (launch2 1 [])).launch 2 = some (launch2 1 []) ∧ (fin' (launch2 1 [])).ctx 1 = some demoContext ∧ demoContext.function ∉ (fin' (launch2 1 [])).resetting) ∧
    ((fin' (launch2 3 [0])).launch 2 = some (launch2 3 [0]) ∧ (fin' (launch2 3 [0])).launchLives 2 = false ∧ (∀ k ∈ (fin' (launch2 3 [0])).contribs, k.launch ≠ 2)) ∧
    ((fin' { launch2 4 [0] with failed := true }).launch 2 = some { launch2 4 [0] with failed := true } ∧
      (∀ p ∈ (fin' (launch2 4 [0])).crews, p.2.launch ≠ 2) ∧ (∀ p ∈ (fin' (launch2 4 [0])).copies, p.2.launch ≠ 2)) ∧
    (({ new with contribs := [red] } : State).contribs[0]? = some red ∧ red.launch = 2 ∧ red.loc < 2 ^ 53 ∧ new.held.length < 8192 ∧
      2 ^ 53 ≤ ({ red with loc := 2 ^ 53 } : Contrib).loc) := by
  decide +kernel

theorem witness_UnitEventsComplete : (copyOp 0 [] [] 0).dead = false ∧ (copyOp 0 [] [] 0).fault = none := by decide

/-! ### The host, and the whole machine -/

/-- Queue 5 of the context: its descriptor at 0x100000, a ring of 16 commands at 0x110000 with one not yet accepted. -/
def queueQ (slot : Option Nat) : Queue := { desc := 0x100000, slot := slot, notify := 1 }
def queueS (slot : Option Nat) (kind arg bad : Nat) : State :=
  (stm [(0x100000, 8, 0x110000), (0x100010, 4, 16), (0x100030, 8, bad), (0x110000, 8, kind), (0x110008, 8, arg)] tg0).modCtx 1 fun c => { c with queues := [(5, queueQ slot)] }
def readS (slot : Option Nat) (kind arg bad : Nat) : State := (queueS slot kind arg bad).cpAcquire 1 0x100000 64
def headB (slot : Option Nat) (kind arg bad : Nat) (p : QHead → Bool) : Bool := ((readS slot kind arg bad).queueHead 1 (queueQ slot)).any p
/-- Whether the command at HEAD, read after its acquire, is this one. -/
def commandIs (kind arg : Nat) (h : QHead) : Bool :=
  decide (((readS (some 127) kind arg 0).cpAcquire 1 (h.ring + BitVec.ofNat 64 (16 * (h.head % h.cap))) 16).commandAt 1 h h.head = some (kind, arg))

theorem witness_HostEventsComplete_queues :
    ((queueS (some 127) 1 0x100 0).queue 1 5 = some (queueQ (some 127)) ∧ (queueS (some 127) 1 0x100 0).accepts 1 = true ∧ (queueQ (some 127)).slot ≠ none) ∧
    headB (some 127) 1 0x100 1 (fun h => decide (h.err = 0) && decide (h.head < max (queueQ none).notify.toNat h.notify) && !h.ok) = true ∧
    headB (some 127) 1 0x100 0 (fun h => h.ok && commandIs 1 0x100 h) = true ∧ headB (some 127) 2 0 0 (fun h => h.ok && commandIs 2 0 h) = true ∧
    headB (some 127) 2 1 0 (fun h => h.ok && commandIs 2 1 h) = true ∧
    ((queueS none 1 0x100 0).cpRange 1 0x100000 64).isSome = true ∧
    headB (some 127) 1 0x100 0 (fun h => (((readS (some 127) 1 0x100 0).cpAcquire 1 (h.ring + BitVec.ofNat 64 (16 * (h.head % h.cap))) 16).cpAcquire 1 0x100 256).descBytes 1 0x100 |>.isSome) = true ∧
    ((queueS none 1 0x100 0).queue 1 5 = some (queueQ none) ∧ (queueS none 1 0x100 0).inReset 1 = false ∧ headB none 1 0x100 0 (fun _ => true) = true ∧
      ((queueS none 1 0x100 0).scanQueues.toMap.map fun p => p.2) = [(1, 5)] ∧ (queueS none 1 0x100 0).slotsUsed.length < 128 ∧
      (queueS none 1 0x100 0).scanQueues.toMap.length + (queueS none 1 0x100 0).slotsUsed.length ≤ 128) ∧
    (headB (some 127) 3 0x100 0 (fun h => h.ok && commandIs 3 0x100 h) = true ∧
      ({ queueS none 1 0x100 0 with resetting := [0] } : State).inReset 1 = true ∧
      (∀ p ∈ (queueS none 1 0x100 0).scanQueues.toMap, ∀ p' ∈ (queueS none 1 0x100 0).scanQueues.toMap, p'.2 = (1, 5) → p'.1 ≤ p.1)) := by decide +kernel

/-- The last context number, function 16, tables of 2^20 entries; a halted context; a page whose fault is posted, and a TG that waits for it at a barrier that one arrival completes; the last word of HBM pages
a request may take; a boot not yet made; a module that is disabled, and one whose keys are erased; records in order. -/
theorem witness_HostEventsComplete :
    let c : ContextSpec := { id := 65535, function := 16, system := true, seed := 0, ftbase := 0, ftsize := 2 ^ 20, faultmode := true, savebase := 0x100, ptroot := 0x200000, tvec := 0x800, queues := [] }
    let halted : State := { (st tg0).modCtx 1 fun c => { c with halted := true } with crews := [] }
    let waits : Tg := { tg0 with wait := .fault 0 63 0 0x1008 5 false }
    let flt : State := ((stm [(0x1003F0, 8, 1)] waits).modDie 0 fun d => { d with fbbase := 0x100000, faults := [(63, (1, 0x1000, 5))] })
    let off (s : State) : State := { s with ralf := { s.ralf with disabled := true } }
    let rec' (t : W64) : HostRecord := { time := t, source := 0x0101, event := .turnedAway }
    let far : Tg := { tg0 with stores := [{ loc := 0x100000, data := [1] }, { loc := 2 ^ 53, data := [2] }], wait := .col 3 }
    let sent : Contrib := { launch := 1, loc := 2 ^ 53, ty := .n32, val := 1, core := 0, tg := 0, seq := 0, spilled := false, rel := none, owner := 2 ^ 30, va := 8, tid := 95 }
    let o : ObjRef := .glob 0x100000
    (c.id < 2 ^ 16 ∧ c.function ≤ 16 ∧ SysValue 0x31 c.ftsize ∧ SysValue 0x35 c.savebase ∧ SysValue 0x40 c.ptroot ∧ c.tvec.toNat % 2048 = 0) ∧
    ((st tg0).ctx c.id = none ∧ c.function ∉ (st tg0).resetting ∧ (st tg0).ralf.disabled = false) ∧
    (halted.ctx 1 = some { demoContext with halted := true } ∧ halted.halted = false ∧ (∀ p ∈ halted.crews, p.2.ctx = 1 → p.2.core = none)) ∧
    (16 ∉ (st tg0).resetting ∧ 0 ∈ ({ st tg0 with resetting := [0] } : State).resetting) ∧
    (SMap.find (flt.die 0).faults 63 = some (1, 0x1000, 5) ∧ flt.faultBarAt ((flt.die 0).fbbase.toNat + 16 * 63) = some (0, 63) ∧
      flt.tg (2 ^ 30) = some waits ∧ waits.mac = none ∧
      (Obj.arrive (flt.obj (.glob ((flt.die 0).fbbase.toNat + 16 * 63)))).phase ≠ (flt.obj (.glob ((flt.die 0).fbbase.toNat + 16 * 63))).phase ∧
      (match flt.walk 1 0x1000 with | .leaf .. => true | .bad => false) = true) ∧
    (0 < RemoteOp.bytes (.load 16 5) ∧ RemoteOp.bytes (.load 16 5) ≤ 16 ∧ 0x100000 % RemoteOp.bytes (.load 16 5) = 0 ∧ hbmOk 0x100000 = true ∧ hbmOk (0x100000 + 15) = true) ∧
    ((off (st tg0)).ralf.disabled = true ∧ ({ (st tg0).ralf with keysErased := true } : Ralfester).keysErased = true ∧
      List.Pairwise (fun a b => HostRecord.before a b = true) [rec' 1, rec' 2] ∧ (st tg0).parkedOn o = false ∧ (off flt).ralf.disabled = true) ∧
    (((st tg0).obj o).phase = 0 ∧ ((st tg0).obj o).phase ≠ 1 ∧ (Obj.inval ((st tg0).obj o)).phase ≠ 0 ∧ (st far).tg (2 ^ 30) = some far ∧
      far.stores.find? (fun p => decide (2 ^ 53 ≤ p.loc)) = some { loc := 2 ^ 53, data := [2] } ∧
      tg0.stores = [] ∧ [sent].find? (fun c => c.owner == 2 ^ 30 && decide (2 ^ 53 ≤ c.loc)) = some sent) ∧
    (st tg0).tg (2 ^ 30) = some tg0 ∧ (st tg0).ralf.booted = false ∧ ({ (st tg0).ralf with stepDown := true } : Ralfester).stepDown = true ∧
    (ErrArray.l2 ≠ .futureCache ∧ (st tg0).ctx 1 ≠ none) ∧ (List.replicate 48 (0 : Byte)).length = 48 := by
  refine ⟨⟨by decide, by decide, ?_, ?_, ?_, by decide⟩, ⟨by decide +kernel, by decide +kernel, by decide +kernel⟩, ⟨by decide +kernel, by decide +kernel, by decide +kernel⟩,
    ⟨by decide +kernel, by decide +kernel⟩, by decide +kernel, by decide +kernel, by decide +kernel, by decide +kernel, st_tg _, by decide +kernel, rfl, ⟨by decide, by decide +kernel⟩, by decide +kernel⟩
  · exact ⟨by decide, by decide, by decide, by decide, fun _ => ⟨20, by decide, by decide⟩, by decide, by decide, by decide⟩
  · exact ⟨by decide, by decide, by decide, by decide, fun h => absurd h (by decide), by decide, by decide, by decide⟩
  · exact ⟨by decide, by decide, by decide, by decide, fun h => absurd h (by decide), by decide, by decide, by decide⟩

/-- A no-operation at the pc of the TG that State.withFetchWord makes issue. -/
def nopS : State := State.reset.withFetchWord 64 0x00E0000000000000
theorem witness_StepRunsTheDecodedInstruction :
    let s1 := ({ nopS with agenda := [], cur := 2 ^ 30 }.finishLate (2 ^ 30)).toIssue 0 0
    nopS.issueTime 0 0 = some 0 ∧ nopS.firstIssue = some 0 ∧ nopS.badFaultArea = none ∧ (∀ p ∈ nopS.tgs, nopS.waitReclaims p.2 = 0) ∧
    nopS.wakeQueues.badFaultArea = none ∧ (s1.tg (2 ^ 30)) = some tg0 ∧ tg0.preempt = false ∧ nopS.agenda = [.issue (2 ^ 30)] ∧ nopS.tg (2 ^ 30) = some tg0 ∧ tg0.resident = true ∧ tg0.wait = .ready ∧ tg0.ending = .none ∧ tg0.faultInval = none ∧
    tg0.mask ≠ 0 ∧ tg0.budgetForced = false ∧ nopS.pick 0 0 = some (2 ^ 30) ∧ nopS.nextDue = none ∧ (s1.tg (2 ^ 30)).map (fun g => (g.core, g.ctx, g.pc, g.mask)) = some (0, 1, tg0.pc, tg0.mask) ∧ decode [0x00E0000000000000] = .ok (.nop r0) 1 ∧
    s1.checkGl 0 1 [(tg0.mask.lowest.getD 0, tg0.pc)] 8 .fetch = none ∧
    BitVec.ofNat 64 (leNat (s1.bytes (s1.locOf 0 1 tg0.pc.toNat) 8 0)) = 0x00E0000000000000 ∧ reclaimsAt (.nop r0) = false ∧ isSafe (.nop r0) = false ∧
    ((∀ p ∈ nopS.tgs, p.2.sliceEnd = false) ∧ let past := st { tg0 with sliceEnd := true };
      (past.tgs.filter fun p => p.2.sliceEnd) = [(2 ^ 30, { tg0 with sliceEnd := true })] ∧ past.crew tg0.crew = some crew0 ∧ crew0.core ≠ none ∧
      (past.modCrew tg0.crew fun c => { c with core := none }).crew tg0.crew = some { crew0 with core := none }) ∧
    ((nopS.modDie 0 fun d => { d with bins := [(3, bin95)] }).nextDue = some 100 ∧ SMap.get 0 (nopS.core 0).busy 0 ≤ 100) := by
  decide +kernel

theorem witness_StepKeepsMemoryCanonical : Memory.wf nopS.mem = true ∧ (match step nopS with | .next s => s.mem.length | _ => 0) = 4 := by decide +kernel

theorem witness_MemoryReadAfterWrite : 255 < 2 ^ (8 * 1) ∧ (base.write 0x3FFFFFFF 1 255).read 0x3FFFFFFF 1 = 255 := by decide +kernel

/-! ### Single steps: results calculated by hand from the rules -/

/-- The instruction gives a next state of `s` whose TG satisfies `p`. -/
def runsOn (s : State) (i : Instr) (p : Tg → Bool) : Bool := match exec i s with
  | .next t => (t.tg (2 ^ 30)).any p
  | _ => false
def runs (g : Tg) (i : Instr) (p : Tg → Bool) : Bool := runsOn (st g) i p

/-- v2, v3 and v4 of thread 0 hold x, y and z, and thread 1 has the sum of each with 1. -/
def withV (x y z : W32) (g : Tg) : Tg := { g with
  v := SMap.set [] (SMap.set [] (SMap.set [] g.v 2 (Row.tab fun t => x + BitVec.ofNat 32 t)) 3 (Row.tab fun t => y + BitVec.ofNat 32 t)) 4
    (Row.tab fun t => z + BitVec.ofNat 32 t) }
/-- d v5, a v2, b v3, cs v4. -/
def abc (ty : Ty) : RArgs := { r0 with d := .v 5, a := .v 2, b := .v 3, cs := .v 4, ty := ty }
/-- v5 of thread 0 after an instruction on x, y, z. -/
def gives (i : Instr) (x y z r : W32) : Bool := runs (withV x y z tg0) i fun g => g.vAt 5 0 == r && g.pc == 0x10008

/-- R28, R99: results wrap to the type and extend by its sign; X[0] saturates; mulhi is the high half. -/
theorem test_integer :
    (gives (.add (abc .i8)) 0x7F 1 0 0xFFFFFF80 && gives (.add (abc .n8)) 0xFF 1 0 0 && gives (.add { abc .i8 with x := 1 }) 0x7F 1 0 0x7F &&
    gives (.sub { abc .n16 with x := 1 }) 1 2 0 0 && gives (.mulhi (abc .n32)) 0xFFFFFFFF 0xFFFFFFFF 0 0xFFFFFFFE &&
    gives (.mad (abc .n32)) 3 5 7 22 && gives (.min (abc .i32)) 0xFFFFFFFF 1 0 0xFFFFFFFF && gives (.max (abc .n32)) 0xFFFFFFFF 1 0 0xFFFFFFFF &&
    gives (.abs (abc .i8)) 0x80 0 0 0xFFFFFF80 && gives (.neg { abc .i8 with x := 1 }) 0x80 0 0 0x7F) = true := by decide +kernel

/-- R102 to R105: a shift by the width or more; a field with its sign; counts. -/
theorem test_bits :
    (gives (.shl (abc .n32)) 1 32 0 0 && gives (.shr (abc .n8)) 0x80 7 0 1 && gives (.sar (abc .i32)) 0x80000000 99 0 0xFFFFFFFF &&
    gives (.rot (abc .n16)) 0x8001 17 0 3 && gives (.bfx (abc .i32)) 0xF0 0x0404 0 0xFFFFFFFF && gives (.bfi (abc .n32)) 0x5 0x0404 0xFFFF 0xFF5F &&
    gives (.bfx (abc .n32)) 0xF0 0x0420 0 0 && gives (.andn (abc .n32)) 0xFF 0x0F 0 0xF0 && gives (.popc (abc .n8)) 0x1FF 0 0 8 &&
    gives (.clz (abc .n32)) 1 0 0 31 && gives (.ctz (abc .n16)) 0 0 0 16 && gives (.brev (abc .n8)) 1 0 0 0x80) = true := by decide +kernel

/-- R100, R101: a carry in from p0 and out to p1; a product at twice the width. -/
theorem test_carry :
    (runs (withV 0xFFFFFFFF 0 0 { tg0 with p := SMap.set [] tg0.p 0 (Row.tab fun _ => 15) }) (.addc { abc .n32 with cs := .p 1, x := 0 })
      (fun g => g.vAt 5 0 == 0 && g.pAt 1 0 == 15) &&
    gives (.madw (abc .i16)) 0xFFFF 0xFFFF 5 6) = true := by decide +kernel

/-- R106, R53: less than, and its complement; R111 a count of the threads; R112 thread 0 keeps its own value where its source is out of range. -/
theorem test_lanes :
    (runs (withV 1 2 0 tg0) (.cmp { abc .i32 with d := .p 0, cs := .p 1, x := 2 }) (fun g => g.pAt 0 0 == 15 && g.pAt 1 0 == 0) &&
    runs (half0 tg0) (.vote { r0 with d := .v 5, a := .p 0, x := 4 }) (fun g => g.vAt 5 95 == 48) &&
    runs (withV 100 1 0 tg0) (.shf { abc .n32 with b := .imm 1, x := 1 }) (fun g => g.vAt 5 0 == 100 && g.vAt 5 7 == 106)) = true := by decide +kernel

/-- R122 to R127: 1 + 1; 2^24 + 1 is a tie to even; 1 / 3; fmin of a NaN and 1; the class of −0. R129: FP16 1.0 into element 1. R133: 2^0. -/
theorem test_float :
    (gives (.fadd (abc .f32)) 0x3F800000 0x3F800000 0 0x40000000 && gives (.fadd (abc .f32)) 0x4B800000 0x3F800000 0 0x4B800000 &&
    gives (.fma (abc .f32)) 0x40000000 0x40400000 0x3F800000 0x40E00000 && gives (.rcp (abc .f32)) 0x40400000 0 0 0x3EAAAAAB &&
    gives (.sqrt (abc .f32)) 0x40800000 0 0 0x40000000 && gives (.fmin (abc .f32)) 0x7FC00000 0x3F800000 0 0x3F800000 &&
    gives (.hadd2 (abc .f16x2)) 0x3C003C00 0x40003C00 0 0x42004000 &&
    runs (withV 0x3F800000 0 0 { tg0 with v := SMap.set [] tg0.v 5 (Row.tab fun _ => 0x1234) }) (.cvt { abc .f16 with b := .v 0, cs := .v 8, x := 4 })
      (fun g => g.vAt 5 0 == 0x3C001234) &&
    gives (.ex2 (abc .f32)) 0 0 0 0x3F800000) = true := by decide +kernel

/-- R13, R157, R196: a store waits for its home slice, and a load of its TG sees it; R184: an atomic add returns the old value. -/
theorem test_memory :
    ((match exec (.stGl { mForm .n32 with cs := .v 2 }) (st (withV 0x11223344 0 0 high)) with
      | .next t => runsOn t (.ldGl { mForm .n32 with d := .v 5 }) fun g => g.vAt 5 0 == 0x11223344 && g.stores.length == 1
      | _ => false) &&
    runsOn (stm [(0x3FFFFFFC, 4, 40)] (withV 2 0 0 high)) (.atom { mForm .n32 with d := .v 5, cs := .v 2 }) (fun g => g.vAt 5 0 == 40) &&
    (match exec (.red { mForm .n32 with cs := .v 2 }) (stm [(0x3FFFFFFC, 4, 40)] (withV 2 0 0 high)) with
      | .next t => t.read 0x3FFFFFFC 4 == 42
      | _ => false)) = true := by decide +kernel

/-- R89, R91: lr holds the return address and the window step; ret undoes both. R93: a counter of 1 falls through. -/
theorem test_control :
    ((match exec (.call { bra 7 0x10 with b := 2 }) (st tg0) with
      | .next t => (t.tg (2 ^ 30)).any (fun g => g.sAt 60 == 0x1000A && g.win.wbase == 16 && g.pc == 0x10080) &&
        runsOn t (.ret { r0 with a := .s 60 }) fun g => g.win.wbase == 0 && g.pc == 0x10008
      | _ => false) &&
    runs (withS [(5, 1)] tg0) (.loop { bra 7 0xFFFFF with d := .s 5 }) (fun g => g.sAt 5 == 0 && g.pc == 0x10008) &&
    runs (withS [(5, 0)] tg0) (.loop { bra 7 0xFFFFF with d := .s 5 }) (fun g => g.sAt 5 == 0xFFFFFFFFFFFFFFFF && g.pc == 0xFFF8)) = true := by decide +kernel

/-- R325: a user trap saves the next pc, the cause 0x14 and its code, and goes to TVEC + 64 · 0x14; R340: rett comes back. -/
theorem test_traps :
    ((match exec (.trap { bra 7 5 with a := .v 0 }) (st tg0) with
      | .next t => (t.tg (2 ^ 30)).any (fun g => g.trap.tpc == 0x10008 && g.trap.tcause == 0x14 && g.trap.taddr == 5 && g.trap.tstat && g.pc == 0x30500) &&
        runsOn t (.rett r0) fun g => g.pc == 0x10008 && !g.trap.tstat
      | _ => false) &&
    runs tg0 (.sysr { r0 with d := .s 3, cs := .v 0x2E }) (fun g => g.sAt 3 == 170) &&
    runs (withS [(3, 64)] tg0) (.sysw { r0 with a := .s 3, cs := .v 0x1E }) (fun g => g.trap.tcause == 0x101)) = true := by decide +kernel

/-- R162: the push to a full queue fails in p0. R177: an arrival returns the phase before it. R316: fwait takes a result. -/
theorem test_sync :
    (runsOn (stm [(0x100000, 8, 0x3FFFFF00), (0x100008, 4, 2), (0x10000C, 4, 4), (0x100018, 8, 2)] (alone (at10 0x100000 tg0)))
      (.qpush { mForm .n32 with d := .p 0 }) (fun g => g.pAt 0 0 == 0) &&
    runs (withS [(3, 9)] tg0) (.barArrive { r0 with d := .s 3, a := .imm 0 }) (fun g => g.sAt 3 == 0 && g.pc == 0x10008) &&
    runsOn (futS (ent 3 1 false) futG) (.fwait { mForm .n64 with d := .v 62, a := .f 0 }) (fun g => g.vAt 62 0 == 7 && g.vAt 63 0 == 0)) = true := by decide +kernel

end Sys2Proof.Tests
end

section
/-! PROOFS. The machine after reset, and the steps of the host, the command processor, the Ralfester controller and another module:
what each operation of theirs does and leaves as it is, and the claims about them. -/

namespace Sys2Proof.Machine

/-! ### The machine after reset (R7, R55, R66, R302) -/

/-- Settles O58: every keyed collection of the reset state is empty, so each lookup falls through to nothing or to its default. -/
theorem resetState : Obligations.ResetState := by
  unfold Obligations.ResetState
  exact ⟨rfl, rfl, rfl, rfl, fun _ => ⟨rfl, rfl, rfl, rfl, rfl, rfl⟩, rfl, rfl, rfl, fun _ => ⟨rfl, rfl, rfl, rfl, rfl, rfl⟩⟩

/-! ### Maps -/

theorem isNone_eq_false {α : Type} {o : Option α} (h : o ≠ none) : o.isNone = false :=
  Option.isNone_eq_false_iff.2 (Option.isSome_iff_ne_none.2 h)

theorem SMap.mem_of_find {α : Type} {m : SMap α} {k : Nat} {a : α} (h : SMap.find m k = some a) : (k, a) ∈ m := by
  induction m with
  | nil => cases h
  | cons p r ih =>
    obtain ⟨k', a'⟩ := p
    unfold SMap.find at h
    split at h
    · next hk => cases h; exact hk ▸ List.mem_cons_self
    · exact List.mem_cons_of_mem _ (ih h)

/-- A change of every entry that leaves each at its key. -/
theorem SMap.find_map_of_key {α : Type} (m : SMap α) (f : Nat × α → Nat × α) (hf : ∀ p, (f p).1 = p.1) (j : Nat) :
    SMap.find (m.map f) j = (SMap.find m j).map fun a => (f (j, a)).2 := by
  have h : m.map f = m.map fun p => (p.1, (f (p.1, p.2)).2) := List.map_congr_left fun p _ => Prod.ext (hf p) rfl
  rw [h, SMap.find_map m (fun k a => (f (k, a)).2)]

theorem SMap.find_del_of_none {α : Type} (m : SMap α) (k j : Nat) (h : SMap.find m j = none) : SMap.find (SMap.del m k) j = none := by
  by_cases hj : j = k
  · rw [hj, SMap.find_del_self]
  · rw [SMap.find_del_ne _ _ _ hj, h]

theorem SMap.find_del_some {α : Type} {m : SMap α} {k j : Nat} {a : α} (h : SMap.find (SMap.del m k) j = some a) :
    SMap.find m j = some a := by
  by_cases hj : j = k
  · rw [hj, SMap.find_del_self] at h; cases h
  · rwa [SMap.find_del_ne _ _ _ hj] at h

theorem SMap.find_map_val {α : Type} (m : SMap α) (f : α → α) (j : Nat) :
    SMap.find (m.map fun p => (p.1, f p.2)) j = (SMap.find m j).map f := SMap.find_map m (fun _ a => f a) j

theorem SMap.get_map_val {α : Type} (d : α) (m : SMap α) (f : α → α) (hd : f d = d) (j : Nat) :
    SMap.get d (m.map fun p => (p.1, f p.2)) j = f (SMap.get d m j) := by
  unfold SMap.get
  rw [SMap.find_map_val]
  cases SMap.find m j with
  | none => exact hd.symm
  | some a => rfl

/-- What a filter leaves under a key satisfies its test. -/
theorem SMap.of_find_filter {α : Type} {m : SMap α} {P : Nat × α → Bool} {k : Nat} {a : α} (h : SMap.find (m.filter P) k = some a) :
    P (k, a) = true := (List.mem_filter.1 (SMap.mem_of_find h)).2

/-! ### Little-endian bytes -/

theorem leBytes_length (x n : Nat) : (leBytes x n).length = n := by simp [leBytes]

theorem leBytes_succ (x n : Nat) : leBytes x (n + 1) = BitVec.ofNat 8 x :: leBytes (x / 256) n := by
  simp only [leBytes, List.range_succ_eq_map, List.map_cons, List.map_map, Nat.mul_zero, Nat.pow_zero, Nat.div_one]
  congr 1
  refine List.map_congr_left fun i _ => ?_
  simp only [Function.comp_apply, Nat.div_div_eq_div_mul]
  rw [Nat.mul_succ, Nat.pow_add, Nat.mul_comm]

/-- The little-endian bytes of a value give the value back. -/
theorem leNat_leBytes (x n : Nat) : leNat (leBytes x n) = x % 2 ^ (8 * n) := by
  induction n generalizing x with
  | zero => simp [leBytes, leNat, Nat.mod_one]
  | succ n ih =>
    rw [leBytes_succ]
    have h : leNat (BitVec.ofNat 8 x :: leBytes (x / 256) n) = (BitVec.ofNat 8 x).toNat + 256 * leNat (leBytes (x / 256) n) := rfl
    rw [h, ih, BitVec.toNat_ofNat, Nat.mul_succ, Nat.pow_add, Nat.mul_comm (2 ^ (8 * n)), Nat.mod_mul]

/-! ### Records (R2, R409) -/

theorem HostRecord.before_iff (a b : HostRecord) :
    a.before b = true ↔ a.time < b.time ∨ a.time = b.time ∧ a.source ≤ b.source := by
  simp [HostRecord.before]

theorem HostRecord.before_trans {a b c : HostRecord} (h : a.before b = true) (h' : b.before c = true) : a.before c = true := by
  rw [HostRecord.before_iff] at *
  bv_omega

theorem HostRecord.before_of_not {a b : HostRecord} (h : ¬a.before b = true) : b.before a = true := by
  rw [HostRecord.before_iff] at *
  bv_omega

theorem mem_insRecord (r x : HostRecord) (l : List HostRecord) : x ∈ insRecord r l ↔ x = r ∨ x ∈ l := by
  induction l with
  | nil => simp [insRecord]
  | cons y l ih =>
    unfold insRecord
    split
    · simp only [List.mem_cons, ih, or_left_comm]
    · simp only [List.mem_cons]

theorem insRecord_pairwise (r : HostRecord) (l : List HostRecord) (h : l.Pairwise fun a b => a.before b = true) :
    (insRecord r l).Pairwise fun a b => a.before b = true := by
  induction l with
  | nil => simp [insRecord]
  | cons y l ih =>
    obtain ⟨hy, hl⟩ := List.pairwise_cons.1 h
    unfold insRecord
    split
    · next hyr =>
      refine List.pairwise_cons.2 ⟨fun x hx => ?_, ih hl⟩
      rcases (mem_insRecord r x l).1 hx with rfl | hx
      · exact hyr
      · exact hy x hx
    · next hyr =>
      have hry := HostRecord.before_of_not hyr
      refine List.pairwise_cons.2 ⟨fun x hx => ?_, h⟩
      rcases List.mem_cons.1 hx with rfl | hx
      · exact hry
      · exact HostRecord.before_trans hry (hy x hx)

/-! ### What the command processor's reads leave (R205) -/

theorem State.Orders.contexts {s s' : State} (h : s.Orders s') : s'.contexts = s.contexts := by rw [h.rest]
theorem State.Orders.resetting {s s' : State} (h : s.Orders s') : s'.resetting = s.resetting := by rw [h.rest]
theorem State.Orders.copies {s s' : State} (h : s.Orders s') : s'.copies = s.copies := by rw [h.rest]
theorem State.Orders.halted {s s' : State} (h : s.Orders s') : s'.halted = s.halted := by rw [h.rest]
theorem State.Orders.ralf {s s' : State} (h : s.Orders s') : s'.ralf = s.ralf := by rw [h.rest]

theorem State.Orders.cpAcquire (s : State) (ctx : Nat) (va : W64) (n : Nat) : s.Orders (s.cpAcquire ctx va n) := by
  unfold State.cpAcquire
  split
  · exact .refl s
  · exact (State.Orders.acquireAt s _ _).trans (.foldl _ (fun s _ => (State.SameButMem.walked s _ _ _).orders) _ _)

theorem State.Orders.accepts {s s' : State} (h : s.Orders s') (ctx : Nat) : s'.accepts ctx = s.accepts ctx := by
  unfold State.accepts State.inReset
  rw [h.halted, h.ralf, h.ctx, h.resetting]

theorem State.Orders.queue {s s' : State} (h : s.Orders s') (ctx qn : Nat) : s'.queue ctx qn = s.queue ctx qn := by
  unfold State.queue
  rw [h.ctx]

theorem State.Orders.slotsUsed {s s' : State} (h : s.Orders s') : s'.slotsUsed = s.slotsUsed := by
  unfold State.slotsUsed
  rw [h.contexts]

theorem State.Orders.scanCommands (s : State) (ctx : Nat) (h : QHead) (n i : Nat) : s.Orders (s.scanCommands ctx h n i) := by
  induction n generalizing s i with
  | zero => exact .refl s
  | succ n ih =>
    have h1 := State.Orders.cpAcquire s ctx (h.ring + BitVec.ofNat 64 (16 * (i % h.cap))) 16
    unfold State.scanCommands
    simp only []
    split
    · next a _ =>
      have h2 := h1.trans (State.Orders.cpAcquire _ ctx (BitVec.ofNat 64 a) 256)
      split
      · exact h2
      · exact h2.trans (ih _ _)
    · exact h1.trans (ih _ _)

theorem State.Orders.scanQueue (s : State) (ctx : Nat) (q : Queue) : s.Orders (s.scanQueue ctx q) := by
  have h1 := State.Orders.cpAcquire s ctx q.desc 64
  unfold State.scanQueue
  simp only [State.readQueue]
  split
  · exact h1.trans (.scanCommands _ _ _ _ _)
  · exact h1

theorem State.Orders.scanQueues (s : State) : s.Orders s.scanQueues :=
  .foldl _ (fun s c => by
    split
    · exact .foldl _ (fun s (q : Nat × Queue) => .scanQueue s c.1 q.2) _ _
    · exact .refl s) _ _

/-- R205: the scan for the next launch stops at the first descriptor that it can read. -/
theorem State.scanCommands_launch (s : State) (ctx : Nat) (h : QHead) (n i a : Nat)
    (hc : (s.cpAcquire ctx (h.ring + BitVec.ofNat 64 (16 * (i % h.cap))) 16).commandAt ctx h i = some (1, a))
    (hd : (((s.cpAcquire ctx (h.ring + BitVec.ofNat 64 (16 * (i % h.cap))) 16).cpAcquire ctx (BitVec.ofNat 64 a) 256).descBytes
      ctx (BitVec.ofNat 64 a)).isSome = true) :
    s.scanCommands ctx h (n + 1) i =
      (s.cpAcquire ctx (h.ring + BitVec.ofNat 64 (16 * (i % h.cap))) 16).cpAcquire ctx (BitVec.ofNat 64 a) 256 := by
  simp only [State.scanCommands, hc, hd, if_true]

/-! ### Commands of the host (R413) -/

theorem commanded_of_enabled {s : State} (h : s.ralf.disabled = false) (k : Out) : commanded s k = k := by
  simp [commanded, h]

theorem commanded_of_disabled {s : State} (h : s.ralf.disabled = true) (k : Out) : commanded s k = .next (s.report .turnedAway) := by
  simp [commanded, h]

/-! ### User queues (R286 to R288) -/

/-- A write to a queue's descriptor uses the page of the descriptor. -/
theorem State.writeHead_of_queueHead {s0 : State} {ctx : Nat} {q : Queue} {h : QHead} (hh : s0.queueHead ctx q = some h)
    (s : State) (off n x : Nat) : s.writeHead h off n x = (s.write (h.loc + off) n x).walked ctx q.desc.toNat true := by
  unfold State.queueHead at hh
  split at hh
  · cases hh
  · obtain ⟨loc, -, rfl⟩ := Option.map_eq_some_iff.1 hh
    rfl

section Command
variable {s : State} {ctx qn : Nat} {q : Queue} {h : QHead} {go : State → QHead → Nat → Nat → Option State}
  (hq : s.queue ctx qn = some q) (hacc : s.accepts ctx = true) (hslot : q.slot ≠ none)
  (hh : (s.readQueue ctx q).queueHead ctx q = some h) (herr : h.err = 0) (hwork : h.head < max q.notify.toNat h.notify)
include hacc hslot herr hwork

/-- R287: the command processor looks at a mapped queue that is not stopped and holds work. -/
theorem queue_enabled :
    (!(s.readQueue ctx q).accepts ctx || q.slot.isNone || decide (h.err ≠ 0) || !h.work q) = false := by
  have hacc' : (s.readQueue ctx q).accepts ctx = true := (State.Orders.cpAcquire s ctx q.desc 64).accepts ctx ▸ hacc
  have hw : h.work q = true := decide_eq_true hwork
  have hs := isNone_eq_false hslot
  simp [hacc', hw, hs, herr]

include hq hh

theorem command_malformed (hok : h.ok = false) : command ctx qn s go = .next ((s.readQueue ctx q).setErr h 1) := by
  simp only [command, hq, hh, queue_enabled hacc hslot herr hwork, hok]
  simp

variable (hok : h.ok = true) {k a : Nat}
  (hc : ((s.readQueue ctx q).readCommand ctx h).commandAt ctx h h.head = some (k, a))
include hok hc

theorem command_unknown (hk : k ≠ 1) (h2 : ¬(k = 2 ∧ a = 0)) :
    command ctx qn s go = .next (((s.readQueue ctx q).readCommand ctx h).setErr h 2) := by
  have hnone : (decide (k = 2) && decide (a = 0)) = false := by rw [← Bool.decide_and]; exact decide_eq_false h2
  have hbad : (decide (k ≠ 1) && !(decide (k = 2) && decide (a = 0))) = true := by rw [hnone, decide_eq_true hk]; rfl
  simp only [command, hq, hh, queue_enabled hacc hslot herr hwork, hok, hc, hbad]
  simp

theorem command_taken {s' : State} (hk : k = 1 ∨ k = 2 ∧ a = 0) (hgo : go ((s.readQueue ctx q).readCommand ctx h) h k a = some s') :
    command ctx qn s go = .next s' := by
  have hgood : (decide (k ≠ 1) && !(decide (k = 2) && decide (a = 0))) = false := by
    rcases hk with hk | hk <;> simp [hk]
  simp only [command, hq, hh, queue_enabled hacc hslot herr hwork, hok, hc, hgood, hgo]
  simp

end Command

/-- Fewer than `n` values in use leave one of the first `n` unused. -/
theorem exists_find?_unused {used : List Nat} {n : Nat} (hlt : used.length < n) :
    ∃ m, (List.range n).find? (fun i => !used.contains i) = some m := by
  cases hfind : (List.range n).find? (fun i => !used.contains i) with
  | some m => exact ⟨m, rfl⟩
  | none =>
    have hsub : List.range n ⊆ used := fun i hi => by
      have hused := List.find?_eq_none.1 hfind i hi
      rw [Bool.not_eq_true', Bool.not_eq_false] at hused
      exact List.contains_iff_mem.1 hused
    have hle := List.nodup_range.length_le_of_subset hsub
    rw [List.length_range] at hle
    omega

/-- R288: the command processor maps a queue that it finds among those that hold work, where a slot is free and no other such queue
comes before it or all of them fit. -/
theorem execQueueMap_of_toMap {s : State} {ctx qn d : Nat} {q : Queue} {h : QHead} (hq : s.queue ctx qn = some q)
    (hh : s.scanQueues.queueHead ctx q = some h) (hd : (d, ctx, qn) ∈ s.scanQueues.toMap) (hroom : s.slotsUsed.length < 128)
    (hfirst : s.scanQueues.toMap.length + s.slotsUsed.length ≤ 128 ∨
      ∀ p ∈ s.scanQueues.toMap, ∀ p' ∈ s.scanQueues.toMap, p'.2 = (ctx, qn) → p'.1 ≤ p.1) :
    ∃ m, m < 128 ∧ m ∉ s.slotsUsed ∧ execQueueMap ctx qn s =
      .next ((s.scanQueues.writeHead h 20 2 m).modQueue ctx qn fun q => { q with slot := some m, notify := 0 }) := by
  have ho := State.Orders.scanQueues s
  obtain ⟨me, hme⟩ : ∃ me, s.scanQueues.toMap.find? (fun p => p.2 == (ctx, qn)) = some me :=
    Option.isSome_iff_exists.1 (List.find?_isSome.2 ⟨_, hd, by simp⟩)
  obtain ⟨m, hm⟩ := exists_find?_unused hroom
  have hblock : ¬(128 - s.slotsUsed.length = 0 ∨ 128 - s.slotsUsed.length < s.scanQueues.toMap.length ∧
      ∃ p ∈ s.scanQueues.toMap, p.1 < me.1) := by
    rintro (h0 | ⟨hlt, p, hp, hpm⟩)
    · omega
    · rcases hfirst with hfit | hfirst
      · omega
      · have := hfirst p hp me (List.mem_of_find?_eq_some hme) (by simpa using List.find?_some hme)
        omega
  refine ⟨m, by simpa using List.mem_of_find?_eq_some hm, by simpa using List.find?_some hm, ?_⟩
  simp only [execQueueMap, hme, ho.queue, ho.slotsUsed, hq, Option.bind_some, hh, Config.queueSlots, hm, Option.getD_some]
  rw [if_neg (by simpa using hblock)]

theorem State.unmapQueue_of_queueHead {s : State} {ctx qn : Nat} {q : Queue} {h : QHead} (hq : s.queue ctx qn = some q)
    (hslot : q.slot ≠ none) (hh : s.queueHead ctx q = some h) :
    s.unmapQueue ctx qn = ((s.foldNotify h q.notify.toNat).writeHead h 20 2 0xFFFF).modQueue ctx qn
      fun q => { q with slot := none, notify := 0 } := by
  have hs := isNone_eq_false hslot
  simp [State.unmapQueue, hq, hs, hh]

theorem execQueueUnmap_of_slot {s : State} {ctx qn : Nat} {q : Queue} (hq : s.queue ctx qn = some q) (hslot : q.slot ≠ none) :
    execQueueUnmap ctx qn s = .next (s.unmapQueue ctx qn) := by
  have hs := isNone_eq_false hslot
  simp [execQueueUnmap, hq, hs]

theorem execNotify_discarded {s : State} {ctx qn : Nat} {q : Queue} (hq : s.queue ctx qn = some q)
    (hoff : s.inReset ctx = true ∨ s.ralf.disabled = true) (v : W64) : execNotify ctx qn v s = .next s := by
  have h : (s.inReset ctx || s.ralf.disabled) = true := by simpa using hoff
  simp only [execNotify, hq, h, if_true]

theorem execNotify_mapped {s : State} {ctx qn : Nat} {q : Queue} (hq : s.queue ctx qn = some q) (hr : s.inReset ctx = false)
    (hd : s.ralf.disabled = false) (hslot : q.slot ≠ none) (v : W64) :
    execNotify ctx qn v s = .next (s.modQueue ctx qn fun q => { q with notify := v }) := by
  simp [execNotify, hq, hr, hd, Option.isSome_iff_ne_none, hslot]

theorem execNotify_unmapped {s : State} {ctx qn : Nat} {q : Queue} {h : QHead} (hq : s.queue ctx qn = some q) (hr : s.inReset ctx = false)
    (hd : s.ralf.disabled = false) (hslot : q.slot = none) (hh : s.queueHead ctx q = some h) (v : W64) :
    execNotify ctx qn v s = .next (s.foldNotify h v.toNat) := by
  simp [execNotify, hq, hr, hd, hslot, hh]

theorem exec_cmdLaunch (ctx qn : Nat) (s : State) : exec (.cmdLaunch ctx qn) s = execCmdLaunch ctx qn s := rfl
theorem exec_cmdNop (ctx qn : Nat) (s : State) : exec (.cmdNop ctx qn) s = execCmdNop ctx qn s := rfl

/-! ### What leaves a col (R241, R309) -/

/-- The two machines differ in power tokens, crews, and the waits of TGs. -/
structure State.OnlyWaits (s s' : State) : Prop where
  rest : s' = { s with ralf := s'.ralf, crews := s'.crews, tgs := s'.tgs }
  gone : ∀ id, s.tg id = none → s'.tg id = none
  waits : ∀ id g, s.tg id = some g → ∃ w, s'.tg id = some { g with wait := w }

theorem State.OnlyWaits.refl (s : State) : s.OnlyWaits s := ⟨rfl, fun _ h => h, fun _ g h => ⟨g.wait, h⟩⟩

theorem State.OnlyWaits.trans {s s' s'' : State} (h : s.OnlyWaits s') (h' : s'.OnlyWaits s'') : s.OnlyWaits s'' := by
  refine ⟨?_, fun id hn => h'.gone id (h.gone id hn), fun id g hg => ?_⟩
  · rw [h'.rest]
    rw [h.rest]
  · obtain ⟨w, hw⟩ := h.waits id g hg
    obtain ⟨w', hw'⟩ := h'.waits id _ hw
    exact ⟨w', hw'⟩

theorem State.OnlyWaits.foldl {α : Type} (f : State → α → State) (hf : ∀ (s : State) a, s.OnlyWaits (f s a)) (l : List α) (s : State) :
    s.OnlyWaits (l.foldl f s) := by
  induction l generalizing s with
  | nil => exact .refl s
  | cons a r ih => exact State.OnlyWaits.trans (hf s a) (ih _)

/-- A change of the waits alone, TG by TG. -/
theorem State.OnlyWaits.mapTgs (s : State) (f : Nat × Tg → Nat × Tg) (hk : ∀ p, (f p).1 = p.1) (hw : ∀ p, ∃ w, (f p).2 = { p.2 with wait := w }) :
    s.OnlyWaits { s with tgs := s.tgs.map f } := by
  have h : ∀ id, State.tg { s with tgs := s.tgs.map f } id = (s.tg id).map fun g => (f (id, g)).2 :=
    fun id => SMap.find_map_of_key s.tgs f hk id
  refine ⟨rfl, fun id hn => by rw [h, hn]; rfl, fun id g hg => ?_⟩
  obtain ⟨w, hw⟩ := hw (id, g)
  exact ⟨w, by rw [h, hg, Option.map_some, hw]⟩

/-- A change of power tokens and crews. -/
theorem State.OnlyWaits.of_tgs {s s' : State} (h : s' = { s with ralf := s'.ralf, crews := s'.crews }) : s.OnlyWaits s' := by
  have ht : ∀ id, s'.tg id = s.tg id := fun id => by rw [h]; rfl
  refine ⟨by rw [h], fun id hn => (ht id).trans hn, fun id g hg => ⟨g.wait, (ht id).trans hg⟩⟩

theorem State.OnlyWaits.resetCol (s : State) (crew : Nat) (m : BitVec 16) : s.OnlyWaits (s.resetCol crew m) := by
  unfold State.resetCol
  split
  · exact .refl s
  · next gg _ =>
    have hform : ∀ s : State, s.OnlyWaits (if gg.formed then s.modGang crew m fun g => { g with col := none }
        else s.modCrew crew fun c => { c with gangs := SMap.del c.gangs m.toNat }) := by
      intro s
      split <;> exact .of_tgs rfl
    refine ((State.OnlyWaits.of_tgs (s' := s.returnToken gg.holdsToken) rfl).trans (hform _)).trans (.mapTgs _ _ (fun p => ?_) fun p => ?_)
    · split <;> rfl
    · split
      · exact ⟨_, rfl⟩
      · exact ⟨p.2.wait, rfl⟩

theorem State.OnlyWaits.leaveCol (s : State) (crew : Nat) (m : BitVec 16) (idx : Nat) : s.OnlyWaits (s.leaveCol crew m idx) := by
  unfold State.leaveCol
  split
  · exact .refl s
  · simp only []
    split
    · exact .resetCol s crew m
    · exact .of_tgs rfl

theorem State.OnlyWaits.tookGang (s : State) (crew idx : Nat) : s.OnlyWaits (s.tookGang crew idx) := by
  unfold State.tookGang
  split
  · exact .refl s
  · exact .foldl _ (fun s _ => .leaveCol s _ _ _) _ _

theorem State.OnlyWaits.dissolveGangs (s : State) (crew idx : Nat) : s.OnlyWaits (s.dissolveGangs crew idx) := by
  unfold State.dissolveGangs
  split
  · exact .refl s
  · refine State.OnlyWaits.trans ?_ (.foldl _ (fun s _ => .leaveCol s _ _ _) _ _)
    refine State.OnlyWaits.trans (.of_tgs rfl) (.mapTgs _ _ (fun p => ?_) fun p => ?_)
    · split
      · split <;> rfl
      · rfl
    · split
      · split
        · exact ⟨_, rfl⟩
        · exact ⟨p.2.wait, rfl⟩
      · exact ⟨p.2.wait, rfl⟩

/-! ### Function-level reset (R405) -/

/-- What one element of a list makes gone, and no step brings back, is gone at the end. -/
theorem foldl_gone {σ α : Type} {f : σ → α → σ} {gone : σ → Prop} (hkeep : ∀ s b, gone s → gone (f s b)) {a : α}
    (ha : ∀ s, gone (f s a)) {l : List α} (hl : a ∈ l) (s : σ) : gone (l.foldl f s) := by
  have hrest : ∀ (l : List α) s, gone s → gone (l.foldl f s) := by
    intro l
    induction l with
    | nil => exact fun _ h => h
    | cons b r ih => exact fun s h => ih _ (hkeep s b h)
  induction l generalizing s with
  | nil => cases hl
  | cons b r ih =>
    rcases List.mem_cons.1 hl with rfl | hr
    · exact hrest r _ (ha s)
    · exact ih hr _

/-- Contexts and functions in reset are as they were, no TG has come, and each copy was there before, of the same context. -/
structure State.Shrinks (s s' : State) : Prop where
  contexts : s'.contexts = s.contexts
  resetting : s'.resetting = s.resetting
  tgs : ∀ id, s.tg id = none → s'.tg id = none
  copies : ∀ op o', SMap.find s'.copies op = some o' → ∃ o, SMap.find s.copies op = some o ∧ o.ctx = o'.ctx

theorem State.Shrinks.refl (s : State) : s.Shrinks s := ⟨rfl, rfl, fun _ h => h, fun _ o h => ⟨o, h, rfl⟩⟩

theorem State.Shrinks.trans {s s' s'' : State} (h : s.Shrinks s') (h' : s'.Shrinks s'') : s.Shrinks s'' := by
  refine ⟨h'.contexts.trans h.contexts, h'.resetting.trans h.resetting, fun id hn => h'.tgs id (h.tgs id hn), fun op o'' ho'' => ?_⟩
  obtain ⟨o', ho', hc'⟩ := h'.copies op o'' ho''
  obtain ⟨o, ho, hc⟩ := h.copies op o' ho'
  exact ⟨o, ho, hc.trans hc'⟩

theorem State.Shrinks.foldl {α : Type} (f : State → α → State) (hf : ∀ (s : State) a, s.Shrinks (f s a)) (l : List α) (s : State) :
    s.Shrinks (l.foldl f s) := by
  induction l generalizing s with
  | nil => exact .refl s
  | cons a r ih => exact State.Shrinks.trans (hf s a) (ih _)

theorem State.Shrinks.copy_none {s s' : State} (h : s.Shrinks s') {op : Nat} (hn : SMap.find s.copies op = none) :
    SMap.find s'.copies op = none := by
  cases ho : SMap.find s'.copies op with
  | none => rfl
  | some o' =>
    obtain ⟨o, ho, -⟩ := h.copies op o' ho
    rw [hn] at ho; cases ho

/-- A change of other fields. -/
theorem State.Shrinks.of_eq {s s' : State} (hc : s'.contexts = s.contexts) (hr : s'.resetting = s.resetting) (ht : s'.tgs = s.tgs)
    (ho : s'.copies = s.copies) : s.Shrinks s' :=
  ⟨hc, hr, fun id h => by unfold State.tg at *; rwa [ht], fun _ o h => ⟨o, by rwa [← ho], rfl⟩⟩

theorem State.Orders.shrinks {s s' : State} (h : s.Orders s') : s.Shrinks s' :=
  ⟨h.contexts, h.resetting, fun id => (h.tgs id).1, fun _ o ho => ⟨o, h.copies ▸ ho, rfl⟩⟩

theorem State.SameButTlb.shrinks {s s' : State} (h : s.SameButTlb s') : s.Shrinks s' := by
  unfold State.SameButTlb at h
  refine .of_eq ?_ ?_ ?_ ?_ <;> rw [h]

theorem State.OnlyWaits.shrinks {s s' : State} (h : s.OnlyWaits s') : s.Shrinks s' := by
  refine ⟨?_, ?_, h.gone, fun _ o ho => ⟨o, ?_, rfl⟩⟩
  · rw [h.rest]
  · rw [h.rest]
  · rw [h.rest] at ho
    exact ho

/-- A change of TGs, each at its key. -/
theorem State.Shrinks.mapTgs (s : State) (f : Nat × Tg → Nat × Tg) (hk : ∀ p, (f p).1 = p.1) : s.Shrinks { s with tgs := s.tgs.map f } :=
  ⟨rfl, rfl, fun id hn => (SMap.find_map_of_key s.tgs f hk id).trans (by unfold State.tg at hn; rw [hn]; rfl),
    fun _ o h => ⟨o, h, rfl⟩⟩

theorem State.Shrinks.modTg (s : State) (id : Nat) (f : Tg → Tg) : s.Shrinks (s.modTg id f) :=
  .mapTgs s _ fun p => by split <;> rfl

/-- A change of copies, each at its key and in its context. -/
theorem State.Shrinks.mapCopies (s : State) (f : Nat × CopyOp → Nat × CopyOp) (hk : ∀ p, (f p).1 = p.1)
    (hc : ∀ p, (f p).2.ctx = p.2.ctx) : s.Shrinks { s with copies := s.copies.map f } := by
  refine ⟨rfl, rfl, fun _ h => h, fun op o' ho' => ?_⟩
  rw [SMap.find_map_of_key s.copies f hk] at ho'
  obtain ⟨o, ho, rfl⟩ := Option.map_eq_some_iff.1 ho'
  exact ⟨o, ho, (hc (op, o)).symm⟩

theorem State.Shrinks.delCopy (s : State) (op : Nat) : s.Shrinks { s with copies := SMap.del s.copies op } :=
  ⟨rfl, rfl, fun _ h => h, fun _ o h => ⟨o, SMap.find_del_some h, rfl⟩⟩

theorem State.Shrinks.modDie (s : State) (d : Nat) (f : Die → Die) : s.Shrinks (s.modDie d f) := .of_eq rfl rfl rfl rfl
theorem State.Shrinks.modCore (s : State) (c : Nat) (f : CoreState → CoreState) : s.Shrinks (s.modCore c f) := .of_eq rfl rfl rfl rfl
theorem State.Shrinks.modCrew (s : State) (c : Nat) (f : Crew → Crew) : s.Shrinks (s.modCrew c f) := .of_eq rfl rfl rfl rfl

theorem State.Shrinks.freeRecord (s : State) (die : Nat) (r : SpawnRec) : s.Shrinks (s.freeRecord die r) := by
  cases r <;> exact .of_eq rfl rfl rfl rfl

theorem State.Shrinks.keepDeadline (s : State) (id : Nat) (g : Tg) : s.Shrinks (s.keepDeadline id g) :=
  (State.Shrinks.mapCopies s _ (fun p => by split <;> rfl) fun p => by split <;> rfl).trans (.modCrew _ _ _)

theorem State.Shrinks.freeRecords (s : State) (g : Tg) : s.Shrinks (s.freeRecords g) := .foldl _ (fun s r => .freeRecord s _ r) _ _

theorem State.Shrinks.giveSlot (s : State) (die m : Nat) : s.Shrinks (s.giveSlot die m) := by
  unfold State.giveSlot
  simp only []
  split
  · exact .modTg s _ _
  · exact .modDie s _ _

theorem State.Shrinks.resetCodebooks (s : State) (crew : Nat) : s.Shrinks (s.resetCodebooks crew) := by
  unfold State.resetCodebooks
  exact .foldl _ (fun s p => .modCore s _ _) _ _

theorem State.Shrinks.reapCrew (s : State) (crew : Nat) : s.Shrinks (s.reapCrew crew) := by
  unfold State.reapCrew
  refine State.Shrinks.trans (.modCrew s crew fun c =>
    { c with gangs := c.gangs.filter fun p => !(p.2.dissolved && p.2.ops.isEmpty && p.2.xfers.isEmpty) }) ?_
  simp only []
  split
  · exact .refl _
  · split
    · exact .of_eq rfl rfl rfl rfl
    · exact .refl _

/-- The last steps of the end of a TG: its crew counts it no more. -/
theorem State.Shrinks.leaveCrew (s : State) (crew : Nat) :
    s.Shrinks ((if (s.crew crew).any fun c => c.live == 0 then s.resetCodebooks crew else s).reapCrew crew) := by
  refine State.Shrinks.trans ?_ (.reapCrew _ crew)
  split
  · exact .resetCodebooks s crew
  · exact .refl s

theorem State.Shrinks.tg_gone {s s1 s' : State} {id : Nat} (h : s.Shrinks s1) (hn : s1.tg id = none) (h' : s1.Shrinks s') :
    s.Shrinks s' ∧ s'.tg id = none := ⟨h.trans h', h'.tgs id hn⟩

/-- R405: the TG is gone, and the rest only shrinks. -/
theorem State.flrTg_spec (s : State) (id : Nat) : s.Shrinks (s.flrTg id) ∧ (s.flrTg id).tg id = none := by
  unfold State.flrTg
  split
  · next h => exact ⟨.refl s, h⟩
  · next g h =>
    have hdrain : s.Shrinks (if s.free (10 + 64 * id) % 2 = 1 then s.drain id else s) := by
      split
      · exact (State.Orders.drain s id).shrinks
      · exact .refl s
    have hgangs := (((hdrain.trans (.keepDeadline _ id g)).trans (.freeRecords _ g)).trans
      (State.OnlyWaits.tookGang _ g.crew g.idx).shrinks).trans (State.OnlyWaits.dissolveGangs _ g.crew g.idx).shrinks
    simp only [] at hgangs ⊢
    generalize State.dissolveGangs _ g.crew g.idx = s2 at hgangs ⊢
    have hdel : s2.Shrinks { s2 with tgs := SMap.del s2.tgs id, releases := s2.releases.filter fun r => r.tg != id } :=
      ⟨rfl, rfl, fun j hj => SMap.find_del_of_none _ _ _ hj, fun _ o ho => ⟨o, ho, rfl⟩⟩
    have hgone : State.tg { s2 with tgs := SMap.del s2.tgs id, releases := s2.releases.filter fun r => r.tg != id } id = none :=
      SMap.find_del_self _ _
    refine (hgangs.trans hdel).tg_gone hgone ?_
    split
    · exact ((State.Shrinks.giveSlot _ _ _).trans (.modCrew _ _ _)).trans (.leaveCrew _ _)
    · exact (State.Shrinks.modCrew _ _ _).trans (.leaveCrew _ _)

theorem State.Shrinks.flrTg (s : State) (id : Nat) : s.Shrinks (s.flrTg id) := (s.flrTg_spec id).1

theorem State.Shrinks.setObj (s : State) (o : ObjRef) (x : Obj) : s.Shrinks (s.setObj o x) := by
  unfold State.setObj
  split
  · exact .modCrew s _ _
  · exact (State.SameButMem.setBytes s _ _).tlb.shrinks
  · exact .modDie s _ _
  · exact .modCrew s _ _
  · exact .refl s

theorem State.Shrinks.wakeRemote (s : State) (o : ObjRef) : s.Shrinks (s.wakeRemote o) := by
  unfold State.wakeRemote
  split
  · exact .of_eq rfl rfl rfl rfl
  · exact .refl s

theorem State.Shrinks.wake (s : State) (o : ObjRef) : s.Shrinks (s.wake o) := .mapTgs s _ fun _ => rfl

theorem State.Shrinks.updObj (s : State) (o : ObjRef) (f : Obj → Obj) : s.Shrinks (s.updObj o f) := by
  unfold State.updObj
  simp only []
  split
  · exact .setObj s _ _
  · exact ((State.Shrinks.setObj s _ _).trans (.wake _ _)).trans (.wakeRemote _ _)

theorem State.Shrinks.faultDone (s : State) (die bar : Nat) (inval : Bool) : s.Shrinks (s.faultDone die bar inval) := by
  refine State.Shrinks.trans (State.Shrinks.trans ?_ (.mapTgs _ (fun p => (p.1, p.2.faultEnded die bar inval)) fun _ => rfl))
    ((State.Shrinks.mapCopies _ (fun p => match p.2.fault with
      | some e => if e.on die bar then (p.1, { p.2 with fault := none, dead := p.2.dead || inval }) else p
      | none => p) (fun p => ?_) fun p => ?_).trans (.of_eq rfl rfl rfl rfl))
  · exact .of_eq rfl rfl rfl rfl
  · split
    · split <;> rfl
    · rfl
  · split
    · split <;> rfl
    · rfl

theorem State.Shrinks.barUpdate (s : State) (o : ObjRef) (inval : Bool) (f : Obj → Obj) : s.Shrinks (s.barUpdate o inval f) := by
  have h := State.Shrinks.updObj s o f
  unfold State.barUpdate
  simp only []
  split
  · split
    · exact h
    · split
      · exact h.trans (.faultDone _ _ _ _)
      · exact h
  · exact h

theorem State.Shrinks.usesObj (s : State) (o : CopyOp) : s.Shrinks (s.usesObj o) := by
  unfold State.usesObj State.usedObj
  split
  · exact (State.SameButTlb.touch s _ _ _ _).shrinks
  · exact .refl s

theorem State.Shrinks.landUnwritten (s : State) (o : CopyOp) (n : Nat) : s.Shrinks (s.landUnwritten o n) := by
  unfold State.landUnwritten
  split
  · exact .refl s
  · exact ((State.Shrinks.usesObj s o).trans (State.Orders.countedIn _ _ _ _).shrinks).trans (.barUpdate _ _ _ _)

theorem State.Shrinks.endSide (s : State) (o : CopyOp) (read : Bool) : s.Shrinks (s.endSide o read) := by
  unfold State.endSide
  split
  · exact .refl s
  · exact .modCrew s _ _

theorem State.Shrinks.clearSub (s : State) (op : Nat) (o : CopyOp) : s.Shrinks (s.clearSub op o) := by
  unfold State.clearSub
  split
  · exact .modCrew s _ _
  · exact .refl s

/-- R227, R235: the operation is gone, and the rest only shrinks. -/
theorem State.endCopy_spec (s : State) (op : Nat) : s.Shrinks (s.endCopy op) ∧ SMap.find (s.endCopy op).copies op = none := by
  unfold State.endCopy
  split
  · next h => exact ⟨.refl s, h⟩
  · next o h =>
    have hrest := (((State.Shrinks.endSide { s with copies := SMap.del s.copies op } o true).trans (.endSide _ o false)).trans
      (.clearSub _ op o)).trans ((State.Shrinks.landUnwritten _ o o.left).trans (.reapCrew _ o.crew))
    exact ⟨(State.Shrinks.delCopy s op).trans hrest, hrest.copy_none (SMap.find_del_self _ _)⟩

theorem State.Shrinks.endCopy (s : State) (op : Nat) : s.Shrinks (s.endCopy op) := (s.endCopy_spec op).1

theorem State.Shrinks.flrBins (s : State) (mine : Nat → Bool) : s.Shrinks (s.flrBins mine) := by
  unfold State.flrBins
  refine .foldl _ (fun s d => .foldl _ (fun s b => ?_) _ _) _ _
  exact ((State.Shrinks.modDie s d _).trans (.foldl _ (fun s (t : BinThread) => .freeRecord s d t.srec) _ _)).trans (.modDie _ _ _)

/-! #### Queues of the function -/

theorem State.mem_ctxsOf {s : State} {c f : Nat} {x : Context} (hx : s.ctx c = some x) (hf : x.function = f) : c ∈ s.ctxsOf f :=
  List.mem_map.2 ⟨(c, x), List.mem_filter.2 ⟨SMap.mem_of_find hx, by simp [hf]⟩, rfl⟩

theorem State.queue_modQueue (s : State) (c qn c' qn' : Nat) (f : Queue → Queue) :
    (s.modQueue c qn f).queue c' qn' = if c' = c ∧ qn' = qn then (s.queue c qn).map f else s.queue c' qn' := by
  unfold State.modQueue State.queue
  rw [State.ctx_modCtx]
  by_cases hc : c' = c
  · subst hc
    cases hx : s.ctx c' with
    | none => simp
    | some x => simp [SMap.find_adjust]
  · simp [hc]

/-- TGs, copies and functions in reset are as they were, and each queue was there before and is unmapped or as it was. -/
structure State.Unmaps (s s' : State) : Prop where
  tgs : s'.tgs = s.tgs
  copies : s'.copies = s.copies
  resetting : s'.resetting = s.resetting
  queues : ∀ c qn q', s'.queue c qn = some q' → ∃ q, s.queue c qn = some q ∧ (q'.slot = none ∨ q' = q)

theorem State.Unmaps.refl (s : State) : s.Unmaps s := ⟨rfl, rfl, rfl, fun _ _ q h => ⟨q, h, .inr rfl⟩⟩

theorem State.Unmaps.trans {s s' s'' : State} (h : s.Unmaps s') (h' : s'.Unmaps s'') : s.Unmaps s'' := by
  refine ⟨h'.tgs.trans h.tgs, h'.copies.trans h.copies, h'.resetting.trans h.resetting, fun c qn q'' hq'' => ?_⟩
  obtain ⟨q', hq', hc'⟩ := h'.queues c qn q'' hq''
  obtain ⟨q, hq, hc⟩ := h.queues c qn q' hq'
  refine ⟨q, hq, ?_⟩
  rcases hc' with hn | rfl
  · exact .inl hn
  · exact hc

theorem State.Unmaps.foldl {α : Type} (f : State → α → State) (hf : ∀ (s : State) a, s.Unmaps (f s a)) (l : List α) (s : State) :
    s.Unmaps (l.foldl f s) := by
  induction l generalizing s with
  | nil => exact .refl s
  | cons a r ih => exact State.Unmaps.trans (hf s a) (ih _)

theorem State.Orders.unmaps {s s' : State} (h : s.Orders s') (ht : s'.tgs = s.tgs) : s.Unmaps s' :=
  ⟨ht, h.copies, h.resetting, fun c qn q hq => ⟨q, h.queue c qn ▸ hq, .inr rfl⟩⟩

theorem State.SameButMem.writeHead (s : State) (h : QHead) (off n x : Nat) : s.SameButMem (s.writeHead h off n x) :=
  (State.SameButMem.setBytes s _ _).trans (.walked _ _ _ _)

/-- No queue stands at the key, or one that has no slot. -/
def State.Unmapped (s : State) (c qn : Nat) : Prop := ∀ q, s.queue c qn = some q → q.slot = none

theorem State.Unmaps.unmapped {s s' : State} (h : s.Unmaps s') {c qn : Nat} (hu : s.Unmapped c qn) : s'.Unmapped c qn := by
  intro q' hq'
  obtain ⟨q, hq, hn | rfl⟩ := h.queues c qn q' hq'
  · exact hn
  · exact hu _ hq

/-- R288: what is written where a queue leaves its slot is memory alone. -/
theorem State.unmapQueue_of_slot {s : State} {c qn : Nat} {q : Queue} (hq : s.queue c qn = some q) (hs : q.slot.isNone = false) :
    ∃ s1, s.SameButMem s1 ∧ s.unmapQueue c qn = s1.modQueue c qn fun q => { q with slot := none, notify := 0 } := by
  cases hh : s.queueHead c q with
  | none => exact ⟨s, .refl s, by simp [State.unmapQueue, hq, hs, hh]⟩
  | some h =>
    exact ⟨_, (State.SameButMem.writeHead s h 40 8 _).trans (.writeHead _ h 20 2 0xFFFF),
      State.unmapQueue_of_queueHead hq (by rintro h; simp [h] at hs) hh⟩

/-- R288: the queue has no slot, and no other is given one. -/
theorem State.unmapQueue_spec (s : State) (c qn : Nat) : s.Unmaps (s.unmapQueue c qn) ∧ (s.unmapQueue c qn).Unmapped c qn := by
  cases hq : s.queue c qn with
  | none =>
    have he : s.unmapQueue c qn = s := by simp [State.unmapQueue, hq]
    rw [he]
    exact ⟨.refl s, fun q' hq' => by rw [hq] at hq'; cases hq'⟩
  | some q =>
    cases hs : q.slot.isNone with
    | true =>
      have he : s.unmapQueue c qn = s := by simp [State.unmapQueue, hq, hs]
      rw [he]
      exact ⟨.refl s, fun q' hq' => by rw [hq] at hq'; cases hq'; exact Option.isNone_iff_eq_none.1 hs⟩
    | false =>
      obtain ⟨s1, hmem, he⟩ := State.unmapQueue_of_slot hq hs
      rw [he]
      have h1 : s.Unmaps s1 := hmem.orders.unmaps (by unfold State.SameButMem at hmem; rw [hmem])
      refine ⟨h1.trans ⟨rfl, rfl, rfl, fun c' qn' q' hq' => ?_⟩, fun q' hq' => ?_⟩
      · rw [State.queue_modQueue] at hq'
        split at hq'
        · next hk =>
          obtain ⟨q1, hq1, rfl⟩ := Option.map_eq_some_iff.1 hq'
          exact ⟨q1, by rw [hk.1, hk.2, hq1], .inl rfl⟩
        · exact ⟨q', hq', .inr rfl⟩
      · rw [State.queue_modQueue, if_pos ⟨rfl, rfl⟩] at hq'
        obtain ⟨q1, -, rfl⟩ := Option.map_eq_some_iff.1 hq'
        rfl

/-- Every queue of a context is unmapped in turn. -/
theorem State.unmapQueues_spec (s : State) (c : Nat) :
    s.Unmaps ((((s.ctx c).map (·.queues)).getD []).foldl (fun s q => s.unmapQueue c q.1) s) ∧
      ∀ qn, ((((s.ctx c).map (·.queues)).getD []).foldl (fun s q => s.unmapQueue c q.1) s).Unmapped c qn := by
  have hU := State.Unmaps.foldl (fun s (q : Nat × Queue) => s.unmapQueue c q.1) (fun s q => (s.unmapQueue_spec c q.1).1)
    (((s.ctx c).map (·.queues)).getD []) s
  refine ⟨hU, fun qn => ?_⟩
  cases hq : s.queue c qn with
  | none => exact hU.unmapped fun q' hq' => by rw [hq] at hq'; cases hq'
  | some q =>
    obtain ⟨x, hx, hqx⟩ := Option.bind_eq_some_iff.1 hq
    have hmem : (qn, q) ∈ ((s.ctx c).map (·.queues)).getD [] := by rw [hx]; exact SMap.mem_of_find hqx
    exact foldl_gone (gone := fun s => s.Unmapped c qn) (fun s b hs => (s.unmapQueue_spec c b.1).1.unmapped hs)
      (fun s => (s.unmapQueue_spec c qn).2) hmem s

/-! #### Stop and scrub -/

theorem State.Shrinks.flrTgs (s : State) (P : Nat × Tg → Bool) : s.Shrinks (((s.tgs.filter P).map (·.1)).foldl State.flrTg s) :=
  .foldl _ State.Shrinks.flrTg _ _

theorem State.flrTgs_gone {s : State} {P : Nat × Tg → Bool} {id : Nat} {g : Tg} (hg : s.tg id = some g) (hp : P (id, g) = true) :
    (((s.tgs.filter P).map (·.1)).foldl State.flrTg s).tg id = none :=
  foldl_gone (gone := fun s => s.tg id = none) (fun s b hs => (State.Shrinks.flrTg s b).tgs id hs) (fun s => (s.flrTg_spec id).2)
    (List.mem_map.2 ⟨(id, g), List.mem_filter.2 ⟨SMap.mem_of_find hg, hp⟩, rfl⟩) s

theorem State.Shrinks.endCopies (s : State) (P : Nat × CopyOp → Bool) :
    s.Shrinks ((s.copies.filter P).foldl (fun s p => s.endCopy p.1) s) :=
  .foldl _ (fun s (p : Nat × CopyOp) => State.Shrinks.endCopy s p.1) _ _

theorem State.endCopies_gone {s : State} {P : Nat × CopyOp → Bool} {op : Nat} {o : CopyOp} (ho : SMap.find s.copies op = some o)
    (hp : P (op, o) = true) : SMap.find ((s.copies.filter P).foldl (fun s p => s.endCopy p.1) s).copies op = none :=
  foldl_gone (gone := fun s => SMap.find s.copies op = none) (fun s (b : Nat × CopyOp) hs => (State.Shrinks.endCopy s b.1).copy_none hs)
    (fun s => (s.endCopy_spec op).2) (List.mem_filter.2 ⟨SMap.mem_of_find ho, hp⟩) s

/-- The function is in reset from here on. -/
def State.startReset (s : State) (f : Nat) : State :=
  { s with resetting := if s.resetting.contains f then s.resetting else f :: s.resetting }

theorem State.copies_startReset (s : State) (f : Nat) : (s.startReset f).copies = s.copies := rfl

theorem State.mem_startReset (s : State) (f : Nat) : f ∈ (s.startReset f).resetting := by
  unfold State.startReset
  simp only []
  split
  · next h => simpa using h
  · exact List.mem_cons_self

/-- R405, steps 1 to 4: the function is in reset, its queues are unmapped, and its TGs at an instruction boundary and its copies gone. -/
theorem State.flrStop_spec (s : State) (fn : Nat) :
    fn ∈ (s.flrStop fn).resetting ∧
    (∀ c ∈ s.ctxsOf fn, ∀ qn, (s.flrStop fn).Unmapped c qn) ∧
    (∀ id g, s.tg id = some g → g.ctx ∈ s.ctxsOf fn → g.wait ≠ .mac → (s.flrStop fn).tg id = none) ∧
    (∀ op o, SMap.find s.copies op = some o → o.ctx ∈ s.ctxsOf fn → SMap.find (s.flrStop fn).copies op = none) := by
  have hstart : ({ s with resetting := if s.resetting.contains fn then s.resetting else fn :: s.resetting } : State) = s.startReset fn := rfl
  simp only [State.flrStop, hstart]
  have hU := State.Unmaps.foldl _ (fun s c => (State.unmapQueues_spec s c).1) (s.ctxsOf fn) (s.startReset fn)
  have hgone : ∀ c ∈ s.ctxsOf fn, ∀ qn, State.Unmapped _ c qn := fun c hc qn =>
    foldl_gone (gone := fun s => s.Unmapped c qn) (fun s b hs => (State.unmapQueues_spec s b).1.unmapped hs)
      (fun s => (State.unmapQueues_spec s c).2 qn) hc (s.startReset fn)
  generalize (s.ctxsOf fn).foldl _ (s.startReset fn) = s2 at *
  have hT := State.Shrinks.flrTgs s2 fun p => (s.ctxsOf fn).contains p.2.ctx && p.2.wait != .mac
  have htg := fun id g (hg : s2.tg id = some g) hp => State.flrTgs_gone (P := fun p => (s.ctxsOf fn).contains p.2.ctx && p.2.wait != .mac) hg hp
  generalize ((s2.tgs.filter fun p => (s.ctxsOf fn).contains p.2.ctx && p.2.wait != .mac).map (·.1)).foldl State.flrTg s2 = s3 at *
  have hC := State.Shrinks.endCopies s3 fun p => (s.ctxsOf fn).contains p.2.ctx
  have hcopy := fun op o (ho : SMap.find s3.copies op = some o) hp => State.endCopies_gone (P := fun p => (s.ctxsOf fn).contains p.2.ctx) ho hp
  generalize (s3.copies.filter fun p => (s.ctxsOf fn).contains p.2.ctx).foldl (fun s p => s.endCopy p.1) s3 = s4 at *
  have hB := State.Shrinks.flrBins s4 fun c => (s.ctxsOf fn).contains c
  have h24 := (hT.trans hC).trans hB
  refine ⟨?_, fun c hc qn q hq => ?_, fun id g hg hc hw => ?_, fun op o ho hc => ?_⟩
  · rw [h24.resetting, hU.resetting]
    exact s.mem_startReset fn
  · refine hgone c hc qn q ?_
    unfold State.queue State.ctx at *
    rwa [h24.contexts] at hq
  · have hg2 : s2.tg id = some g := by unfold State.tg; rw [hU.tgs]; exact hg
    exact (hC.trans hB).tgs id (htg id g hg2 (by simp [hc, hw]))
  · refine hB.copy_none ?_
    cases h3 : SMap.find s3.copies op with
    | none => exact hC.copy_none h3
    | some o3 =>
      obtain ⟨o', ho', hctx⟩ := hT.copies op o3 h3
      rw [hU.copies, s.copies_startReset, ho] at ho'
      cases ho'
      exact hcopy op o3 h3 (by simp [← hctx, hc])

theorem State.SameButMem.zeroFaults (s : State) (mine : Nat → Bool) (die : Nat) : s.SameButMem (s.zeroFaults mine die) :=
  (State.SameButMem.foldl (fun (s : State) loc => s.write loc 16 0) (fun s loc => .setBytes s loc _) _ s).trans
    (.foldl (fun (s : State) loc => s.write loc 32 0) (fun s loc => .setBytes s loc _) _ _)

/-- A link's source is one of two (R409). -/
theorem State.srcLink_cases (s : State) : s.srcLink = 0x0300 ∨ s.srcLink = 0x0301 := by
  unfold State.srcLink
  rcases Nat.mod_two_eq_zero_or_one (s.free 17) with h | h <;> simp [h]

/-- R405, steps 5 and 6: the function's contexts are emptied, its launches and crews are gone, and its reset has ended. -/
theorem State.flrScrub_spec (s : State) (fn : Nat) :
    (∀ c x, s.ctx c = some x → (s.flrScrub fn).ctx c = some (if x.function = fn then { x with queues := [], handles := [] } else x)) ∧
    (∀ l x, (s.flrScrub fn).launch l = some x → x.ctx ∉ s.ctxsOf fn) ∧
    (∀ k x, (s.flrScrub fn).crew k = some x → x.ctx ∉ s.ctxsOf fn) ∧
    (s.flrScrub fn).events = (s.record s.srcLink (.flrDone fn)).events ∧
    fn ∉ (s.flrScrub fn).resetting := by
  have hm := State.SameButMem.foldl (fun (s' : State) d => s'.zeroFaults (fun c => (s.ctxsOf fn).contains c) d)
    (fun s' d => .zeroFaults s' _ d) (s.dies.map (·.1)) s
  unfold State.SameButMem at hm
  unfold State.flrScrub
  simp only []
  generalize (s.dies.map (·.1)).foldl (fun s' d => s'.zeroFaults (fun c => (s.ctxsOf fn).contains c) d) s = s1 at hm ⊢
  rw [hm]
  refine ⟨fun c x hx => ?_, fun l x hx => ?_, fun k x hx => ?_, rfl, ?_⟩
  · refine (SMap.find_map_of_key s.contexts _ (fun p => ?_) c).trans ?_
    · split <;> rfl
    · unfold State.ctx at hx
      rw [hx]
      simp only [Option.map_some]
      split <;> rfl
  · simpa using SMap.of_find_filter hx
  · simpa using SMap.of_find_filter hx
  · exact fun h => by simpa using (List.mem_filter.1 h).2

theorem execFlr_of_not_resetting {s : State} {fn : Nat} (hfn : fn ≤ 16) (hd : s.ralf.disabled = false) (hr : fn ∉ s.resetting) :
    execFlr fn s = .next (s.flrStop fn) := by
  have hr' : s.resetting.contains fn = false := by simpa using hr
  rw [execFlr, commanded_of_enabled hd, if_neg (by omega)]
  simp only [hr', Bool.false_and, Bool.false_eq_true, if_false]

theorem execFlr_of_resetting {s : State} {fn : Nat} (hfn : fn ≤ 16) (hd : s.ralf.disabled = false) (hr : fn ∈ s.resetting) :
    execFlr fn s = .next (if (s.flrStop fn).flrQuiet fn then (s.flrStop fn).flrScrub fn else s.flrStop fn) := by
  have hr' : s.resetting.contains fn = true := by simpa using hr
  rw [execFlr, commanded_of_enabled hd, if_neg (by omega)]
  simp only [hr', Bool.true_and]
  split <;> rfl

/-! ### The fault server (R153) -/

/-- The TLBs of every core and die hold the translations that satisfy a test, of those that they held. -/
def State.keepTlbs (s : State) (P : TlbEntry → Bool) : State :=
  { s with
    cores := s.cores.map fun p => (p.1, { p.2 with tlb := p.2.tlb.filter P })
    dies := s.dies.map fun p => (p.1, { p.2 with tlb := p.2.tlb.filter P }) }

theorem State.core_keepTlbs (s : State) (P : TlbEntry → Bool) (c : Nat) : ((s.keepTlbs P).core c).tlb = (s.core c).tlb.filter P :=
  congrArg CoreState.tlb (SMap.get_map_val CoreState.reset s.cores (fun x => { x with tlb := List.filter P x.tlb }) rfl c)

theorem State.die_keepTlbs (s : State) (P : TlbEntry → Bool) (d : Nat) : ((s.keepTlbs P).die d).tlb = (s.die d).tlb.filter P :=
  congrArg Die.tlb (SMap.get_map_val Die.reset s.dies (fun x => { x with tlb := List.filter P x.tlb }) rfl d)

/-- Whether a translation is of another context than the one given, or overlaps none of the page of `e`. -/
def TlbEntry.apart (e : TlbEntry) (ctx : Nat) (x : TlbEntry) : Bool :=
  !(x.ctx == ctx && decide (x.base < e.base + e.size) && decide (e.base < x.base + x.size))

theorem TlbEntry.of_apart {e x : TlbEntry} {ctx : Nat} (h : e.apart ctx x = true) (hc : x.ctx = ctx) :
    e.base + e.size ≤ x.base ∨ x.base + x.size ≤ e.base := by
  simp only [TlbEntry.apart, hc, beq_self_eq_true, Bool.true_and, Bool.not_eq_true', Bool.and_eq_false_iff,
    decide_eq_false_iff_not] at h
  omega

/-- A page made resident: its bytes are written, RES is set in its leaf, and no TLB keeps a translation that overlaps it. -/
theorem State.makeResident_of_leaf {s : State} {ctx page : Nat} {e : TlbEntry} {r : Bool} (h : s.walk ctx page = .leaf e r)
    (bs : List Byte) :
    s.makeResident ctx page bs =
      ((if bs = [] then s else s.store e.loc (bs.take e.size)).setByte e.leaf
        ((if bs = [] then s else s.store e.loc (bs.take e.size)).last e.leaf ||| 0x20)).keepTlbs (e.apart ctx) := by
  simp only [State.makeResident, h, List.isEmpty_iff]
  rfl

/-- R169, R170: an update of an object in memory that moves its phase. -/
theorem State.updObj_of_phase {s : State} {o : ObjRef} {f : Obj → Obj} (h : (f (s.obj o)).phase ≠ (s.obj o).phase) :
    s.updObj o f = ((s.setObj o (f (s.obj o))).wake o).wakeRemote o := by
  simp only [State.updObj, if_neg h]

/-- A TG that is not parked on an object is as it was after an update of one in memory. -/
theorem State.tg_updObj_glob {s : State} {loc : Nat} {f : Obj → Obj} {id : Nat} {g : Tg} (hg : s.tg id = some g)
    (hw : ∀ o ph, g.wait ≠ .obj o ph) : (s.updObj (.glob loc) f).tg id = some g := by
  have hset : (s.setObj (.glob loc) (f (s.obj (.glob loc)))).tg id = some g :=
    ((State.SameButMem.setBytes s loc _).tlb.tg id).trans hg
  by_cases h : (f (s.obj (.glob loc))).phase = (s.obj (.glob loc)).phase
  · simp only [State.updObj, if_pos h, hset]
  · rw [State.updObj_of_phase h]
    refine (SMap.find_map_val _ (fun g : Tg => g.wokenBy (.glob loc)) id).trans ?_
    unfold State.tg at hset
    rw [hset, Option.map_some, Tg.wokenBy]
    split
    · next o' ph hx => exact absurd hx (hw _ _)
    · rfl

/-- R153: an update that moves the phase of an assigned fault barrier ends the fault. -/
theorem State.barUpdate_faultBar {s : State} {loc die bar : Nat} {inval : Bool} {f : Obj → Obj} (hb : s.faultBarAt loc = some (die, bar))
    (h : (f (s.obj (.glob loc))).phase ≠ (s.obj (.glob loc)).phase) :
    s.barUpdate (.glob loc) inval f = (s.updObj (.glob loc) f).faultDone die bar inval := by
  simp only [State.barUpdate, if_neg h, hb]

/-- R153: the TG that waits on a fault goes on as its barrier ends, and takes ADDR where it was invalidated. -/
theorem State.tg_faultDone {s : State} {die bar id : Nat} {inval : Bool} {g : Tg} {ph : BitVec 16} {va : W64} {tid : Nat} {fill : Bool}
    (hg : s.tg id = some g) (hmac : g.mac = none) (hw : g.wait = .fault die bar ph va tid fill) :
    (s.faultDone die bar inval).tg id =
      some { g with wait := .ready, faultInval := if inval then some (va, tid) else g.faultInval } := by
  refine (SMap.find_map_val _ (fun g : Tg => g.faultEnded die bar inval) id).trans ?_
  change (s.tg id).map _ = _
  rw [hg]
  simp [Tg.faultEnded, hw, hmac]

theorem State.faults_faultDone (s : State) (die bar : Nat) (inval : Bool) :
    SMap.find ((s.faultDone die bar inval).die die).faults bar = none := by
  change SMap.find (((s.count _).modDie die fun d => { d with faults := SMap.del d.faults bar }).die die).faults bar = none
  rw [State.die_modDie_self]
  exact SMap.find_del_self _ _

theorem Obj.phase_inval_ne (o : Obj) : (Obj.inval o).phase ≠ o.phase := by
  change o.phase + 1 ≠ o.phase
  bv_omega

theorem execHostFaultService_disabled {s : State} {die bar : Nat} {bs : Option (List Byte)} {f : Nat × Nat × Nat}
    (hf : SMap.find (s.die die).faults bar = some f) (hd : s.ralf.disabled = true) : execHostFaultService die bar bs s = .next s := by
  simp only [execHostFaultService, hf, hd, if_true]

/-- R153: a fault server's answer completes the barrier, or invalidates it. -/
theorem execHostFaultService_enabled {s : State} {die bar ctx page time : Nat}
    (hf : SMap.find (s.die die).faults bar = some (ctx, page, time)) (hd : s.ralf.disabled = false) (bs : Option (List Byte)) :
    execHostFaultService die bar bs s = bs.elim (.next (s.barUpdate (.glob ((s.die die).barLoc bar)) true Obj.inval)) fun bs =>
      .next ((s.makeResident ctx page bs).barUpdate (.glob ((s.die die).barLoc bar)) false Obj.arrive) := by
  cases bs <;> simp only [execHostFaultService, hf, hd] <;> rfl

/-! ### Requests of other modules (R407, R408) -/

theorem remoteOrder_read (s : State) (p : ObjRef × Nat) (ord : Nat) :
    s.remoteOrder p ord true =
      if ord = 2 ∨ ord = 4 ∨ ord = 5 then (if ord = 5 then s.scAfter (.other 0) 5 else s).acquireAt (.other 0) [p]
      else if ord = 5 then s.scAfter (.other 0) 5 else s := by
  have h : isAcquire ord = true ↔ ord = 2 ∨ ord = 4 ∨ ord = 5 := by simp [isAcquire, or_assoc]
  simp only [State.remoteOrder, Bool.true_and, h]

theorem remoteOrder_write (s : State) (p : ObjRef × Nat) (ord : Nat) :
    s.remoteOrder p ord false = if ord = 5 then s.scAfter (.other 0) 5 else s := by
  simp [State.remoteOrder]

/-- R179, R408: a wait whose phase has completed acquires at the object's PHASE. -/
theorem State.remoteWord_acquire (s : State) (o : ObjRef) (ph : BitVec 16) :
    (if (s.obj o).phase != ph then s.acquireAt (.other 0) [phasePlace o] else s) =
      if (s.obj o).phase = ph then s else s.acquireAt (.other 0) [phasePlace o] := by
  by_cases h : (s.obj o).phase = ph <;> simp [h]

theorem execAedunRemoteRequest_of_legal {s : State} {loc : Nat} {op : RemoteOp} (hd : s.ralf.disabled = false)
    (h0 : 0 < RemoteOp.bytes op) (h16 : RemoteOp.bytes op ≤ 16) (ha : loc % RemoteOp.bytes op = 0) (hl : hbmOk loc = true)
    (hh : hbmOk (loc + RemoteOp.bytes op - 1) = true) : execAedunRemoteRequest loc op s = .next (s.remote loc op) := by
  have h0' : RemoteOp.bytes op ≠ 0 := by omega
  have h16' : ¬16 < RemoteOp.bytes op := by omega
  simp [execAedunRemoteRequest, hd, h0', h16', ha, hl, hh]

/-- R408: each waiter of an object that a phase of it ends is told. -/
theorem mem_wakes {r : HostRecord} {l : List Nat} (hl : l ≠ []) (ev : List HostRecord) :
    r ∈ l.foldl (fun ev _ => insRecord r ev) ev := by
  induction l generalizing ev with
  | nil => exact absurd rfl hl
  | cons a l ih =>
    cases l with
    | nil => exact (mem_insRecord r r ev).2 (.inl rfl)
    | cons b l => exact ih (by simp) _

/-- R179, R408: the phase that a module waits for ends: it waits no more, and its link carries the wake. -/
theorem State.updObj_wakesRemote {s : State} {loc : Nat} {f : Obj → Obj} (hin : loc ∈ s.remoteWaits)
    (h : (f (s.obj (.glob loc))).phase ≠ (s.obj (.glob loc)).phase) :
    (s.updObj (.glob loc) f).remoteWaits = s.remoteWaits.filter (· != loc) ∧
      { time := s.gtime, source := s.srcPort, event := HostEvent.linkWake loc : HostRecord } ∈ (s.updObj (.glob loc) f).events := by
  have hm := State.SameButMem.setBytes s loc (f (s.obj (.glob loc))).toBytes
  rw [State.updObj_of_phase h, State.setObj]
  generalize s.setBytes loc (f (s.obj (.glob loc))).toBytes = s1 at hm ⊢
  have hwaits : s1.remoteWaits = s.remoteWaits := by rw [hm]
  have htime : s1.gtime = s.gtime := by rw [hm]; rfl
  have hport : s1.srcPort = s.srcPort := by rw [hm]; rfl
  have hne : s.remoteWaits.filter (· == loc) ≠ [] := List.ne_nil_of_mem (List.mem_filter.2 ⟨hin, by simp⟩)
  rw [← hwaits] at hne ⊢
  rw [← htime, ← hport]
  exact ⟨rfl, mem_wakes hne s1.events⟩

/-! ### Lost links (R407) -/

theorem State.OnlyWaits.mem {s s' : State} (h : s.OnlyWaits s') : s'.mem = s.mem := by rw [h.rest]
theorem State.OnlyWaits.contribs {s s' : State} (h : s.OnlyWaits s') : s'.contribs = s.contribs := by rw [h.rest]

/-- What a TG has sent to another module. -/
def Contrib.sentFar (id : Nat) (c : Contrib) : Bool := c.owner == id && decide (2 ^ 53 ≤ c.loc)

theorem execLinkDeliveryTimeout_none {s : State} {id : Nat} {g : Tg} (hg : s.tg id = some g) (hs : ∀ p ∈ g.stores, p.loc < 2 ^ 53)
    (hc : ∀ c ∈ s.contribs, Contrib.sentFar id c = false) :
    execLinkDeliveryTimeout id s = .next (s.modTg id fun g => { g with linkLost := true }) := by
  have hs' : g.stores.find? (fun p => decide (2 ^ 53 ≤ p.loc)) = none :=
    find?_none_of _ _ fun p hp => by simpa using hs p hp
  have hc' : s.contribs.find? (Contrib.sentFar id) = none := find?_none_of _ _ hc
  have hf : s.contribs.filter (fun c => !Contrib.sentFar id c) = s.contribs :=
    List.filter_eq_self.2 fun c h => by rw [hc c h]; rfl
  unfold Contrib.sentFar at hc' hf
  simp only [execLinkDeliveryTimeout, hg, hs', hc', hf]
  rfl

/-- What a TG waits for once it stands at no col. -/
def Wait.leftCol (w : Wait) : Wait :=
  match w with
  | .col _ => .ready
  | w => w

/-- The address and the thread of what a TG has sent to another module: of its first store there, else of its first contribution. -/
def State.farSent (s : State) (id : Nat) (g : Tg) : Option (W64 × Nat) :=
  ((g.stores.find? fun p => decide (2 ^ 53 ≤ p.loc)).map fun p => (p.va, p.tid)).or
    ((s.contribs.find? (Contrib.sentFar id)).map fun c => (c.va, c.tid))

theorem execLinkDeliveryTimeout_some {s : State} {id : Nat} {g : Tg} {va : W64} {tid : Nat} (hg : s.tg id = some g)
    (hat : s.farSent id g = some (va, tid)) :
    ∃ s', execLinkDeliveryTimeout id s = .next s' ∧ s'.mem = s.mem ∧ s'.contribs = s.contribs.filter (fun c => !Contrib.sentFar id c) ∧
      s'.tg id = some { g with
        linkLost := true, faultInval := some (va, tid), stores := g.stores.filter fun p => !decide (2 ^ 53 ≤ p.loc)
        wait := g.wait.leftCol } := by
  have hat' : ((g.stores.find? fun p => decide (2 ^ 53 ≤ p.loc)).map fun p => (p.va, p.tid)).or
      ((s.contribs.find? fun c => c.owner == id && decide (2 ^ 53 ≤ c.loc)).map fun c => (c.va, c.tid)) = some (va, tid) := hat
  simp only [execLinkDeliveryTimeout, hg, hat']
  generalize hs2 : State.prune _ = s2
  have hmem : s2.mem = s.mem := by rw [← hs2]; rfl
  have hcon : s2.contribs = s.contribs.filter (fun c => !Contrib.sentFar id c) := by rw [← hs2]; rfl
  have htg : s2.tg id = some { g with
      linkLost := true, faultInval := some (va, tid), stores := g.stores.filter fun p => !decide (2 ^ 53 ≤ p.loc) } := by
    have hprune : ∀ x : State, x.prune.tg id = x.tg id := fun _ => rfl
    have hcontribs : ∀ (x : State) cs, State.tg { x with contribs := cs } id = x.tg id := fun _ _ => rfl
    rw [← hs2, hprune, State.tg_modTg, if_pos rfl, hcontribs, State.tg_modTg, if_pos rfl, hg]
    rfl
  cases hw : g.wait with
  | col m =>
    have hl := State.OnlyWaits.leaveCol s2 g.crew m g.idx
    obtain ⟨w, hlt⟩ := hl.waits id _ htg
    refine ⟨_, rfl, hl.mem.trans hmem, hl.contribs.trans hcon, ?_⟩
    rw [State.tg_modTg, if_pos rfl, hlt]
    rfl
  | _ => exact ⟨s2, rfl, hmem, hcon, by rw [htg, ← hw]; simp [hw, Wait.leftCol]⟩

/-! ### Contexts (R338, R402) -/

theorem sysValueOk_ftsize {x : W64} (h : SysValue 0x31 x) : sysValueOk 0x31 x = true := by
  obtain ⟨-, -, -, -, hpow, -, -, -⟩ := h
  obtain ⟨k, hk, hx⟩ := hpow rfl
  have hpows : ∀ k < 21, sysValueOk 0x31 (BitVec.ofNat 64 (2 ^ k)) = true := by decide
  have hxk : x = BitVec.ofNat 64 (2 ^ k) := by rw [← hx]; simp
  exact hxk ▸ hpows k (by omega)

theorem extractLsb'_eq_zero_of_mod {x : W64} {n : Nat} (h : x.toNat % 2 ^ n = 0) : (x.extractLsb' 0 n == 0) = true := by
  rw [beq_iff_eq]
  exact BitVec.eq_of_toNat_eq (by simp [BitVec.extractLsb'_toNat, h])

theorem sysValueOk_savebase {x : W64} (h : SysValue 0x35 x) : sysValueOk 0x35 x = true := by
  obtain ⟨-, -, -, -, -, -, hx, -⟩ := h
  exact extractLsb'_eq_zero_of_mod (n := 8) (hx rfl)

theorem sysValueOk_ptroot {x : W64} (h : SysValue 0x40 x) : sysValueOk 0x40 x = true := by
  obtain ⟨-, -, -, -, -, -, -, hx⟩ := h
  exact extractLsb'_eq_zero_of_mod (n := 21) (hx rfl)

/-- R338, R402: what a new context holds. -/
def newContext (c : ContextSpec) : Context :=
  { function := c.function, system := c.system, memdef := memdefInit, seed := c.seed, ftbase := c.ftbase, ftsize := c.ftsize
    safemax := 8192, faultmode := c.faultmode, savebase := c.savebase, ptroot := c.ptroot, tvec := c.tvec, halted := false
    accepted := 0, handles := []
    queues := c.queues.zipIdx.map fun p => (p.2, { desc := p.1, slot := none, notify := 0 }) }

theorem execContextCreate_of_legal {s : State} {c : ContextSpec} (hspec : specOk c = true) (hnew : s.ctx c.id = none)
    (hfn : c.function ∉ s.resetting) (hd : s.ralf.disabled = false) :
    execContextCreate c s = .next { s with contexts := SMap.put s.contexts c.id (newContext c) } := by
  have hnew' : SMap.has s.contexts c.id = false := by unfold State.ctx at hnew; simp [SMap.has, hnew]
  rw [execContextCreate, commanded_of_enabled hd, if_neg (by simp [hspec, hnew', hfn])]
  rfl

theorem newContext_queues (c : ContextSpec) : (newContext c).queues.map (fun q => q.2.desc) = c.queues := by
  simp only [newContext, List.map_map]
  exact List.zipIdx_map_fst 0 c.queues

theorem specOk_of_legal {c : ContextSpec} (hid : c.id < 2 ^ 16) (hfn : c.function ≤ 16) (hft : SysValue 0x31 c.ftsize)
    (hsave : SysValue 0x35 c.savebase) (hpt : SysValue 0x40 c.ptroot) (htv : c.tvec.toNat % 2048 = 0) : specOk c = true := by
  have hid' : c.id < 65536 := hid
  simp [specOk, hid', hfn, sysValueOk_ftsize hft, sysValueOk_savebase hsave, sysValueOk_ptroot hpt, htv]

theorem execResume_of_saved {s : State} {ctx : Nat} {c : Context} (hc : s.ctx ctx = some c) (hh : c.halted = true)
    (hm : s.halted = false) (hd : s.ralf.disabled = false) (hsaved : ∀ p ∈ s.crews, p.2.ctx = ctx → p.2.core = none) :
    execResume ctx s = .next (s.modCtx ctx fun c => { c with halted := false }) := by
  have hcrews : (s.crews.any fun p => p.2.ctx == ctx && p.2.core.isSome) = false :=
    List.any_eq_false.2 fun p hp => by
      by_cases hpc : p.2.ctx = ctx
      · simp [hsaved p hp hpc]
      · simp [hpc]
  rw [execResume, commanded_of_enabled hd, if_neg (by simp [hc, hh, hm, hcrews])]

/-! ### The Ralfester controller (R410 to R415) -/

theorem Ralfester.verifies_iff (r : Ralfester) (key floor : Nat) (x : Firmware) :
    r.verifies key floor x = true ↔ r.keysErased = false ∧ Config.signatureOk key x.body x.sig = true ∧ floor ≤ x.version := by
  simp [Ralfester.verifies, and_assoc]

section Boot
variable {s : State} {r c : Firmware} (hb : s.ralf.booted = false) (hd : s.ralf.disabled = false)
include hb hd

theorem execSecureBoot_refused (h : ¬s.ralf.verifies 0 s.ralf.ralfFloor r = true) :
    execSecureBoot r c s = .next (s.modRalf fun r => { r with disabled := true }) := by
  have h' : s.ralf.verifies keyRalfester s.ralf.ralfFloor r = false := Bool.eq_false_iff.2 h
  simp [execSecureBoot, hb, hd, h']

variable (h : s.ralf.verifies 0 s.ralf.ralfFloor r = true)
include h

/-- R413: the command processor's firmware is verified once the Ralfester's is. -/
theorem execSecureBoot_of_verified :
    execSecureBoot r c s = if s.ralf.verifies 1 s.ralf.cpFloor c = true
      then .next ((s.modRalf fun x => { x with ralfFloor := max x.ralfFloor r.version }).modRalf fun x => { x with
        cpFloor := max x.cpFloor c.version, booted := true
        measurements := [sha384 Config.bootRom, sha384 r.body, sha384 c.body] })
      else .next ((s.modRalf fun x => { x with ralfFloor := max x.ralfFloor r.version }).modRalf fun x => { x with disabled := true }) := by
  have h' : s.ralf.verifies keyRalfester s.ralf.ralfFloor r = true := h
  cases hv : s.ralf.verifies 1 s.ralf.cpFloor c <;> simp [execSecureBoot, hb, hd, h', keyProcessor, hv]

end Boot

theorem execThermalStepDown_again {s : State} {d : Nat} (hd : d < 4) (hs : s.ralf.stepDown = true) :
    execThermalStepDown d s = .next s := by
  rw [execThermalStepDown, if_neg (show ¬Config.numDies ≤ d from Nat.not_le.2 hd), if_pos hs]

theorem execThermalStepDown_first {s : State} {d : Nat} (hd : d < 4) (hs : s.ralf.stepDown = false) :
    execThermalStepDown d s = .next ((s.count (ctrThermal d)).modRalf fun r => { r with stepDown := true }) := by
  rw [execThermalStepDown, if_neg (show ¬Config.numDies ≤ d from Nat.not_le.2 hd), if_neg (by simp [hs])]

theorem ErrArray.shared_eq_false {a : ErrArray} (h2 : a ≠ .l2) (hf : a ≠ .futureCache) : ErrArray.shared a = false := by
  cases a with
  | l2 => exact absurd rfl h2
  | futureCache => exact absurd rfl hf
  | _ => rfl

theorem execUncorrectableSoftError_ctx {s : State} {a : ErrArray} {c : Nat} (ha : ErrArray.shared a = false) (hc : s.ctx c ≠ none) :
    execUncorrectableSoftError a (some c) s =
      .next (((s.count (ctrUncorrectable a)).report (.softError a (some c))).haltWhere fun k => k == c) := by
  have hc' := isNone_eq_false hc
  simp [execUncorrectableSoftError, ha, hc']

theorem execAlarmPolicyWrite_refused {s : State} {al : Alarm} {p : BitVec 2} (hd : s.ralf.disabled = false)
    (hp : p = 3 ∨ p < s.ralf.policy al) : execAlarmPolicyWrite al p s = .next (s.report .refusedPolicy) := by
  rw [execAlarmPolicyWrite, commanded_of_enabled hd, if_pos (by simpa using hp)]

theorem execAlarmPolicyWrite_raised {s : State} {al : Alarm} {p : BitVec 2} (hd : s.ralf.disabled = false) (h3 : p ≠ 3)
    (hp : ¬p < s.ralf.policy al) :
    execAlarmPolicyWrite al p s = .next (s.modRalf fun r => { r with policies := SMap.set 0 r.policies (alarmIndex al) p }) := by
  rw [execAlarmPolicyWrite, commanded_of_enabled hd, if_neg (by simpa using And.intro h3 (BitVec.not_lt.1 hp))]

section Alarms
variable {s : State} {al : Alarm}

theorem execSecurityAlarm_recorded (hp : s.ralf.policy al = 0) :
    execSecurityAlarm al s = .next ((s.count (ctrAlarm al)).report (.alarm al (s.ralf.policy al))) := if_pos hp

theorem execSecurityAlarm_halts (hp : s.ralf.policy al = 1 ∨ s.ralf.policy al = 3) :
    execSecurityAlarm al s = .next ((s.count (ctrAlarm al)).report (.alarm al (s.ralf.policy al))).haltModule := by
  rcases hp with hp | hp <;> simp [execSecurityAlarm, hp]

theorem execSecurityAlarm_erases (hp : s.ralf.policy al = 2) :
    execSecurityAlarm al s = .next (((s.count (ctrAlarm al)).report (.alarm al (s.ralf.policy al))).modRalf
      fun r => { r with keysErased := true }).haltModule := by
  simp [execSecurityAlarm, hp]

end Alarms

theorem execAttestationRequest_of_length {s : State} {nonce : List Byte} (hn : nonce.length = 48) (hd : s.ralf.disabled = false) :
    execAttestationRequest nonce s = if s.ralf.keysErased then .next s else
      .next ((s.report (.report (s.attestation nonce) (fixLen 96 (Config.sign (s.attestation nonce))))).modRalf
        fun r => { r with reports := r.reports + 1 }) := by
  rw [execAttestationRequest, if_neg (not_not_intro hn), commanded_of_enabled hd]

theorem fixLen_length (n : Nat) (l : List Byte) : (fixLen n l).length = n := by simp [fixLen]

/-- Bytes [239:0] of a report: all but the nonce. -/
theorem State.attestation_split (s : State) (nonce : List Byte) :
    ∃ head tail, head.length = 32 ∧ tail.length = 200 ∧ s.attestation nonce = head ++ (leBytes s.gtime.toNat 8 ++ (tail ++ nonce)) := by
  refine ⟨leBytes Config.serial 16 ++ leBytes s.ralf.modes 8 ++ leBytes s.ralf.ralfFloor 2 ++ leBytes s.ralf.cpFloor 2 ++
      leBytes s.ralf.microFloor.toNat 2 ++ [0, 0],
    leBytes (s.ralf.reports + 1) 8 ++ sha384 s.slotImages ++ fixLen 48 (s.ralf.measurements.getD 2 []) ++
      fixLen 48 (s.ralf.measurements.getD 1 []) ++ fixLen 48 (s.ralf.measurements.getD 0 []), ?_, ?_, ?_⟩
  · simp [leBytes_length]
  · simp [leBytes_length, sha384, fixLen_length]
  · simp only [State.attestation, List.append_assoc]

theorem State.attestation_length (s : State) (nonce : List Byte) : (s.attestation nonce).length = 240 + nonce.length := by
  obtain ⟨head, tail, hh, ht, he⟩ := s.attestation_split nonce
  simp only [he, List.length_append, leBytes_length]
  omega

theorem State.attestation_nonce (s : State) (nonce : List Byte) : (s.attestation nonce).drop 240 = nonce := by
  obtain ⟨head, tail, hh, ht, he⟩ := s.attestation_split nonce
  rw [he, ← List.append_assoc, ← List.append_assoc]
  exact List.drop_left' (by simp only [List.length_append, leBytes_length]; omega)

theorem State.attestation_time (s : State) (nonce : List Byte) : leNat (((s.attestation nonce).drop 32).take 8) = s.gtime.toNat := by
  obtain ⟨head, tail, hh, ht, he⟩ := s.attestation_split nonce
  rw [he, List.drop_left' hh, List.take_left' (leBytes_length _ _), leNat_leBytes]
  exact Nat.mod_eq_of_lt s.gtime.isLt

/-! ### The claim -/

/-- Settles O55, clause by clause from what each step does: the command processor's acquires leave the queues as they are
(State.Orders), a reset only shrinks the machine (State.Shrinks), and what leaves a col changes no TG but its wait
(State.OnlyWaits). -/
theorem hostEventsComplete : Obligations.HostEventsComplete := by
  unfold Obligations.HostEventsComplete
  refine ⟨?queues, ?acquires, ?scan, ?slots, ?records, ?disabled, ?create, ?resume, ?reset, ?flr, ?faults, ?remote, ?links, ?boot, ?ralf⟩
  case queues =>
    intro s ctx qn q h k a hq hacc hslot put s1 s2 hh herr hwork
    have hput : ∀ (s : State) off n x, s.writeHead h off n x = put s off n x := State.writeHead_of_queueHead hh
    rw [exec_cmdLaunch, exec_cmdNop]
    refine ⟨fun hok => ?_, fun hok hc => ⟨?_, ?_, ?_⟩⟩
    · rw [← hput]
      exact ⟨command_malformed hq hacc hslot hh herr hwork hok, command_malformed hq hacc hslot hh herr hwork hok⟩
    · rintro rfl
      rw [← hput]
      exact command_taken hq hacc hslot hh herr hwork hok hc (.inl rfl) rfl
    · rintro rfl rfl
      rw [← hput]
      exact command_taken hq hacc hslot hh herr hwork hok hc (.inr ⟨rfl, rfl⟩) rfl
    · intro hk h2
      rw [← hput]
      exact ⟨command_unknown hq hacc hslot hh herr hwork hok hc hk h2, command_unknown hq hacc hslot hh herr hwork hok hc hk h2⟩
  case acquires =>
    intro s ctx n va l hl
    simp only [State.cpAcquire, State.cpBytes, hl, Option.map_some, and_self]
  case scan => exact fun s ctx n i h a => State.scanCommands_launch s ctx h n i a
  case slots =>
    intro s ctx qn q v hq put
    have hput : ∀ {s0 : State} {h}, s0.queueHead ctx q = some h → ∀ s off n x, s.writeHead h off n x = put s h off n x :=
      fun hh => State.writeHead_of_queueHead hh
    refine ⟨fun hoff => ?_, fun hr hd hs => ?_, fun h hr hd hs hh => ?_, ?_, fun h hslot hh => ?_⟩
    · exact execNotify_discarded hq hoff v
    · exact execNotify_mapped hq hr hd hs v
    · rw [← hput hh]
      exact execNotify_unmapped hq hr hd hs hh v
    · intro s1 h d hh hd hroom hfirst
      simp only [← hput hh]
      exact execQueueMap_of_toMap hq hh hd hroom hfirst
    · rw [← hput hh, ← hput hh]
      exact (execQueueUnmap_of_slot hq hslot).trans (congrArg _ (State.unmapQueue_of_queueHead hq hslot hh))
  case records => exact fun s src e r l => ⟨rfl, insRecord_pairwise r l, fun x => mem_insRecord r x l⟩
  case disabled =>
    intro s i hd
    refine ⟨?_, ?_, fun ctx qn => if_pos hd⟩
    · rintro (⟨c, rfl⟩ | ⟨n, rfl⟩ | rfl | ⟨n, rfl⟩ | ⟨m, rfl⟩ | ⟨al, p, rfl⟩ | ⟨n, rfl, hn⟩)
      case inr.inr.inr.inr.inr.inr => exact (if_neg (not_not_intro hn)).trans (commanded_of_disabled hd _)
      all_goals exact commanded_of_disabled hd _
    · rintro (⟨loc, op, rfl⟩ | ⟨die, bar, bs, f, rfl, hf⟩)
      · exact if_pos hd
      · exact execHostFaultService_disabled hf hd
  case create =>
    intro s c hid hfn hft hsave hpt htv hnew hres hd
    exact ⟨_, newContext c, execContextCreate_of_legal (specOk_of_legal hid hfn hft hsave hpt htv) hnew hres hd,
      SMap.find_put_self _ _ _, fun j hj => SMap.find_put_ne _ _ _ _ hj, rfl, rfl, rfl, rfl, rfl, rfl, rfl, rfl, rfl, rfl, rfl, rfl, rfl, rfl,
      newContext_queues c⟩
  case resume => exact fun s ctx c hc hh hm hd hsaved => execResume_of_saved hc hh hm hd hsaved
  case reset => exact fun s hd => commanded_of_enabled hd _
  case flr =>
    intro s fn hfn hd mine s1
    have hmem : ∀ {c}, mine c → c ∈ s.ctxsOf fn := fun ⟨_, hx, hf⟩ => State.mem_ctxsOf hx hf
    obtain ⟨hres, hqueues, htgs, hcopies⟩ := s.flrStop_spec fn
    obtain ⟨hctx, hlaunch, hcrew, hevents, hend⟩ := s.flrScrub_spec fn
    refine ⟨fun hn => ?_, fun hr => ?_, hres, fun c qn q hc => hqueues c (hmem hc) qn q, fun id g hg hc => htgs id g hg (hmem hc),
      fun op o ho hc => hcopies op o ho (hmem hc), hctx, fun l x hx hc => hlaunch l x hx (hmem hc),
      fun k x hx hc => hcrew k x hx (hmem hc), ⟨_, s.srcLink_cases, hevents⟩, hend⟩
    · exact execFlr_of_not_resetting hfn hd hn
    · exact execFlr_of_resetting hfn hd hr
  case faults =>
    intro s die bar ctx page time bs hf o s1 waits
    refine ⟨fun hd => ?_, fun e r hw => ?_, fun hb => ⟨fun id g va tid hg hw => ⟨?_, fun hp => ?_⟩, fun hp => ?_⟩⟩
    · exact ⟨execHostFaultService_enabled hf hd (some bs), execHostFaultService_enabled hf hd none⟩
    · intro s0
      have he : s1 = (s0.setByte e.leaf (s0.last e.leaf ||| 0x20)).keepTlbs (e.apart ctx) := State.makeResident_of_leaf hw bs
      rw [he]
      refine ⟨rfl, fun c => ⟨fun t ht => ?_, fun t ht => ?_⟩⟩
      · rw [State.core_keepTlbs] at ht
        exact TlbEntry.of_apart (List.mem_filter.1 ht).2
      · rw [State.die_keepTlbs] at ht
        exact TlbEntry.of_apart (List.mem_filter.1 ht).2
    · obtain ⟨hmac, ph, fill, hwait⟩ := hw
      rw [State.barUpdate_faultBar hb (Obj.phase_inval_ne _)]
      exact State.tg_faultDone (State.tg_updObj_glob hg (by simp [hwait])) hmac hwait
    · obtain ⟨hmac, ph, fill, hwait⟩ := hw
      rw [State.barUpdate_faultBar hb hp]
      exact State.tg_faultDone (State.tg_updObj_glob hg (by simp [hwait])) hmac hwait
    · rw [State.barUpdate_faultBar hb hp]
      exact State.faults_faultDone _ _ _ _
  case remote =>
    intro s loc op hd h0 h16 ha hl hh o reply sc read
    refine ⟨_, execAedunRemoteRequest_of_legal hd h0 h16 ha hl hh, ?_, ?_, ?_, ?_, ?_, ?_, ?_, ?_, ?_⟩
    · rintro n ord rfl
      simp only [State.remote, remoteOrder_read]
      rfl
    · rintro d ord rfl
      simp only [State.remote, remoteOrder_write]
      rfl
    · rintro x ty b1 b2 ord ret rfl
      cases ret
      · simp only [State.remote, remoteOrder_write]
        rfl
      · simp only [State.remote, remoteOrder_read]
        rfl
    · rintro ph (⟨rfl, hph⟩ | rfl)
      · refine (if_neg hph).trans ?_
        exact congrArg (fun x => reply x _) (State.remoteWord_acquire s o ph)
      · exact congrArg (fun x => reply x _) (State.remoteWord_acquire s o ph)
    · rintro ph rfl hph
      have hs' : s.remote loc (.barWait ph) = { s with remoteWaits := loc :: s.remoteWaits } := if_pos hph
      rw [hs']
      refine ⟨rfl, by simp [State.parkedOn, o], fun f hf => ?_⟩
      subst hph
      obtain ⟨hwaits, hwake⟩ := State.updObj_wakesRemote (s := { s with remoteWaits := loc :: s.remoteWaits }) List.mem_cons_self hf
      exact ⟨hwaits.trans (List.filter_cons_of_neg (by simp)), hwake⟩
    · rintro n rfl
      exact ⟨fun hp => if_pos hp, fun hp => if_neg (Bool.eq_false_iff.1 hp)⟩
    · rintro rfl; rfl
    · rintro n rfl; rfl
    · rintro rfl; rfl
  case links =>
    intro s id g hg run sent
    refine ⟨fun hs hc => execLinkDeliveryTimeout_none hg hs hc, fun va tid hat => ?_⟩
    have hfar : s.farSent id g = some (va, tid) := by
      rcases hat with ⟨p, hp, rfl, rfl⟩ | ⟨hs, c, hc, rfl, rfl⟩
      · simp only [State.farSent, hp, Option.map_some, Option.some_or]
      · have hs' : g.stores.find? (fun p => decide (2 ^ 53 ≤ p.loc)) = none :=
          find?_none_of _ _ fun p hp => by simpa using hs p hp
        have hc' : s.contribs.find? (Contrib.sentFar id) = some c := hc
        simp only [State.farSent, hs', hc', Option.map_none, Option.none_or, Option.map_some]
    obtain ⟨s', hrun, hmem, hcon, htg⟩ := execLinkDeliveryTimeout_some hg hfar
    refine ⟨s', _, hrun, hmem, htg, hcon, rfl, rfl, ?_, rfl⟩
    exact List.filter_congr fun p _ => (decide_not (p := 2 ^ 53 ≤ p.loc)).symm.trans (decide_eq_decide.2 Nat.not_le)
  case boot =>
    intro s r c hb hd good off s1
    have hgood : ∀ key floor x, s.ralf.verifies key floor x = true ↔ good key floor x := fun key floor x => s.ralf.verifies_iff key floor x
    refine ⟨fun h0 => ?_, fun h0 h1 => ?_, fun h0 h1 => ?_⟩
    · rw [← hgood] at h0
      exact execSecureBoot_refused hb hd h0
    · rw [← hgood] at h0 h1
      exact (execSecureBoot_of_verified hb hd h0).trans (if_neg h1)
    · rw [← hgood] at h0 h1
      exact (execSecureBoot_of_verified hb hd h0).trans (if_pos h1)
  case ralf =>
    intro s ralf saved
    refine ⟨?mode, ?step, ?stepped, rfl, ?counter, rfl, rfl, ?corrected, ?module, ?context, ?policy, ?alarm, ?attest⟩
    case mode => exact fun m hd => ⟨commanded_of_enabled hd _, rfl⟩
    case step => exact fun d hd hs => execThermalStepDown_again hd hs
    case stepped => exact fun d hd hs => execThermalStepDown_first hd hs
    case counter => exact fun n => rfl
    case corrected => exact fun a => rfl
    case module => exact fun a => rfl
    case context => exact fun a c ha hf hc => execUncorrectableSoftError_ctx (ErrArray.shared_eq_false ha hf) hc
    case policy => exact fun al p hd => ⟨fun hp => execAlarmPolicyWrite_refused hd hp, fun h3 hp => execAlarmPolicyWrite_raised hd h3 hp⟩
    case alarm => exact fun al => ⟨execSecurityAlarm_recorded, execSecurityAlarm_halts, execSecurityAlarm_erases⟩
    case attest =>
      intro nonce hn hd body
      refine ⟨fun hk => ?_, fun hk => ?_, ?_, s.attestation_nonce nonce, s.attestation_time nonce⟩
      · exact (execAttestationRequest_of_length hn hd).trans (if_pos hk)
      · exact (execAttestationRequest_of_length hn hd).trans (if_neg (by simp [hk]))
      · rw [State.attestation_length, hn]

end Sys2Proof.Machine
end

section
/-! PROOFS. The next tile of a subscription (R233): what the base-die controller does with it, and the claim about the steps of the units,
which fails on a tile of no bytes. -/

namespace Sys2Proof.Machine

/-! ### The next tile of a subscription (R233) -/

theorem exec_subscription (op : Nat) (pull : Bool) (s : State) :
    exec (if pull then .subscriptionPull op else .subscriptionPush op) s = takeTile op s pull := by
  cases pull <;> rfl

/-- A tile of no bytes meets no page that could stop it. -/
theorem tileBlocked_no_bytes (s : State) (o : CopyOp) {va : W64} (pull : Bool) (hva : va.toNat ≤ 2 ^ 57) :
    tileBlocked s o va 0 pull = none := by
  unfold tileBlocked
  rw [Nat.add_zero, if_neg (Nat.not_lt.2 hva)]
  rfl

theorem rangeBlocks_ne_nil (a : Nat) {n : Nat} (hn : 0 < n) : rangeBlocks a n ≠ [] := by
  unfold rangeBlocks
  rw [if_neg (Nat.ne_of_gt hn)]
  simp

/-- R233, of a tile with bytes: pages that all lie outside HBM, or that a pull may not write, refuse it. -/
theorem tileBlocked_of_refusing_pages {s : State} {o : CopyOp} {va : W64} {size : Nat} {pull : Bool} (hsize : 0 < size)
    (hpages : ∀ v ∈ rangeBlocks va.toNat size, ∃ e r, s.translate o.core o.ctx v = .leaf e r ∧
      (2 ^ 52 ≤ e.loc ∨ pull = true ∧ e.w = false)) :
    tileBlocked s o va size pull = some none := by
  unfold tileBlocked
  split
  · rfl
  · obtain ⟨v, vs, hvs⟩ := List.exists_cons_of_ne_nil (rangeBlocks_ne_nil va.toNat hsize)
    obtain ⟨e, r, he, hrefuse⟩ := hpages v (hvs ▸ List.mem_cons_self)
    have hstop : (decide (2 ^ 52 ≤ e.loc) || (pull && AccKind.store.prot e)) = true := by
      rcases hrefuse with hloc | ⟨hp, hwr⟩
      · rw [decide_eq_true hloc, Bool.true_or]
      · simp [hp, AccKind.prot, hwr]
    simp only [hvs, List.findSome?_cons, he, hstop, if_true]

section Tile
variable {s : State} {op : Nat} {o : CopyOp} {ring : Nat} {pull : Bool} {base st : W64} {nt next size claim : Nat}
  (ho : SMap.find s.copies op = some o) (hd : o.dead = false) (hf : o.fault = none)
  (hw : o.work = .sub ring pull base st nt next size claim) (hn : next < nt)
  (hroom : (if pull then (s.ringOf o ring).canRead (claim + next) else (s.ringOf o ring).canFill (claim + next)) = true)
include ho hd hf hw hn hroom

/-- A tile that nothing stops is taken up. -/
theorem takeTile_of_unblocked (hb : tileBlocked s o (base + BitVec.ofNat 64 next * st) size pull = none) :
    takeTile op s pull = .next { s with copies := SMap.put s.copies op { o with work := .sub ring pull base st nt (next + 1) size claim } } := by
  have hn' : decide (nt ≤ next) = false := decide_eq_false (Nat.not_le.2 hn)
  simp [takeTile, ho, hd, hf, hw, hn', hroom, hb]

/-- A tile on a page that refuses it ends the subscription. -/
theorem takeTile_of_refused (hb : tileBlocked s o (base + BitVec.ofNat 64 next * st) size pull = some none) :
    takeTile op s pull = .next (s.endSub op) := by
  have hn' : decide (nt ≤ next) = false := decide_eq_false (Nat.not_le.2 hn)
  simp [takeTile, ho, hd, hf, hw, hn', hroom, hb]

/-- R233: a tile with bytes, of which every page lies outside HBM or refuses the write of a pull, ends its subscription. -/
theorem exec_subscription_of_refusing_pages (hsize : 0 < size)
    (hpages : ∀ v ∈ rangeBlocks (base + BitVec.ofNat 64 next * st).toNat size, ∃ e r, s.translate o.core o.ctx v = .leaf e r ∧
      (2 ^ 52 ≤ e.loc ∨ pull = true ∧ e.w = false)) :
    exec (if pull then .subscriptionPull op else .subscriptionPush op) s = .next (s.endSub op) :=
  (exec_subscription op pull s).trans (takeTile_of_refused ho hd hf hw hn hroom (tileBlocked_of_refusing_pages hsize hpages))

end Tile

/-! ### The claim -/

/-- Ring 0 with one slot, which is free, and whose slot size is 0. -/
def emptySlotRing : Ring :=
  { req := 0x100000000, pc := 0, cc := 0, pcl := 0, ccl := 0, freeing := false, sub := some 0, pdone := [], cdone := [], pend := [], cend := [] }

/-- A push of ring 0 of crew 0 whose one tile has no bytes. -/
def emptyTilePush : CopyOp :=
  { tg := 0, dl := 0, rel := 0, ctx := 0, crew := 0, launch := 0, core := 0, obj := .glob 0, objVa := none, work := .sub 0 false 0 0 1 0 0 0
    got := [], parts := [], pend := [], done := 0, fault := none, dead := false }

/-- The machine after reset but for that push and its ring. -/
def emptyTileState : State :=
  { State.reset with crews := [(0, { noCrew with rings := [(0, emptySlotRing)] })], copies := [(0, emptyTilePush)] }

/-- The push takes its tile up. -/
theorem exec_emptyTileState : exec (.subscriptionPush 0) emptyTileState =
    .next { emptyTileState with copies := [(0, { emptyTilePush with work := .sub 0 false 0 0 1 1 0 0 })] } := by
  have ho : SMap.find emptyTileState.copies 0 = some emptyTilePush := rfl
  have hw : emptyTilePush.work = .sub 0 false 0 0 1 0 0 0 := rfl
  have hfree : (emptyTileState.ringOf emptyTilePush 0).canFill 0 = true := by decide
  exact takeTile_of_unblocked ho rfl rfl hw Nat.zero_lt_one hfree (tileBlocked_no_bytes _ _ _ (by decide))

theorem endSub_emptyTileState_copies : (emptyTileState.endSub 0).copies = [] := by decide

/-- Refutes O54, in its clause about a tile whose pages refuse it (R233). That clause asks that every page of the tile does, and a tile
of no bytes lies on none: the clause has the subscription end, where the model takes the tile up. A size of 0 is no slot's (R245); for every other
size exec_subscription_of_refusing_pages gives the clause. -/
theorem not_unitEventsComplete : ¬ Obligations.UnitEventsComplete := by
  unfold Obligations.UnitEventsComplete
  rintro ⟨-, -, hsub, -⟩
  have hends : exec (.subscriptionPush 0) emptyTileState = .next (emptyTileState.endSub 0) :=
    (hsub emptyTileState 0 emptyTilePush 0 false 0 0 1 0 0 0 rfl rfl rfl rfl Nat.zero_lt_one (by decide)).2.2 (by decide)
      fun v hv => absurd hv List.not_mem_nil
  rw [exec_emptyTileState] at hends
  injection hends with hstate
  have hcopies := congrArg State.copies hstate
  rw [endSub_emptyTileState_copies] at hcopies
  exact List.cons_ne_nil _ _ hcopies

end Sys2Proof.Machine
end

section
/-! PROOFS. Engine instructions (R254 to R256, R263, R269 to R283): at the col they ask for a token, the token issues their operation, and
what mma computes (R44). -/

namespace Sys2Proof.Machine

/-! ### Gangs of a machine -/

/-- Two changes of the entry at a key make one. -/
theorem SMap.adjust_adjust {α : Type} (m : SMap α) (k : Nat) (f h : α → α) :
    SMap.adjust (SMap.adjust m k f) k h = SMap.adjust m k fun a => h (f a) := by
  unfold SMap.adjust
  rw [List.map_map]
  refine List.map_congr_left fun p _ => ?_
  by_cases hk : p.1 = k <;> simp [hk]

theorem State.gang_modGang (s : State) (crew : Nat) (m : BitVec 16) (f : Gang → Gang) :
    (s.modGang crew m f).gang crew m = (s.gang crew m).map f := by
  unfold State.gang State.modGang
  rw [State.crew_modCrew, if_pos rfl]
  cases s.crew crew with
  | none => rfl
  | some c => exact (SMap.find_adjust _ _ _ _).trans (if_pos rfl)

theorem State.modGang_modGang (s : State) (crew : Nat) (m : BitVec 16) (f h : Gang → Gang) :
    (s.modGang crew m f).modGang crew m h = s.modGang crew m fun g => h (f g) := by
  simp only [State.modGang, State.modCrew, SMap.adjust_adjust]

theorem Gang.formOf_setForm (g : Gang) (m n : Nat) (f : MForm) : (g.setForm m f).formOf n = if n = m then f else g.formOf n := by
  unfold Gang.formOf Gang.setForm
  split
  · next h => rw [h, SMap.get_set_self]
  · next h => rw [SMap.get_set_ne _ _ _ _ _ h]

/-! ### The last arrival at a col (R241) -/

section Arrival
variable {i : Instr} {f : RArgs} {s : State} {g : Tg} {s' : State} {gg : Gang} {lead : Tg}

/-- The TG that makes the col full. -/
theorem State.arriveCol_last {words : Nat} {guard : Bool} {m : BitVec 16} (hg : s.gang g.crew m = some gg)
    (hagree : Agrees g i guard (colAt g i words guard gg)) (hall : AllArrive g m (colAt g i words guard gg)) :
    s.arriveCol s.cur g i words guard m = (atCol s g m (colAt g i words guard gg), true) := by
  simp only [State.arriveCol, hg]
  unfold colAt at hagree hall ⊢
  generalize gg.col.getD _ = c at hagree hall ⊢
  obtain ⟨htrap, hpc, hinstr, hguard, hnew⟩ := hagree
  have hfull : ∀ k < 16, m.getLsbD k = false ∨ k = g.idx ∨ k ∈ c.arrived := fun k hk => by
    cases hm : m.getLsbD k with
    | false => exact .inl rfl
    | true => exact .inr (hall k hk hm)
  simpa [htrap, hpc, hinstr, hguard, hnew, atCol] using hfull

/-- A gang instruction is performed at its last arrival. -/
theorem onGang_of_meets (hs : s.Issues g) (hm : Meets i f s g s' gg lead) (k : State → Gang → Tg → Perf) :
    onGang i f.h (RArgs.words f) s k = .next (s'.perf g.crew g.mode.gmask (k s' gg lead)) := by
  obtain ⟨gg0, ⟨hgang, hbad, hmask, hformed, hwhole⟩, honce, hagree, hall, hs', hgg, -, id, hlead⟩ := hm
  obtain ⟨t, ht⟩ := Option.ne_none_iff_exists'.1 honce
  unfold onGang onTg
  simp only [hs.1, hgang, hbad, hmask, hformed, hwhole, ht, Option.isSome_some, s.arriveCol_last hgang hagree hall]
  simp [← hs', hgg, hlead]

/-! ### Requests for a token (R254) -/

/-- R254: where its checks pass, it asks for a token. -/
theorem onGang_askToken_ok {α : Type} {p : State → Gang → Tg → Except Perf α} {a : α} (hs : s.Issues g)
    (hm : Meets i f s g s' gg lead) (hp : p s' gg lead = .ok a) :
    onGang i f.h (RArgs.words f) s (fun s gg lead => askToken s lead gg.mask (p s gg lead)) =
      .next (requestToken s' lead.crew gg.mask) := by
  rw [onGang_of_meets hs hm, hp]
  rfl

/-- A check that fails traps every listed TG. -/
theorem onGang_askToken_trap {α : Type} {p : State → Gang → Tg → Except Perf α} {c : Cause} {info : W64} (hs : s.Issues g)
    (hm : Meets i f s g s' gg lead) (hp : p s' gg lead = .error (.trap c info)) :
    onGang i f.h (RArgs.words f) s (fun s gg lead => askToken s lead gg.mask (p s gg lead)) =
      .next (s'.trapCol g.crew g.mode.gmask c fun _ => info) := by
  rw [onGang_of_meets hs hm, hp]
  rfl

/-- The instruction has a plan at its col, and asks for a token with it. -/
structure PlansAtCol (i : Instr) (f : RArgs) (p : State → Gang → Tg → Except Perf OpPlan) : Prop where
  exec_eq : ∀ s, exec i s = onGang i f.h (RArgs.words f) s fun s gg lead => askToken s lead gg.mask (p s gg lead)
  colPlan_eq : ∀ s gg lead, colPlan i s gg lead = some (p s gg lead)

theorem plansAtCol_mma (f : RArgs) : PlansAtCol (.mma f) f (mmaPlan f) := ⟨fun _ => rfl, fun _ _ _ => rfl⟩
theorem plansAtCol_mmaBlk (f : RArgs) : PlansAtCol (.mmaBlk f) f fun s _ lead => blkPlan f s lead := ⟨fun _ => rfl, fun _ _ _ => rfl⟩
theorem plansAtCol_mlrMul (f : RArgs) : PlansAtCol (.mlrMul f) f (mulPlan f) := ⟨fun _ => rfl, fun _ _ _ => rfl⟩
theorem plansAtCol_mlrMuld (f : RArgs) : PlansAtCol (.mlrMuld f) f (muldPlan f) := ⟨fun _ => rfl, fun _ _ _ => rfl⟩
theorem plansAtCol_mlrAdd (f : RArgs) : PlansAtCol (.mlrAdd f) f (addPlan f) := ⟨fun _ => rfl, fun _ _ _ => rfl⟩
theorem plansAtCol_mlrScl (f : RArgs) : PlansAtCol (.mlrScl f) f (sclPlan f) := ⟨fun _ => rfl, fun _ _ _ => rfl⟩
theorem plansAtCol_mlrTrunc (f : RArgs) : PlansAtCol (.mlrTrunc f) f (truncPlan f) := ⟨fun _ => rfl, fun _ _ _ => rfl⟩
theorem plansAtCol_mlrDense (f : RArgs) : PlansAtCol (.mlrDense f) f (densePlan f) := ⟨fun _ => rfl, fun _ _ _ => rfl⟩

/-- mlr.rcmp and mlr.fact ask for a token where their stages may begin or go on (R283). -/
theorem exec_interruptible (f : RArgs) (isFact : Bool) (s : State) :
    exec (if isFact then .mlrFact f else .mlrRcmp f) s =
      onGang (if isFact then .mlrFact f else .mlrRcmp f) f.h (RArgs.words f) s fun s gg lead =>
        askToken s lead gg.mask ((rcmpArgs f isFact).start s gg lead) := by
  cases isFact <;> rfl

/-- The plan of a result of a form in the destination, if the quota has room for it (R239). -/
def quotaPlan (f : RArgs) (s : State) (gg : Gang) (lead : Tg) (w : EngineWork) (ovf : Bool) (reads : List Nat) (form : MForm) :
    Except Perf OpPlan :=
  match quotaOk s gg lead (Spec.num f.d) form with
  | .error e => .error e
  | .ok _ => .ok { stream := f.x.toNat % 4, work := w, ovf := ovf, reads := reads, write := some (Spec.num f.d), form := some form }

section Plans
variable {w : EngineWork} {ovf : Bool} {reads : List Nat} {form : MForm} {k : Nat} {p : State → Gang → Tg → Except Perf OpPlan}

theorem quotaPlan_of_le (h : gg.occWith (Spec.num f.d) form ≤ (s.crewOf lead).slabs) :
    quotaPlan f s gg lead w ovf reads form = .ok
      { stream := f.x.toNat % 4, work := w, ovf := ovf, reads := reads, write := some (Spec.num f.d), form := some form } := by
  simp [quotaPlan, quotaOk, Nat.not_lt.2 h]

theorem quotaPlan_of_lt (h : (s.crewOf lead).slabs < gg.occWith (Spec.num f.d) form) :
    quotaPlan f s gg lead w ovf reads form = .error (.trap .slabq (BitVec.ofNat 64 (gg.occWith (Spec.num f.d) form))) := by
  simp [quotaPlan, quotaOk, h]

/-! ### The plans of mma and mma.blk (R255, R256, R263) -/

section Mma
variable {a b : MOperand} (ha : matArg lead f.a = some a) (hb : matArg lead f.b = some b)
include ha hb

section Forms
variable (hfa : a.formOk gg (srcTy f) = true) (hfb : b.formOk gg (srcTy f) = true)
  (hd : gg.formOf (Spec.num f.d) = .empty ∨ gg.formOf (Spec.num f.d) = .dense .f32)
include hfa hfb hd

theorem mmaPlan_of_steps (hsteps : stepsOk s lead (srcTy f) false a b = .ok ()) :
    mmaPlan f s gg lead = quotaPlan f s gg lead (.mma (Spec.num f.d) a b (srcTy f) (f.x.getLsbD 2)) false
      (Spec.num f.d :: (a.regNo.toList ++ b.regNo.toList)) (.dense .f32) := by
  rcases Nat.lt_or_ge (s.crewOf lead).slabs (gg.occWith (Spec.num f.d) (.dense .f32)) with hq | hq
  · rw [quotaPlan_of_lt hq]
    rcases hd with hd | hd <;> simp [mmaPlan, ha, hb, hfa, hfb, hd, hsteps, hq]
  · rw [quotaPlan_of_le hq]
    rcases hd with hd | hd <;> simp [mmaPlan, ha, hb, hfa, hfb, hd, hsteps, Nat.not_lt.2 hq]

theorem mmaPlan_of_bad_ring {n : Nat} (hsteps : stepsOk s lead (srcTy f) false a b = .error n) :
    mmaPlan f s gg lead = .error (.trap .stg (BitVec.ofNat 64 n)) := by
  rcases hd with hd | hd <;> simp [mmaPlan, ha, hb, hfa, hfb, hd, hsteps]

end Forms

theorem blkPlan_of_steps {o : Nat} (ho : ringNum lead f.d = some o) (hsteps : stepsOk s lead (srcTy f) true a b = .ok ())
    (hout : outRingOk s lead o = true) :
    blkPlan f s lead = .ok { stream := f.x.toNat % 4, work := .mmaBlk (.ring o 0) a b (srcTy f), ovf := false, reads := []
                             write := none, form := none } := by
  simp [blkPlan, ha, hb, ho, hsteps, hout]

end Mma

/-! ### The plans of the mlr operations (R272, R278 to R282) -/

theorem overRank_of_le (h : k ≤ lead.kmax) : overRank lead k = .ok false := if_pos h

theorem overRank_of_lt (h : lead.kmax < k) :
    overRank lead k = if lead.mode.rmode then .ok true else .error (.trap .rankovf (BitVec.ofNat 64 k)) :=
  if_neg (Nat.not_le.2 h)

/-- The form of a plan: dense of mlr.dense, else that of a result of its rank. -/
def EngineWork.planForm (w : EngineWork) (ty : Ty) (k : Nat) (ovf : Bool) : MForm :=
  match w with
  | .dense .. => .dense .f32
  | _ => resultForm ty k ovf

/-- With its rank allowed, an operation has its quota to pass. -/
theorem mlrPlan_of_rank {capped : Bool} (h : (if capped then overRank lead k else .ok false) = .ok ovf) :
    mlrPlan f s gg lead w reads k capped = quotaPlan f s gg lead w ovf reads (w.planForm f.ty k ovf) := by
  simp only [mlrPlan, h]
  cases w <;> rfl

theorem mlrPlan_of_overflow {e : Perf} (h : overRank lead k = .error e) : mlrPlan f s gg lead w reads k true = .error e := by
  simp [mlrPlan, h]

section Ranks
variable (hfree : (gg.formOf (Spec.num f.d)).isWork = false)
include hfree

theorem dstOk_of_free : dstOk gg f = true := by simp [dstOk, hfree]

section Pair
variable {ra rb : Nat} (ha : (gg.formOf (Spec.num f.a)).factRank = some ra) (hb : (gg.formOf (Spec.num f.b)).factRank = some rb)
include ha hb

theorem mulPlan_of_ranks : mulPlan f s gg lead =
    mlrPlan f s gg lead (.mul f.ty (Spec.num f.d) (Spec.num f.a) (Spec.num f.b)) [Spec.num f.a, Spec.num f.b] (min ra rb) true := by
  simp [mulPlan, ha, hb, dstOk_of_free hfree]

theorem addPlan_of_ranks : addPlan f s gg lead =
    mlrPlan f s gg lead (.add f.ty (Spec.num f.d) (Spec.num f.a) (Spec.num f.b)) [Spec.num f.a, Spec.num f.b] (ra + rb) true := by
  simp [addPlan, ha, hb, dstOk_of_free hfree]

end Pair

theorem muldPlan_of_rank {r : Nat}
    (hfac : (gg.formOf (if f.x.getLsbD 2 then Spec.num f.a else Spec.num f.b)).factRank = some r)
    (hden : (gg.formOf (if f.x.getLsbD 2 then Spec.num f.b else Spec.num f.a)).denseLike = true) :
    muldPlan f s gg lead = mlrPlan f s gg lead (.muld f.ty (Spec.num f.d) (Spec.num f.a) (Spec.num f.b) (f.x.getLsbD 2))
      [Spec.num f.a, Spec.num f.b] r true := by
  simp only [muldPlan, hfac, hden, dstOk_of_free hfree]

section Single
variable {r : Nat} (ha : (gg.formOf (Spec.num f.a)).factRank = some r)
include ha

theorem sclPlan_of_rank : sclPlan f s gg lead =
    mlrPlan f s gg lead (.scl f.ty (Spec.num f.d) (Spec.num f.a) (sclFactor s lead f)) [Spec.num f.a] r true := by
  simp [sclPlan, ha, dstOk_of_free hfree]

theorem truncPlan_of_rank : truncPlan f s gg lead =
    mlrPlan f s gg lead (.trunc f.ty (Spec.num f.d) (Spec.num f.a) (countOf s lead f f.b)) [Spec.num f.a]
      (min (countOf s lead f f.b) r) false := by
  simp [truncPlan, ha, dstOk_of_free hfree]

theorem densePlan_of_rank : densePlan f s gg lead = mlrPlan f s gg lead (.dense (Spec.num f.d) (Spec.num f.a)) [Spec.num f.a] 0 false := by
  simp [densePlan, ha, dstOk_of_free hfree]

end Single
end Ranks

/-! ### mlr.rcmp and mlr.fact at their col (R283) -/

/-- The form that a destination takes from the first stage on, of a source of rank `r`. -/
def Interruptible.firstForm (x : Interruptible) (r : Nat) : MForm := if r = 0 then .fact (x.ty == .bf16) 0 else .work x.isFact r 0

section Stages
variable {x : Interruptible}

theorem Interruptible.start_fresh {r : Nat} (hc : (lead.sAt x.sreg).toNat = 0) (hr : x.srcRank gg = some r)
    (hq : gg.occWith x.d (x.firstForm r) ≤ (s.crewOf lead).slabs) : x.start s gg lead = .ok 0 := by
  unfold firstForm at hq
  simp [start, hc, hr, quotaOk, Nat.not_lt.2 hq]

theorem Interruptible.start_over_quota {r : Nat} (hc : (lead.sAt x.sreg).toNat = 0) (hr : x.srcRank gg = some r)
    (hq : (s.crewOf lead).slabs < gg.occWith x.d (x.firstForm r)) :
    x.start s gg lead = .error (.trap .slabq (BitVec.ofNat 64 (gg.occWith x.d (x.firstForm r)))) := by
  unfold firstForm at hq ⊢
  simp [start, hc, hr, quotaOk, hq]

theorem Interruptible.start_of_work {r : Nat} (hc : (lead.sAt x.sreg).toNat ≠ 0) (hc9 : (lead.sAt x.sreg).toNat ≤ 9)
    (hd : gg.formOf x.d = .work x.isFact r (lead.sAt x.sreg).toNat) : x.start s gg lead = .ok (lead.sAt x.sreg).toNat := by
  simp [start, hc, hd, hc9]

end Stages

/-! ### What follows from a plan -/

/-- R239, R254: within the quota the instruction asks for a token, which will find its operation at the col; else it traps SLABQ. -/
def QuotaDecides (i : Instr) (f : RArgs) (s : State) (g : Tg) (s' : State) (gg : Gang) (lead : Tg) (w : EngineWork) (ovf : Bool)
    (reads : List Nat) (form : MForm) : Prop :=
  (gg.occWith (Spec.num f.d) form ≤ (s'.crewOf lead).slabs →
    exec i s = .next (requestToken s' lead.crew gg.mask) ∧ colPlan i s' gg lead = some (.ok
      { stream := f.x.toNat % 4, work := w, ovf := ovf, reads := reads, write := some (Spec.num f.d), form := some form })) ∧
  ((s'.crewOf lead).slabs < gg.occWith (Spec.num f.d) form →
    GangTraps i s g s' .slabq (BitVec.ofNat 64 (gg.occWith (Spec.num f.d) form)))

/-- R272: a result within the rank cap is factored; above it, it is dense or the instruction traps RANKOVF, by RMODE. -/
def RankDecides (i : Instr) (f : RArgs) (s : State) (g : Tg) (s' : State) (gg : Gang) (lead : Tg) (w : EngineWork) (reads : List Nat)
    (k : Nat) : Prop :=
  (k ≤ lead.kmax → QuotaDecides i f s g s' gg lead w false reads (.fact (f.ty == .bf16) k)) ∧
  (lead.kmax < k → lead.mode.rmode = true → QuotaDecides i f s g s' gg lead w true reads (.dense .f32)) ∧
  (lead.kmax < k → lead.mode.rmode = false → GangTraps i s g s' .rankovf (BitVec.ofNat 64 k))

section Outcomes
variable (hs : s.Issues g) (hm : Meets i f s g s' gg lead) (hi : PlansAtCol i f p)
include hs hm hi

theorem PlansAtCol.asks {plan : OpPlan} (hp : p s' gg lead = .ok plan) :
    exec i s = .next (requestToken s' lead.crew gg.mask) ∧ colPlan i s' gg lead = some (.ok plan) :=
  ⟨(hi.exec_eq s).trans (onGang_askToken_ok hs hm hp), (hi.colPlan_eq s' gg lead).trans (congrArg some hp)⟩

theorem PlansAtCol.traps {c : Cause} {info : W64} (hp : p s' gg lead = .error (.trap c info)) : GangTraps i s g s' c info :=
  (hi.exec_eq s).trans (onGang_askToken_trap hs hm hp)

theorem PlansAtCol.quotaDecides (hp : p s' gg lead = quotaPlan f s' gg lead w ovf reads form) :
    QuotaDecides i f s g s' gg lead w ovf reads form :=
  ⟨fun h => hi.asks hs hm (hp.trans (quotaPlan_of_le h)), fun h => hi.traps hs hm (hp.trans (quotaPlan_of_lt h))⟩

theorem PlansAtCol.rankDecides (hw : w.planForm f.ty k = resultForm f.ty k) (hp : p s' gg lead = mlrPlan f s' gg lead w reads k true) :
    RankDecides i f s g s' gg lead w reads k := by
  have hrank : ∀ ovf, overRank lead k = .ok ovf → QuotaDecides i f s g s' gg lead w ovf reads (resultForm f.ty k ovf) :=
    fun ovf h => hw ▸ hi.quotaDecides hs hm (hp.trans (mlrPlan_of_rank h))
  refine ⟨fun hk => hrank false (overRank_of_le hk), fun hk hr => hrank true ?_, fun hk hr => hi.traps hs hm (hp.trans ?_)⟩
  · exact (overRank_of_lt hk).trans (if_pos hr)
  · exact mlrPlan_of_overflow ((overRank_of_lt hk).trans (if_neg (by simp [hr])))

end Outcomes
end Plans
end Arrival

/-! ### The grant of a token (R254, R410) -/

/-- The operation at a col that holds a token issues where the engine queue has room, and waits where it has none. -/
theorem State.tryIssue_of_plan {s : State} {crew : Nat} {m : BitVec 16} {k : Crew} {gg : Gang} {col : Col} {id : Nat} {lead : Tg}
    {plan : OpPlan} (hcrew : s.crew crew = some k) (hgang : s.gang crew m = some gg) (hlead : (s.listed crew m).head? = some (id, lead))
    (hcol : gg.col = some col) (htoken : col.token = true) (hplan : colPlan col.instr s gg lead = some (.ok plan)) :
    s.tryIssue crew m = if 16 ≤ s.engineLoad (k.core.getD 0) then s else
      let s1 := s.modGang crew m fun g => { g with col := g.col.map fun k => { k with token := false } }
      let p := plan.work.claim s1 crew
      (issueOp p.1 crew m plan.stream p.2 plan.ovf plan.reads plan.write plan.form).completeCol crew m none := by
  simp only [State.tryIssue, hcrew, hgang, hlead, hcol, htoken, hplan]
  rfl

/-- The machine with one more token taken from the pool, which the col holds. -/
def State.granted (s : State) (crew : Nat) (m : BitVec 16) (waited : Nat) : State :=
  ({ s with ralf := { s.ralf with tokens := s.ralf.tokens + 1 } } : State).modGang crew m fun g =>
    { g with col := g.col.map fun k => { k with token := true, denied := some waited } }

theorem exec_tokenGrant_of_earliest {s : State} {crew : Nat} {m : BitVec 16} {gg : Gang} {col : Col}
    (hfirst : earliest s.tokenRequests = some (crew, m)) (hpool : s.ralf.tokens < s.ralf.pool) (hgang : s.gang crew m = some gg)
    (hcol : gg.col = some col) :
    exec (.tokenGrant crew m) s =
      .next ((s.granted crew m (s.clk - (col.request.map fun r => r.2).getD s.clk)).tryIssue crew m) := by
  change execTokenGrant crew m s = _
  simp [execTokenGrant, hfirst, hgang, hcol, Nat.not_le.2 hpool, State.granted]

/-- A col that has counted what it waited completes as one that has not. -/
theorem State.completeCol_of_denied {s : State} {crew : Nat} {m : BitVec 16} {gg : Gang} {c : Col} {n : Nat} (w : Option (Nat × W64))
    (hgang : s.gang crew m = some gg) (hcol : gg.col = some c) (hdenied : c.denied = some n) :
    s.completeCol crew m w =
      ((s.count (ctrDenial n)).modGang crew m fun g => { g with col := some { c with denied := none } }).completeCol crew m w := by
  have hcount : (s.count (ctrDenial n)).gang crew m = some gg := hgang
  unfold State.completeCol
  rw [State.gang_modGang, hcount, hgang]
  simp only [Option.map_some, Option.bind_some, hcol, hdenied]
  refine congrArg (fun s : State => (s.listed crew m).foldl (fun s p => s.pastCol p.1 p.2 c w) s) ?_
  exact (State.modGang_modGang ((s.count (ctrDenial n)).returnToken c.token) crew m
    (fun g => { g with col := some { c with denied := none } }) fun g => { g with col := none, colObj := g.colObj.bump }).symm

/-! ### What an issue leaves in the gang (R258, R274) -/

/-- Nothing is undefined for an operation whose gang has no hazard on another stream and no transfer (R261). -/
theorem Gang.opHazard_none {s : State} {g : Gang} {stream : Nat} (dense : Bool) (reads : List Nat) (w : Option Nat)
    (hh : ∀ h ∈ g.hazards, h.stream = stream) (hu : g.unfenced = []) (hx : g.xfers = []) :
    g.opHazard s stream dense reads w = (g, false) := by
  have hhit : (g.hazards.filter fun h => h.stream != stream && opConflict h dense reads w) = [] :=
    List.filter_eq_nil_iff.2 fun h hin => by simp [hh h hin]
  cases g
  cases hu
  cases hx
  simp [Gang.opHazard, hhit]

/-- R258, R274: an operation that meets no hazard joins the queue with the forms of issue order, raises EXPB of its stream by one, and
gives its register its form. -/
theorem issueOp_of_no_hazard {s : State} {crew : Nat} {m : BitVec 16} {gg : Gang} {stream : Nat} (w : EngineWork) (ovf : Bool)
    (reads : List Nat) (write : Option Nat) (form : Option MForm) (hstream : stream < 4) (hlen : gg.streams.length = 4)
    (hgang : s.gang crew m = some gg) (hh : ∀ h ∈ gg.hazards, h.stream = stream) (hu : gg.unfenced = []) (hx : gg.xfers = []) :
    ∃ o gg', (issueOp s crew m stream w ovf reads write form).gang crew m = some gg' ∧ o.work = w ∧ o.stream = stream ∧
      o.overDense = ovf ∧ o.started = false ∧ o.poison = false ∧ gg'.ops = gg.ops ++ [o] ∧ gg'.val = gg.val ∧
      gg'.streams.getD stream (.fresh 0) = (gg.streams.getD stream (.fresh 0)).expect 1 ∧
      o.forms = reads.map (fun m => (m, gg.formOf m)) ∧
      (∀ d fm, write = some d → form = some fm → ∀ n, gg'.formOf n = if n = d then fm else gg.formOf n) := by
  have hset : (gg.streams.set stream ((gg.streams.getD stream (.fresh 0)).expect 1)).getD stream (.fresh 0) =
      (gg.streams.getD stream (.fresh 0)).expect 1 := by
    rw [List.getD_eq_getElem?_getD, List.getElem?_set_self (hlen ▸ hstream)]
    rfl
  have hread : ∀ (n : Nat) (h : Gang → Gang), ({ s.modGang crew m h with stamp := n } : State).gang crew m = some (h gg) := fun _ h =>
    (State.gang_modGang s crew m h).trans (congrArg (Option.map h) hgang)
  simp only [issueOp, hgang, Gang.opHazard_none _ _ _ hh hu hx]
  cases write with
  | none => exact ⟨_, _, hread _ _, rfl, rfl, rfl, rfl, rfl, rfl, rfl, hset, rfl, fun _ _ => nofun⟩
  | some d =>
    cases form with
    | none => exact ⟨_, _, hread _ _, rfl, rfl, rfl, rfl, rfl, rfl, rfl, hset, rfl, fun _ _ _ => nofun⟩
    | some fm =>
      refine ⟨_, _, hread _ _, rfl, rfl, rfl, rfl, rfl, rfl, rfl, hset, rfl, fun d' fm' hd hf n => ?_⟩
      cases hd
      cases hf
      exact Gang.formOf_setForm gg d n fm

theorem Gang.inForms_single (g : Gang) (s : State) (m : Nat) (f : MForm) :
    g.inForms s [(m, f)] = if (g.valOf m).fits f then g else g.setVal m (undefVal s m f) := rfl

/-! ### Group sums (R44) -/

theorem groupSum_nil (acc : W32) : groupSum acc [] = acc := rfl

/-- The first group of 32 joins the accumulator, then the others. -/
theorem groupSum_of_ne_nil (acc : W32) {p : List Exact} (hp : p ≠ []) :
    groupSum acc p = groupSum (groupStep acc (p.take 32)) (p.drop 32) := by
  have hempty : p.isEmpty = false := by simpa using hp
  unfold groupSum
  rw [groupSumN, hempty, List.length_drop]
  rcases Nat.lt_or_ge p.length 32 with hlt | hge
  · rw [List.drop_eq_nil_of_le (Nat.le_of_lt hlt), Nat.div_eq_of_lt hlt]
    simp [groupSumN]
  · have hgroups : p.length / 32 = (p.length - 32) / 32 + 1 := by omega
    rw [hgroups]
    rfl

theorem groupStep_of_none {acc : W32} {p : List Exact} (h : groupS p = none) : groupStep acc p = acc := by rw [groupStep, h]

theorem groupStep_of_nan {acc : W32} {p : List Exact} (h : groupS p = some .nan) : groupStep acc p = 0x7FC00000 := by rw [groupStep, h]

/-- A group sum other than NaN is added in one rounding. -/
theorem groupStep_of_sum {acc : W32} {p : List Exact} {x : Exact} (h : groupS p = some x) (hx : x ≠ .nan) :
    groupStep acc p = toF32 (Exact.sum .rne [f32 acc, x]) := by
  cases x with
  | nan => exact absurd rfl hx
  | _ => simp only [groupStep, h]

theorem any_isNan_eq (p : List Exact) : p.any Exact.isNan = decide (.nan ∈ p) := by
  rw [Bool.eq_iff_iff, List.any_eq_true, decide_eq_true_eq]
  refine ⟨fun ⟨x, hx, hn⟩ => ?_, fun h => ⟨_, h, rfl⟩⟩
  cases x with
  | nan => exact hx
  | _ => cases hn

section Group
variable {p : List Exact}

/-- R44: a NaN, or infinities of both signs, make the group sum NaN. -/
theorem groupS_of_nan (h : .nan ∈ p ∨ (.inf false ∈ p ∧ .inf true ∈ p)) : groupS p = some .nan := by
  rcases h with h | ⟨hpos, hneg⟩
  · simp [groupS, any_isNan_eq, h]
  · simp [groupS, hpos, hneg]

/-- R44: infinities of one sign make the group sum that infinity. -/
theorem groupS_of_inf {neg : Bool} (hnan : .nan ∉ p) (hin : .inf neg ∈ p) (hout : .inf (!neg) ∉ p) : groupS p = some (.inf neg) := by
  cases neg with
  | false =>
    rw [Bool.not_false] at hout
    simp [groupS, any_isNan_eq, hnan, hin, hout]
  | true =>
    rw [Bool.not_true] at hout
    simp [groupS, any_isNan_eq, hnan, hin, hout]

/-- The exponent of a number other than 0. -/
def Exact.exponent (x : Exact) : Option Int :=
  match x with
  | .fin _ n d => some (floorLog2 n d)
  | _ => none

/-- A product cut to the grid 2^(e − 48), toward zero, in grid steps (R44). -/
def Exact.cut (e : Int) (x : Exact) : Int :=
  match x with
  | .fin neg n d =>
    let q : Nat := n * 2 ^ (48 - e).toNat / (d * 2 ^ (e - 48).toNat)
    if neg then -(q : Int) else q
  | _ => 0

/-- The group sum of finite products, by their exponents (R44). -/
theorem groupS_of_finite (hfin : ∀ x ∈ p, x.isFinite = true) :
    groupS p = (p.filterMap Exact.exponent).max?.map fun e => (Exact.ofInt (p.map (Exact.cut e)).sum).scale (e - 48) := by
  have hnan : Exact.nan ∉ p := fun h => by cases hfin _ h
  have hinf : ∀ neg, Exact.inf neg ∉ p := fun neg h => by cases hfin _ h
  simp only [groupS, any_isNan_eq, hnan, decide_false, Bool.false_eq_true, if_false, List.any_beq', List.contains_eq_mem, hinf]
  split
  · next h =>
    have hexp : p.filterMap Exact.exponent = [] := h
    rw [hexp]
    rfl
  · next e0 es h =>
    have hexp : p.filterMap Exact.exponent = e0 :: es := h
    rw [hexp, List.max?_cons', Option.map_some]
    refine congrArg (fun t => some ((Exact.ofInt t).scale (es.foldl max e0 - 48))) ?_
    rw [List.sum_eq_foldl, List.foldl_map]
    refine congrArg (fun step => p.foldl step 0) (funext fun acc => funext fun x => ?_)
    rw [Int.neg_sub]
    cases x with
    | fin neg n d => cases neg <;> rfl
    | _ => exact (Int.add_zero acc).symm

/-- R44: products that are all 0 have no sum. -/
theorem groupS_of_zeros (hzero : ∀ x ∈ p, ∃ neg, x = .zero neg) : groupS p = none := by
  have hexp : p.filterMap Exact.exponent = [] := List.filterMap_eq_nil_iff.2 fun x hx => by
    obtain ⟨neg, rfl⟩ := hzero x hx
    rfl
  rw [groupS_of_finite fun x hx => by obtain ⟨neg, rfl⟩ := hzero x hx; rfl, hexp]
  rfl

/-- R44: finite products are cut to the grid of their greatest exponent, and added. -/
theorem groupS_of_exponent {e : Int} (hfin : ∀ x ∈ p, x.isFinite = true) (hin : ∃ neg n d, .fin neg n d ∈ p ∧ floorLog2 n d = e)
    (hmax : ∀ neg n d, .fin neg n d ∈ p → floorLog2 n d ≤ e) :
    groupS p = some ((Exact.ofInt (p.map (Exact.cut e)).sum).scale (e - 48)) := by
  have hgreatest : (p.filterMap Exact.exponent).max? = some e := by
    refine List.max?_eq_some_iff.2 ⟨?_, fun e' he' => ?_⟩
    · obtain ⟨neg, n, d, hx, he⟩ := hin
      exact List.mem_filterMap.2 ⟨_, hx, congrArg some he⟩
    · obtain ⟨x, hx, he⟩ := List.mem_filterMap.1 he'
      cases x with
      | fin neg n d => exact Option.some.inj he ▸ hmax neg n d hx
      | _ => cases he
  rw [groupS_of_finite hfin, hgreatest]
  rfl

end Group

theorem Exact.scale_ofInt_ne_nan (t e : Int) : (Exact.ofInt t).scale e ≠ .nan := by
  unfold Exact.ofInt Exact.ofDyadic
  split <;> exact Exact.noConfusion

/-! ### The tile of an mma (R255, R263) -/

/-- An entry of a table of rows and columns. -/
theorem getElem?_flatMap_map {α β γ : Type} (f : α → β → γ) (a : List α) (b : List β) (i : Nat) {j : Nat} (hj : j < b.length) :
    (a.flatMap fun x => b.map (f x))[b.length * i + j]? = a[i]?.map fun x => f x b[j] := by
  induction a generalizing i with
  | nil => rfl
  | cons x xs ih =>
    rw [List.flatMap_cons]
    cases i with
    | zero => simp [List.getElem?_append_left, hj]
    | succ i =>
      have hlen : (b.map (f x)).length ≤ b.length * (i + 1) + j := by rw [List.length_map, Nat.mul_succ]; omega
      have hsub : b.length * (i + 1) + j - (b.map (f x)).length = b.length * i + j := by rw [List.length_map, Nat.mul_succ]; omega
      rw [List.getElem?_append_right hlen, hsub, ih]
      rfl

/-- R255: an element of the tile is the group sum of a row of A and a column of B, from its accumulator. -/
theorem sumTile_getD {acc : List W32} {a b : List (List Exact)} {i j : Nat} (hi : i < 64) (hj : j < 64) (ha : a.length = 64)
    (hb : b.length = 64) (hacc : acc.length = 4096) :
    (sumTile acc a b).getD (64 * i + j) 0 =
      groupSum (acc.getD (64 * i + j) 0) (List.zipWith Exact.mul (a.getD i []) (b.getD j [])) := by
  have hia : i < a.length := ha ▸ hi
  have hjb : j < b.length := hb ▸ hj
  have hk : 64 * i + j < acc.length := by omega
  have htile := getElem?_flatMap_map (List.zipWith Exact.mul) a b i hjb
  rw [hb] at htile
  simp [sumTile, List.getElem?_zipWith, htile, List.getElem?_eq_getElem hk, List.getElem?_eq_getElem hia,
    List.getElem?_eq_getElem hjb]

section Compute
variable {s : State} {crew core : Nat} {gg : Gang} {o : EngineOp} {a b : MOperand} {src : Ty} {i j : Nat} (hi : i < 64) (hj : j < 64)
  (hrows : (a.vectors s crew core (gg.inForms s o.forms) false false).length = 64)
include hi hj hrows

/-- R44, R255: an element that mma computes. -/
theorem EngineOp.compute_mma {d : Nat} {tb : Bool} (hw : o.work = .mma d a b src tb)
    (hcols : (b.vectors s crew core (gg.inForms s o.forms) true tb).length = 64)
    (hacc : (MVal.acc ((gg.inForms s o.forms).valOf d)).length = 4096) :
    ∃ e, o.compute s crew core gg = .dense .f32 e ∧
      e.getD (64 * i + j) 0 = groupSum ((MVal.acc ((gg.inForms s o.forms).valOf d)).getD (64 * i + j) 0)
        (List.zipWith Exact.mul ((a.vectors s crew core (gg.inForms s o.forms) false false).getD i [])
          ((b.vectors s crew core (gg.inForms s o.forms) true tb).getD j [])) := by
  refine ⟨_, ?_, sumTile_getD hi hj hrows hcols hacc⟩
  simp only [EngineOp.compute, hw]

/-- R44, R263: an element of a partial tile that mma.blk computes. -/
theorem EngineOp.compute_mmaBlk {out : MOperand} (hw : o.work = .mmaBlk out a b src)
    (hcols : (b.vectors s crew core (gg.inForms s o.forms) true false).length = 64) :
    ∃ e, o.compute s crew core gg = .dense .f32 e ∧
      e.getD (64 * i + j) 0 = groupSum 0
        (List.zipWith Exact.mul ((a.vectors s crew core (gg.inForms s o.forms) false false).getD i [])
          ((b.vectors s crew core (gg.inForms s o.forms) true false).getD j [])) := by
  have hzero : (List.replicate 4096 (0 : W32)).getD (64 * i + j) 0 = 0 := by
    rw [List.getD_eq_getElem?_getD, List.getElem?_replicate]
    split <;> rfl
  refine ⟨_, ?_, (sumTile_getD hi hj hrows hcols List.length_replicate).trans (by rw [hzero])⟩
  simp only [EngineOp.compute, hw]

end Compute

/-! ### The claim -/

/-- Settles O47, clause by clause: the plan of each engine instruction at the last arrival, the grant of a token, the count of what it
waited, the elements that the engine computes, the sum of a group, and what an issue leaves in the gang. -/
theorem engineInstructionsAskThenIssue : Obligations.EngineInstructionsAskThenIssue := by
  unfold Obligations.EngineInstructionsAskThenIssue
  refine ⟨?asks, ?grant, ?denial, ?elements, ?groups, ?issue, ?forms⟩
  case asks =>
    intro f s g s' gg lead hs
    refine ⟨?mma, ?mmaBlk, ?pair, ?muld, ?single, ?stages⟩
    case mma =>
      intro hm p q hp hq hfp hfq hd
      exact ⟨fun hsteps => (plansAtCol_mma f).quotaDecides hs hm (mmaPlan_of_steps hp hq hfp hfq hd hsteps),
        fun n hsteps => (plansAtCol_mma f).traps hs hm (mmaPlan_of_bad_ring hp hq hfp hfq hd hsteps)⟩
    case mmaBlk =>
      intro hm o p q ho hp hq hsteps hout
      exact (plansAtCol_mmaBlk f).asks hs hm (blkPlan_of_steps hp hq ho hsteps hout)
    case pair =>
      intro hfree ra rb ha hb
      exact ⟨fun hm => (plansAtCol_mlrMul f).rankDecides hs hm rfl (mulPlan_of_ranks hfree ha hb),
        fun hm => (plansAtCol_mlrAdd f).rankDecides hs hm rfl (addPlan_of_ranks hfree ha hb)⟩
    case muld =>
      intro hfree hm first r hfac hden
      exact (plansAtCol_mlrMuld f).rankDecides hs hm rfl (muldPlan_of_rank hfree hfac hden)
    case single =>
      intro hfree r ha
      exact ⟨fun hm => (plansAtCol_mlrScl f).rankDecides hs hm rfl (sclPlan_of_rank hfree ha),
        fun hm => (plansAtCol_mlrTrunc f).quotaDecides hs hm ((truncPlan_of_rank hfree ha).trans (mlrPlan_of_rank rfl)),
        fun hm => (plansAtCol_mlrDense f).quotaDecides hs hm ((densePlan_of_rank hfree ha).trans (mlrPlan_of_rank rfl))⟩
    case stages =>
      intro isFact i hm c
      have hexec := exec_interruptible f isFact s
      refine ⟨fun hc r hr => ⟨fun hq => hexec.trans (onGang_askToken_ok hs hm (Interruptible.start_fresh hc hr hq)), fun hq =>
        hexec.trans (onGang_askToken_trap hs hm (Interruptible.start_over_quota hc hr hq))⟩, fun hc r hd hc9 => ?_⟩
      exact hexec.trans (onGang_askToken_ok hs hm (Interruptible.start_of_work hc hc9 hd))
  case grant =>
    intro s crew m k gg col id lead plan hfirst hpool hcrew hfind hcol hlead _ since s0 s1 hplan
    have hgang : s.gang crew m = some gg := (congrArg (Option.bind · _) hcrew).trans hfind
    have hgang1 : s1.gang crew m = some { gg with col := some { col with token := true, denied := some (s.clk - since) } } := by
      rw [State.gang_modGang, show s0.gang crew m = some gg from hgang, Option.map_some, hcol]
      rfl
    have hcrew1 : s1.crew crew = some _ := (State.crew_modCrew _ crew crew _).trans ((if_pos rfl).trans (congrArg (Option.map _) hcrew))
    have hexec : exec (.tokenGrant crew m) s = .next (s1.tryIssue crew m) := exec_tokenGrant_of_earliest hfirst hpool hgang hcol
    rw [hexec, State.tryIssue_of_plan hcrew1 hgang1 hlead rfl rfl (hplan _ hgang1)]
    exact ⟨fun hroom => congrArg Host.Outcome.next (if_neg (Nat.not_le.2 hroom)), fun hfull => congrArg Host.Outcome.next (if_pos hfull)⟩
  case denial => exact fun s crew m gg c n w hgang hcol hdenied => State.completeCol_of_denied w hgang hcol hdenied
  case elements =>
    intro s crew core gg o d a b src tb i j gf rows cols products hi hj hrows
    exact ⟨fun hw hcols hacc => EngineOp.compute_mma hi hj hrows hw hcols hacc, fun _ hw hcols => EngineOp.compute_mmaBlk hi hj hrows hw hcols⟩
  case groups =>
    intro acc p
    refine ⟨groupSum_nil acc, groupSum_of_ne_nil acc, fun h => groupStep_of_nan (groupS_of_nan h), fun neg hnan hin hout => ?_,
      fun hzero => groupStep_of_none (groupS_of_zeros hzero), fun e hfin hin hmax => ?_⟩
    · exact groupStep_of_sum (groupS_of_inf hnan hin hout) nofun
    · exact groupStep_of_sum (groupS_of_exponent hfin hin hmax) (Exact.scale_ofInt_ne_nan _ _)
  case issue =>
    exact fun s crew m gg stream w ovf reads write form hstream hlen hgang hh hu hx =>
      issueOp_of_no_hazard w ovf reads write form hstream hlen hgang hh hu hx
  case forms =>
    exact fun s gg m f => ⟨fun h => (gg.inForms_single s m f).trans (if_pos h),
      fun h => (gg.inForms_single s m f).trans (if_neg (by simp [h]))⟩

end Sys2Proof.Machine
end

section
/-! PROOFS. Floating instructions (R122 to R137): what the operation of each makes of what a thread reads, and the claims about them. How
an operation's result reaches D stands once for all of them, in Laws/Lanes. -/

namespace Sys2Proof.Machine

theorem GivesData.congr {i : Instr} {f : RArgs} {w : Nat} {act : Tg → Mask} {x y : State → Tg → Nat → W64}
    (h : GivesData i f w act x) (hxy : ∀ s g t, x s g t = y s g t) : GivesData i f w act y :=
  (funext fun s => funext fun g => funext (hxy s g) : x = y) ▸ h

/-! ### Arithmetic that rounds once (R122, R125, R126, R132) -/

theorem sextInt_natCast (x w : Nat) (hw : 0 < w) : sextInt x w = (BitVec.ofNat w x).toInt := by
  rw [sextInt_eq _ _ hw, BitVec.ofInt_natCast]

/-- R126. -/
theorem fscale_gives (f : RArgs) :
    GivesData (.fscale f) f f.ty.width (·.acting f.h) fun s g t => BitVec.ofNat 64 (rounded s g f (Ty.fmt f.ty)
      (fun _ => (fltOf s g f.h f.ty f.a t).scale (BitVec.ofNat 32 (opnd s g f.h .i32 32 f.b t)).toInt) (elemOf f t)) := by
  refine lanes_data_same _ f _ (fun rnd i => (Ty.fmt f.ty).round ((fltVal f.ty i.a).scale (sextInt i.b 32)) (rnd i.e) (f.x.getLsbD 0))
    _ _ _ _ (fun _ => rfl) (fun _ _ => rfl) rfl (fun _ => rfl) (fun _ => rfl) fun s g t => ?_
  rw [laneIn_e, sextInt_natCast _ _ (by decide)]
  rfl

/-- R125. -/
theorem frnd_gives (f : RArgs) :
    GivesData (.frnd f) f f.ty.width (·.acting f.h) fun s g t => BitVec.ofNat 64
      ((Ty.fmt f.ty).round (frndExact (rndAt s g f.rm (elemOf f t)) (fltOf s g f.h f.ty f.a t)) .rne false) := by
  refine lanes_data_same _ f _ (fun rnd i => (Ty.fmt f.ty).round (frndExact (rnd i.e) (fltVal f.ty i.a)) .rne false)
    _ _ _ _ (fun _ => rfl) (fun _ _ => rfl) rfl (fun _ => rfl) (fun _ => rfl) fun s g t => ?_
  rw [laneIn_e]
  rfl

/-- Settles O25: fscale and frnd by their own operations, the others as operations that round an exact value (roundOp_gives). -/
theorem floatArithmeticRoundsOnce : Obligations.FloatArithmeticRoundsOnce := by
  unfold Obligations.FloatArithmeticRoundsOnce
  intro f
  refine ⟨?fadd, ?fsub, ?fmul, ?fma, ?rcp, ?sqrt, fscale_gives f, ?frnd⟩
  case fadd => exact roundOp_gives _ f (fun m a b _ => addExact m a b) fun _ => rfl
  case fsub => exact roundOp_gives _ f (fun m a b _ => addExact m a b.neg) fun _ => rfl
  case fmul => exact roundOp_gives _ f (fun _ a b _ => a.mul b) fun _ => rfl
  case fma => exact roundOp_gives _ f fmaExact fun _ => rfl
  case rcp => exact roundOp_gives _ f (fun _ a _ _ => (Exact.ofInt 1).div a) fun _ => rfl
  case sqrt => exact roundOp_gives _ f (fun _ a _ _ => a.sqrt) fun _ => rfl
  case frnd =>
    refine (frnd_gives f).congr fun s g t => ?_
    cases h : fltOf s g f.h f.ty f.a t <;> simp only [h] <;> rfl

/-! ### Minimum and maximum (R123), packed operations (R135, R137) -/

/-- A packed operation gives what its function makes of each element, under the element's guard bit. -/
theorem packedOp_gives (i : Instr) (f : RArgs) (fn : Rnd → Nat → Nat → Nat → Nat) (hi : ∀ s, exec i s = lanes f s (packedOp f fn)) :
    GivesData i f 32 (·.actingPacked f.h) fun s g t =>
      let el (k : Nat) : Nat := fn (rndAt s g f.rm (2 * elemOf f t + k)) (halfOf s g f f.a t k) (halfOf s g f f.b t k) (halfOf s g f f.cs t k)
      packWord f.h.u g f t (el 0) (el 1) := by
  refine lanes_data_same i f (packedOp f fn) (fun rnd i =>
    let el (k : Nat) : Nat := fn (rnd (2 * i.e + k)) (half i.a k) (half i.b k) (half i.c k)
    packGuarded i.gb i.old (el 0) (el 1)) _ _ _ _ hi (fun _ _ => rfl) rfl (fun _ => rfl) (fun _ => rfl) fun s g t => ?_
  simp only [packWord_eq _ _ _ (packedOp f fn) rfl, laneIn_e, show (packedOp f fn).each = false from rfl, Bool.not_false, Bool.and_true]
  rfl

/-- R123: minMaxBits by the number of its NaN operands, then by their order. -/
theorem minMaxBits_eq (ty : Ty) (isMax nanMode : Bool) (a b : Nat) :
    minMaxBits ty isMax nanMode a b =
      if (fltVal ty a).isNan = true ∧ (fltVal ty b).isNan = true then (Ty.fmt ty).nan
      else if (fltVal ty a).isNan then (if nanMode then (Ty.fmt ty).nan else b)
      else if (fltVal ty b).isNan then (if nanMode then (Ty.fmt ty).nan else a)
      else if isMax then (if ltSigned (fltVal ty a) (fltVal ty b) then b else a)
      else if ltSigned (fltVal ty b) (fltVal ty a) then b else a := by
  unfold minMaxBits
  simp only [Bool.and_eq_true]
  cases isMax
  · simp only [Bool.false_eq_true, if_false]
  · simp only [if_true]

theorem minMaxOp_gives (i : Instr) (f : RArgs) (isMax : Bool) (hi : ∀ s, exec i s = lanes f s (minMaxOp f isMax)) :
    GivesData i f f.ty.width (·.acting f.h) fun s g t => BitVec.ofNat 64
      (minMaxBits f.ty isMax (f.x.getLsbD 0) (opnd s g f.h f.ty f.ty.width f.a t) (opnd s g f.h f.ty f.ty.width f.b t)) :=
  lanes_data_same i f (minMaxOp f isMax) (fun _ i => minMaxBits f.ty isMax (f.x.getLsbD 0) i.a i.b) _ _ _ _ hi (fun _ _ => rfl) rfl
    (fun _ => rfl) (fun _ => rfl) fun _ _ _ => rfl

/-- Settles O26: the four instructions apply minMaxBits to whole operands or to elements, and minMaxBits_eq is the table of R123. -/
theorem minAndMaxReturnAnOperand : Obligations.MinAndMaxReturnAnOperand := by
  unfold Obligations.MinAndMaxReturnAnOperand
  intro f
  have hone (isMax : Bool) (s : State) (g : Tg) (t : Nat) := congrArg (BitVec.ofNat 64)
    (minMaxBits_eq f.ty isMax (f.x.getLsbD 0) (opnd s g f.h f.ty f.ty.width f.a t) (opnd s g f.h f.ty f.ty.width f.b t))
  have hpair (isMax : Bool) (s : State) (g : Tg) (t : Nat) := congr (congrArg (packWord f.h.u g f t)
    (minMaxBits_eq f.ty isMax (f.x.getLsbD 0) (halfOf s g f f.a t 0) (halfOf s g f f.b t 0)))
    (minMaxBits_eq f.ty isMax (f.x.getLsbD 0) (halfOf s g f f.a t 1) (halfOf s g f f.b t 1))
  have hpacked (i : Instr) (isMax : Bool)
      (hi : ∀ s, exec i s = lanes f s (packedOp f fun _ a b _ => minMaxBits f.ty isMax (f.x.getLsbD 0) a b)) :=
    (packedOp_gives i f _ hi).congr (hpair isMax)
  refine ⟨?fmin, ?fmax, fun _ => ?hmin2, fun _ => ?hmax2⟩
  case fmin => exact (minMaxOp_gives _ f false fun _ => rfl).congr (hone false)
  case fmax => exact (minMaxOp_gives _ f true fun _ => rfl).congr (hone true)
  case hmin2 => exact hpacked _ false fun _ => rfl
  case hmax2 => exact hpacked _ true fun _ => rfl

/-- R137. -/
theorem dot2_gives (f : RArgs) :
    GivesData (.dot2 f) f 32 (·.acting f.h) fun s g t => BitVec.ofNat 64 (rounded s g f fmtF32 (fun m => Exact.sum m
      [(halfFlt s g f f.a t 0).mul (halfFlt s g f f.b t 0), (halfFlt s g f f.a t 1).mul (halfFlt s g f f.b t 1),
        fltOf s g f.h .f32 f.cs t]) (elemOf f t)) := by
  refine lanes_data_same _ f _ (fun rnd i =>
    let p (k : Nat) : Exact := (fltVal f.ty (half i.a k)).mul (fltVal f.ty (half i.b k))
    fmtF32.round (Exact.sum (rnd i.e) [p 0, p 1, fltVal .f32 i.c]) (rnd i.e) (f.x.getLsbD 0))
    _ _ _ _ (fun _ => rfl) (fun _ _ => rfl) rfl (fun _ => rfl) (fun _ => rfl) fun s g t => ?_
  simp only [laneIn_e]
  rfl

/-- Settles O27: hadd2, hmul2 and hfma2 as packed operations that round (packedRound_gives), dot2 by its own operation. -/
theorem packedArithmetic : Obligations.PackedArithmetic := by
  unfold Obligations.PackedArithmetic
  intro f _
  exact ⟨packedRound_gives _ f (fun m a b _ => addExact m a b) fun _ => rfl, packedRound_gives _ f (fun _ a b _ => a.mul b) fun _ => rfl,
    packedRound_gives _ f fmaExact fun _ => rfl, dot2_gives f⟩

/-! ### Class (R127) and conversion (R128 to R131) -/

theorem fclass_gives (f : RArgs) (hd : ∀ p, f.d ≠ .p p) :
    GivesData (.fclass f) f 32 (·.acting f.h) fun s g t =>
      BitVec.ofNat 64 (2 ^ classBit f.ty (opnd s g f.h f.ty f.ty.width f.a t)) := by
  refine lanes_data_same _ f _ (fun _ i => 2 ^ classBit f.ty i.a) _ _ _ _ (fun _ => rfl) (fun _ i => ?_) rfl (fun _ => rfl)
    (fun _ => rfl) fun _ _ _ => rfl
  cases h : f.d
  case p n => exact absurd h (hd n)
  all_goals rfl

theorem srnd_gives (f : RArgs) :
    GivesData (.srnd f) f 32 (·.acting f.h) fun s g t =>
      (toF32 (fltVal f.ty ((Ty.fmt f.ty).round (fltOf s g f.h .f32 f.a t) (rndAt s g f.rm (elemOf f t))
        (effSat f.ty (cvtSat f))))).setWidth 64 := by
  refine lanes_data_same _ f _ (fun rnd i =>
    (toF32 (fltVal f.ty ((Ty.fmt f.ty).round (fltVal .f32 i.a) (rnd i.e) (effSat f.ty (cvtSat f))))).toNat)
    _ _ _ _ (fun _ => rfl) (fun _ _ => rfl) rfl (fun _ => rfl) (fun _ => rfl) fun s g t => ?_
  rw [laneIn_e, BitVec.ofNat_toNat]
  rfl

/-- The operation of cvt. -/
def cvtOp (f : RArgs) : LaneOp :=
  { tyA := cvtReadTy f, tyB := .f32, tyC := .n8, dw := f.ty.width, packed := false, run := cvtRun f }

theorem exec_cvt (f : RArgs) (s : State) : exec (.cvt f) s = lanes f s (cvtOp f) := rfl

theorem cvtReadTy_of_wide {f : RArgs} (hw : 32 ≤ (srcTy f).width) : cvtReadTy f = srcTy f := if_neg (by omega)

theorem cvtReadTy_of_narrow {f : RArgs} (hw : (srcTy f).width ≤ 16) (ha : (∃ n, f.a = .v n) ∨ (∃ n, f.a = .s n)) :
    cvtReadTy f = .n32 := by
  unfold cvtReadTy
  rw [if_pos hw]
  obtain ⟨n, ha⟩ | ⟨n, ha⟩ := ha <;> rw [ha]

theorem cvtOp_in_a (s : State) (g : Tg) (f : RArgs) (t : Nat) :
    (laneIn s g f (cvtOp f) none t).a = opnd s g f.h (cvtReadTy f) (cvtReadTy f).width f.a t := rfl

/-- R129, a packed destination: both elements are written. -/
theorem cvt_packed_gives (f : RArgs) (hp : f.ty.isPacked = true) (hs : srcTy f = .f32) :
    GivesData (.cvt f) f f.ty.width (·.acting f.h) fun s g t =>
      let el (sp : Spec) (k : Nat) : BitVec 16 := BitVec.ofNat 16
        (cvtElem .f32 f.ty (cvtSat f) (rndAt s g f.rm (2 * elemOf f t + k)) (opnd s g f.h .f32 32 sp t))
      (el f.b 1 ++ el f.a 0).setWidth 64 := by
  refine lanes_data_same _ f (cvtOp f) (fun rnd i =>
      cvtElem .f32 f.ty (cvtSat f) (rnd (2 * i.e)) i.a % 2 ^ 16 + 2 ^ 16 * (cvtElem .f32 f.ty (cvtSat f) (rnd (2 * i.e + 1)) i.b % 2 ^ 16))
    _ _ _ _ (exec_cvt f) (fun rnd i => ?_) rfl (fun _ => rfl) (fun _ => rfl) fun s g t => ?_
  · simp only [cvtOp, cvtRun, hp, hs, if_true]
  · have hread : cvtReadTy f = .f32 := (cvtReadTy_of_wide (by rw [hs]; decide)).trans hs
    rw [laneIn_e, cvtOp_in_a, hread, show (laneIn s g f (cvtOp f) none t).b = opnd s g f.h .f32 32 f.b t from rfl,
      show Ty.f32.width = 32 from rfl]
    apply BitVec.eq_of_toNat_eq
    simp only [BitVec.toNat_ofNat, BitVec.toNat_setWidth, BitVec.toNat_append, Nat.shiftLeft_eq, Nat.add_zero]
    rw [Nat.mul_comm _ (2 ^ 16), ← Nat.two_pow_add_eq_or_of_lt (Nat.mod_lt _ (by decide)), Nat.add_comm]

/-- The converted element of thread `t`, of a source that is read whole. -/
def cvtWhole (s : State) (g : Tg) (f : RArgs) (t : Nat) : Nat :=
  cvtElem (srcTy f) f.ty (cvtSat f) (rndAt s g f.rm (elemOf f t)) (opnd s g f.h (srcTy f) (srcTy f).width f.a t)

/-- R129, a wide source and destination: the whole destination is written. -/
theorem cvt_wide_gives (f : RArgs) (hp : f.ty.isPacked = false) (hw : 32 ≤ (srcTy f).width) (hd : 32 ≤ f.ty.width) :
    GivesData (.cvt f) f f.ty.width (·.acting f.h) fun s g t => regBits f.ty (BitVec.ofNat _ (cvtWhole s g f t)) := by
  refine lanes_data_ext _ f (cvtOp f) f.ty (fun rnd i => cvtElem (srcTy f) f.ty (cvtSat f) (rnd i.e) i.a) _ _ _ (exec_cvt f)
    (fun rnd i => ?_) rfl (fun _ => rfl) (fun _ => rfl) fun s g t => ?_
  · have hns : ¬(srcTy f).width ≤ 16 := by omega
    have hnd : ¬f.ty.width ≤ 16 := by omega
    simp only [cvtOp, cvtRun, hp, if_neg hns, if_neg hnd, Bool.false_eq_true, if_false]
  · rw [laneIn_e, cvtOp_in_a, cvtReadTy_of_wide hw]
    rfl

/-- R129, a narrow source in a register: its element k is read. -/
theorem cvt_narrow_gives (f : RArgs) (hp : f.ty.isPacked = false) (hw : (srcTy f).width ≤ 16)
    (ha : (∃ n, f.a = .v n) ∨ (∃ n, f.a = .s n)) :
    GivesData (.cvt f) f f.ty.width (·.acting f.h) fun s g t => regBits f.ty (BitVec.ofNat _
      (cvtElem (srcTy f) f.ty (cvtSat f) (rndAt s g f.rm (elemOf f t))
        (opnd s g f.h .n32 32 f.a t / 2 ^ ((srcTy f).width * cvtK f) % 2 ^ (srcTy f).width))) := by
  refine lanes_data_ext _ f (cvtOp f) f.ty (fun rnd i => cvtElem (srcTy f) f.ty (cvtSat f) (rnd i.e)
      (i.a / 2 ^ ((srcTy f).width * cvtK f) % 2 ^ (srcTy f).width)) _ _ _ (exec_cvt f)
    (fun rnd i => ?_) rfl (fun _ => rfl) (fun _ => rfl) fun s g t => ?_
  · simp only [cvtOp, cvtRun, hp, if_pos hw, Bool.false_eq_true, if_false]
  · rw [laneIn_e, cvtOp_in_a, cvtReadTy_of_narrow hw ha]
    rfl

/-! ### A narrow result inserted in D (R129) -/

/-- The bits of a register with element `k` inserted: those of the element in its place, and the old ones elsewhere. -/
theorem testBit_insertElem (old w k x j : Nat) :
    (insertElem old w k x).testBit j = if w * k ≤ j ∧ j < w * (k + 1) then x.testBit (j - w * k) else old.testBit j := by
  have hlow : old % 2 ^ (w * k) < 2 ^ (w * k) := Nat.mod_lt _ (Nat.two_pow_pos _)
  have hmid : 2 ^ (w * k) * (x % 2 ^ w) + old % 2 ^ (w * k) < 2 ^ (w * (k + 1)) := by
    have hx : x % 2 ^ w + 1 ≤ 2 ^ w := Nat.mod_lt _ (Nat.two_pow_pos _)
    calc 2 ^ (w * k) * (x % 2 ^ w) + old % 2 ^ (w * k) < 2 ^ (w * k) * (x % 2 ^ w + 1) := by rw [Nat.mul_add_one]; omega
      _ ≤ 2 ^ (w * k) * 2 ^ w := Nat.mul_le_mul_left _ hx
      _ = 2 ^ (w * (k + 1)) := by rw [Nat.mul_succ, Nat.pow_add]
  have hform : insertElem old w k x =
      2 ^ (w * (k + 1)) * (old / 2 ^ (w * (k + 1))) + (2 ^ (w * k) * (x % 2 ^ w) + old % 2 ^ (w * k)) := by
    unfold insertElem
    rw [Nat.mul_comm (old / _), Nat.mul_comm (x % _), Nat.add_assoc]
  have hend : w * (k + 1) = w * k + w := Nat.mul_succ w k
  rw [hform, Nat.testBit_two_pow_mul_add _ hmid, Nat.testBit_two_pow_mul_add _ hlow]
  by_cases hhi : j < w * (k + 1)
  · by_cases hlo : j < w * k
    · simp [hhi, hlo, Nat.not_le.2 hlo, Nat.testBit_mod_two_pow]
    · have hj : j - w * k < w := by omega
      simp [hhi, hlo, Nat.not_lt.1 hlo, Nat.testBit_mod_two_pow, hj]
  · have hle : w * (k + 1) ≤ j := Nat.not_lt.1 hhi
    simp [hhi, Nat.testBit_div_two_pow, Nat.sub_add_cancel hle]

/-- R129, a wide source and a narrow destination: the element is inserted in the old contents of D. -/
theorem cvt_insert_gives (f : RArgs) (hp : f.ty.isPacked = false) (hw : 32 ≤ (srcTy f).width) (hd : f.ty.width ≤ 16) :
    GivesData (.cvt f) f f.ty.width (·.acting f.h) fun s g t => BitVec.ofNat 64
      (insertElem (laneOld s g f.ty.width f.d none t % 2 ^ (if f.h.u then 64 else 32)) f.ty.width (cvtK f) (cvtWhole s g f t)) := by
  refine lanes_data_same _ f (cvtOp f) (fun rnd i => insertElem (i.old % 2 ^ i.r) f.ty.width (cvtK f)
      (cvtElem (srcTy f) f.ty (cvtSat f) (rnd i.e) i.a)) _ _ _ _ (exec_cvt f)
    (fun rnd i => ?_) rfl (fun _ => rfl) (fun _ => rfl) fun s g t => ?_
  · have hns : ¬(srcTy f).width ≤ 16 := by omega
    simp only [cvtOp, cvtRun, hp, if_neg hns, if_pos hd, Bool.false_eq_true, if_false]
  · have hr : (laneIn s g f (cvtOp f) none t).r = if f.h.u then 64 else 32 := by
      have h64 : f.ty.width ≠ 64 := by omega
      simp [laneIn, cvtOp, h64]
    rw [laneIn_e, cvtOp_in_a, cvtReadTy_of_wide hw, hr]
    rfl

/-- A bit of a register of `r` bits after the insertion. -/
theorem getLsbD_insertElem {r : Nat} (old : BitVec r) (w k x j : Nat) (hr : r ≤ 64) (hj : j < r) :
    (BitVec.ofNat 64 (insertElem (old.toNat % 2 ^ r) w k x)).getLsbD j =
      if w * k ≤ j ∧ j < w * (k + 1) then x.testBit (j - w * k) else old.getLsbD j := by
  rw [BitVec.getLsbD_ofNat, testBit_insertElem, Nat.mod_eq_of_lt old.isLt, BitVec.testBit_toNat]
  simp [Nat.lt_of_lt_of_le hj hr]

@[simp] theorem Tg.slotOf_past (g : Tg) (rm : BitVec 3) (words n : Nat) : (g.past rm words).slotOf n = g.slotOf n := by
  simp [Tg.past, Tg.slotOf]

@[simp] theorem Tg.v_past (g : Tg) (rm : BitVec 3) (words : Nat) : (g.past rm words).v = g.v := by
  simp [Tg.past]

@[simp] theorem Tg.mask_past (g : Tg) (rm : BitVec 3) (words : Nat) : (g.past rm words).mask = g.mask := by
  simp [Tg.past]

/-- R129 in a per-thread form. -/
theorem cvt_inserts_vector (f : RArgs) (d : BitVec 6) (s : State) (g : Tg) (t : Nat) (hg : s.Issues g)
    (hsw : Long.isSweep f.h.long = false) (hu : f.h.u = false) (hd : f.d = .v d) (hp : f.ty.isPacked = false)
    (hw : 32 ≤ (srcTy f).width) (hn : f.ty.width ≤ 16) (ht : t < 96) :
    ∃ g', Becomes (.cvt f) s g' ∧ (∀ p, p ≠ g.slotOf d.toNat → slotAt g'.v p t = slotAt g.v p t) ∧
      ∀ j, j < 32 → (g'.vAt d.toNat t).getLsbD j =
        if (g.acting f.h).has t = true ∧ f.ty.width * cvtK f ≤ j ∧ j < f.ty.width * (cvtK f + 1) then
          (cvtWhole s g f t).testBit (j - f.ty.width * cvtK f)
        else (g.vAt d.toNat t).getLsbD j := by
  have h64 : f.ty.width ≠ 64 := by omega
  obtain ⟨v, hv, hb⟩ := (cvt_insert_gives f hp hw hn s g hg hsw).1 hu d hd
  rw [WroteVec, if_neg h64] at hv
  refine ⟨_, hb, fun p hne => ?_, fun j hj => ?_⟩
  · rw [Tg.v_past, hv p t ht, if_neg fun h => hne h.1]
  · rw [vAt_eq_slotAt, Tg.v_past, Tg.slotOf_past, show Tg.slotOf { g with v := v } d.toNat = g.slotOf d.toNat from rfl, hv _ t ht]
    by_cases hact : (g.acting f.h).has t = true
    · dsimp only
      have hold : laneOld s g f.ty.width f.d none t = (g.vAt d.toNat t).toNat := by rw [hd]; exact if_neg h64
      rw [if_pos ⟨rfl, hact⟩, hold, hu, BitVec.getLsbD_setWidth, if_neg Bool.false_ne_true,
        getLsbD_insertElem _ _ _ _ _ (by decide) hj]
      simp [hact, hj]
    · simp [hact, vAt_eq_slotAt]

/-- R129 in a uniform form. -/
theorem cvt_inserts_scalar (f : RArgs) (d : BitVec 6) (s : State) (g : Tg) (hg : s.Issues g)
    (hsw : Long.isSweep f.h.long = false) (hu : f.h.u = true) (hd : f.d = .s d) (hp : f.ty.isPacked = false)
    (hw : 32 ≤ (srcTy f).width) (hn : f.ty.width ≤ 16) :
    (∀ t, g.once f.h = some t → ∃ x : W64, Completes (.cvt f) s s ((g.setS d.toNat x).past f.rm (RArgs.words f)) ∧
      ∀ j, j < 64 → x.getLsbD j = if f.ty.width * cvtK f ≤ j ∧ j < f.ty.width * (cvtK f + 1) then
          (cvtWhole s g f t).testBit (j - f.ty.width * cvtK f)
        else (g.sAt d.toNat).getLsbD j) ∧
    (g.once f.h = none → Becomes (.cvt f) s (g.past f.rm (RArgs.words f))) := by
  have hc := (cvt_insert_gives f hp hw hn s g hg hsw).2 hu d hd
  refine ⟨fun t ho => ⟨_, by simpa only [ho] using hc, fun j hj => ?_⟩, fun ho => ?_⟩
  · have hold : laneOld s g f.ty.width f.d none t = (g.sAt d.toNat).toNat := by rw [hd]; rfl
    rw [hold, hu, if_pos rfl, getLsbD_insertElem _ _ _ _ _ (Nat.le_refl _) hj]
  · simp only [ho] at hc
    exact hc.trans (done_of_active s _ ((Tg.mask_past _ _ _).symm ▸ hg.2))

/-- Settles O28, clause by clause: the class word, cvt by the widths of its types, srnd, and the insertion of a narrow result. -/
theorem classAndConversions : Obligations.ClassAndConversions := by
  unfold Obligations.ClassAndConversions
  refine ⟨fclass_gives, fun f => ⟨cvt_packed_gives f, cvt_wide_gives f, cvt_narrow_gives f⟩, srnd_gives, ?vector, ?scalar⟩
  case vector => exact fun f d s g t hg hsw hu hd hp hw hn _ ht => cvt_inserts_vector f d s g t hg hsw hu hd hp hw hn ht
  case scalar =>
    intro f d s g hg hsw hu hd hp hw hn _
    have helem : ∀ t, elemOf f t = 0 := fun t => if_pos hu
    simpa only [cvtWhole, helem] using cvt_inserts_scalar f d s g hg hsw hu hd hp hw hn

/-! ### Special functions (R133, R134) -/

theorem specialOp_gives (i : Instr) (f : RArgs) (fn : Nat) (hi : ∀ s, exec i s = lanes f s (specialOp f fn)) :
    GivesData i f f.ty.width (·.acting f.h) fun s g t =>
      BitVec.ofNat 64 (specialAt fn f.ty (opnd s g f.h f.ty f.ty.width f.a t)) :=
  lanes_data_same i f (specialOp f fn) (fun _ i => specialAt fn f.ty i.a) _ _ _ _ hi (fun _ _ => rfl) rfl (fun _ => rfl) (fun _ => rfl)
    fun _ _ _ => rfl

/-- The results of R134 for a zero, by the number of the function. -/
def specialOfZero (neg : Bool) : List Exact := [.inf neg, .ofInt 1, .inf true, .zero neg, .ofInt 1]

/-- The results of R134 for an infinity, by the number of the function. -/
def specialOfInf : Bool → List Exact
  | false => [.zero false, .inf false, .inf false, .nan, .nan]
  | true => [.nan, .zero false, .nan, .nan, .nan]

theorem special32_nan (fn : Nat) : special32 fn (toF32 .nan) = toF32 .nan := by
  have h : f32 (toF32 .nan) = .nan := by decide
  unfold special32
  simp only [h]
  decide

theorem special32_zero : ∀ fn < 5, ∀ neg : Bool,
    special32 fn (toF32 (.zero neg)) = toF32 ((specialOfZero neg).getD fn .nan) := by
  decide

theorem special32_inf : ∀ fn < 5, ∀ neg : Bool,
    special32 fn (toF32 (.inf neg)) = toF32 ((specialOfInf neg).getD fn .nan) := by
  decide

/-- The values that stand in the table of R134. -/
def specialValues : List Exact := [.nan, .inf false, .inf true, .zero false, .zero true, .ofInt 1]

theorem specialOfZero_mem : ∀ fn < 5, ∀ neg : Bool, (specialOfZero neg).getD fn .nan ∈ specialValues := by
  decide

theorem specialOfInf_mem : ∀ fn < 5, ∀ neg : Bool, (specialOfInf neg).getD fn .nan ∈ specialValues := by
  decide

section Types
variable {ty : Ty} {fn bits : Nat} {x r : Exact} (hty : ty = .f32 ∨ ty = .f16 ∨ ty = .bf16)
include hty

/-- A value of the table of R134, in FP16 and BF16 too, which take it through FP32 (R133). -/
theorem specialAt_of_special32 (hr : r ∈ specialValues) (hx : fltVal ty bits = x) (h : special32 fn (toF32 x) = toF32 r) :
    specialAt fn ty bits = (Ty.fmt ty).round r .rne false := by
  subst hx
  obtain rfl | rfl | rfl := hty
  case inl =>
    have hfit : ∀ r ∈ specialValues, (toF32 r).toNat = fmtF32.round r .rne false := by decide
    exact (congrArg BitVec.toNat h).trans (hfit r hr)
  case inr.inl =>
    have hexact : ∀ r ∈ specialValues, fmtF16.round (f32 (toF32 r)) .rne false = fmtF16.round r .rne false := by decide
    exact (congrArg (fun a => fmtF16.round (f32 a) .rne false) h).trans (hexact r hr)
  case inr.inr =>
    have hexact : ∀ r ∈ specialValues, fmtBf16.round (f32 (toF32 r)) .rne false = fmtBf16.round r .rne false := by decide
    exact (congrArg (fun a => fmtBf16.round (f32 a) .rne false) h).trans (hexact r hr)

theorem specialAt_nan (hx : (fltVal ty bits).isNan = true) : specialAt fn ty bits = (Ty.fmt ty).nan := by
  have hnan : fltVal ty bits = .nan := by
    cases h : fltVal ty bits
    case nan => rfl
    all_goals rw [h] at hx; cases hx
  exact specialAt_of_special32 hty (List.mem_cons_self ..) hnan (special32_nan fn)

theorem fltVal_zero (neg : Bool) : fltVal ty ((Ty.fmt ty).round (.zero neg) .rne false) = .zero neg := by
  obtain rfl | rfl | rfl := hty <;> cases neg <;> decide

theorem fltVal_inf (neg : Bool) : fltVal ty ((Ty.fmt ty).round (.inf neg) .rne false) = .inf neg := by
  obtain rfl | rfl | rfl := hty <;> cases neg <;> decide

theorem specialAt_zero (hfn : fn < 5) (neg : Bool) : specialAt fn ty ((Ty.fmt ty).round (.zero neg) .rne false) =
    (Ty.fmt ty).round ((specialOfZero neg).getD fn .nan) .rne false :=
  specialAt_of_special32 hty (specialOfZero_mem fn hfn neg) (fltVal_zero hty neg) (special32_zero fn hfn neg)

theorem specialAt_inf (hfn : fn < 5) (neg : Bool) : specialAt fn ty ((Ty.fmt ty).round (.inf neg) .rne false) =
    (Ty.fmt ty).round ((specialOfInf neg).getD fn .nan) .rne false :=
  specialAt_of_special32 hty (specialOfInf_mem fn hfn neg) (fltVal_inf hty neg) (special32_inf fn hfn neg)

end Types

/-- The encodings of a list of results, of which a function's number picks one. -/
theorem getD_encodings (l : List Exact) (enc : Exact → Nat) {fn : Nat} (h : fn < l.length) :
    enc (l.getD fn .nan) = (l.map enc).getD fn 0 := by
  simp [h]

/-- Settles O29: each instruction applies specialAt to the operand's bits, which at a zero, an infinity or NaN answers by R134. -/
theorem specialFunctions : Obligations.SpecialFunctions := by
  unfold Obligations.SpecialFunctions
  refine ⟨fun f => ⟨?rsq, ?ex2, ?lg2, ?sin, ?cos⟩, fun fn ty hfn hty => ?table⟩
  case rsq => exact specialOp_gives _ f 0 fun _ => rfl
  case ex2 => exact specialOp_gives _ f 1 fun _ => rfl
  case lg2 => exact specialOp_gives _ f 2 fun _ => rfl
  case sin => exact specialOp_gives _ f 3 fun _ => rfl
  case cos => exact specialOp_gives _ f 4 fun _ => rfl
  case table =>
    intro enc pInf nInf one pZero nZero nan
    exact ⟨fun x => specialAt_nan hty,
      (specialAt_zero hty hfn false).trans (getD_encodings (specialOfZero false) enc hfn),
      (specialAt_zero hty hfn true).trans (getD_encodings (specialOfZero true) enc hfn),
      (specialAt_inf hty hfn false).trans (getD_encodings (specialOfInf false) enc hfn),
      (specialAt_inf hty hfn true).trans (getD_encodings (specialOfInf true) enc hfn)⟩

end Sys2Proof.Machine
end

section
/-! PROOFS. Transfers, mlr.info, mfence.op and mwait (R239, R259, R260, R266, R270, R276, R277): what each performs at the last arrival at
its col, and what joins the load path. The arrival itself is `onGang_of_meets`, above. -/

namespace Sys2Proof.Machine

/-! ### The instructions -/

theorem exec_mzero (f : RArgs) (s : State) : exec (.mzero f) s = execMzero f s := rfl
theorem exec_mld (f : RArgs) (s : State) : exec (.mld f) s = execMld f s := rfl
theorem exec_mst (f : RArgs) (s : State) : exec (.mst f) s = execMst f s := rfl
theorem exec_mmov (f : RArgs) (s : State) : exec (.mmov f) s = execMmov f s := rfl
theorem exec_mlrSet (f : RArgs) (s : State) : exec (.mlrSet f) s = execMlrSet f s := rfl
theorem exec_mlrGet (f : RArgs) (s : State) : exec (.mlrGet f) s = execMlrGet f s := rfl
theorem exec_mlrInfo (f : RArgs) (s : State) : exec (.mlrInfo f) s = execMlrInfo f s := rfl
theorem exec_mfenceOp (f : RArgs) (s : State) : exec (.mfenceOp f) s = execMfenceOp f s := rfl
theorem exec_mwait (f : RArgs) (s : State) : exec (.mwait f) s = execMwait f s := rfl

section Arrival
variable {i : Instr} {f : RArgs} {s : State} {g : Tg} {s' : State} {gg : Gang} {lead : Tg}

/-! ### The quota of a transfer (R239) -/

theorem startXfer_of_le {w : XferWork} {d : Nat} {read : Option Nat} {form : MForm} (h : gg.occWith d form ≤ (s.crewOf lead).slabs) :
    startXfer s gg lead w (some d) read (some form) = .fin (issueXfer s gg lead w (some d) read (some form)) none :=
  if_neg (Nat.not_lt.2 h)

theorem startXfer_of_lt {w : XferWork} {d : Nat} {read : Option Nat} {form : MForm} (h : (s.crewOf lead).slabs < gg.occWith d form) :
    startXfer s gg lead w (some d) read (some form) = .trap .slabq (BitVec.ofNat 64 (gg.occWith d form)) :=
  if_pos h

/-- A transfer that gives no register a form needs no slabs. -/
theorem startXfer_none (s : State) (gg : Gang) (lead : Tg) (w : XferWork) (read : Option Nat) :
    startXfer s gg lead w none read none = .fin (issueXfer s gg lead w none read none) none := by
  unfold startXfer
  exact if_neg (Nat.not_lt_zero _)

/-- A transfer that gives a register a form joins the load path where the gang keeps within its slabs, and else traps SLABQ. -/
theorem quotaDecides_of_startXfer {w : XferWork} {d : Nat} {read : Option Nat} {form : MForm}
    (h : exec i s = .next (s'.perf g.crew g.mode.gmask (startXfer s' gg lead w (some d) read (some form)))) :
    (gg.occWith d form ≤ (s'.crewOf lead).slabs → Performed i s g (issueXfer s' gg lead w (some d) read (some form)) none) ∧
    ((s'.crewOf lead).slabs < gg.occWith d form → GangTraps i s g s' .slabq (BitVec.ofNat 64 (gg.occWith d form))) :=
  ⟨fun hle => by rw [startXfer_of_le hle] at h; exact h, fun hlt => by rw [startXfer_of_lt hlt] at h; exact h⟩

/-! ### The memory checks (R151, R266, R276) -/

/-- R266: the scalar that an ALIGN reports is one of those that are not aligned. -/
theorem xferCheck_of_misaligned (s : State) (lead : Tg) {scalars : List W64} (accs : List CAcc) {a : W64} (ha : a ∈ scalars)
    (hmis : a.toNat % 16 ≠ 0) :
    ∃ b ∈ scalars, b.toNat % 16 ≠ 0 ∧ xferCheck s lead scalars accs = some (.trap .align b 0) := by
  have hfound : (align16 scalars).isSome = true := List.find?_isSome.2 ⟨a, ha, by simpa using hmis⟩
  obtain ⟨b, hb⟩ := Option.isSome_iff_exists.1 hfound
  exact ⟨b, List.mem_of_find?_eq_some hb, by simpa using List.find?_some hb, by simp only [xferCheck, hb]⟩

/-! ### mlr.info (R277) -/

theorem fields_of_append (quota occ slabs : BitVec 16) (rank : BitVec 8) (code : BitVec 4) :
    let x : W64 := quota ++ occ ++ slabs ++ rank ++ 0#4 ++ code
    x.extractLsb' 0 4 = code ∧ x.extractLsb' 4 4 = 0 ∧ x.extractLsb' 8 8 = rank ∧ x.extractLsb' 16 16 = slabs ∧
      x.extractLsb' 32 16 = occ ∧ x.extractLsb' 48 16 = quota := by
  simp only [BitVec.extractLsb'_append_eq_ite]
  simp

theorem infoOf_fields (c : Crew) (gg : Gang) (m : Nat) :
    (infoOf c gg m).extractLsb' 0 4 = BitVec.ofNat 4 (gg.formOf m).code ∧ (infoOf c gg m).extractLsb' 4 4 = 0 ∧
    (infoOf c gg m).extractLsb' 8 8 = BitVec.ofNat 8 (gg.formOf m).rank ∧
    (infoOf c gg m).extractLsb' 16 16 = BitVec.ofNat 16 (gg.formOf m).slabs ∧
    (infoOf c gg m).extractLsb' 32 16 = BitVec.ofNat 16 gg.occ ∧ (infoOf c gg m).extractLsb' 48 16 = BitVec.ofNat 16 c.slabs :=
  fields_of_append _ _ _ _ _

/-! ### mfence.op and mwait (R259, R260) -/

theorem mfencePerf_of_nil (h : gg.xfers = []) :
    mfencePerf s gg lead = .fin (s.modGang lead.crew gg.mask fun x => { x with unfenced := [] }) none :=
  if_pos (List.isEmpty_iff.2 h)

theorem mfencePerf_of_ne_nil (h : gg.xfers ≠ []) : mfencePerf s gg lead = .hold s :=
  if_neg (mt List.isEmpty_iff.1 h)

theorem Gang.streamsIdle_iff (gg : Gang) (ns : List Nat) :
    gg.streamsIdle ns = true ↔ ∀ n ∈ ns, (gg.streams.getD n (.fresh 0)).expb = 0 := by
  simp [Gang.streamsIdle]

theorem mwaitPerf_of_idle (h : ∀ n ∈ waitStreams f, (gg.streams.getD n (.fresh 0)).expb = 0) :
    mwaitPerf f s gg lead = .fin (s.modGang lead.crew gg.mask fun x =>
      { x with hazards := x.hazards.filter fun h => !(waitStreams f).contains h.stream }) none :=
  if_pos ((gg.streamsIdle_iff _).2 h)

theorem mwaitPerf_of_busy (h : ∃ n ∈ waitStreams f, (gg.streams.getD n (.fresh 0)).expb ≠ 0) : mwaitPerf f s gg lead = .hold s := by
  obtain ⟨n, hn, hbusy⟩ := h
  exact if_neg fun hidle => hbusy ((gg.streamsIdle_iff _).1 hidle n hn)

/-! ### Each instruction at its last arrival (R241) -/

section Meets
variable (hs : s.Issues g)
include hs

theorem exec_mzero_of_meets (hm : Meets (.mzero f) f s g s' gg lead) :
    exec (.mzero f) s = .next (s'.perf g.crew g.mode.gmask
      (startXfer s' gg lead (.mzero (Spec.num f.d) f.ty (f.x.getLsbD 0)) (some (Spec.num f.d)) none
        (some (if f.x.getLsbD 0 then .empty else .dense f.ty)))) :=
  (exec_mzero f s).trans (onGang_of_meets hs hm _)

section Dense
variable {base pitch at' : W64} (hbase : memBase lead f.a = base) (hpitch : pitchOf lead f.cs f.ty.bytes = pitch)
  (hat : base + BitVec.ofInt 64 (disp f) = at')
include hbase hpitch hat

/-- mld checks its memory, and joins the load path where the checks pass. -/
theorem exec_mld_of_meets (hm : Meets (.mld f) f s g s' gg lead) :
    exec (.mld f) s = .next (s'.perf g.crew g.mode.gmask
      ((xferCheck s' lead [base, pitch] (denseAccs (f.x.getLsbD 0) false at' pitch f.ty.bytes)).elim
        (startXfer s' gg lead (.mld (Spec.num f.d) f.ty at' pitch (f.x.getLsbD 0)) (some (Spec.num f.d)) none (some (.dense f.ty)))
        .stop)) := by
  subst hat hbase hpitch
  rw [exec_mld, execMld, onGang_of_meets hs hm]
  simp only [XferWork.accs]
  cases xferCheck s' lead _ _ <;> rfl

/-- mst checks its memory, then that its register is empty or dense. -/
theorem exec_mst_of_meets (hm : Meets (.mst f) f s g s' gg lead) :
    exec (.mst f) s = .next (s'.perf g.crew g.mode.gmask
      ((xferCheck s' lead [base, pitch] (denseAccs (f.x.getLsbD 0) true at' pitch f.ty.bytes)).elim
        (if (gg.formOf (Spec.num f.d)).denseLike then
          .fin (issueXfer s' gg lead (.mst (Spec.num f.d) f.ty at' pitch (f.x.getLsbD 0) f.rm) none (some (Spec.num f.d)) none) none
        else .gang)
        .stop)) := by
  subst hat hbase hpitch
  rw [exec_mst, execMst, onGang_of_meets hs hm]
  simp only [XferWork.accs, startXfer_none]
  cases xferCheck s' lead _ _ <;> rfl

end Dense

/-- mmov moves a register that is empty or dense to one that holds no work. -/
theorem exec_mmov_of_meets (hm : Meets (.mmov f) f s g s' gg lead) :
    exec (.mmov f) s = .next (s'.perf g.crew g.mode.gmask
      (if (gg.formOf (Spec.num f.a)).denseLike = false ∨ (gg.formOf (Spec.num f.d)).isWork = true then .gang
       else startXfer s' gg lead (.mmov (Spec.num f.d) (Spec.num f.a) f.ty f.rm) (some (Spec.num f.d)) (some (Spec.num f.a))
        (some (if gg.formOf (Spec.num f.a) = .empty then .empty else .dense f.ty)))) := by
  rw [exec_mmov, execMmov, onGang_of_meets hs hm]
  simp only [Bool.or_eq_true, Bool.not_eq_true']

section Factors
variable {u v : W64} (hu : lead.sAt (Spec.num f.a) = u) (hv : lead.sAt (Spec.num f.b) = v)
include hu hv

/-- mlr.set checks its memory, then its rank against the cap. -/
theorem exec_mlrSet_of_meets {r : Nat} (hr : opnd32 s' lead f.h f.cs = r) (hm : Meets (.mlrSet f) f s g s' gg lead) :
    exec (.mlrSet f) s = .next (s'.perf g.crew g.mode.gmask
      ((xferCheck s' lead [u, v] (factAccs (f.x.getLsbD 0) false u f.ty.bytes r ++ factAccs (f.x.getLsbD 0) false v f.ty.bytes r)).elim
        (if min lead.mode.rankcap.toNat 32 < r then .trap .rankovf (BitVec.ofNat 64 r)
         else startXfer s' gg lead (.set (Spec.num f.d) f.ty u v r (f.x.getLsbD 0)) (some (Spec.num f.d)) none
          (some (.fact (f.ty == .bf16) r)))
        .stop)) := by
  subst hu hv hr
  rw [exec_mlrSet, execMlrSet, onGang_of_meets hs hm]
  simp only [XferWork.accs, countOf]
  cases xferCheck s' lead _ _ <;> rfl

/-- mlr.get of a factored register checks memory for the rank that the register has at issue, and takes that rank. -/
theorem exec_mlrGet_of_meets {k : Nat} (hk : (gg.formOf (Spec.num f.d)).factRank = some k)
    (hm : Meets (.mlrGet f) f s g s' gg lead) :
    exec (.mlrGet f) s = .next (s'.perf g.crew g.mode.gmask
      ((xferCheck s' lead [u, v] (factAccs (f.x.getLsbD 0) true u f.ty.bytes k ++ factAccs (f.x.getLsbD 0) true v f.ty.bytes k)).elim
        (.fin (issueXfer s' gg lead (.get (Spec.num f.d) f.ty u v k (f.x.getLsbD 0)) none (some (Spec.num f.d)) none) none)
        .stop)) := by
  subst hu hv
  rw [exec_mlrGet, execMlrGet, onGang_of_meets hs hm]
  simp only [getAccs, hk, Option.getD_some, startXfer_none]
  cases xferCheck s' lead _ _ <;> rfl

end Factors

theorem exec_mlrInfo_of_meets (hm : Meets (.mlrInfo f) f s g s' gg lead) :
    Performed (.mlrInfo f) s g s' (some (Spec.num f.d, infoOf (s'.crewOf lead) gg (Spec.num f.a))) :=
  (exec_mlrInfo f s).trans (onGang_of_meets hs hm _)

theorem exec_mfenceOp_of_meets (hm : Meets (.mfenceOp f) f s g s' gg lead) :
    exec (.mfenceOp f) s = .next (s'.perf g.crew g.mode.gmask (mfencePerf s' gg lead)) :=
  (exec_mfenceOp f s).trans (onGang_of_meets hs hm _)

theorem exec_mwait_of_meets (hm : Meets (.mwait f) f s g s' gg lead) :
    exec (.mwait f) s = .next (s'.perf g.crew g.mode.gmask (mwaitPerf f s' gg lead)) :=
  (exec_mwait f s).trans (onGang_of_meets hs hm _)

end Meets
end Arrival

/-! ### What joins the load path (R203, R260, R261) -/

theorem Gang.xfers_poisonOp (s : State) (g : Gang) (h : Hazard) : (g.poisonOp s h).xfers = g.xfers := by
  unfold Gang.poisonOp
  split
  · rfl
  · split <;> rfl

theorem Gang.xfers_xferHazard (s : State) (g : Gang) (w r : Option Nat) : (g.xferHazard s w r).1.xfers = g.xfers :=
  List.foldlRecOn (motive := fun g' : Gang => g'.xfers = g.xfers) _ (fun g h => g.poisonOp s h) rfl
    fun g' hg h _ => (g'.xfers_poisonOp s h).trans hg

theorem Gang.xferHazard_none (s : State) {g : Gang} (w r : Option Nat) (h : g.hazards = []) : g.xferHazard s w r = (g, false) := by
  simp [Gang.xferHazard, h]

/-- A transfer is poisoned where it writes or reads a register that an operation without mwait uses. -/
theorem Gang.xferHazard_of_uses (s : State) {g : Gang} {w r : Option Nat} {h : Hazard} {m : Nat} (hh : h ∈ g.hazards)
    (hm : w = some m ∨ r = some m) (huses : h.uses m = true) : (g.xferHazard s w r).2 = true := by
  rcases hm with rfl | rfl
  case inl =>
    have hhit : (g.hazards.filter fun h => (some m).any h.uses) ≠ [] := List.ne_nil_of_mem (List.mem_filter.2 ⟨hh, huses⟩)
    simp only [Gang.xferHazard]
    rw [List.isEmpty_eq_false_iff.2 hhit]
    rfl
  case inr =>
    have hread : (g.hazards.any fun h => (some m).any h.uses) = true := List.any_eq_true.2 ⟨h, hh, huses⟩
    simp only [Gang.xferHazard, hread, Bool.or_true]

/-- R260: a transfer joins the end of the load path, with what a hazard leaves of the gang, and its target takes its form. -/
theorem issueXfer_joins {s : State} {gg : Gang} {lead : Tg} (w : XferWork) (write read : Option Nat) (form : Option MForm)
    (hgang : s.gang lead.crew gg.mask = some gg) :
    ∃ x gg', (issueXfer s gg lead w write read form).gang lead.crew gg.mask = some gg' ∧ x.work = w ∧
      x.poison = (gg.xferHazard s write read).2 ∧ gg'.xfers = (gg.xferHazard s write read).1.xfers ++ [x] ∧
      gg'.val = (gg.xferHazard s write read).1.val ∧ gg'.ops = (gg.xferHazard s write read).1.ops ∧ x.vals = none ∧ x.moved = [] ∧
      (∀ m, read = some m → x.src = gg.formOf m) ∧
      (∀ m fm, write = some m → form = some fm → ∀ n, gg'.formOf n = if n = m then fm else (gg.xferHazard s write read).1.formOf n) ∧
      (write = none → gg'.form = (gg.xferHazard s write read).1.form) := by
  have hput : ∀ g : Gang, (s.modGang lead.crew gg.mask fun _ => g).gang lead.crew gg.mask = some g := fun g =>
    (State.gang_modGang s lead.crew gg.mask fun _ => g).trans (congrArg (Option.map fun _ => g) hgang)
  have hsrc : ∀ m, read = some m → (read.map gg.formOf).getD .empty = gg.formOf m := fun m h => by rw [h]; rfl
  unfold issueXfer
  cases write with
  | none => exact ⟨_, _, hput _, rfl, rfl, rfl, rfl, rfl, rfl, rfl, hsrc, nofun, fun _ => rfl⟩
  | some d =>
    cases form with
    | none => exact ⟨_, _, hput _, rfl, rfl, rfl, rfl, rfl, rfl, rfl, hsrc, fun _ _ _ => nofun, nofun⟩
    | some fm =>
      refine ⟨_, _, hput _, rfl, rfl, rfl, rfl, rfl, rfl, rfl, hsrc, fun d' fm' hd hf n => ?_, nofun⟩
      cases hd
      cases hf
      exact Gang.formOf_setForm _ d n fm

/-! ### The claim -/

/-- Settles O46: at the last arrival each instruction answers by its checks, then by its quota; a transfer that issues joins the end of
the load path, poisoned where it meets a hazard. -/
theorem transfersJoinTheLoadPath : Obligations.TransfersJoinTheLoadPath := by
  unfold Obligations.TransfersJoinTheLoadPath
  refine ⟨?performs, ?joins, ?poisoned⟩
  case performs =>
    intro f s g s' gg lead hs d gl writes bad
    refine ⟨?mzero, ?dense, ?mmov, ?mmovBad, ?factors, ?info, ?fence, ?wait⟩
    case mzero => exact fun hm => quotaDecides_of_startXfer (exec_mzero_of_meets hs hm)
    case dense =>
      intro base pitch at'
      refine ⟨fun hm hok => ?mld, fun hm hok => ?mst, fun a ha hmis hm => ?align⟩
      case mld =>
        have hexec := exec_mld_of_meets hs rfl rfl rfl hm
        rw [hok] at hexec
        exact quotaDecides_of_startXfer hexec
      case mst =>
        have hexec := exec_mst_of_meets hs rfl rfl rfl hm
        rw [hok] at hexec
        exact ⟨fun hd => hexec.trans (by rw [Option.elim_none, if_pos hd]; rfl),
          fun hd => hexec.trans (by rw [Option.elim_none, if_neg (ne_true_of_eq_false hd)]; rfl)⟩
      case align =>
        obtain ⟨b, hb, hbmis, hstop⟩ := xferCheck_of_misaligned s' lead (denseAccs gl false at' pitch f.ty.bytes) ha hmis
        have hexec := exec_mld_of_meets hs rfl rfl rfl hm
        rw [hstop] at hexec
        exact ⟨b, hb, hbmis, hexec⟩
    case mmov =>
      intro hm ha hd
      have hexec := exec_mmov_of_meets hs hm
      rw [if_neg (not_or.2 ⟨ne_false_of_eq_true ha, ne_true_of_eq_false hd⟩)] at hexec
      exact quotaDecides_of_startXfer hexec
    case mmovBad =>
      intro hm hbad
      have hexec := exec_mmov_of_meets hs hm
      rw [if_pos hbad] at hexec
      exact hexec
    case factors =>
      intro u v r
      refine ⟨fun hm hok => ?set, fun hm k hk hok => ?get⟩
      case set =>
        have hexec := exec_mlrSet_of_meets hs rfl rfl rfl hm
        rw [hok] at hexec
        exact ⟨fun hr => quotaDecides_of_startXfer (hexec.trans (by rw [Option.elim_none, if_neg (Nat.not_lt.2 hr)])),
          fun hr => hexec.trans (by rw [Option.elim_none, if_pos hr]; rfl)⟩
      case get =>
        have hexec := exec_mlrGet_of_meets hs rfl rfl hk hm
        rw [hok] at hexec
        exact hexec
    case info =>
      exact fun hm => ⟨_, exec_mlrInfo_of_meets hs hm, infoOf_fields _ _ _⟩
    case fence =>
      intro hm
      have hexec := exec_mfenceOp_of_meets hs hm
      exact ⟨fun hx => hexec.trans (by rw [mfencePerf_of_nil hx]; rfl), fun hx => hexec.trans (by rw [mfencePerf_of_ne_nil hx]; rfl)⟩
    case wait =>
      intro hm ns
      have hexec := exec_mwait_of_meets hs hm
      exact ⟨fun hidle => hexec.trans (by rw [mwaitPerf_of_idle hidle]; rfl),
        fun hbusy => hexec.trans (by rw [mwaitPerf_of_busy hbusy]; rfl)⟩
  case joins =>
    intro s gg lead w write read form hgang hnone
    have hjoins := issueXfer_joins w write read form hgang
    rwa [Gang.xferHazard_none s write read hnone] at hjoins
  case poisoned =>
    intro s gg lead w write read form hgang ⟨h, hh, m, hm, huses⟩
    obtain ⟨x, gg', hgang', hwork, hpoison, hxfers, -⟩ := issueXfer_joins w write read form hgang
    rw [Gang.xfers_xferHazard] at hxfers
    rw [Gang.xferHazard_of_uses s hh hm huses] at hpoison
    exact ⟨x, gg', hgang', hxfers, hwork, hpoison⟩

end Sys2Proof.Machine
end

section
/-! PROOFS. Copies (R219 to R235): how an operation reaches the engine, what each copy instruction performs once its checks pass, and what
the elements of a tile are read from and converted to. -/

namespace Sys2Proof.Machine

/-! ### The instructions, and their guard (R219) -/

theorem exec_cpy (f : RArgs) (s : State) : exec (.cpy f) s = execCpy f s := rfl
theorem exec_cpyDesc (f : RArgs) (s : State) : exec (.cpyDesc f) s = execCpyDesc f s := rfl
theorem exec_cpyFill (f : RArgs) (s : State) : exec (.cpyFill f) s = execCpyFill f s := rfl
theorem exec_cpyTopk (f : RArgs) (s : State) : exec (.cpyTopk f) s = sparseOp (.cpyTopk f) f s false := rfl
theorem exec_cpyExpand (f : RArgs) (s : State) : exec (.cpyExpand f) s = sparseOp (.cpyExpand f) f s true := rfl
theorem exec_cpySub (f : RArgs) (s : State) : exec (.cpySub f) s = execCpySub f s := rfl
theorem exec_cpyUnsub (f : RArgs) (s : State) : exec (.cpyUnsub f) s = execCpyUnsub f s := rfl
theorem exec_cpyCancel (f : RArgs) (s : State) : exec (.cpyCancel f) s = execCpyCancel f s := rfl

theorem onCopy_of_false {f : RArgs} {s : State} {g : Tg} (hs : s.Issues g) (hg : g.once f.h = none) (k : Tg → Nat → Out) :
    onCopy f s k = skip s g (RArgs.words f) := by
  unfold onCopy
  rw [onTg_of s g _ hs.1, hg]

theorem onCopy_of_true {f : RArgs} {s : State} {g : Tg} {t : Nat} (hs : s.Issues g) (hg : g.once f.h = some t) (k : Tg → Nat → Out) :
    onCopy f s k = k g t := by
  unfold onCopy
  rw [onTg_of s g _ hs.1, hg]

/-- Each copy instruction acts once, under its guard. -/
theorem becomes_of_false_guard {f : RArgs} {s : State} {g : Tg} (hs : s.Issues g) (hg : g.once f.h = none) :
    ∀ i ∈ [Instr.cpy f, .cpyDesc f, .cpyFill f, .cpyTopk f, .cpyExpand f, .cpySub f, .cpyUnsub f, .cpyCancel f],
      Becomes i s (g.advance (RArgs.words f)) := by
  simp only [List.forall_mem_cons, List.not_mem_nil, false_imp_iff, implies_true, and_true]
  have hskip := onCopy_of_false hs hg
  exact ⟨hskip _, hskip _, hskip _, hskip _, hskip _, hskip _, hskip _, hskip _⟩

/-! ### What the engine takes (R219) -/

/-- The ring that an operation subscribes, if it is a subscription (R233). -/
def CopyWork.subRing : CopyWork → Option Nat
  | .sub ring .. => some ring
  | _ => none

theorem State.SameButTlb.usedObj (s : State) (core ctx : Nat) (va : Option W64) : s.SameButTlb (s.usedObj core ctx va) := by
  cases va with
  | none => exact .refl s
  | some a => exact .touch s core ctx a.toNat true

theorem State.SameButTlb.copies {s s' : State} (h : s.SameButTlb s') : s'.copies = s.copies := by rw [h]

theorem claimSlots_cur (s : State) (g : Tg) (ring : Nat) (prod : Bool) (q : Nat) : (claimSlots s g ring prod q).1.cur = s.cur := by
  unfold claimSlots
  split <;> rfl

section HandOver
variable (s : State) (g : Tg) (f : RArgs) (o : ObjRef) {w : CopyWork}

theorem handOver_of_subRing_none (sr : Bool) (hw : w.subRing = none) :
    handOver s g f o sr w = done (issued s g f o w)
      ((if sr then ((issued s g f o w).curTg g).bumpSr 4 else (issued s g f o w).curTg g).advance (RArgs.words f)) := by
  cases w with
  | tile | fill | topk | expand => rfl
  | sub => cases hw

/-- A subscription of `n` bytes holds its ring too. -/
theorem handOver_of_subRing_some {ring n : Nat} (hw : w.subRing = some ring) (hn : w.declared = n) :
    let s' := (issued s g f o w).updRing g.crew ring fun r =>
      { r with sub := some (SMap.fresh ((s.releaseAs s.cur 1).barUpdate o false fun x => x.expect n).copies) }
    handOver s g f o false w = done s' ((s'.curTg g).advance (RArgs.words f)) := by
  subst hn
  rw [← (State.SameButTlb.usedObj _ g.core g.ctx (copyObjVa g f)).copies]
  cases w with
  | tile | fill | topk | expand => cases hw
  | sub => cases hw; rfl

end HandOver

/-! ### Instructions whose checks pass -/

section Checked
variable {f : RArgs} {s : State} {g : Tg} {t : Nat} {o : ObjRef}

/-- A tile of which `TileReady` holds reaches the engine, after its claims (R219, R247). -/
theorem issueTile_of_ready {x : CopyTile} {qs qd : Nat} (h : TileReady s g f t x o qs qd) :
    let c1 := if x.srcSp = 2 then claimSlots s g x.src.toNat false qs else (s, 0)
    let c2 := if x.dstSp = 2 then claimSlots c1.1 g x.dst.toNat true qd else (c1.1, 0)
    issueTile s g f t x =
      handOver c2.1 g f o (x.rm == 4) (.tile { x with srcClaim := c1.2, dstClaim := c2.2, srcSlots := qs, dstSlots := qd }) := by
  obtain ⟨hobj, hsrc, hdst, hscales, haccs⟩ := h
  unfold issueTile
  simp only [hobj, hsrc, hdst, hscales, haccs, Bool.not_true, Bool.false_eq_true, if_false]

/-- What an instruction performs that issues a tile, from the state `s0` in which its descriptor's page is used. -/
theorem tileIssued_of_ready {i : Instr} {s0 : State} {x : CopyTile} {qs qd : Nat} (h : TileReady s0 g f t x o qs qd)
    (hi : exec i s = issueTile s0 g f t x) : TileIssued i s s0 g f x o qs qd := by
  unfold TileIssued Completes
  rw [hi, issueTile_of_ready h, handOver_of_subRing_none _ _ _ _ _ rfl]
  simp only [beq_iff_eq]
  rfl

/-- R230: a sparse descriptor is of cpy.topk or of cpy.expand. -/
theorem subRing_of_parseSparse {ty : Ty} {expand : Bool} {bs : List Byte} {w : CopyWork} (h : parseSparse ty expand bs = some w) :
    w.subRing = none := by
  unfold parseSparse at h
  cases expand with
  | false =>
    simp only [Bool.false_eq_true, if_false, Option.ite_none_left_eq_some, Option.ite_none_right_eq_some] at h
    obtain ⟨-, -, h⟩ := h
    cases h
    rfl
  | true =>
    simp only [if_true, Option.ite_none_left_eq_some, Option.ite_none_right_eq_some] at h
    obtain ⟨-, -, h⟩ := h
    cases h
    rfl

variable (hs : s.Issues g) (hg : g.once f.h = some t)
include hs hg

theorem exec_cpy_of_operands {src dst : W64} (hsrc : copyOperand g f.a (f.x.toNat / 4) = some src)
    (hdst : copyOperand g f.d (f.x.toNat % 4) = some dst) (hn : opnd32 s g f.h f.b * f.ty.bytes ≤ 2 ^ 31) :
    exec (.cpy f) s = issueTile s g f t (oneD src dst (f.x.toNat / 4) (f.x.toNat % 4) (opnd32 s g f.h f.b) f.ty) := by
  rw [exec_cpy, execCpy, onCopy_of_true hs hg]
  simp only [hsrc, hdst, if_neg (Nat.not_lt.2 hn)]

theorem exec_cpyDesc_of_parsed {bs : List Byte} {x : CopyTile} (hbs : readDesc s g f 64 t = .ok bs)
    (hx : parseTile bs g.mode.srseq (seedOf s g) = some x) :
    exec (.cpyDesc f) s = issueTile (touchDesc s g f) g f t x := by
  rw [exec_cpyDesc, execCpyDesc, onCopy_of_true hs hg]
  simp only [hbs, hx]

/-- R230 to R232. -/
theorem sparseOp_of_checked (i : Instr) {expand : Bool} {bs : List Byte} {w : CopyWork} (hbs : readDesc s g f 32 t = .ok bs)
    (hw : parseSparse f.ty expand bs = some w) (ho : copyObj s g f t = .ok o)
    (haccs : checkAccs s g (w.accs (chosenNow s g w)) t = none) :
    sparseOp i f s expand = done (issued (touchDesc s g f) g f o w)
      (((issued (touchDesc s g f) g f o w).curTg g).advance (RArgs.words f)) := by
  rw [sparseOp, onCopy_of_true hs hg]
  simp only [hbs, hw, ho, haccs]
  exact handOver_of_subRing_none _ _ _ _ false (subRing_of_parseSparse hw)

/-- R229. -/
theorem exec_cpyFill_of_checked {dst : W64} {q : Nat} (hdst : copyOperand g f.d (f.x.toNat % 4) = some dst)
    (hn : opnd32 s g f.h f.b * f.ty.bytes ≤ 2 ^ 31) (ho : copyObj s g f t = .ok o)
    (hstage : checkStage s g (f.x.toNat % 4) dst f.ty (opnd32 s g f.h f.b * f.ty.bytes) true t = .ok q) :
    let work (c : Nat) : CopyWork := .fill dst (f.x.toNat % 4) (opnd32 s g f.h f.b) f.ty.bytes
      (BitVec.ofNat 64 (opnd s g f.h (nTy f.ty.width) f.ty.width f.a t)) c q
    checkAccs s g (work 0).accs0 t = none →
      let c := if f.x.toNat % 4 = 2 then claimSlots s g dst.toNat true q else (s, 0)
      let s' := issued c.1 g f o (work c.2)
      exec (.cpyFill f) s = done s' ((s'.curTg g).advance (RArgs.words f)) := by
  intro work haccs c s'
  rw [exec_cpyFill, execCpyFill, onCopy_of_true hs hg]
  simp only [hdst, if_neg (Nat.not_lt.2 hn), ho, hstage]
  rw [haccs]
  exact handOver_of_subRing_none c.1 g f o false (w := work c.2) rfl

/-- R233: a subscription claims all its slots at issue, as a producer in a push and as a consumer in a pull. -/
theorem exec_cpySub_of_checked {bs : List Byte} {n : Nat} {r : Ring} (hbs : readDesc s g f 32 t = .ok bs) (hn : ringNum g f.d = some n)
    (hnrsv : n < (s.crewOf g).nrsv) (hr : s.ring g.crew n = some r) (hfree : r.freeing = false) (hsub : r.sub = none)
    (ho : copyObj s g f t = .ok o) :
    let word (i n : Nat) : Nat := leNat ((bs.drop i).take n)
    word 20 12 = 0 → word 16 4 ≠ 0 → word 8 8 % 256 = 0 → word 0 8 % 256 = 0 → word 16 4 * r.slotSize ≤ 2 ^ 31 →
      let c := claimSlots (touchDesc s g f) g n (!f.x.getLsbD 0) (word 16 4)
      exec (.cpySub f) s = handOver c.1 g f o false
        (.sub n (f.x.getLsbD 0) (BitVec.ofNat 64 (word 0 8)) (BitVec.ofNat 64 (word 8 8)) (word 16 4) 0 r.slotSize c.2) := by
  intro word hzero hnt hstep hbase hbytes c
  have hlegal : word 20 12 = 0 ∧ word 16 4 ≠ 0 ∧ word 8 8 % 256 = 0 ∧ word 0 8 % 256 = 0 ∧ word 16 4 * r.slotSize ≤ 2 ^ 31 :=
    ⟨hzero, hnt, hstep, hbase, hbytes⟩
  rw [exec_cpySub, execCpySub, onCopy_of_true hs hg]
  simp only [hbs, hn, hr, ho, Option.map_some, Option.getD_some, Option.any_some, hfree, hsub]
  rw [if_neg (by simpa [word, and_assoc] using hlegal), if_neg (by simpa using hnrsv)]

/-- R234. -/
theorem exec_cpyUnsub_of_reserved {n : Nat} (hn : ringNum g f.d = some n) (hnrsv : n < (s.crewOf g).nrsv) :
    exec (.cpyUnsub f) s = done (s.unsub g.crew n) (((s.unsub g.crew n).curTg g).advance (RArgs.words f)) := by
  rw [exec_cpyUnsub, execCpyUnsub, onCopy_of_true hs hg]
  simp only [hn, if_neg (Nat.not_le.2 hnrsv)]

/-- R235. -/
theorem exec_cpyCancel_of_object (ho : copyObj s g f t = .ok o) :
    let s' := (s.copies.filter fun p => p.2.ctx == g.ctx && p.2.obj == o).foldl (fun s p => s.endCopy p.1) s
    exec (.cpyCancel f) s = done s' ((s'.curTg g).advance (RArgs.words f)) := by
  rw [exec_cpyCancel, execCpyCancel, onCopy_of_true hs hg]
  simp only [ho]

end Checked

/-! ### The claim about issue -/

/-- Settles O41: where its checks pass, each copy instruction hands its operation to the engine after its claims, and completes. -/
theorem copiesAreHandedToTheEngine : Obligations.CopiesAreHandedToTheEngine := by
  intro f s g hs nt
  refine ⟨becomes_of_false_guard hs, fun t o hg => ⟨?copy, ?desc, ?fill, ?sparse, ?sub, ?unsub, exec_cpyCancel_of_object hs hg⟩⟩
  case copy => exact fun src dst qs qd hsrc hdst hn hready => tileIssued_of_ready hready (exec_cpy_of_operands hs hg hsrc hdst hn)
  case desc => exact fun bs x qs qd hbs hx hready => tileIssued_of_ready hready (exec_cpyDesc_of_parsed hs hg hbs hx)
  case fill =>
    intro dst q sp n bytes work hdst hn ho hstage haccs
    exact exec_cpyFill_of_checked hs hg hdst hn ho hstage haccs
  case sparse =>
    intro bs w hbs ho haccs s'
    exact ⟨fun hw => sparseOp_of_checked hs hg (.cpyTopk f) hbs hw ho haccs,
      fun hw => sparseOp_of_checked hs hg (.cpyExpand f) hbs hw ho haccs⟩
  case sub =>
    intro bs n r hbs hn hnrsv hr hfree hsub ho word bytes hzero hnt hstep hbase hbytes _ c
    have hcur : c.1.cur = s.cur := (claimSlots_cur _ _ _ _ _).trans (State.SameButTlb.touch _ _ _ _ _).cur
    have hengine := handOver_of_subRing_some c.1 g f o (ring := n) (w := .sub n (f.x.getLsbD 0) (BitVec.ofNat 64 (word 0 8))
      (BitVec.ofNat 64 (word 8 8)) (word 16 4) 0 r.slotSize c.2) rfl rfl
    rw [hcur] at hengine
    exact (exec_cpySub_of_checked hs hg hbs hn hnrsv hr hfree hsub ho hzero hnt hstep hbase hbytes).trans hengine
  case unsub => exact fun n hn hnrsv => exec_cpyUnsub_of_reserved hs hg hn hnrsv

/-! ### The place of an element (R224) -/

/-- An index along the two inner dimensions, taken apart again. -/
theorem index_parts {d0 d1 j0 j1 : Nat} (j2 : Nat) (h0 : j0 < d0) (h1 : j1 < d1) :
    (j0 + d0 * j1 + d0 * d1 * j2) % d0 = j0 ∧ (j0 + d0 * j1 + d0 * d1 * j2) / d0 % d1 = j1 ∧
      (j0 + d0 * j1 + d0 * d1 * j2) / (d0 * d1) = j2 := by
  have hd0 : 0 < d0 := Nat.zero_lt_of_lt h0
  have hlin : j0 + d0 * j1 + d0 * d1 * j2 = j0 + d0 * (j1 + d1 * j2) := by
    rw [Nat.mul_add, Nat.mul_assoc, Nat.add_assoc]
  have hdiv : (j0 + d0 * j1 + d0 * d1 * j2) / d0 = j1 + d1 * j2 := by
    rw [hlin, Nat.add_mul_div_left _ _ hd0, Nat.div_eq_of_lt h0, Nat.zero_add]
  refine ⟨by rw [hlin, Nat.add_mul_mod_self_left, Nat.mod_eq_of_lt h0],
    by rw [hdiv, Nat.add_mul_mod_self_left, Nat.mod_eq_of_lt h1], ?_⟩
  rw [← Nat.div_div_eq_div_mul, hdiv, Nat.add_mul_div_left _ _ (Nat.zero_lt_of_lt h1), Nat.div_eq_of_lt h1, Nat.zero_add]

section Tile
variable {t : CopyTile}

theorem CopyTile.dims_of_straight (ht : t.trans = false) : t.d0 = t.t0 ∧ t.d1 = t.t1 := by
  simp [CopyTile.d0, CopyTile.d1, ht]

theorem CopyTile.dims_of_transposed (ht : t.trans = true) : t.d0 = t.t1 ∧ t.d1 = t.t0 := by
  simp [CopyTile.d0, CopyTile.d1, ht]

theorem CopyTile.srcIdx_of_straight (ht : t.trans = false) {j0 j1 : Nat} (j2 : Nat) (h0 : j0 < t.t0) (h1 : j1 < t.t1) :
    t.srcIdx (j0 + t.t0 * j1 + t.t0 * t.t1 * j2) = (j0, j1, j2) := by
  obtain ⟨hd0, hd1⟩ := CopyTile.dims_of_straight ht
  obtain ⟨e0, e1, e2⟩ := index_parts j2 h0 h1
  simp only [CopyTile.srcIdx, ht, hd0, hd1, e0, e1, e2, Bool.false_eq_true, if_false]

theorem CopyTile.srcIdx_of_transposed (ht : t.trans = true) {j0 j1 : Nat} (j2 : Nat) (h0 : j0 < t.t1) (h1 : j1 < t.t0) :
    t.srcIdx (j0 + t.t1 * j1 + t.t0 * t.t1 * j2) = (j1, j0, j2) := by
  obtain ⟨hd0, hd1⟩ := CopyTile.dims_of_transposed ht
  obtain ⟨e0, e1, e2⟩ := index_parts j2 h0 h1
  rw [Nat.mul_comm t.t0 t.t1]
  simp only [CopyTile.srcIdx, ht, hd0, hd1, e0, e1, e2, if_true]

theorem CopyTile.inside_of_srcIdx {lin i0 i1 i2 : Nat} (h : t.srcIdx lin = (i0, i1, i2)) :
    t.inside lin = (decide (i0 < t.e0) && decide (i1 < t.e1) && decide (i2 < t.e2)) := by
  simp only [CopyTile.inside, h]

theorem CopyTile.srcAddr_of_srcIdx {lin i0 i1 i2 : Nat} (h : t.srcIdx lin = (i0, i1, i2)) (hsp : t.srcSp = 1) :
    t.srcAddr lin = wrapInt (t.src.toNat + ((i0 * t.srct.bytes : Nat) : Int) + (i1 : Int) * t.ss1 + (i2 : Int) * t.ss2) 64 := by
  simp only [CopyTile.srcAddr, h, hsp, spaceWrap, if_true]

theorem CopyTile.dstAddr_of_straight (ht : t.trans = false) {j0 j1 : Nat} (j2 : Nat) (h0 : j0 < t.t0) (h1 : j1 < t.t1)
    (hsp : t.dstSp = 1) :
    t.dstAddr (j0 + t.t0 * j1 + t.t0 * t.t1 * j2) =
      wrapInt (t.dst.toNat + ((j0 * t.dstt.bytes : Nat) : Int) + (j1 : Int) * t.ds1 + (j2 : Int) * t.ds2) 64 := by
  obtain ⟨hd0, hd1⟩ := CopyTile.dims_of_straight ht
  obtain ⟨e0, e1, e2⟩ := index_parts j2 h0 h1
  simp only [CopyTile.dstAddr, hd0, hd1, e0, e1, e2, hsp, spaceWrap, if_true]

/-! ### The value of an element (R224, R225) -/

theorem CopyTile.value_eq (t : CopyTile) (lin x : Nat) : t.value lin x =
    if t.inside lin = false then .zero false else if t.srct.isInt then Exact.ofInt (intVal t.srct x) else decodeTy t.srct x := by
  simp only [CopyTile.value, Bool.not_eq_true']

theorem CopyTile.convert_of_same_type (ht : t.srct = t.dstt) (lin x c : Nat) : t.convert lin x c = if t.inside lin then x else 0 := by
  simp only [CopyTile.convert, ht, beq_self_eq_true, if_true]

/-- The rounding of element `lin`: in the mode of RM, under sr by the random bits of its own index (R39). -/
def CopyTile.rounded (t : CopyTile) (lin : Nat) (v : Exact) : Nat :=
  (Ty.fmt t.dstt).round v (Rnd.ofCode t.rm (if t.rm = 4 then srbits t.seed t.seq lin else 0)) (effSat t.dstt t.sat)

variable (ht : t.srct ≠ t.dstt) (lin x c : Nat)
include ht

theorem CopyTile.convert_of_unscaled (hm : t.smode = 0) : t.convert lin x c = t.rounded lin (t.value lin x) := by
  simp only [CopyTile.convert, beq_eq_false_iff_ne.2 ht, hm, Bool.false_eq_true, if_false, if_true, CopyTile.rounded]

/-- A code divides what goes into an 8-bit float. -/
theorem CopyTile.convert_of_narrowed (hm : t.smode ≠ 0) (hd : t.dstt = .e4m3 ∨ t.dstt = .e5m2) :
    t.convert lin x c = if c = 255 then (Ty.fmt t.dstt).nan else t.rounded lin ((t.value lin x).scale (127 - (c : Int))) := by
  have hd' : (t.dstt == .e4m3 || t.dstt == .e5m2) = true := by simpa using hd
  simp only [CopyTile.convert, beq_eq_false_iff_ne.2 ht, if_neg hm, hd', Bool.false_eq_true, if_false, if_true]
  rfl

/-- A code multiplies what comes out of an 8-bit float. -/
theorem CopyTile.convert_of_widened (hm : t.smode ≠ 0) (h4 : t.dstt ≠ .e4m3) (h5 : t.dstt ≠ .e5m2) :
    t.convert lin x c = if c = 255 then (Ty.fmt t.dstt).nan else t.rounded lin ((t.value lin x).scale ((c : Int) - 127)) := by
  simp only [CopyTile.convert, beq_eq_false_iff_ne.2 ht, beq_eq_false_iff_ne.2 h4, beq_eq_false_iff_ne.2 h5, Bool.or_self, if_neg hm,
    Bool.false_eq_true, if_false, CopyTile.rounded]

end Tile

/-- R225: under each scale mode, where a unit's code comes from. -/
theorem CopyTile.code_of_smode (t : CopyTile) (els xs : List Nat) (have' : SMap Byte) :
    (t.smode = 1 → t.code els xs have' = t.scl.toNat % 256) ∧
    (t.smode = 2 → t.code els xs have' = mxScale ((els.zip xs).map fun p => t.value p.1 p.2) t.dstt) ∧
    (t.smode = 3 → t.code els xs have' = (SMap.get 0 have' (t.unitLen * t.srct.bytes)).toNat) := by
  unfold CopyTile.code
  exact ⟨fun h => by simp only [h], fun h => by simp only [h], fun h => by simp only [h]⟩

/-! ### The claim about elements -/

/-- Settles O42: a tile's element is found by its indexes and strides, and is rounded once from its scaled value. -/
theorem tileElementsConvert : Obligations.TileElementsConvert := by
  refine ⟨CopyTile.value_eq, fun t lin x c ht => CopyTile.convert_of_same_type ht lin x c, ?converts, CopyTile.code_of_smode, ?straight,
    fun t j0 j1 j2 ht h0 h1 _ => CopyTile.srcIdx_of_transposed ht j2 h0 h1⟩
  case converts =>
    exact fun t lin x c ht => ⟨CopyTile.convert_of_unscaled ht lin x c, CopyTile.convert_of_narrowed ht lin x c,
      CopyTile.convert_of_widened ht lin x c⟩
  case straight =>
    intro t j0 j1 j2 ht h0 h1 _ lin
    have hidx : t.srcIdx lin = (j0, j1, j2) := CopyTile.srcIdx_of_straight ht j2 h0 h1
    exact ⟨hidx, CopyTile.inside_of_srcIdx hidx, CopyTile.srcAddr_of_srcIdx hidx, CopyTile.dstAddr_of_straight ht j2 h0 h1⟩

end Sys2Proof.Machine
end
